-- ==== Sys2Proof/Word.lean ====
section
/-! DEFINITION. The word types of the Upacket framing block (spec/30_encoding.md R93). -/

namespace Sys2Proof

/-- A byte: the field types B, F, S and O (30_encoding.md R93), and one byte of packet memory (20_memory.md R66). -/
abbrev Byte := BitVec 8

/-- A 16-bit value: the field types I and N (30_encoding.md R93). -/
abbrev Half := BitVec 16

/-- A 32-bit value: the field type W (30_encoding.md R93). -/
abbrev Word := BitVec 32

/-- A packet handle, the field type H (30_encoding.md R93). The value 0 names no packet (10_state.md R43). -/
abbrev Handle := BitVec 32

end Sys2Proof
end

