-- ==== Sys2Proof/Syntax.lean ====
section
/-! DEFINITION. The instructions of the block (one constructor per row of spec/opcode_table.json), what an agent can
present to the block, and the decoder's position, on which the reading of a received byte depends. -/

namespace Sys2Proof

/-- The decoder's position `DEC_STATE` (10_state.md R33). -/
inductive DecState
  /-- The decoder consumes bytes into the current packet. -/
  | data
  /-- The last byte consumed was a control byte; the next one disambiguates. -/
  | controlSeen
deriving DecidableEq, Repr

/-- What one agent presents to the block (00_scope.md R3, R4). -/
inductive Input
  /-- A command as the bytes of 30_encoding.md R90: the opcode, then its operand fields. -/
  | command (bytes : List Byte)
  /-- A received byte, as the RX source has it: the `DEC_RX` of that byte (00_scope.md R4), read as the wire unit it is
  (44_frame_decoder.md R232). -/
  | wire (b : Byte)
  /-- The reset event, which has no opcode (70_reset_and_hazards.md R300). -/
  | reset
deriving DecidableEq, Repr

/-- The commands of 30_encoding.md R91, in its order and with its operand names, and the wire units that the table
lists after them (44_frame_decoder.md R232). A flag or status operand is kept as the byte that carries it: the check of
30_encoding.md R94 is the command's own. -/
inductive Instr
  | crcReset
  | crcSink (b : Byte)
  | crcGet
  | c78EncU (h : Handle) (v : Word) (inc lim : Half)
  | c78DecU (h : Handle) (cur : Half)
  | c78EncS (h : Handle) (v : Word) (inc lim : Half)
  | c78DecS (h : Handle) (cur : Half)
  | pbAlloc (cap : Half)
  | pbSetCapacity (h : Handle) (cap : Half)
  | pbAppend (h : Handle) (b : Byte) (inc lim : Half)
  | pbReference (h : Handle)
  | pbDereference (h : Handle)
  | pbSetStatus (h : Handle) (st : Byte)
  | pbGetStatus (h : Handle)
  | pbGetLength (h : Handle)
  | pbGetCapacity (h : Handle)
  | pbGetRefcount (h : Handle)
  | pbRead (h : Handle) (idx : Half)
  | pbWrite (h : Handle) (idx : Half) (b : Byte)
  | mapGetCk (h : Handle) (hp : Half)
  | mapSetCk (h : Handle) (hp : Half) (f : Byte)
  | mapGetNp (h : Handle) (hp : Half)
  | mapSetNp (h : Handle) (hp : Half) (f : Byte)
  | mapGetDa (h : Handle) (hp : Half)
  | mapSetDa (h : Handle) (hp : Half) (f : Byte)
  | mapGetSa (h : Handle) (hp : Half)
  | mapSetSa (h : Handle) (hp : Half) (f : Byte)
  | mapGetAtype (h : Handle) (hp : Half)
  | mapSetAtype (h : Handle) (hp : Half) (t : Byte)
  | mapNextprotoPos (h : Handle) (hp : Half)
  | mapDestPos (h : Handle) (hp : Half)
  | mapSrcPos (h : Handle) (hp : Half)
  | mapContentsPos (h : Handle) (hp : Half)
  | mapNextHeader (h : Handle) (hp : Half)
  | mapHeader (h : Handle) (off : Byte)
  | mapData (h : Handle) (off : Byte)
  | mapValidate (h : Handle) (off req rem : Byte)
  | mapAppendChecksum (h : Handle) (off : Byte)
  | decRx (b : Byte)
  | encSubmit (h : Handle) (off : Byte)
  | encProcess
  | cfgSetPrefix (cp : Byte)
  | cfgGetPrefix
  | sysGetFault
  /-- A byte other than CP read in state Data (44_frame_decoder.md R234). -/
  | wireData (b : Byte)
  /-- CP read in state Data (44_frame_decoder.md R235). -/
  | wireCtrl
  /-- CP read in state ControlSeen, opcode 0 (44_frame_decoder.md R236). -/
  | wireIdle
  /-- CP + 1 read in state ControlSeen (44_frame_decoder.md R238). -/
  | wireEsc
  /-- CP + 2 read in state ControlSeen (44_frame_decoder.md R239). -/
  | wireEnd
  /-- CP + 3 read in state ControlSeen (44_frame_decoder.md R240). -/
  | wireAbort
  /-- A byte that is no opcode byte read in state ControlSeen (44_frame_decoder.md R237). -/
  | wireLiteral (b : Byte)
deriving DecidableEq, Repr

end Sys2Proof
end

