-- ==== Sys2Proof/WellFormed.lean ====
section
/-! DEFINITION. Which instructions carry only legal operand values (spec/30_encoding.md R94), and which wire unit a
received byte can be (spec/44_frame_decoder.md R232). -/

namespace Sys2Proof

/-- An `F` field holds 0 or 1 (30_encoding.md R93, R94). -/
def legalFlag (f : Byte) : Bool := f ≤ 1#8

/-- An `S` field holds a status code 0 to 3 (30_encoding.md R93, R94, R96). -/
def legalStatus (st : Byte) : Bool := st ≤ 3#8

/-- Every operand holds a legal value of its type. Only `F` and `S` fields have an illegal value
(30_encoding.md R94; 60_exceptions.md R283). -/
def Instr.wellFormed : Instr → Bool
  | .pbSetStatus _ st => legalStatus st
  | .mapSetCk _ _ f => legalFlag f
  | .mapSetNp _ _ f => legalFlag f
  | .mapSetDa _ _ f => legalFlag f
  | .mapSetSa _ _ f => legalFlag f
  | .mapValidate _ _ req rem => legalFlag req && legalFlag rem
  | .crcReset => true
  | .crcSink _ => true
  | .crcGet => true
  | .c78EncU _ _ _ _ => true
  | .c78DecU _ _ => true
  | .c78EncS _ _ _ _ => true
  | .c78DecS _ _ => true
  | .pbAlloc _ => true
  | .pbSetCapacity _ _ => true
  | .pbAppend _ _ _ _ => true
  | .pbReference _ => true
  | .pbDereference _ => true
  | .pbGetStatus _ => true
  | .pbGetLength _ => true
  | .pbGetCapacity _ => true
  | .pbGetRefcount _ => true
  | .pbRead _ _ => true
  | .pbWrite _ _ _ => true
  | .mapGetCk _ _ => true
  | .mapGetNp _ _ => true
  | .mapGetDa _ _ => true
  | .mapGetSa _ _ => true
  | .mapGetAtype _ _ => true
  | .mapSetAtype _ _ _ => true
  | .mapNextprotoPos _ _ => true
  | .mapDestPos _ _ => true
  | .mapSrcPos _ _ => true
  | .mapContentsPos _ _ => true
  | .mapNextHeader _ _ => true
  | .mapHeader _ _ => true
  | .mapData _ _ => true
  | .mapAppendChecksum _ _ => true
  | .decRx _ => true
  | .encSubmit _ _ => true
  | .encProcess => true
  | .cfgSetPrefix _ => true
  | .cfgGetPrefix => true
  | .sysGetFault => true
  | .wireData _ => true
  | .wireCtrl => true
  | .wireIdle => true
  | .wireEsc => true
  | .wireEnd => true
  | .wireAbort => true
  | .wireLiteral _ => true

/-- The instruction is a command of 30_encoding.md R91, not a wire unit. -/
def Instr.isCommand : Instr → Bool
  | .wireData _ => false
  | .wireCtrl => false
  | .wireIdle => false
  | .wireEsc => false
  | .wireEnd => false
  | .wireAbort => false
  | .wireLiteral _ => false
  | _ => true

/-- A control byte is legal when its two low bits are clear (10_state.md R31). -/
def legalControl (cp : Byte) : Bool := cp &&& 3#8 = 0#8

/-- The condition under which a received byte is this wire unit (44_frame_decoder.md R232), given the decoder's position
and the control byte; every command fits anywhere. -/
def Instr.fitsWire (d : DecState) (cp : Byte) : Instr → Bool
  | .wireData b => d = .data && b ≠ cp
  | .wireCtrl => d = .data
  | .wireIdle => d = .controlSeen
  | .wireEsc => d = .controlSeen
  | .wireEnd => d = .controlSeen
  | .wireAbort => d = .controlSeen
  | .wireLiteral b => d = .controlSeen && b &&& 0xFC#8 ≠ cp
  | _ => true

end Sys2Proof
end

