-- ==== Sys2Proof/Decode.lean ====
section
/-! DEFINITION. Decoding what an agent presents into an instruction, total and rejecting by name, and the encoder
(spec/30_encoding.md R90 to R93, R98, R99; spec/44_frame_decoder.md R232). -/

namespace Sys2Proof

/-- Why an input is no instruction. -/
inductive DecodeError
  /-- The opcode is not in 30_encoding.md R91: the block raises `F_BAD_OPCODE` (R92). -/
  | undefinedOpcode (op : Byte)
  /-- The opcode is defined, and the bytes after it are not exactly its operand fields (30_encoding.md R90, R109). -/
  | wrongLength (op : Byte)
  /-- No opcode at all. -/
  | noOpcode
  /-- The reset event, which is no command (70_reset_and_hazards.md R300). -/
  | resetEvent
deriving DecidableEq, Repr

/-! ### Fields: least significant byte first (30_encoding.md R90) -/

/-- A 16-bit field from its two bytes. -/
def half (b0 b1 : Byte) : Half := b1 ++ b0

/-- A 32-bit field from its four bytes. -/
def word (b0 b1 b2 b3 : Byte) : Word := b3 ++ b2 ++ b1 ++ b0

/-- Byte `k` of a 32-bit field. -/
def wordByte (v : Word) (k : Nat) : Byte := (v >>> (8 * k)).setWidth 8

/-- The two bytes of a 16-bit field. -/
def halfBytes (v : Half) : List Byte := [v.setWidth 8, (v >>> 8).setWidth 8]

/-- The four bytes of a 32-bit field. -/
def wordBytes (v : Word) : List Byte := [wordByte v 0, wordByte v 1, wordByte v 2, wordByte v 3]

/-! ### Operand forms: the bytes after the opcode (the `format` of a table row) -/

/-- No operand. -/
def formNone (op : Byte) (i : Instr) : List Byte → Except DecodeError Instr
  | [] => .ok i
  | _ => .error (.wrongLength op)

/-- One byte. -/
def formB (op : Byte) (k : Byte → Instr) : List Byte → Except DecodeError Instr
  | [b] => .ok (k b)
  | _ => .error (.wrongLength op)

/-- One 16-bit field. -/
def formI (op : Byte) (k : Half → Instr) : List Byte → Except DecodeError Instr
  | [b0, b1] => .ok (k (half b0 b1))
  | _ => .error (.wrongLength op)

/-- A handle. -/
def formH (op : Byte) (k : Handle → Instr) : List Byte → Except DecodeError Instr
  | [h0, h1, h2, h3] => .ok (k (word h0 h1 h2 h3))
  | _ => .error (.wrongLength op)

/-- A handle and a byte. -/
def formHB (op : Byte) (k : Handle → Byte → Instr) : List Byte → Except DecodeError Instr
  | [h0, h1, h2, h3, b] => .ok (k (word h0 h1 h2 h3) b)
  | _ => .error (.wrongLength op)

/-- A handle and a 16-bit field. -/
def formHI (op : Byte) (k : Handle → Half → Instr) : List Byte → Except DecodeError Instr
  | [h0, h1, h2, h3, i0, i1] => .ok (k (word h0 h1 h2 h3) (half i0 i1))
  | _ => .error (.wrongLength op)

/-- A handle, a 16-bit field and a byte. -/
def formHIB (op : Byte) (k : Handle → Half → Byte → Instr) : List Byte → Except DecodeError Instr
  | [h0, h1, h2, h3, i0, i1, b] => .ok (k (word h0 h1 h2 h3) (half i0 i1) b)
  | _ => .error (.wrongLength op)

/-- A handle and three bytes. -/
def formHBBB (op : Byte) (k : Handle → Byte → Byte → Byte → Instr) : List Byte → Except DecodeError Instr
  | [h0, h1, h2, h3, b, c, d] => .ok (k (word h0 h1 h2 h3) b c d)
  | _ => .error (.wrongLength op)

/-- A handle, a byte and two 16-bit fields. -/
def formHBNN (op : Byte) (k : Handle → Byte → Half → Half → Instr) : List Byte → Except DecodeError Instr
  | [h0, h1, h2, h3, b, n0, n1, m0, m1] => .ok (k (word h0 h1 h2 h3) b (half n0 n1) (half m0 m1))
  | _ => .error (.wrongLength op)

/-- A handle, a word and two 16-bit fields. -/
def formHWNN (op : Byte) (k : Handle → Word → Half → Half → Instr) : List Byte → Except DecodeError Instr
  | [h0, h1, h2, h3, v0, v1, v2, v3, n0, n1, m0, m1] =>
    .ok (k (word h0 h1 h2 h3) (word v0 v1 v2 v3) (half n0 n1) (half m0 m1))
  | _ => .error (.wrongLength op)

/-- The command with opcode `op` and the operand bytes after it (30_encoding.md R91, R92). -/
def decodeOp (op : Byte) (ops : List Byte) : Except DecodeError Instr :=
  match op.toNat with
  | 0x01 => formNone op .crcReset ops
  | 0x02 => formB op .crcSink ops
  | 0x03 => formNone op .crcGet ops
  | 0x10 => formHWNN op .c78EncU ops
  | 0x11 => formHI op .c78DecU ops
  | 0x12 => formHWNN op .c78EncS ops
  | 0x13 => formHI op .c78DecS ops
  | 0x20 => formI op .pbAlloc ops
  | 0x21 => formHI op .pbSetCapacity ops
  | 0x22 => formHBNN op .pbAppend ops
  | 0x23 => formH op .pbReference ops
  | 0x24 => formH op .pbDereference ops
  | 0x25 => formHB op .pbSetStatus ops
  | 0x26 => formH op .pbGetStatus ops
  | 0x27 => formH op .pbGetLength ops
  | 0x28 => formH op .pbGetCapacity ops
  | 0x29 => formH op .pbGetRefcount ops
  | 0x2A => formHI op .pbRead ops
  | 0x2B => formHIB op .pbWrite ops
  | 0x30 => formHI op .mapGetCk ops
  | 0x31 => formHIB op .mapSetCk ops
  | 0x32 => formHI op .mapGetNp ops
  | 0x33 => formHIB op .mapSetNp ops
  | 0x34 => formHI op .mapGetDa ops
  | 0x35 => formHIB op .mapSetDa ops
  | 0x36 => formHI op .mapGetSa ops
  | 0x37 => formHIB op .mapSetSa ops
  | 0x38 => formHI op .mapGetAtype ops
  | 0x39 => formHIB op .mapSetAtype ops
  | 0x40 => formHI op .mapNextprotoPos ops
  | 0x41 => formHI op .mapDestPos ops
  | 0x42 => formHI op .mapSrcPos ops
  | 0x43 => formHI op .mapContentsPos ops
  | 0x44 => formHI op .mapNextHeader ops
  | 0x45 => formHB op .mapHeader ops
  | 0x46 => formHB op .mapData ops
  | 0x48 => formHBBB op .mapValidate ops
  | 0x49 => formHB op .mapAppendChecksum ops
  | 0x50 => formB op .decRx ops
  | 0x60 => formHB op .encSubmit ops
  | 0x61 => formNone op .encProcess ops
  | 0x70 => formB op .cfgSetPrefix ops
  | 0x71 => formNone op .cfgGetPrefix ops
  | 0x72 => formNone op .sysGetFault ops
  | _ => .error (.undefinedOpcode op)

/-- A command's bytes (30_encoding.md R90). -/
def decodeCommand : List Byte → Except DecodeError Instr
  | [] => .error .noOpcode
  | op :: ops => decodeOp op ops

/-- The wire unit a received byte is, by the decoder's position and the control byte (44_frame_decoder.md R232;
30_encoding.md R98). Every byte is one (30_encoding.md R99). -/
def decodeWire (d : DecState) (cp b : Byte) : Instr :=
  match d with
  | .data => if b ≠ cp then .wireData b else .wireCtrl
  | .controlSeen =>
    if b &&& 0xFC#8 ≠ cp then .wireLiteral b
    else match (b &&& 3#8).toNat with
      | 0 => .wireIdle
      | 1 => .wireEsc
      | 2 => .wireEnd
      | _ => .wireAbort

/-- The instruction an input is, where the decoder stands at `d` and the control byte is `cp`. -/
def decode (d : DecState) (cp : Byte) : Input → Except DecodeError Instr
  | .command bytes => decodeCommand bytes
  | .wire b => .ok (decodeWire d cp b)
  | .reset => .error .resetEvent

/-! ### The encoder, from the same tables -/

/-- The bytes of a command (30_encoding.md R90, R91); for a wire unit, the received byte (30_encoding.md R98). -/
def encode (cp : Byte) : Instr → Input
  | .crcReset => .command [0x01#8]
  | .crcSink b => .command [0x02#8, b]
  | .crcGet => .command [0x03#8]
  | .c78EncU h v inc lim => .command (0x10#8 :: wordBytes h ++ wordBytes v ++ halfBytes inc ++ halfBytes lim)
  | .c78DecU h cur => .command (0x11#8 :: wordBytes h ++ halfBytes cur)
  | .c78EncS h v inc lim => .command (0x12#8 :: wordBytes h ++ wordBytes v ++ halfBytes inc ++ halfBytes lim)
  | .c78DecS h cur => .command (0x13#8 :: wordBytes h ++ halfBytes cur)
  | .pbAlloc cap => .command (0x20#8 :: halfBytes cap)
  | .pbSetCapacity h cap => .command (0x21#8 :: wordBytes h ++ halfBytes cap)
  | .pbAppend h b inc lim => .command (0x22#8 :: wordBytes h ++ [b] ++ halfBytes inc ++ halfBytes lim)
  | .pbReference h => .command (0x23#8 :: wordBytes h)
  | .pbDereference h => .command (0x24#8 :: wordBytes h)
  | .pbSetStatus h st => .command (0x25#8 :: wordBytes h ++ [st])
  | .pbGetStatus h => .command (0x26#8 :: wordBytes h)
  | .pbGetLength h => .command (0x27#8 :: wordBytes h)
  | .pbGetCapacity h => .command (0x28#8 :: wordBytes h)
  | .pbGetRefcount h => .command (0x29#8 :: wordBytes h)
  | .pbRead h idx => .command (0x2A#8 :: wordBytes h ++ halfBytes idx)
  | .pbWrite h idx b => .command (0x2B#8 :: wordBytes h ++ halfBytes idx ++ [b])
  | .mapGetCk h hp => .command (0x30#8 :: wordBytes h ++ halfBytes hp)
  | .mapSetCk h hp f => .command (0x31#8 :: wordBytes h ++ halfBytes hp ++ [f])
  | .mapGetNp h hp => .command (0x32#8 :: wordBytes h ++ halfBytes hp)
  | .mapSetNp h hp f => .command (0x33#8 :: wordBytes h ++ halfBytes hp ++ [f])
  | .mapGetDa h hp => .command (0x34#8 :: wordBytes h ++ halfBytes hp)
  | .mapSetDa h hp f => .command (0x35#8 :: wordBytes h ++ halfBytes hp ++ [f])
  | .mapGetSa h hp => .command (0x36#8 :: wordBytes h ++ halfBytes hp)
  | .mapSetSa h hp f => .command (0x37#8 :: wordBytes h ++ halfBytes hp ++ [f])
  | .mapGetAtype h hp => .command (0x38#8 :: wordBytes h ++ halfBytes hp)
  | .mapSetAtype h hp t => .command (0x39#8 :: wordBytes h ++ halfBytes hp ++ [t])
  | .mapNextprotoPos h hp => .command (0x40#8 :: wordBytes h ++ halfBytes hp)
  | .mapDestPos h hp => .command (0x41#8 :: wordBytes h ++ halfBytes hp)
  | .mapSrcPos h hp => .command (0x42#8 :: wordBytes h ++ halfBytes hp)
  | .mapContentsPos h hp => .command (0x43#8 :: wordBytes h ++ halfBytes hp)
  | .mapNextHeader h hp => .command (0x44#8 :: wordBytes h ++ halfBytes hp)
  | .mapHeader h off => .command (0x45#8 :: wordBytes h ++ [off])
  | .mapData h off => .command (0x46#8 :: wordBytes h ++ [off])
  | .mapValidate h off req rem => .command (0x48#8 :: wordBytes h ++ [off, req, rem])
  | .mapAppendChecksum h off => .command (0x49#8 :: wordBytes h ++ [off])
  | .decRx b => .command [0x50#8, b]
  | .encSubmit h off => .command (0x60#8 :: wordBytes h ++ [off])
  | .encProcess => .command [0x61#8]
  | .cfgSetPrefix v => .command [0x70#8, v]
  | .cfgGetPrefix => .command [0x71#8]
  | .sysGetFault => .command [0x72#8]
  | .wireData b => .wire b
  | .wireCtrl => .wire cp
  | .wireIdle => .wire cp
  | .wireEsc => .wire (cp ||| 1#8)
  | .wireEnd => .wire (cp ||| 2#8)
  | .wireAbort => .wire (cp ||| 3#8)
  | .wireLiteral b => .wire b

/-! ### Words numbered as spec/opcode_table.json numbers them -/

/-- How many operand bytes an opcode has; none where it is undefined (30_encoding.md R91, R92). -/
def operandCount (op : Nat) : Option Nat :=
  match op with
  | 0x01 | 0x03 | 0x61 | 0x71 | 0x72 => some 0
  | 0x02 | 0x50 | 0x70 => some 1
  | 0x20 => some 2
  | 0x23 | 0x24 | 0x26 | 0x27 | 0x28 | 0x29 => some 4
  | 0x25 | 0x45 | 0x46 | 0x49 | 0x60 => some 5
  | 0x11 | 0x13 | 0x21 | 0x2A => some 6
  | 0x30 | 0x32 | 0x34 | 0x36 | 0x38 => some 6
  | 0x40 | 0x41 | 0x42 | 0x43 | 0x44 => some 6
  | 0x2B | 0x31 | 0x33 | 0x35 | 0x37 | 0x39 | 0x48 => some 7
  | 0x22 => some 9
  | 0x10 | 0x12 => some 12
  | _ => none

/-- The first `n` bytes of a number, its bits numbered from the least significant bit of the first byte. -/
def lowBytes : Nat → Nat → List Byte
  | 0, _ => []
  | n + 1, w => BitVec.ofNat 8 w :: lowBytes n (w / 256)

/-- A table word as an agent presents it: a command where its first byte is a defined opcode (operand bytes beyond the
word are zero), else one received byte. Log entry 9. -/
def tableInput (nbits w : Nat) : Input :=
  match operandCount (w % 256) with
  | some n => .command (lowBytes (n + 1) (w % 2 ^ nbits))
  | none => if nbits ≤ 8 then .wire (BitVec.ofNat 8 (w % 2 ^ nbits)) else .command (lowBytes (nbits / 8) (w % 2 ^ nbits))

/-- Where the decoder stands for a table word that is a received byte: the rows with the values 3D, 3E and 3F have the
condition ControlSeen in the table, any other value is read in Data. Log entry 9. -/
def tableDecState (nbits w : Nat) : Option DecState :=
  match tableInput nbits w with
  | .wire b => some (if b = 0x3D#8 ∨ b = 0x3E#8 ∨ b = 0x3F#8 then .controlSeen else .data)
  | _ => none

/-- The instruction the decoder reads from a table word, with the control byte at its reset value, which is the one the
table's wire rows are written for. -/
def decodeTableWord (nbits w : Nat) : Option Instr :=
  match decode ((tableDecState nbits w).getD .data) 0x3C#8 (tableInput nbits w) with
  | .ok i => some i
  | .error _ => none

end Sys2Proof
end

