-- ==== Sys2Proof/Config.lean ====
section
/-! DEFINITION. What an implementation fixes (the parameters of spec/00_scope.md R9) and the free values: the answers of
the outside agents (R5, R6). A value the spec leaves open is an opaque constant: nothing in Lean can say what it is. -/

namespace Sys2Proof

/-- The three statuses an agent or a command answers with (00_scope.md R6, R15; 30_encoding.md R96). -/
inductive Verdict
  | busy
  | good
  | bad
deriving DecidableEq, Repr, Inhabited

/-- The packet sink's answer to an offer: a verdict, and with `Good` the number of references the sink keeps. That no
other verdict comes with references holds by construction (44_frame_decoder.md R244). -/
inductive SinkAnswer
  | busy
  | good (kept : Nat)
  | bad
deriving DecidableEq, Repr, Inhabited

/-- `DEC_FAIL_POLICY` (00_scope.md R9; 44_frame_decoder.md R233). -/
inductive FailPolicy
  | retryAll
  | discardAtCeiling
deriving DecidableEq, Repr

/-- `EMPTY_FRAME_POLICY` (00_scope.md R9; 44_frame_decoder.md R243). -/
inductive EmptyPolicy
  | deliver
  | drop
deriving DecidableEq, Repr

/-- The eleven parameters of 00_scope.md R9, the model's arguments. -/
structure Params where
  /-- `CP_RESET`. -/
  cpReset : Byte
  /-- `MAP_PROTOCOL_ID`, OPEN. -/
  mapProtocolId : Word
  /-- `DEC_INIT_CAP`, OPEN. -/
  decInitCap : Nat
  /-- `DEC_INCREMENT`, OPEN. -/
  decIncrement : Nat
  /-- `DEC_LIMIT`, OPEN. -/
  decLimit : Nat
  /-- `LEN_MAX`, OPEN. -/
  lenMax : Nat
  /-- `REF_MAX`. -/
  refMax : Nat
  /-- `C78_WIDTH`. -/
  c78Width : Nat
  /-- `DEC_FAIL_POLICY`. -/
  decFailPolicy : FailPolicy
  /-- `EMPTY_FRAME_POLICY`. -/
  emptyFramePolicy : EmptyPolicy
  /-- `CLEAR_CK_BITS_ON_REMOVE`. -/
  clearCkBitsOnRemove : Bool
deriving DecidableEq, Repr

/-- The ranges that 00_scope.md R9 gives the parameters. -/
abbrev Params.wf (p : Params) : Prop :=
  p.cpReset &&& 3#8 = 0#8 ∧
  1 ≤ p.lenMax ∧ p.lenMax ≤ 65535 ∧
  1 ≤ p.decInitCap ∧ p.decInitCap ≤ p.decLimit ∧ p.decLimit ≤ p.lenMax ∧
  1 ≤ p.decIncrement

namespace Config

/-- `MAP_PROTOCOL_ID`: OPEN (00_scope.md R9). -/
opaque mapProtocolId : Word

/-- `LEN_MAX` less one: OPEN, so that `LEN_MAX` is any value from 1 to 65535 (00_scope.md R9). -/
opaque lenMaxPred : Fin 65535

/-- `DEC_INIT_CAP` less one: OPEN, so that `DEC_INIT_CAP` is any value from 1 to `LEN_MAX`. -/
opaque decInitCapPred : Fin (lenMaxPred.val + 1)

/-- `DEC_LIMIT` less `DEC_INIT_CAP`: OPEN, so that `DEC_LIMIT` is any value from `DEC_INIT_CAP` to `LEN_MAX`. -/
opaque decLimitSlack : Fin (lenMaxPred.val - decInitCapPred.val + 1)

/-- `DEC_INCREMENT` less one: OPEN, so that `DEC_INCREMENT` is any value from 1 on. -/
opaque decIncrementPred : Nat

/-- The parameters of this hardware: the OPEN ones unknown, the others as 00_scope.md R9 gives them. -/
def params : Params where
  cpReset := 0x3C#8
  mapProtocolId := mapProtocolId
  decInitCap := decInitCapPred.val + 1
  decIncrement := decIncrementPred + 1
  decLimit := decInitCapPred.val + 1 + decLimitSlack.val
  lenMax := lenMaxPred.val + 1
  refMax := 255
  c78Width := 32
  decFailPolicy := .discardAtCeiling
  emptyFramePolicy := .deliver
  clearCkBitsOnRemove := true

/-- The allocator's answer number `n` to a new buffer, beyond the listed answers (00_scope.md R6: `AllocOracle`). -/
opaque freeAlloc : Nat → Bool

/-- The allocator's answer number `n` to a resize, beyond the listed answers (00_scope.md R6: `ReallocOracle`). -/
opaque freeRealloc : Nat → Bool

/-- The TX sink's answer number `n`, beyond the listed answers (00_scope.md R6: `TxOffer`). -/
opaque freeTx : Nat → Verdict

/-- The packet sink's answer number `n`, beyond the listed answers (00_scope.md R6: `PacketSinkOffer`). -/
opaque freeSink : Nat → SinkAnswer

/-- The byte `MAP_VALIDATE` reports for a level that its 8-bit field cannot hold, draw number `n`: the spec states none
(43_map.md R214). DESIGN CHOICE, log entry 13. -/
opaque freeLevel : Nat → Byte

/-- The byte `PB_GET_REFCOUNT` reports for a count that its 8-bit field cannot hold, draw number `n`: only where a claim
sets `REF_MAX` above 255 can there be one, and the spec states none (42_packet_buffer.md R169). DESIGN CHOICE, log entry
21. -/
opaque freeCount : Nat → Byte

end Config
end Sys2Proof
end

