-- ==== Sys2Proof/Machine/State.lean ====
section
/-! DEFINITION. The state of the block (spec/10_state.md R30), the model's own fields beside it (its parameters, its inputs
and its outputs), and the reset state (spec/70_reset_and_hazards.md R300). -/

namespace Sys2Proof.Machine

/-- A packet's status tag (10_state.md R42; 30_encoding.md R96). -/
inductive PacketStatus
  | busy
  | good
  | bad
  | complete
deriving DecidableEq, Repr

/-- A packet record (10_state.md R42). Its `len` is the length of `data`. -/
structure Packet where
  data : List Byte
  cap : Nat
  status : PacketStatus
  ref : Nat
deriving DecidableEq, Repr

/-- `PM[h].len` (10_state.md R42). -/
def Packet.len (p : Packet) : Nat := p.data.length

/-- Packet memory `PM`: the finite map from handles to records (10_state.md R42; 20_memory.md R60), as its list of
(handle, record) pairs. A handle with no entry is dead. -/
abbrev Memory := List (Handle × Packet)

/-- The one canonical form of a packet memory: the handles strictly rise. -/
abbrev Memory.wf (m : Memory) : Prop := m.Pairwise (fun a b => a.1 < b.1)

/-- The encoder's position `ENC_MODE` (10_state.md R37). -/
inductive EncMode
  | idle
  | transmitting
  | flushCollision
  | sendControl
  | sendEndOpcode
deriving DecidableEq, Repr

/-- The faults of 60_exceptions.md R280. -/
inductive FaultCode
  | addrType
  | index
  | staleHandle
  | packetHeld
  | badPrefix
  | refcount
  | badOpcode
  | badArg
deriving DecidableEq, Repr

/-- A result field (30_encoding.md R90, R91), with the width of its type (R93). -/
inductive Field
  | byte (v : Byte)
  | index (v : Half)
  | word (v : Word)
deriving DecidableEq, Repr

/-- What a command that does not fault answers (00_scope.md R15; 30_encoding.md R90). -/
structure Result where
  status : Verdict
  fields : List Field
deriving DecidableEq, Repr

/-- One question the block asked an outside agent, with its answer (00_scope.md R6). -/
inductive Event
  /-- `AllocOracle(cap)`. -/
  | alloc (cap : Nat) (granted : Bool)
  /-- `ReallocOracle(h, cap)`. -/
  | realloc (h : Handle) (cap : Nat) (granted : Bool)
  /-- `TxOffer(v)`. -/
  | tx (v : Byte) (answer : Verdict)
  /-- `PacketSinkOffer(h, off)`, with the packet's bytes at the time of the offer (44_frame_decoder.md R244). -/
  | offer (h : Handle) (off : Byte) (bytes : List Byte) (answer : SinkAnswer)
deriving DecidableEq, Repr

/-- The answers the outside agents will give, oldest first; an agent whose list is empty answers with a free value, number
`free` (00_scope.md R5). Log entry 2. -/
structure Draws where
  alloc : List Bool
  realloc : List Bool
  tx : List Verdict
  sink : List SinkAnswer
  free : Nat
deriving DecidableEq, Repr

/-- The state: the registers of 10_state.md R30 under their own names, then the model's own fields. -/
structure State where
  /-- `CP` (R31). -/
  cp : Byte
  /-- `CRC` (R32). -/
  crc : Word
  /-- `DEC_STATE` (R33). -/
  decState : DecState
  /-- `DEC_PKT` (R34). -/
  decPkt : Option Handle
  /-- `DEC_DISCARD` (R35). -/
  decDiscard : Bool
  /-- `ENC_MODE` (R37). -/
  encMode : EncMode
  /-- `ENC_COLLISION` (R38). -/
  encCollision : Bool
  /-- `ENC_PKT` (R39). -/
  encPkt : Option Handle
  /-- `ENC_CURSOR` (R39). -/
  encCursor : Half
  /-- `ENC_END` (R39). -/
  encEnd : Half
  /-- `FAULT` (R41). -/
  fault : Byte
  /-- `PM` (R42). -/
  pm : Memory
  /-- `NEXT_HANDLE` (R43). -/
  nextHandle : Handle
  /-- The parameters (00_scope.md R9): the model's arguments, which no step changes (R10). Log entry 3. -/
  params : Params
  /-- What the agents have presented and the block has not taken, oldest first. Log entry 1. -/
  inbox : List Input
  /-- The agents' answers to come. Log entry 2. -/
  draws : Draws
  /-- The last command's result; none where it gave none (60_exceptions.md R281, R282). Log entry 5. -/
  result : Option Result
  /-- What the block asked the agents, oldest first. Log entry 5. -/
  log : List Event
deriving DecidableEq, Repr

/-- Why the machine stops with a fault: never. A fault of the spec is no stop: it latches its code in `FAULT`, and the
block goes on to refuse commands (60_exceptions.md R281, R282). Log entry 6. -/
inductive Fault
deriving DecidableEq, Repr

/-- Why the model gives no meaning. -/
inductive Refusal
  /-- An instruction the model gives no meaning: raised by `exec` for such an arm (there is none). Safe. -/
  | notModelled (mnemonic : String)
  /-- The presented byte string is no command of the spec: it has no opcode, or not exactly its opcode's operand fields
  (30_encoding.md R90, R109). Raised by `step`. Safe: the model stops. Log entry 7. -/
  | malformedCommand
deriving DecidableEq, Repr

/-- The machine right after power-on (70_reset_and_hazards.md R300), with nothing presented to it, no answer listed, no
result and an empty log. -/
def State.reset : State where
  cp := Config.params.cpReset
  crc := 0xFFFFFFFF#32
  decState := .data
  decPkt := none
  decDiscard := false
  encMode := .idle
  encCollision := false
  encPkt := none
  encCursor := 0#16
  encEnd := 0#16
  fault := 0#8
  pm := []
  nextHandle := 1#32
  params := Config.params
  inbox := []
  draws := { alloc := [], realloc := [], tx := [], sink := [], free := 0 }
  result := none
  log := []

end Sys2Proof.Machine
end

