-- ==== Sys2Proof/Machine/Flags.lean ====
section
/-! DEFINITION. The codes and flags of the block: status codes (spec/30_encoding.md R96), fault codes
(spec/60_exceptions.md R280), the flag bits and the type of a MAP header byte (spec/30_encoding.md R100), and a result as
bytes (R90). -/

namespace Sys2Proof.Machine

/-- A packet status as its `S` code (30_encoding.md R96). -/
def statusCode : PacketStatus → Byte
  | .busy => 0#8
  | .good => 1#8
  | .bad => 2#8
  | .complete => 3#8

/-- The packet status of a legal `S` code (30_encoding.md R96). -/
def statusOfCode (c : Byte) : PacketStatus :=
  if c = 0#8 then .busy else if c = 1#8 then .good else if c = 2#8 then .bad else .complete

/-- A command's status as its code (30_encoding.md R96). -/
def verdictCode : Verdict → Byte
  | .busy => 0#8
  | .good => 1#8
  | .bad => 2#8

/-- A fault's code (60_exceptions.md R280). -/
def faultCode : FaultCode → Byte
  | .addrType => 1#8
  | .index => 2#8
  | .staleHandle => 3#8
  | .packetHeld => 4#8
  | .badPrefix => 5#8
  | .refcount => 6#8
  | .badOpcode => 7#8
  | .badArg => 8#8

/-- The mask of `CK`, checksum-present (30_encoding.md R100). -/
def maskCk : Byte := 0x80#8
/-- The mask of `NP`, next-protocol-present (30_encoding.md R100). -/
def maskNp : Byte := 0x40#8
/-- The mask of `DA`, dest-address-present (30_encoding.md R100). -/
def maskDa : Byte := 0x20#8
/-- The mask of `SA`, src-address-present (30_encoding.md R100). -/
def maskSa : Byte := 0x10#8

/-- The flag of mask `m` in a header byte is set. -/
def hasFlag (x m : Byte) : Bool := x &&& m ≠ 0#8

/-- A flag as the byte an `F` field carries (30_encoding.md R93). -/
def flagByte (f : Bool) : Byte := if f then 1#8 else 0#8

/-- The header byte that `SetBit` writes (43_map.md R190). -/
def withFlag (x m f : Byte) : Byte := (x &&& ~~~m) ||| (if f = 1#8 then m else 0#8)

/-- The address type of a header byte (30_encoding.md R100). -/
def addrType (x : Byte) : Byte := x &&& 0x0F#8

/-- The header byte with its address type replaced (43_map.md R201). -/
def withAddrType (x t : Byte) : Byte := (x &&& 0xF0#8) ||| t

/-- The bytes of a result field, least significant first (30_encoding.md R90). -/
def fieldBytes : Field → List Byte
  | .byte v => [v]
  | .index v => [v.setWidth 8, (v >>> 8).setWidth 8]
  | .word v => [v.setWidth 8, (v >>> 8).setWidth 8, (v >>> 16).setWidth 8, (v >>> 24).setWidth 8]

/-- The bytes of a result: its status, then its fields (30_encoding.md R90). -/
def resultBytes (r : Result) : List Byte := verdictCode r.status :: (r.fields.map fieldBytes).flatten

end Sys2Proof.Machine
end

