-- ==== Sys2Proof/Machine/Operands.lean ====
section
/-! DEFINITION. The operand and data forms the commands compute with: the CRC table and checksum (spec/40_crc32.md), the
Code78 integer form (spec/41_code78.md, spec/30_encoding.md R103 to R106), and the positions inside a MAP packet
(spec/43_map.md R202 to R210). All are functions of plain data. -/

namespace Sys2Proof.Machine

/-! ### CRC-32 (40_crc32.md) -/

/-- One round of the table's generator (40_crc32.md R121). -/
def crcShift (c : Word) : Word := if c &&& 1#32 = 1#32 then (c >>> 1) ^^^ 0xEDB88320#32 else c >>> 1

/-- `TABLE[i]`: eight rounds from `i` (40_crc32.md R121). -/
def crcTable (i : Byte) : Word :=
  crcShift (crcShift (crcShift (crcShift (crcShift (crcShift (crcShift (crcShift (i.setWidth 32))))))))

/-- The CRC register after one more byte (40_crc32.md R123). -/
def crcUpdate (c : Word) (b : Byte) : Word := crcTable (c.setWidth 8 ^^^ b) ^^^ (c >>> 8)

/-- `CRC32(bytes)` (40_crc32.md R125). -/
def crc32 (bytes : List Byte) : Word := bytes.foldl crcUpdate 0xFFFFFFFF#32 ^^^ 0xFFFFFFFF#32

/-- The four trailer bytes of a checksum, least significant first (30_encoding.md R106; 20_memory.md R64). -/
def crcTrailer (c : Word) : List Byte :=
  [c.setWidth 8, (c >>> 8).setWidth 8, (c >>> 16).setWidth 8, (c >>> 24).setWidth 8]

/-! ### Code78 integers (41_code78.md R140, R141) -/

/-- `C78Groups(v)`: how many bytes the minimal form has (41_code78.md R140, R147). -/
def c78Groups (v : Word) : Nat :=
  if v.toNat < 2 ^ 7 then 1
  else if v.toNat < 2 ^ 14 then 2
  else if v.toNat < 2 ^ 21 then 3
  else if v.toNat < 2 ^ 28 then 4
  else 5

/-- The 7-bit group `k` of `v`, group 0 the least significant (41_code78.md R140). -/
def c78Group (v : Word) (k : Nat) : Byte := (v >>> (7 * k)).setWidth 8 &&& 0x7F#8

/-- The last `n` groups of `v`, the last byte alone without the continuation bit (41_code78.md R140). -/
def c78Emit (v : Word) : Nat → List Byte
  | 0 => []
  | 1 => [c78Group v 0]
  | n + 2 => (c78Group v (n + 1) ||| 0x80#8) :: c78Emit v (n + 1)

/-- `C78Encode(v)`: the minimal form (41_code78.md R140). -/
def c78Encode (v : Word) : List Byte := c78Emit v (c78Groups v)

/-- A byte with bit 7 clear ends a Code78 sequence (30_encoding.md R103). -/
def isLastByte (b : Byte) : Bool := b &&& 0x80#8 = 0#8

/-- The loop of `C78Decode` over the bytes from position `p` on, with the value `v` so far (41_code78.md R141). -/
def c78Loop : List Byte → Nat → Word → Option (Word × Nat)
  | [], _, _ => none
  | b :: bs, p, v =>
    let v' : Word := (v <<< 7) ||| (b &&& 0x7F#8).setWidth 32
    if isLastByte b then some (v', p + 1) else c78Loop bs (p + 1) v'

/-- A decoded value modulo 2^`C78_WIDTH` (30_encoding.md R104). At the width 32 it is the value. Log entry 21. -/
def c78Wrap (width : Nat) (v : Word) : Word := BitVec.ofNat 32 (v.toNat % 2 ^ width)

/-- `C78Decode(h, cur)` on a packet's bytes, with `C78_WIDTH` = `width`: the value and the position after it; none is `Bad`
(41_code78.md R141). -/
def c78Decode (width : Nat) (data : List Byte) (cur : Nat) : Option (Word × Nat) :=
  (c78Loop (data.drop cur) cur 0#32).map (fun r => (c78Wrap width r.1, r.2))

/-- `ZigZag(s32(v))` as a 32-bit pattern (30_encoding.md R105), computed on integers. -/
def zigZag (v : Word) : Word :=
  if 0 ≤ v.toInt then BitVec.ofInt 32 (2 * v.toInt) else BitVec.ofInt 32 (2 * (-v.toInt - 1) + 1)

/-- `u32(UnZigZag(u))` (30_encoding.md R105), computed on integers. -/
def unZigZag (u : Word) : Word :=
  if u &&& 1#32 = 0#32 then BitVec.ofInt 32 ((u >>> 1).toNat : Int)
  else BitVec.ofInt 32 (-((u >>> 1).toNat : Int) - 1)

/-! ### Positions in a MAP packet (43_map.md R202 to R210) -/

/-- `HB(h, p)`: the header byte at position `p`, for `p` inside the packet (43_map.md R190). -/
def headerByte (data : List Byte) (p : Nat) : Byte := data.getD p 0#8

/-- The loop of `SkipC78` over the bytes from position `p` on (43_map.md R202). -/
def skipLoop : List Byte → Nat → Option Nat
  | [], _ => none
  | b :: bs, p => if isLastByte b then some (p + 1) else skipLoop bs (p + 1)

/-- `SkipC78(h, p)`: the position after the Code78 field at `p` (43_map.md R202). -/
def skipC78 (data : List Byte) (p : Nat) : Option Nat := skipLoop (data.drop p) p

/-- The position after a field at `p` that is there when `present` (43_map.md R203). -/
def skipField (data : List Byte) (present : Bool) (p : Nat) : Option Nat := if present then skipC78 data p else some p

/-- The four positions of `Fields(h, hp)` (43_map.md R203). -/
structure FieldPositions where
  np : Nat
  da : Option Nat
  sa : Option Nat
  ct : Option Nat
deriving DecidableEq, Repr

/-- `Fields(h, hp)` (43_map.md R203). -/
def fields (data : List Byte) (hp : Nat) : FieldPositions :=
  let x := headerByte data hp
  let da := skipField data (hasFlag x maskNp) (hp + 1)
  let sa := da.bind (skipField data (hasFlag x maskDa))
  let ct := sa.bind (skipField data (hasFlag x maskSa))
  { np := hp + 1, da := da, sa := sa, ct := ct }

/-- `NextHeader(h, hp)` under the parameters' MAP protocol identifier (43_map.md R208). -/
def nextHeader (prm : Params) (data : List Byte) (hp : Nat) : Option Nat :=
  if hasFlag (headerByte data hp) maskNp then
    match (fields data hp).ct, c78Decode prm.c78Width data (fields data hp).np with
    | some ct, some (v, _) => if v = prm.mapProtocolId ∧ ct < data.length then some ct else none
    | _, _ => none
  else none

/-- `n` steps of `NextHeader` from position `p` (43_map.md R209). -/
def walkHeaders (prm : Params) (data : List Byte) : Nat → Nat → Option Nat
  | 0, p => some p
  | n + 1, p => (nextHeader prm data p).bind (walkHeaders prm data n)

/-- `HeaderAt(h, off)` (43_map.md R209). -/
def headerAt (prm : Params) (data : List Byte) (off : Nat) : Option Nat :=
  if data.length = 0 then none else walkHeaders prm data off 0

/-- The header positions from `p` inward, outer to inner, at most `n` steps (43_map.md R211). -/
def headerChain (prm : Params) (data : List Byte) : Nat → Nat → List Nat
  | 0, p => [p]
  | n + 1, p =>
    match nextHeader prm data p with
    | none => [p]
    | some q => p :: headerChain prm data n q

/-- The whole walk from `p` inward: a step moves strictly forward in the packet, so it has fewer steps than the packet has
bytes (43_map.md R208, R210). -/
def headerWalk (prm : Params) (data : List Byte) (p : Nat) : List Nat := headerChain prm data data.length p

/-- `GetData(h, off)` (43_map.md R210). -/
def getData (prm : Params) (data : List Byte) (off : Nat) : Option Nat :=
  match headerAt prm data off with
  | none => none
  | some p => (fields data ((headerWalk prm data p).getLastD p)).ct

/-! ### Checksum scopes (43_map.md R211 to R215) -/

/-- How the walk of `MAP_VALIDATE` over a packet's levels ends (43_map.md R212). -/
inductive CkWalk
  /-- Every checksum holds: the stop position, and the headers whose trailers lie behind it. -/
  | passed (stop : Nat) (removed : List Nat)
  /-- Fewer than four bytes between a header and the stop position, at this level. -/
  | short (level : Nat)
  /-- A trailer is not the checksum of its scope, at this level. -/
  | mismatch (level : Nat)
deriving DecidableEq, Repr

/-- The loop of `MAP_VALIDATE` over the header positions, outer to inner, from stop position `stop` and level `j`
(43_map.md R211, R212). -/
def checkLevels (data : List Byte) : List Nat → Nat → Nat → List Nat → CkWalk
  | [], stop, _, removed => .passed stop removed
  | p :: ps, stop, j, removed =>
    if hasFlag (headerByte data p) maskCk then
      if stop < p + 4 then .short j
      else if (data.drop (stop - 4)).take 4 ≠ crcTrailer (crc32 ((data.take (stop - 4)).drop p)) then .mismatch j
      else checkLevels data ps (stop - 4) (j + 1) (removed ++ [p])
    else checkLevels data ps stop (j + 1) removed

/-- A packet's bytes with the `CK` bit of the header at `p` cleared (43_map.md R213). -/
def clearCkAt (data : List Byte) (p : Nat) : List Byte := data.set p (headerByte data p &&& 0x7F#8)

/-- `Remove(h, stop, removed)` on a packet's bytes (43_map.md R213). -/
def removeTrailers (clear : Bool) (data : List Byte) (stop : Nat) (removed : List Nat) : List Byte :=
  if clear then removed.foldl clearCkAt (data.take stop) else data.take stop

/-- A packet's bytes after `MAP_APPEND_CHECKSUM` at the header position `p` (43_map.md R215). -/
def withChecksum (data : List Byte) (p : Nat) : List Byte :=
  let data' := data.set p (headerByte data p ||| maskCk)
  data' ++ crcTrailer (crc32 (data'.drop p))

/-! ### The wire image of a packet (45_frame_encoder.md R268) -/

/-- The loop of `Encode(B, cp)` over the bytes still to send, with the collision flag (45_frame_encoder.md R268). A
pending collision before an opcode-like byte sends the escape first; the byte then follows with the flag clear. -/
def encodeLoop (cp : Byte) : List Byte → Bool → List Byte
  | [], coll => if coll then [cp ||| 1#8] else []
  | b :: bs, coll =>
    if coll ∧ b &&& 0xFC#8 = cp then (cp ||| 1#8) :: b :: encodeLoop cp bs (b = cp)
    else b :: encodeLoop cp bs (b = cp)

/-- `Encode(B, cp)` (45_frame_encoder.md R268). -/
def encodeFrame (cp : Byte) (bytes : List Byte) : List Byte := encodeLoop cp bytes false ++ [cp, cp ||| 2#8]

end Sys2Proof.Machine
end

