-- ==== Sys2Proof/Machine/Ops.lean ====
section
/-! DEFINITION. The named operations over packet memory, the agents' answers, results and faults, that every command is
written with: liveness, growth, allocation and references (spec/20_memory.md), taking a fault (spec/60_exceptions.md R282),
leaving it by reset (spec/70_reset_and_hazards.md R300), and taking the next input. -/

namespace Sys2Proof.Machine

/-! ### Packet memory -/

/-- `PM[h]`, where `h` is live (00_scope.md R14). -/
def Memory.lookup : Memory → Handle → Option Packet
  | [], _ => none
  | (k, p) :: m, h => if k = h then some p else Memory.lookup m h

/-- The memory with `PM[h]` replaced, or added in its place. -/
def Memory.put : Memory → Handle → Packet → Memory
  | [], h, p => [(h, p)]
  | (k, q) :: m, h, p =>
    if k = h then (h, p) :: m
    else if h < k then (h, p) :: (k, q) :: m
    else (k, q) :: Memory.put m h p

/-- The memory without `h`. -/
def Memory.erase : Memory → Handle → Memory
  | [], _ => []
  | (k, q) :: m, h => if k = h then Memory.erase m h else (k, q) :: Memory.erase m h

/-- `PM[h]` (00_scope.md R14). -/
def State.packet (s : State) (h : Handle) : Option Packet := Memory.lookup s.pm h

/-- `Live(h)` (00_scope.md R14). -/
def State.live (s : State) (h : Handle) : Bool := (s.packet h).isSome

/-- `MemRead(h, i, 1)`, where byte `i` of a live packet exists (00_scope.md R14). -/
def State.readByte (s : State) (h : Handle) (i : Nat) : Option Byte := (s.packet h).bind (fun p => p.data[i]?)

/-- The state with the record `PM[h]` replaced. -/
def State.setPacket (s : State) (h : Handle) (p : Packet) : State := { s with pm := s.pm.put h p }

/-- `Held(h)`: the decoder or the encoder holds `h` (10_state.md R44). -/
def State.held (s : State) (h : Handle) : Bool := s.decPkt = some h || s.encPkt = some h

/-- `HeldRefs(h)`: the references the block itself owns on `h` (42_packet_buffer.md, before R160). -/
def State.heldRefs (s : State) (h : Handle) : Nat :=
  (if s.decPkt = some h then 1 else 0) + (if s.encPkt = some h then 1 else 0)

/-! ### Results and faults -/

/-- `return (st, fields)` (00_scope.md R15). -/
def State.answer (s : State) (st : Verdict) (fields : List Field) : State := { s with result := some ⟨st, fields⟩ }

/-- The state `s0` before a command, with what the agents have been asked up to `s`: nothing the command wrote in the block
stands, and an agent keeps what it was asked. Log entry 18. -/
def State.undoTo (s0 s : State) : State := { s0 with draws := s.draws, log := s.log }

/-- `raise Fault(c)` at `s`, in a command that began at `s0`: taking a fault discards the command's writes, latches the
code, and gives no result (60_exceptions.md R282). -/
def State.raiseFrom (s0 s : State) (c : FaultCode) : State := { s0.undoTo s with fault := faultCode c, result := none }

/-- `raise Fault(c)` before the command wrote anything or asked any agent. -/
def State.raise (s : State) (c : FaultCode) : State := s.raiseFrom s c

/-- A command of the block: refused in the Faulted state, where it changes nothing and has no result (60_exceptions.md
R281), else run. -/
def runCommand (s : State) (f : State → State) : Host.Outcome State Fault Refusal :=
  .next (if s.fault = 0#8 then f s else { s with result := none })

/-- The check of an `F` or `S` operand (30_encoding.md R94), which comes before every other (60_exceptions.md R284). -/
def State.ifLegal (s : State) (legal : Bool) (k : State) : State := if legal then k else s.raise .badArg

/-- The liveness check of a handle operand (20_memory.md R63). -/
def State.ifLive (s : State) (h : Handle) (k : Packet → State) : State :=
  match s.packet h with
  | none => s.raise .staleHandle
  | some p => k p

/-- The liveness check and the held-packet check of a command that mutates `h` (20_memory.md R63, R73). -/
def State.ifMutable (s : State) (h : Handle) (k : Packet → State) : State :=
  s.ifLive h (fun p => if s.held h then s.raise .packetHeld else k p)

/-- The index check: byte `i` of the packet exists (20_memory.md R62). -/
def State.ifIndex (s : State) (p : Packet) (i : Nat) (k : State) : State := if i < p.len then k else s.raise .index

/-- A position as a result field of type `I` (30_encoding.md R93). -/
def indexField (p : Nat) : Field := .index (BitVec.ofNat 16 p)

/-- A number as a result field of one byte, with the state after it. Where it does not fit the field, which the spec states
no value for, the byte is the free value `free` (log entries 13 and 21). -/
def State.byteField (s : State) (free : Nat → Byte) (n : Nat) : Field × State :=
  if n ≤ 255 then (.byte (BitVec.ofNat 8 n), s)
  else (.byte (free s.draws.free), { s with draws := { s.draws with free := s.draws.free + 1 } })

/-- The result of a navigation command: a position, or `Bad` with 0 for the null position (43_map.md R204 to R210;
30_encoding.md R95). -/
def State.answerPos (s : State) : Option Nat → State
  | some p => s.answer .good [indexField p]
  | none => s.answer .bad [.index 0#16]

/-! ### The agents' answers (00_scope.md R5, R6) -/

/-- `AllocOracle(cap)`. -/
def drawAlloc (s : State) (cap : Nat) : Bool × State :=
  match s.draws.alloc with
  | a :: rest => (a, { s with draws := { s.draws with alloc := rest }, log := s.log ++ [.alloc cap a] })
  | [] =>
    (Config.freeAlloc s.draws.free,
      { s with
        draws := { s.draws with free := s.draws.free + 1 },
        log := s.log ++ [.alloc cap (Config.freeAlloc s.draws.free)] })

/-- `ReallocOracle(h, cap)`. -/
def drawRealloc (s : State) (h : Handle) (cap : Nat) : Bool × State :=
  match s.draws.realloc with
  | a :: rest => (a, { s with draws := { s.draws with realloc := rest }, log := s.log ++ [.realloc h cap a] })
  | [] =>
    (Config.freeRealloc s.draws.free,
      { s with
        draws := { s.draws with free := s.draws.free + 1 },
        log := s.log ++ [.realloc h cap (Config.freeRealloc s.draws.free)] })

/-- `TxOffer(v)`. -/
def drawTx (s : State) (v : Byte) : Verdict × State :=
  match s.draws.tx with
  | a :: rest => (a, { s with draws := { s.draws with tx := rest }, log := s.log ++ [.tx v a] })
  | [] =>
    (Config.freeTx s.draws.free,
      { s with
        draws := { s.draws with free := s.draws.free + 1 },
        log := s.log ++ [.tx v (Config.freeTx s.draws.free)] })

/-- A sink answer for a packet with `ref` references, made legal: a sink keeps at most as many references as `REF_MAX`
allows (44_frame_decoder.md R244). Log entry 11. -/
def legalAnswer (refMax ref : Nat) : SinkAnswer → SinkAnswer
  | .busy => .busy
  | .bad => .bad
  | .good k => .good (min k (refMax - ref))

/-- `PacketSinkOffer(h, 0)` of the packet `p`. -/
def drawSink (s : State) (h : Handle) (p : Packet) : SinkAnswer × State :=
  match s.draws.sink with
  | a :: rest =>
    (legalAnswer s.params.refMax p.ref a,
      { s with
        draws := { s.draws with sink := rest },
        log := s.log ++ [.offer h 0#8 p.data (legalAnswer s.params.refMax p.ref a)] })
  | [] =>
    (legalAnswer s.params.refMax p.ref (Config.freeSink s.draws.free),
      { s with
        draws := { s.draws with free := s.draws.free + 1 },
        log := s.log ++ [.offer h 0#8 p.data (legalAnswer s.params.refMax p.ref (Config.freeSink s.draws.free))] })

/-! ### Allocation, growth and references (20_memory.md R69, R70, R72) -/

/-- `Allocate(cap)` (20_memory.md R69). The allocator is asked before the handles are looked at: log entry 12. -/
def allocate (s : State) (cap : Nat) : Verdict × Handle × State :=
  if cap = 0 ∨ s.params.lenMax < cap then (.bad, 0#32, s)
  else
    match drawAlloc s cap with
    | (false, s1) => (.busy, 0#32, s1)
    | (true, s1) =>
      if s.nextHandle = 0xFFFFFFFF#32 then (.busy, 0#32, s1)
      else
        (.good, s.nextHandle,
          { s1 with
            pm := s1.pm.put s.nextHandle { data := [], cap := cap, status := .busy, ref := 0 },
            nextHandle := s.nextHandle + 1#32 })

/-- The capacity `EnsureRoom` grows to: whole increments, no more than `lim2` (20_memory.md R70). -/
def grownCap (cap need inc lim2 : Nat) : Nat := min lim2 (cap + inc * ((need - cap + inc - 1) / inc))

/-- `EnsureRoom(h, need, inc, lim)` for the packet `p` at `h`: its answer, the record with its capacity grown, and the
state with the allocator asked (20_memory.md R70). -/
def ensureRoom (s : State) (h : Handle) (p : Packet) (need inc lim : Nat) : Verdict × Packet × State :=
  let lim2 := min lim s.params.lenMax
  if need ≤ p.cap then (.good, p, s)
  else if inc = 0 ∨ lim2 ≤ p.cap then (.bad, p, s)
  else if grownCap p.cap need inc lim2 < need then (.bad, p, s)
  else
    match drawRealloc s h (grownCap p.cap need inc lim2) with
    | (false, s1) => (.busy, p, s1)
    | (true, s1) => (.good, { p with cap := grownCap p.cap need inc lim2 }, s1)

/-- The record with bytes added at its end (20_memory.md R68). -/
def Packet.append (p : Packet) (bytes : List Byte) : Packet := { p with data := p.data ++ bytes }

/-- `EnsureRoom` and then the append of all the bytes, or no change (20_memory.md R68; 42_packet_buffer.md R162;
41_code78.md R142). -/
def appendCommand (s : State) (h : Handle) (p : Packet) (bytes : List Byte) (inc lim : Nat) : State :=
  match ensureRoom s h p (p.len + bytes.length) inc lim with
  | (.good, p', s') => (s'.setPacket h (p'.append bytes)).answer .good []
  | (.busy, _, s') => s'.answer .busy []
  | (.bad, _, s') => s'.answer .bad []

/-- `Reference(h)` on a record; none is `F_REFCOUNT` (20_memory.md R72). -/
def Packet.addRef (p : Packet) (refMax : Nat) : Option Packet :=
  if p.ref = refMax then none else some { p with ref := p.ref + 1 }

/-- `Dereference(h)` (20_memory.md R72). -/
def State.dereference (s : State) (h : Handle) : State :=
  match s.packet h with
  | none => s
  | some p =>
    if p.ref = 0 then s
    else if p.ref = 1 then { s with pm := s.pm.erase h }
    else s.setPacket h { p with ref := p.ref - 1 }

/-! ### Reset and inputs -/

/-- The reset event: every register of the block at its reset value (70_reset_and_hazards.md R300). The parameters are
unaffected, and so are the agents: what they have presented and will answer, and what they were asked. Log entry 17. -/
def State.hardReset (s : State) : State :=
  { s with
    cp := s.params.cpReset, crc := 0xFFFFFFFF#32,
    decState := .data, decPkt := none, decDiscard := false,
    encMode := .idle, encCollision := false, encPkt := none, encCursor := 0#16, encEnd := 0#16,
    fault := 0#8, pm := [], nextHandle := 1#32, result := none }

/-- The oldest input, taken from the inbox (00_scope.md R3; 20_memory.md R78). -/
def takeInput (s : State) : Option (Input × State) :=
  match s.inbox with
  | [] => none
  | i :: rest => some (i, { s with inbox := rest })

/-- A command with an undefined opcode (30_encoding.md R92). -/
def execUndefinedOpcode (s : State) : Host.Outcome State Fault Refusal := runCommand s (fun s => s.raise .badOpcode)

/-- What the block does with an input that is no instruction. -/
def execUndecoded (e : DecodeError) (s : State) : Host.Outcome State Fault Refusal :=
  match e with
  | .undefinedOpcode _ => execUndefinedOpcode s
  | .resetEvent => .next s.hardReset
  | .wrongLength _ => .refused .malformedCommand
  | .noOpcode => .refused .malformedCommand

end Sys2Proof.Machine
end

