-- ==== Sys2Proof/Machine/Code78.lean ====
section
/-! DEFINITION. The Code78 commands (spec/41_code78.md R142 to R145). -/

namespace Sys2Proof.Machine

/-- `C78_ENC_U h, v, inc, lim` (41_code78.md R142). -/
def execC78EncU (h : Handle) (v : Word) (inc lim : Half) (s : State) : Host.Outcome State Fault Refusal :=
  runCommand s (fun s => s.ifMutable h (fun p => appendCommand s h p (c78Encode v) inc.toNat lim.toNat))

/-- `C78_ENC_S h, v, inc, lim` (41_code78.md R144). -/
def execC78EncS (h : Handle) (v : Word) (inc lim : Half) (s : State) : Host.Outcome State Fault Refusal :=
  runCommand s (fun s => s.ifMutable h (fun p => appendCommand s h p (c78Encode (zigZag v)) inc.toNat lim.toNat))

/-- The Code78 reads: the value at `cur` seen through `f`, and the position after it (41_code78.md R143). -/
def readC78 (h : Handle) (cur : Half) (f : Word → Word) (s : State) : State :=
  s.ifLive h (fun p =>
    if p.len < cur.toNat then s.raise .index
    else match c78Decode s.params.c78Width p.data cur.toNat with
      | none => s.answer .bad [.word 0#32, .index 0#16]
      | some (v, next) => s.answer .good [.word (f v), indexField next])

/-- `C78_DEC_U h, cur` (41_code78.md R143). -/
def execC78DecU (h : Handle) (cur : Half) (s : State) : Host.Outcome State Fault Refusal :=
  runCommand s (readC78 h cur id)

/-- `C78_DEC_S h, cur` (41_code78.md R145). -/
def execC78DecS (h : Handle) (cur : Half) (s : State) : Host.Outcome State Fault Refusal :=
  runCommand s (readC78 h cur unZigZag)

end Sys2Proof.Machine
end

