-- ==== Sys2Proof/Machine/Crc.lean ====
section
/-! DEFINITION. The CRC-32 commands (spec/40_crc32.md R122 to R124). -/

namespace Sys2Proof.Machine

/-- `CRC_RESET` (40_crc32.md R122). -/
def execCrcReset (s : State) : Host.Outcome State Fault Refusal :=
  runCommand s (fun s => ({ s with crc := 0xFFFFFFFF#32 }).answer .good [])

/-- `CRC_SINK b` (40_crc32.md R123). -/
def execCrcSink (b : Byte) (s : State) : Host.Outcome State Fault Refusal :=
  runCommand s (fun s => ({ s with crc := crcUpdate s.crc b }).answer .good [])

/-- `CRC_GET` (40_crc32.md R124). -/
def execCrcGet (s : State) : Host.Outcome State Fault Refusal :=
  runCommand s (fun s => s.answer .good [.word (s.crc ^^^ 0xFFFFFFFF#32)])

end Sys2Proof.Machine
end

