-- ==== Sys2Proof/Machine/FrameDecoder.lean ====
section
/-! DEFINITION. The frame decoder: `DEC_RX` and its cases, the wire units (spec/44_frame_decoder.md). -/

namespace Sys2Proof.Machine

/-- How a case of the decoder ends. -/
inductive DecStep
  /-- The byte is consumed: `Good`. -/
  | consumed (s : State)
  /-- `Busy`; the state holds what the case committed, and what the agents were asked. -/
  | busy (s : State)
  /-- A fault (20_memory.md R63, R72), with the state as far as it got. -/
  | faulted (c : FaultCode) (s : State)
deriving DecidableEq, Repr

/-- The result of `DEC_RX` for a command that began at `s0` (44_frame_decoder.md R231, R241). -/
def DecStep.finish (s0 : State) : DecStep → State
  | .consumed s => s.answer .good []
  | .busy s => s.answer .busy []
  | .faulted c s => s0.raiseFrom s c

/-- `DiscardPacket()` (44_frame_decoder.md R240). -/
def discardPacket (s : State) : State :=
  match s.decPkt with
  | none => s
  | some h => { s.dereference h with decPkt := none }

/-- `EnterDiscard()` (44_frame_decoder.md R245). -/
def enterDiscard (s : State) : State := { discardPacket s with decDiscard := true }

/-- The packet being assembled, allocated and referenced where there is none yet (44_frame_decoder.md R233, R239). -/
def decPacket (s : State) : DecStep :=
  match s.decPkt with
  | some _ => .consumed s
  | none =>
    match allocate s s.params.decInitCap with
    | (.good, h, s1) =>
      match s1.packet h with
      | none => .faulted .staleHandle s1
      | some p =>
        match p.addRef s.params.refMax with
        | none => .faulted .refcount s1
        | some p' => .consumed { s1.setPacket h p' with decPkt := some h }
    | (_, _, s1) => .busy (s.undoTo s1)

/-- The append to the packet being assembled, which is there (44_frame_decoder.md R233). Its liveness is checked as
20_memory.md R63 says: log entry 14. `s0` is the state the append began at. -/
def appendAssembled (s0 s : State) (v : Byte) : DecStep :=
  match s.decPkt with
  | none => .faulted .staleHandle s
  | some h =>
    match s.packet h with
    | none => .faulted .staleHandle s
    | some p =>
      match ensureRoom s h p (p.len + 1) s.params.decIncrement s.params.decLimit with
      | (.good, p', s1) => .consumed (s1.setPacket h (p'.append [v]))
      | (.busy, _, s1) => .busy (s0.undoTo s1)
      | (.bad, _, s1) =>
        match s.params.decFailPolicy with
        | .retryAll => .busy (s0.undoTo s1)
        | .discardAtCeiling => .consumed (enterDiscard s1)

/-- `DecAppend(v)` (44_frame_decoder.md R233). -/
def decAppend (s : State) (v : Byte) : DecStep :=
  if s.decDiscard then .consumed s
  else match decPacket s with
    | .consumed s1 => appendAssembled s s1 v
    | o => o

/-- Data byte (44_frame_decoder.md R234). -/
def decDataByte (s : State) (b : Byte) : DecStep := decAppend s b

/-- Enter control (44_frame_decoder.md R235). -/
def decEnterControl (s : State) : DecStep := .consumed { s with decState := .controlSeen }

/-- Idle (44_frame_decoder.md R236). -/
def decIdle (s : State) : DecStep := .consumed s

/-- Literal pair: the control byte, committed with the return to Data, then `b` (44_frame_decoder.md R237). -/
def decLiteralPair (s : State) (b : Byte) : DecStep :=
  match decAppend s s.cp with
  | .consumed s1 => decAppend { s1 with decState := .data } b
  | o => o

/-- Escaped control byte (44_frame_decoder.md R238). -/
def decEscaped (s : State) : DecStep :=
  match decAppend s s.cp with
  | .consumed s1 => .consumed { s1 with decState := .data }
  | o => o

/-- The offer of the assembled packet and its release (44_frame_decoder.md R239, R244). `s0` is the state the command
began at. -/
def deliver (s0 s : State) : DecStep :=
  match s.decPkt with
  | none => .faulted .staleHandle s
  | some h =>
    match s.packet h with
    | none => .faulted .staleHandle s
    | some p =>
      match drawSink s h p with
      | (.busy, s1) => .busy (s0.undoTo s1)
      | (.bad, s1) =>
        .consumed { s1.dereference h with decPkt := none, decState := .data, decDiscard := false }
      | (.good k, s1) =>
        .consumed { (s1.setPacket h { p with ref := p.ref + k }).dereference h with
          decPkt := none, decState := .data, decDiscard := false }

/-- Complete packet (44_frame_decoder.md R239, R243). -/
def decComplete (s : State) : DecStep :=
  if s.decDiscard then .consumed { s with decDiscard := false, decState := .data }
  else if s.decPkt = none ∧ s.params.emptyFramePolicy = .drop then .consumed { s with decState := .data }
  else match decPacket s with
    | .consumed s1 => deliver s s1
    | o => o

/-- Abort packet (44_frame_decoder.md R240). -/
def decAbort (s : State) : DecStep := .consumed { discardPacket s with decDiscard := false, decState := .data }

/-- `DEC_RX b`, case by case (44_frame_decoder.md R231). -/
def decByte (s : State) (b : Byte) : DecStep :=
  match s.decState with
  | .data => if b ≠ s.cp then decDataByte s b else decEnterControl s
  | .controlSeen =>
    if b &&& 0xFC#8 ≠ s.cp then decLiteralPair s b
    else if b &&& 3#8 = 0#8 then decIdle s
    else if b &&& 3#8 = 1#8 then decEscaped s
    else if b &&& 3#8 = 2#8 then decComplete s
    else decAbort s

/-- `DEC_RX b` (44_frame_decoder.md R231). -/
def execDecRx (b : Byte) (s : State) : Host.Outcome State Fault Refusal :=
  runCommand s (fun s => (decByte s b).finish s)

/-! ### The wire units: a received byte whose case the position and the control byte have decided (log entry 9) -/

/-- `WIRE_DATA` (44_frame_decoder.md R234). -/
def execWireData (b : Byte) (s : State) : Host.Outcome State Fault Refusal :=
  runCommand s (fun s => (decDataByte s b).finish s)

/-- `WIRE_CTRL` (44_frame_decoder.md R235). -/
def execWireCtrl (s : State) : Host.Outcome State Fault Refusal :=
  runCommand s (fun s => (decEnterControl s).finish s)

/-- `WIRE_IDLE` (44_frame_decoder.md R236). -/
def execWireIdle (s : State) : Host.Outcome State Fault Refusal :=
  runCommand s (fun s => (decIdle s).finish s)

/-- `WIRE_ESC` (44_frame_decoder.md R238). -/
def execWireEsc (s : State) : Host.Outcome State Fault Refusal :=
  runCommand s (fun s => (decEscaped s).finish s)

/-- `WIRE_END` (44_frame_decoder.md R239). -/
def execWireEnd (s : State) : Host.Outcome State Fault Refusal :=
  runCommand s (fun s => (decComplete s).finish s)

/-- `WIRE_ABORT` (44_frame_decoder.md R240). -/
def execWireAbort (s : State) : Host.Outcome State Fault Refusal :=
  runCommand s (fun s => (decAbort s).finish s)

/-- `WIRE_LITERAL` (44_frame_decoder.md R237). -/
def execWireLiteral (b : Byte) (s : State) : Host.Outcome State Fault Refusal :=
  runCommand s (fun s => (decLiteralPair s b).finish s)

end Sys2Proof.Machine
end

