-- ==== Sys2Proof/Machine/FrameEncoder.lean ====
section
/-! DEFINITION. The frame encoder (spec/45_frame_encoder.md). -/

namespace Sys2Proof.Machine

/-- `StartPos(h, off)` on a packet's bytes (45_frame_encoder.md R261). -/
def startPos (prm : Params) (data : List Byte) (off : Nat) : Option Nat :=
  if off = 0 then some 0 else headerAt prm data off

/-- `ENC_SUBMIT h, off` (45_frame_encoder.md R260). -/
def execEncSubmit (h : Handle) (off : Byte) (s : State) : Host.Outcome State Fault Refusal :=
  runCommand s (fun s => s.ifLive h (fun p =>
    if s.decPkt = some h then s.raise .packetHeld
    else if s.encMode ≠ .idle then s.answer .busy []
    else match startPos s.params p.data off.toNat with
      | none => s.answer .bad []
      | some start =>
        match p.addRef s.params.refMax with
        | none => s.raise .refcount
        | some p' =>
          ({ s.setPacket h p' with
            encPkt := some h,
            encCursor := BitVec.ofNat 16 start,
            encEnd := BitVec.ofNat 16 p.len,
            encCollision := false,
            encMode := .transmitting }).answer .good []))

/-- How a micro-step of the encoder ends (45_frame_encoder.md R262). -/
inductive EncStep
  | progress (s : State)
  | refused (s : State)
  | faulted (c : FaultCode) (s : State)
deriving DecidableEq, Repr

/-- One byte offered to the TX sink: only `Good` takes it, and then `f` is what the step writes (45_frame_encoder.md
R262). -/
def offerByte (s : State) (v : Byte) (f : State → State) : EncStep :=
  match drawTx s v with
  | (.good, s1) => .progress (f s1)
  | (_, s1) => .refused s1

/-- The micro-step in Transmitting (45_frame_encoder.md R264). Reading past the packet's end is `F_INDEX` (20_memory.md
R62): log entry 15. -/
def stepTransmitting (s : State) (p : Packet) : EncStep :=
  if s.encCursor = s.encEnd then .progress { s with encMode := .flushCollision }
  else match p.data[s.encCursor.toNat]? with
    | none => .faulted .index s
    | some b =>
      if s.encCollision ∧ b &&& 0xFC#8 = s.cp then
        offerByte s (s.cp ||| 1#8) (fun s => { s with encCollision := false })
      else
        offerByte s b (fun s => { s with encCollision := decide (b = s.cp), encCursor := s.encCursor + 1#16 })

/-- The micro-step in FlushCollision (45_frame_encoder.md R265). -/
def stepFlush (s : State) : EncStep :=
  if s.encCollision then
    offerByte s (s.cp ||| 1#8) (fun s => { s with encCollision := false, encMode := .sendControl })
  else .progress { s with encMode := .sendControl }

/-- The micro-step in SendControl (45_frame_encoder.md R266). -/
def stepControl (s : State) : EncStep := offerByte s s.cp (fun s => { s with encMode := .sendEndOpcode })

/-- The end of a frame: the packet is `Complete`, and the encoder lets it go (45_frame_encoder.md R266). -/
def finishFrame (h : Handle) (p : Packet) (s : State) : State :=
  { (s.setPacket h { p with status := .complete }).dereference h with
    encPkt := none, encCursor := 0#16, encEnd := 0#16, encCollision := false, encMode := .idle }

/-- The micro-step in SendEndOpcode (45_frame_encoder.md R266). -/
def stepEnd (s : State) (h : Handle) (p : Packet) : EncStep := offerByte s (s.cp ||| 2#8) (finishFrame h p)

/-- `EncStep()` (45_frame_encoder.md R262), after the liveness check of R263. -/
def encStep (s : State) : EncStep :=
  match s.encPkt with
  | none => .faulted .staleHandle s
  | some h =>
    match s.packet h with
    | none => .faulted .staleHandle s
    | some p =>
      match s.encMode with
      | .idle => .progress s
      | .transmitting => stepTransmitting s p
      | .flushCollision => stepFlush s
      | .sendControl => stepControl s
      | .sendEndOpcode => stepEnd s h p

/-- The loop of `ENC_PROCESS` from `s`, in a command that began at `s0`, for at most `n` micro-steps (45_frame_encoder.md
R263). It ends before the bound: log entry 16. -/
def encLoop (s0 : State) : Nat → Bool → State → State
  | 0, _, s => s.answer .good []
  | n + 1, progressed, s =>
    match encStep s with
    | .faulted c s1 => s0.raiseFrom s1 c
    | .refused s1 => s1.answer (if progressed then .good else .busy) []
    | .progress s1 => if s1.encMode = .idle then s1.answer .good [] else encLoop s0 n true s1

/-- A bound on the micro-steps of one frame: two for a byte, then the change of mode, the flush and the two bytes of the
end sequence (45_frame_encoder.md R267). -/
def encBound (s : State) : Nat := 2 * (s.encEnd - s.encCursor).toNat + 4

/-- `ENC_PROCESS` (45_frame_encoder.md R263). -/
def execEncProcess (s : State) : Host.Outcome State Fault Refusal :=
  runCommand s (fun s => if s.encMode = .idle then s.answer .good [] else encLoop s (encBound s) false s)

end Sys2Proof.Machine
end

