-- ==== Sys2Proof/Machine/Map.lean ====
section
/-! DEFINITION. The MAP commands (spec/43_map.md R192 to R215). -/

namespace Sys2Proof.Machine

/-! ### Header byte accessors -/

/-- The checks of 43_map.md R191 for a command that reads the header byte at `hp`, then the command. -/
def atHeader (h : Handle) (hp : Half) (k : State → Packet → State) (s : State) : State :=
  s.ifLive h (fun p => s.ifIndex p hp.toNat (k s p))

/-- The checks of 43_map.md R191 for a command that writes the header byte at `hp`, then the command. -/
def atMutableHeader (h : Handle) (hp : Half) (k : State → Packet → State) (s : State) : State :=
  s.ifMutable h (fun p => s.ifIndex p hp.toNat (k s p))

/-- A flag read: the flag of mask `m` in the header byte at `hp`. -/
def getFlag (m : Byte) (h : Handle) (hp : Half) (s : State) : State :=
  atHeader h hp (fun s p => s.answer .good [.byte (flagByte (hasFlag (headerByte p.data hp.toNat) m))]) s

/-- The state with the header byte at `hp` replaced by `x`. -/
def putHeader (s : State) (h : Handle) (p : Packet) (hp : Nat) (x : Byte) : State :=
  s.setPacket h { p with data := p.data.set hp x }

/-- A flag write: the flag of mask `m` in the header byte at `hp` becomes `f` (43_map.md R190, R191). -/
def setFlag (m : Byte) (h : Handle) (hp : Half) (f : Byte) (s : State) : State :=
  s.ifLegal (legalFlag f) (atMutableHeader h hp (fun s p =>
    (putHeader s h p hp.toNat (withFlag (headerByte p.data hp.toNat) m f)).answer .good []) s)

/-- `MAP_GET_CK h, hp` (43_map.md R192). -/
def execMapGetCk (h : Handle) (hp : Half) (s : State) : Host.Outcome State Fault Refusal :=
  runCommand s (getFlag maskCk h hp)

/-- `MAP_SET_CK h, hp, f` (43_map.md R193). -/
def execMapSetCk (h : Handle) (hp : Half) (f : Byte) (s : State) : Host.Outcome State Fault Refusal :=
  runCommand s (setFlag maskCk h hp f)

/-- `MAP_GET_NP h, hp` (43_map.md R194). -/
def execMapGetNp (h : Handle) (hp : Half) (s : State) : Host.Outcome State Fault Refusal :=
  runCommand s (getFlag maskNp h hp)

/-- `MAP_SET_NP h, hp, f` (43_map.md R195). -/
def execMapSetNp (h : Handle) (hp : Half) (f : Byte) (s : State) : Host.Outcome State Fault Refusal :=
  runCommand s (setFlag maskNp h hp f)

/-- `MAP_GET_DA h, hp` (43_map.md R196). -/
def execMapGetDa (h : Handle) (hp : Half) (s : State) : Host.Outcome State Fault Refusal :=
  runCommand s (getFlag maskDa h hp)

/-- `MAP_SET_DA h, hp, f` (43_map.md R197). -/
def execMapSetDa (h : Handle) (hp : Half) (f : Byte) (s : State) : Host.Outcome State Fault Refusal :=
  runCommand s (setFlag maskDa h hp f)

/-- `MAP_GET_SA h, hp` (43_map.md R198). -/
def execMapGetSa (h : Handle) (hp : Half) (s : State) : Host.Outcome State Fault Refusal :=
  runCommand s (getFlag maskSa h hp)

/-- `MAP_SET_SA h, hp, f` (43_map.md R199). -/
def execMapSetSa (h : Handle) (hp : Half) (f : Byte) (s : State) : Host.Outcome State Fault Refusal :=
  runCommand s (setFlag maskSa h hp f)

/-- `MAP_GET_ATYPE h, hp` (43_map.md R200). -/
def execMapGetAtype (h : Handle) (hp : Half) (s : State) : Host.Outcome State Fault Refusal :=
  runCommand s (atHeader h hp (fun s p => s.answer .good [.byte (addrType (headerByte p.data hp.toNat))]))

/-- `MAP_SET_ATYPE h, hp, t` (43_map.md R201). -/
def execMapSetAtype (h : Handle) (hp : Half) (t : Byte) (s : State) : Host.Outcome State Fault Refusal :=
  runCommand s (atMutableHeader h hp (fun s p =>
    if 15 ≤ t.toNat then s.raise .addrType
    else (putHeader s h p hp.toNat (withAddrType (headerByte p.data hp.toNat) t)).answer .good []))

/-! ### Navigation -/

/-- `MAP_NEXTPROTO_POS h, hp` (43_map.md R204). -/
def execMapNextprotoPos (h : Handle) (hp : Half) (s : State) : Host.Outcome State Fault Refusal :=
  runCommand s (atHeader h hp (fun s p => s.answerPos (some (fields p.data hp.toNat).np)))

/-- `MAP_DEST_POS h, hp` (43_map.md R205). -/
def execMapDestPos (h : Handle) (hp : Half) (s : State) : Host.Outcome State Fault Refusal :=
  runCommand s (atHeader h hp (fun s p => s.answerPos (fields p.data hp.toNat).da))

/-- `MAP_SRC_POS h, hp` (43_map.md R206). -/
def execMapSrcPos (h : Handle) (hp : Half) (s : State) : Host.Outcome State Fault Refusal :=
  runCommand s (atHeader h hp (fun s p => s.answerPos (fields p.data hp.toNat).sa))

/-- `MAP_CONTENTS_POS h, hp` (43_map.md R207). -/
def execMapContentsPos (h : Handle) (hp : Half) (s : State) : Host.Outcome State Fault Refusal :=
  runCommand s (atHeader h hp (fun s p => s.answerPos (fields p.data hp.toNat).ct))

/-- `MAP_NEXT_HEADER h, hp` (43_map.md R208). -/
def execMapNextHeader (h : Handle) (hp : Half) (s : State) : Host.Outcome State Fault Refusal :=
  runCommand s (atHeader h hp (fun s p => s.answerPos (nextHeader s.params p.data hp.toNat)))

/-- `MAP_HEADER h, off` (43_map.md R209). -/
def execMapHeader (h : Handle) (off : Byte) (s : State) : Host.Outcome State Fault Refusal :=
  runCommand s (fun s => s.ifLive h (fun p => s.answerPos (headerAt s.params p.data off.toNat)))

/-- `MAP_DATA h, off` (43_map.md R210). -/
def execMapData (h : Handle) (off : Byte) (s : State) : Host.Outcome State Fault Refusal :=
  runCommand s (fun s => s.ifLive h (fun p => s.answerPos (getData s.params p.data off.toNat)))

/-! ### Checksums -/

/-- The reasons of `MAP_VALIDATE` (43_map.md R214). -/
inductive CkReason
  | ok
  | empty
  | noHeader
  | requiredMissing
  | short
  | mismatch
deriving DecidableEq, Repr

/-- A reason's code (43_map.md R214). -/
def reasonCode : CkReason → Byte
  | .ok => 0#8
  | .empty => 1#8
  | .noHeader => 2#8
  | .requiredMissing => 3#8
  | .short => 4#8
  | .mismatch => 5#8

/-- The failure result at level `j`. A level above 255 does not fit its field, and the spec states no value for it: the
reported byte is then a free value (log entry 13). -/
def answerLevel (s : State) (r : CkReason) (j : Nat) : State :=
  match s.byteField Config.freeLevel j with
  | (level, s') => s'.answer .bad [.byte (reasonCode r), level]

/-- `MAP_VALIDATE` on a live packet that it may change if it must (43_map.md R212, R213). -/
def validatePacket (s : State) (h : Handle) (p : Packet) (off req rem : Byte) : State :=
  if p.len = 0 then s.answer .bad [.byte (reasonCode .empty), .byte 0#8]
  else match headerAt s.params p.data off.toNat with
    | none => s.answer .bad [.byte (reasonCode .noHeader), .byte 0#8]
    | some hp =>
      if req = 1#8 ∧ ¬ hasFlag (headerByte p.data hp) maskCk then
        s.answer .bad [.byte (reasonCode .requiredMissing), .byte 0#8]
      else match checkLevels p.data (headerWalk s.params p.data hp) p.len 0 [] with
        | .short j => answerLevel s .short j
        | .mismatch j => answerLevel s .mismatch j
        | .passed stop removed =>
          let s' := if rem = 1#8
            then s.setPacket h { p with data := removeTrailers s.params.clearCkBitsOnRemove p.data stop removed }
            else s
          s'.answer .good [.byte (reasonCode .ok), .byte 0#8]

/-- `MAP_VALIDATE h, off, req, rem` (43_map.md R212). -/
def execMapValidate (h : Handle) (off req rem : Byte) (s : State) : Host.Outcome State Fault Refusal :=
  runCommand s (fun s => s.ifLegal (legalFlag req && legalFlag rem) (s.ifLive h (fun p =>
    if rem = 1#8 ∧ s.held h then s.raise .packetHeld else validatePacket s h p off req rem)))

/-- `MAP_APPEND_CHECKSUM h, off` (43_map.md R215). -/
def execMapAppendChecksum (h : Handle) (off : Byte) (s : State) : Host.Outcome State Fault Refusal :=
  runCommand s (fun s => s.ifMutable h (fun p =>
    match headerAt s.params p.data off.toNat with
    | none => s.answer .bad []
    | some hp =>
      if hasFlag (headerByte p.data hp) maskCk then s.answer .good []
      else match ensureRoom s h p (p.len + 4) 1 s.params.lenMax with
        | (.good, p', s') => (s'.setPacket h { p' with data := withChecksum p.data hp }).answer .good []
        | (.busy, _, s') => s'.answer .busy []
        | (.bad, _, s') => s'.answer .bad []))

end Sys2Proof.Machine
end

