-- ==== Sys2Proof/Machine/PacketBuffer.lean ====
section
/-! DEFINITION. The packet buffer commands (spec/42_packet_buffer.md R160 to R171). -/

namespace Sys2Proof.Machine

/-- `PB_ALLOC cap` (42_packet_buffer.md R160). -/
def execPbAlloc (cap : Half) (s : State) : Host.Outcome State Fault Refusal :=
  runCommand s (fun s =>
    match allocate s cap.toNat with
    | (r, h, s') => s'.answer r [.word h])

/-- `PB_SET_CAPACITY h, cap` (42_packet_buffer.md R161). -/
def execPbSetCapacity (h : Handle) (cap : Half) (s : State) : Host.Outcome State Fault Refusal :=
  runCommand s (fun s => s.ifMutable h (fun p =>
    if cap.toNat < p.len ∨ cap.toNat = 0 ∨ s.params.lenMax < cap.toNat then s.answer .bad []
    else if cap.toNat = p.cap then s.answer .good []
    else match drawRealloc s h cap.toNat with
      | (false, s1) => s1.answer .busy []
      | (true, s1) => (s1.setPacket h { p with cap := cap.toNat }).answer .good []))

/-- `PB_APPEND h, b, inc, lim` (42_packet_buffer.md R162). -/
def execPbAppend (h : Handle) (b : Byte) (inc lim : Half) (s : State) : Host.Outcome State Fault Refusal :=
  runCommand s (fun s => s.ifMutable h (fun p => appendCommand s h p [b] inc.toNat lim.toNat))

/-- `PB_REFERENCE h` (42_packet_buffer.md R163). -/
def execPbReference (h : Handle) (s : State) : Host.Outcome State Fault Refusal :=
  runCommand s (fun s => s.ifLive h (fun p =>
    match p.addRef s.params.refMax with
    | none => s.raise .refcount
    | some p' => (s.setPacket h p').answer .good []))

/-- `PB_DEREFERENCE h` (42_packet_buffer.md R164). -/
def execPbDereference (h : Handle) (s : State) : Host.Outcome State Fault Refusal :=
  runCommand s (fun s =>
    match s.packet h with
    | none => s.answer .good []
    | some p =>
      if s.held h ∧ p.ref ≤ s.heldRefs h then s.raise .packetHeld
      else (s.dereference h).answer .good [])

/-- `PB_SET_STATUS h, s` (42_packet_buffer.md R165). -/
def execPbSetStatus (h : Handle) (st : Byte) (s : State) : Host.Outcome State Fault Refusal :=
  runCommand s (fun s => s.ifLegal (legalStatus st) (s.ifLive h (fun p =>
    (s.setPacket h { p with status := statusOfCode st }).answer .good [])))

/-- `PB_GET_STATUS h` (42_packet_buffer.md R166). -/
def execPbGetStatus (h : Handle) (s : State) : Host.Outcome State Fault Refusal :=
  runCommand s (fun s => s.ifLive h (fun p => s.answer .good [.byte (statusCode p.status)]))

/-- `PB_GET_LENGTH h` (42_packet_buffer.md R167). -/
def execPbGetLength (h : Handle) (s : State) : Host.Outcome State Fault Refusal :=
  runCommand s (fun s => s.ifLive h (fun p => s.answer .good [indexField p.len]))

/-- `PB_GET_CAPACITY h` (42_packet_buffer.md R168). -/
def execPbGetCapacity (h : Handle) (s : State) : Host.Outcome State Fault Refusal :=
  runCommand s (fun s => s.ifLive h (fun p => s.answer .good [indexField p.cap]))

/-- `PB_GET_REFCOUNT h` (42_packet_buffer.md R169). -/
def execPbGetRefcount (h : Handle) (s : State) : Host.Outcome State Fault Refusal :=
  runCommand s (fun s => s.ifLive h (fun p =>
    match s.byteField Config.freeCount p.ref with
    | (f, s') => s'.answer .good [f]))

/-- `PB_READ h, i` (42_packet_buffer.md R170). -/
def execPbRead (h : Handle) (idx : Half) (s : State) : Host.Outcome State Fault Refusal :=
  runCommand s (fun s => s.ifLive h (fun p =>
    match p.data[idx.toNat]? with
    | none => s.raise .index
    | some b => s.answer .good [.byte b]))

/-- `PB_WRITE h, i, b` (42_packet_buffer.md R171). -/
def execPbWrite (h : Handle) (idx : Half) (b : Byte) (s : State) : Host.Outcome State Fault Refusal :=
  runCommand s (fun s => s.ifMutable h (fun p => s.ifIndex p idx.toNat
    ((s.setPacket h { p with data := p.data.set idx.toNat b }).answer .good [])))

end Sys2Proof.Machine
end

