-- ==== Sys2Proof/Machine/System.lean ====
section
/-! DEFINITION. The configuration and system commands (spec/46_system.md). -/

namespace Sys2Proof.Machine

/-- No frame is in progress in either direction (46_system.md R275; 70_reset_and_hazards.md R313). -/
def State.quiescent (s : State) : Bool :=
  s.decState = .data && s.decPkt = none && !s.decDiscard && s.encMode = .idle

/-- `CFG_SET_PREFIX cp` (46_system.md R275). -/
def execCfgSetPrefix (v : Byte) (s : State) : Host.Outcome State Fault Refusal :=
  runCommand s (fun s =>
    if v &&& 3#8 ≠ 0#8 then s.raise .badPrefix
    else if s.quiescent then ({ s with cp := v }).answer .good []
    else s.answer .busy [])

/-- `CFG_GET_PREFIX` (46_system.md R276). -/
def execCfgGetPrefix (s : State) : Host.Outcome State Fault Refusal :=
  runCommand s (fun s => s.answer .good [.byte s.cp])

/-- `SYS_GET_FAULT` (46_system.md R277): the one command that runs in the Faulted state (60_exceptions.md R281). -/
def execSysGetFault (s : State) : Host.Outcome State Fault Refusal :=
  .next (s.answer .good [.byte s.fault])

end Sys2Proof.Machine
end

