-- ==== Sys2Proof/Machine/Dispatch.lean ====
section
/-! DEFINITION. The meaning of every instruction, one arm per constructor (spec/30_encoding.md R91; spec/44_frame_decoder.md R232). -/

namespace Sys2Proof.Machine

def exec (i : Instr) (s : State) : Host.Outcome State Fault Refusal :=
  match i with
  | .crcReset => Sys2Proof.Machine.execCrcReset s
  | .crcSink b => Sys2Proof.Machine.execCrcSink b s
  | .crcGet => Sys2Proof.Machine.execCrcGet s
  | .c78EncU h v inc lim => Sys2Proof.Machine.execC78EncU h v inc lim s
  | .c78DecU h cur => Sys2Proof.Machine.execC78DecU h cur s
  | .c78EncS h v inc lim => Sys2Proof.Machine.execC78EncS h v inc lim s
  | .c78DecS h cur => Sys2Proof.Machine.execC78DecS h cur s
  | .pbAlloc cap => Sys2Proof.Machine.execPbAlloc cap s
  | .pbSetCapacity h cap => Sys2Proof.Machine.execPbSetCapacity h cap s
  | .pbAppend h b inc lim => Sys2Proof.Machine.execPbAppend h b inc lim s
  | .pbReference h => Sys2Proof.Machine.execPbReference h s
  | .pbDereference h => Sys2Proof.Machine.execPbDereference h s
  | .pbSetStatus h st => Sys2Proof.Machine.execPbSetStatus h st s
  | .pbGetStatus h => Sys2Proof.Machine.execPbGetStatus h s
  | .pbGetLength h => Sys2Proof.Machine.execPbGetLength h s
  | .pbGetCapacity h => Sys2Proof.Machine.execPbGetCapacity h s
  | .pbGetRefcount h => Sys2Proof.Machine.execPbGetRefcount h s
  | .pbRead h idx => Sys2Proof.Machine.execPbRead h idx s
  | .pbWrite h idx b => Sys2Proof.Machine.execPbWrite h idx b s
  | .mapGetCk h hp => Sys2Proof.Machine.execMapGetCk h hp s
  | .mapSetCk h hp f => Sys2Proof.Machine.execMapSetCk h hp f s
  | .mapGetNp h hp => Sys2Proof.Machine.execMapGetNp h hp s
  | .mapSetNp h hp f => Sys2Proof.Machine.execMapSetNp h hp f s
  | .mapGetDa h hp => Sys2Proof.Machine.execMapGetDa h hp s
  | .mapSetDa h hp f => Sys2Proof.Machine.execMapSetDa h hp f s
  | .mapGetSa h hp => Sys2Proof.Machine.execMapGetSa h hp s
  | .mapSetSa h hp f => Sys2Proof.Machine.execMapSetSa h hp f s
  | .mapGetAtype h hp => Sys2Proof.Machine.execMapGetAtype h hp s
  | .mapSetAtype h hp t => Sys2Proof.Machine.execMapSetAtype h hp t s
  | .mapNextprotoPos h hp => Sys2Proof.Machine.execMapNextprotoPos h hp s
  | .mapDestPos h hp => Sys2Proof.Machine.execMapDestPos h hp s
  | .mapSrcPos h hp => Sys2Proof.Machine.execMapSrcPos h hp s
  | .mapContentsPos h hp => Sys2Proof.Machine.execMapContentsPos h hp s
  | .mapNextHeader h hp => Sys2Proof.Machine.execMapNextHeader h hp s
  | .mapHeader h off => Sys2Proof.Machine.execMapHeader h off s
  | .mapData h off => Sys2Proof.Machine.execMapData h off s
  | .mapValidate h off req rem => Sys2Proof.Machine.execMapValidate h off req rem s
  | .mapAppendChecksum h off => Sys2Proof.Machine.execMapAppendChecksum h off s
  | .decRx b => Sys2Proof.Machine.execDecRx b s
  | .encSubmit h off => Sys2Proof.Machine.execEncSubmit h off s
  | .encProcess => Sys2Proof.Machine.execEncProcess s
  | .cfgSetPrefix v => Sys2Proof.Machine.execCfgSetPrefix v s
  | .cfgGetPrefix => Sys2Proof.Machine.execCfgGetPrefix s
  | .sysGetFault => Sys2Proof.Machine.execSysGetFault s
  | .wireData b => Sys2Proof.Machine.execWireData b s
  | .wireCtrl => Sys2Proof.Machine.execWireCtrl s
  | .wireIdle => Sys2Proof.Machine.execWireIdle s
  | .wireEsc => Sys2Proof.Machine.execWireEsc s
  | .wireEnd => Sys2Proof.Machine.execWireEnd s
  | .wireAbort => Sys2Proof.Machine.execWireAbort s
  | .wireLiteral b => Sys2Proof.Machine.execWireLiteral b s

end Sys2Proof.Machine
end

