-- ==== Sys2Proof/Machine/Step.lean ====
section
/-! DEFINITION. One step of the machine: the oldest input is taken, decoded and run (spec/00_scope.md R3, R16). -/

namespace Sys2Proof.Machine

/-- One step: with no input the state stays as it is (60_exceptions.md R295); an input that is no instruction is an
undefined opcode (30_encoding.md R92), the reset event (70_reset_and_hazards.md R300) or no command at all. -/
def step (s : State) : Host.Outcome State Fault Refusal :=
  match takeInput s with
  | none => .next s
  | some (i, s1) =>
    match decode s.decState s.cp i with
    | .ok instr => exec instr s1
    | .error e => execUndecoded e s1

/-- The state with a table word presented as the next input; for a received byte the decoder stands where the table's row
says (log entry 9). -/
def State.withFetchWord (s : State) (nbits w : Nat) : State :=
  { s with
    inbox := tableInput nbits w :: s.inbox,
    decState := (tableDecState nbits w).getD s.decState }

end Sys2Proof.Machine
end

