-- ==== Sys2Proof/Safety.lean ====
section
/-! DEFINITION. What counts as a good state, what a run of commands is, and what the agents see of it, in the terms the
claims use. -/

namespace Sys2Proof.Machine

/-! ### Outcomes -/

/-- The command answers `st` with these fields, and leaves the state `s` else. -/
abbrev answers (s : State) (st : Verdict) (fs : List Field) : Host.Outcome State Fault Refusal :=
  .next { s with result := some ⟨st, fs⟩ }

/-- The command faults: the code is latched, nothing else changes, and there is no result (60_exceptions.md R282). -/
abbrev faultsWith (s : State) (code : Byte) : Host.Outcome State Fault Refusal :=
  .next { s with fault := code, result := none }

/-- Commands one after another, stopping where one stops. -/
def execAll : List Instr → State → Host.Outcome State Fault Refusal
  | [], s => .next s
  | i :: is, s =>
    match exec i s with
    | .next t => execAll is t
    | .fault r => .fault r
    | .refused r => .refused r

/-! ### Good states -/

/-- The invariant of the block: what 10_state.md R31, R36, R40, R42 and R43, 42_packet_buffer.md R173 and 43's checks rely
on, with 00_scope.md R9's ranges of the parameters. -/
structure State.Good (s : State) : Prop where
  /-- The parameters are in their ranges (00_scope.md R9). -/
  params : s.params.wf
  /-- The packet memory has its one canonical form. -/
  memory : Memory.wf s.pm
  /-- Every record is in its bounds (10_state.md R42). -/
  records : ∀ h p, s.packet h = some p →
    1 ≤ p.cap ∧ p.cap ≤ s.params.lenMax ∧ p.len ≤ p.cap ∧ p.ref ≤ s.params.refMax
  /-- A live handle is not 0 and was handed out (10_state.md R43). -/
  handles : ∀ h p, s.packet h = some p → h ≠ 0#32 ∧ h < s.nextHandle
  /-- The next handle is not 0 (10_state.md R43). -/
  nextHandle : s.nextHandle ≠ 0#32
  /-- The control byte has its two low bits clear (10_state.md R31). -/
  control : s.cp &&& 3#8 = 0#8
  /-- The fault register holds 0 or a code of 60_exceptions.md R280. -/
  faultCode : s.fault ≤ 8#8
  /-- The decoder holds no packet while it discards (10_state.md R36). -/
  discard : s.decDiscard = true → s.decPkt = none
  /-- The encoder is idle exactly when it holds no packet (10_state.md R40). -/
  idle : s.encMode = .idle ↔ s.encPkt = none
  /-- A held packet is live and has the block's references (42_packet_buffer.md R173). -/
  held : ∀ h, s.held h = true → ∃ p, s.packet h = some p ∧ 1 ≤ s.heldRefs h ∧ s.heldRefs h ≤ p.ref
  /-- The decoder and the encoder never hold the same packet (45_frame_encoder.md R260). -/
  apart : ∀ h, s.decPkt = some h → s.encPkt ≠ some h
  /-- The encoder's cursor is in its packet, and its end is the packet's end (10_state.md R40; 45_frame_encoder.md R260). -/
  cursor : ∀ h p, s.encPkt = some h → s.packet h = some p →
    s.encCursor.toNat ≤ s.encEnd.toNat ∧ s.encEnd.toNat = p.len
  /-- A collision is pending only before the end sequence (10_state.md R38; 45_frame_encoder.md R265). -/
  collision : s.encCollision = true → s.encMode = .transmitting ∨ s.encMode = .flushCollision

/-! ### What the agents see -/

/-- The bytes the TX sink has taken, in order (45_frame_encoder.md R268). -/
def acceptedBytes (log : List Event) : List Byte :=
  log.filterMap (fun e => match e with
    | .tx v .good => some v
    | _ => none)

/-- The packets delivered, in order: the offers answered `Good` or `Bad`, each with its bytes (44_frame_decoder.md R244). -/
def deliveredPackets (log : List Event) : List (List Byte) :=
  log.filterMap (fun e => match e with
    | .offer _ _ bytes (.good _) => some bytes
    | .offer _ _ bytes .bad => some bytes
    | _ => none)

/-- What the encoder has still to put on the wire for the frame in flight (45_frame_encoder.md R264 to R266, R268). -/
def State.wireRemainder (s : State) : List Byte :=
  match s.encPkt.bind s.packet with
  | none => []
  | some p =>
    match s.encMode with
    | .idle => []
    | .transmitting =>
      encodeLoop s.cp ((p.data.take s.encEnd.toNat).drop s.encCursor.toNat) s.encCollision ++ [s.cp, s.cp ||| 2#8]
    | .flushCollision => (if s.encCollision then [s.cp ||| 1#8] else []) ++ [s.cp, s.cp ||| 2#8]
    | .sendControl => [s.cp, s.cp ||| 2#8]
    | .sendEndOpcode => [s.cp ||| 2#8]

/-! ### Which instructions may write what (10_state.md R30) -/

/-- `DEC_RX` and the wire units, which are its cases: the RX source's instructions (00_scope.md R4). -/
def isReceive : Instr → Bool
  | .decRx _ => true
  | .wireData _ => true
  | .wireCtrl => true
  | .wireIdle => true
  | .wireEsc => true
  | .wireEnd => true
  | .wireAbort => true
  | .wireLiteral _ => true
  | _ => false

/-- The wire unit that a receiving instruction is: for `DEC_RX`, the one its byte is (44_frame_decoder.md R232). -/
def wireUnit (i : Instr) (s : State) : Instr :=
  match i with
  | .decRx b => decodeWire s.decState s.cp b
  | i => i

/-- The byte lists a wire unit may append to the packet being assembled; it appends none where it is refused, or drops the
packet (44_frame_decoder.md R233 to R240). -/
def unitAppends (cp : Byte) : Instr → List (List Byte)
  | .wireData b => [[], [b]]
  | .wireEsc => [[], [cp]]
  | .wireLiteral b => [[], [cp], [cp, b]]
  | _ => [[]]

/-- The packet bytes a command of the host stores to, where it completes: the handle and the index of each
(20_memory.md R62, R73). A removal of trailers takes away the bytes from the stop position on and stores to the removed
levels' header bytes (43_map.md R213). -/
def storesTo (i : Instr) (s : State) (h : Handle) (a : Nat) : Prop :=
  match i with
  | .pbWrite h' idx _ => h = h' ∧ a = idx.toNat
  | .mapSetCk h' hp _ => h = h' ∧ a = hp.toNat
  | .mapSetNp h' hp _ => h = h' ∧ a = hp.toNat
  | .mapSetDa h' hp _ => h = h' ∧ a = hp.toNat
  | .mapSetSa h' hp _ => h = h' ∧ a = hp.toNat
  | .mapSetAtype h' hp _ => h = h' ∧ a = hp.toNat
  | .pbAppend h' _ _ _ => h = h' ∧ ∃ p, s.packet h = some p ∧ a = p.len
  | .c78EncU h' v _ _ => h = h' ∧ ∃ p, s.packet h = some p ∧ p.len ≤ a ∧ a < p.len + c78Groups v
  | .c78EncS h' v _ _ => h = h' ∧ ∃ p, s.packet h = some p ∧ p.len ≤ a ∧ a < p.len + c78Groups (zigZag v)
  | .mapAppendChecksum h' off => h = h' ∧ ∃ p, s.packet h = some p ∧
      (headerAt s.params p.data off.toNat = some a ∨ (p.len ≤ a ∧ a < p.len + 4))
  | .mapValidate h' off _ rem => h = h' ∧ rem = 1#8 ∧ ∃ p hp stop removed, s.packet h = some p ∧
      headerAt s.params p.data off.toNat = some hp ∧
      checkLevels p.data (headerWalk s.params p.data hp) p.len 0 [] = .passed stop removed ∧
      (stop ≤ a ∨ a ∈ removed)
  | _ => False

/-- The opcodes that 30_encoding.md R92 lists as undefined. -/
def undefinedOpcode (op : Byte) : Prop :=
  op.toNat = 0x00 ∨ (0x04 ≤ op.toNat ∧ op.toNat ≤ 0x0F) ∨ (0x14 ≤ op.toNat ∧ op.toNat ≤ 0x1F) ∨
  (0x2C ≤ op.toNat ∧ op.toNat ≤ 0x2F) ∨ (0x3A ≤ op.toNat ∧ op.toNat ≤ 0x3F) ∨ op.toNat = 0x47 ∨
  (0x4A ≤ op.toNat ∧ op.toNat ≤ 0x4F) ∨ (0x51 ≤ op.toNat ∧ op.toNat ≤ 0x5F) ∨
  (0x62 ≤ op.toNat ∧ op.toNat ≤ 0x6F) ∨ 0x73 ≤ op.toNat

/-- The handle operand of a command (30_encoding.md R91). -/
def handleOf : Instr → Option Handle
  | .c78EncU h _ _ _ => some h
  | .c78DecU h _ => some h
  | .c78EncS h _ _ _ => some h
  | .c78DecS h _ => some h
  | .pbSetCapacity h _ => some h
  | .pbAppend h _ _ _ => some h
  | .pbReference h => some h
  | .pbDereference h => some h
  | .pbSetStatus h _ => some h
  | .pbGetStatus h => some h
  | .pbGetLength h => some h
  | .pbGetCapacity h => some h
  | .pbGetRefcount h => some h
  | .pbRead h _ => some h
  | .pbWrite h _ _ => some h
  | .mapGetCk h _ => some h
  | .mapSetCk h _ _ => some h
  | .mapGetNp h _ => some h
  | .mapSetNp h _ _ => some h
  | .mapGetDa h _ => some h
  | .mapSetDa h _ _ => some h
  | .mapGetSa h _ => some h
  | .mapSetSa h _ _ => some h
  | .mapGetAtype h _ => some h
  | .mapSetAtype h _ _ => some h
  | .mapNextprotoPos h _ => some h
  | .mapDestPos h _ => some h
  | .mapSrcPos h _ => some h
  | .mapContentsPos h _ => some h
  | .mapNextHeader h _ => some h
  | .mapHeader h _ => some h
  | .mapData h _ => some h
  | .mapValidate h _ _ _ => some h
  | .mapAppendChecksum h _ => some h
  | .encSubmit h _ => some h
  | _ => none

/-- The mutating commands (20_memory.md R73). -/
def mutates : Instr → Bool
  | .pbSetCapacity _ _ => true
  | .pbAppend _ _ _ _ => true
  | .pbWrite _ _ _ => true
  | .c78EncU _ _ _ _ => true
  | .c78EncS _ _ _ _ => true
  | .mapSetCk _ _ _ => true
  | .mapSetNp _ _ _ => true
  | .mapSetDa _ _ _ => true
  | .mapSetSa _ _ _ => true
  | .mapSetAtype _ _ _ => true
  | .mapAppendChecksum _ _ => true
  | .mapValidate _ _ _ rem => rem = 1#8
  | _ => false

/-- The packets an instruction may change, create or free: the one its operand names, the one `PB_ALLOC` makes, the
encoder's (45_frame_encoder.md R266), and the decoder's, old or new (44_frame_decoder.md R230). -/
def touches (i : Instr) (s : State) (k : Handle) : Prop :=
  handleOf i = some k ∨
  ((∃ cap, i = .pbAlloc cap) ∧ k = s.nextHandle) ∨
  (i = .encProcess ∧ s.encPkt = some k) ∨
  (isReceive i = true ∧ (s.decPkt = some k ∨ k = s.nextHandle))

/-- The state with every packet's status tag blotted out: what every command but `PB_GET_STATUS` can see of it
(20_memory.md R75). -/
def State.withoutStatus (s : State) : State :=
  { s with pm := s.pm.map (fun e => (e.1, { e.2 with status := .busy })) }

/-- A navigation command's answer (43_map.md R205 to R210; 30_encoding.md R95). -/
def answersPos (s : State) : Option Nat → Host.Outcome State Fault Refusal
  | some p => answers s .good [.index (BitVec.ofNat 16 p)]
  | none => answers s .bad [.index 0#16]

/-! ### Code78 fields and checksum levels, as the encodings lay them out -/

/-- A run of bytes that all say that more bytes follow (30_encoding.md R103). -/
def allContinue (l : List Byte) : Prop := ∀ b ∈ l, b &&& 0x80#8 ≠ 0#8

/-- A Code78 field: continuation bytes, then one byte with bit 7 clear (30_encoding.md R103). -/
def isC78Field (l : List Byte) : Prop := ∃ cs b, l = cs ++ [b] ∧ allContinue cs ∧ b &&& 0x80#8 = 0#8

/-- The number a Code78 sequence writes in base 128, most significant group first (30_encoding.md R104). -/
def c78Value (l : List Byte) : Nat := l.foldl (fun a b => 128 * a + (b &&& 0x7F#8).toNat) 0

/-- The header byte at `p` has its checksum-present bit set. -/
def ckAt (data : List Byte) (p : Nat) : Bool := hasFlag (headerByte data p) maskCk

/-- The stop position before level `j` of a walk: four bytes back for every checksummed level outside it
(43_map.md R211). -/
def levelStop (data : List Byte) (ps : List Nat) (j : Nat) : Nat :=
  data.length - 4 * ((ps.take j).filter (ckAt data)).length

/-- Level `j` of a walk has room for its trailer (43_map.md R212). -/
def levelFits (data : List Byte) (ps : List Nat) (j : Nat) : Prop :=
  ∀ p, ps[j]? = some p → ckAt data p = true → p + 4 ≤ levelStop data ps j

/-- Level `j` of a walk has the trailer of its scope (43_map.md R211). -/
def levelMatches (data : List Byte) (ps : List Nat) (j : Nat) : Prop :=
  ∀ p, ps[j]? = some p → ckAt data p = true →
    (data.take (levelStop data ps j)).drop (levelStop data ps j - 4) =
      crcTrailer (crc32 ((data.take (levelStop data ps j - 4)).drop p))

/-! ### A receiver that retries -/

/-- The RX source at work: each byte by `DEC_RX`, again while it is answered `Busy` (00_scope.md R4; 30_encoding.md R111),
for at most `n` commands; none where they do not consume every byte. -/
def receive : Nat → List Byte → State → Option State
  | _, [], s => some s
  | 0, _ :: _, _ => none
  | n + 1, b :: bs, s =>
    match exec (.decRx b) s with
    | .next t =>
      match t.result with
      | some ⟨.good, _⟩ => receive n bs t
      | some ⟨.busy, _⟩ => receive n (b :: bs) t
      | _ => none
    | .fault _ => none
    | .refused _ => none

end Sys2Proof.Machine
end

