-- ==== Sys2Proof/Certificates/Slice0/Obligations.lean ====
section
/-! DEFINITION. The statements for the provers, from the numbered rules of spec/. Where a statement speaks of an agent's
answer it names it through `drawAlloc`, `drawRealloc`, `drawTx` or `drawSink` at the state where the command asks. -/

section

open Sys2Proof Sys2Proof.Machine

/-! ### Encoding -/

/-- Decoding the encoding of an instruction gives the instruction, with every operand at every value its field admits, and
for a wire unit wherever its condition holds (30_encoding.md R90, R91, R98; 44_frame_decoder.md R232). -/
def Obligations.EncodedInstructionsDecodeBack : Prop :=
  ∀ (i : Instr) (d : DecState) (cp : Byte), legalControl cp = true → i.fitsWire d cp = true →
    decode d cp (encode cp i) = .ok i

/-- An input that decodes to an instruction is the encoding of that instruction: no bit of an input is dropped, and a
received byte decodes to a wire unit only under that unit's condition (30_encoding.md R90, R99; 44_frame_decoder.md R232). -/
def Obligations.DecodedInputsEncodeBack : Prop :=
  ∀ (x : Input) (i : Instr) (d : DecState) (cp : Byte), legalControl cp = true → decode d cp x = .ok i →
    encode cp i = x ∧ i.fitsWire d cp = true

/-- Byte strings written out from the spec's encodings decode to the commands they stand for: the example of
30_encoding.md R90, one command of each family by R91, and the seven wire units of 44_frame_decoder.md R232 with the
control byte 3C. -/
def Obligations.SpecByteStringsDecode : Prop :=
  decodeCommand [0x2A#8, 0x07#8, 0#8, 0#8, 0#8, 0x02#8, 0#8] = .ok (.pbRead 7#32 2#16) ∧
  decodeCommand [0x02#8, 0x31#8] = .ok (.crcSink 0x31#8) ∧
  decodeCommand [0x10#8, 0x01#8, 0#8, 0#8, 0#8, 0x2C#8, 0x01#8, 0#8, 0#8, 0x04#8, 0#8, 0x00#8, 0x01#8] =
    .ok (.c78EncU 1#32 300#32 4#16 256#16) ∧
  decodeCommand [0x48#8, 0x01#8, 0#8, 0#8, 0#8, 0x02#8, 0x01#8, 0x00#8] = .ok (.mapValidate 1#32 2#8 1#8 0#8) ∧
  decodeCommand [0x39#8, 0x01#8, 0#8, 0#8, 0x80#8, 0x34#8, 0x12#8, 0x0E#8] =
    .ok (.mapSetAtype 0x80000001#32 0x1234#16 14#8) ∧
  decodeCommand [0x50#8, 0x3C#8] = .ok (.decRx 0x3C#8) ∧
  decodeCommand [0x60#8, 0x01#8, 0#8, 0#8, 0#8, 0x03#8] = .ok (.encSubmit 1#32 3#8) ∧
  decodeCommand [0x70#8, 0x7C#8] = .ok (.cfgSetPrefix 0x7C#8) ∧
  decodeCommand [0x72#8] = .ok .sysGetFault ∧
  decodeWire .data 0x3C#8 0x3D#8 = .wireData 0x3D#8 ∧
  decodeWire .data 0x3C#8 0x3C#8 = .wireCtrl ∧
  decodeWire .controlSeen 0x3C#8 0x3C#8 = .wireIdle ∧
  decodeWire .controlSeen 0x3C#8 0x3D#8 = .wireEsc ∧
  decodeWire .controlSeen 0x3C#8 0x3E#8 = .wireEnd ∧
  decodeWire .controlSeen 0x3C#8 0x3F#8 = .wireAbort ∧
  decodeWire .controlSeen 0x3C#8 0x40#8 = .wireLiteral 0x40#8

/-- The undefined opcodes are exactly those that 30_encoding.md R92 lists, and a command with one raises `F_BAD_OPCODE`
whatever follows the opcode; every other opcode begins some command. -/
def Obligations.UndefinedOpcodesRaiseBadOpcode : Prop :=
  (∀ (s : State) (op : Byte) (ops : List Byte) (rest : List Input), s.fault = 0#8 → undefinedOpcode op →
    s.inbox = .command (op :: ops) :: rest → step s = faultsWith { s with inbox := rest } 7#8) ∧
  (∀ (op : Byte), ¬ undefinedOpcode op → ∃ ops i, decodeCommand (op :: ops) = .ok i)

/-- A command whose `F` field is not 0 or 1, or whose `S` field is above 3, raises `F_BAD_ARG`, before any other check; and
nothing else raises it (30_encoding.md R94; 60_exceptions.md R283, R284). -/
def Obligations.IllegalFlagOperandsRaiseBadArg : Prop :=
  (∀ (i : Instr) (s : State), s.fault = 0#8 → i.wellFormed = false → exec i s = faultsWith s 8#8) ∧
  (∀ (i : Instr) (s t : State), s.fault = 0#8 → i.wellFormed = true → exec i s = .next t → t.fault ≠ 8#8)

/-! ### The machine -/

/-- A step takes the oldest input. Where it decodes to an instruction, the step is that instruction at the state without
the input; an empty inbox changes nothing (60_exceptions.md R295); a byte string with a defined opcode and not exactly its
operand fields is refused by name (the model's choice: log entry 7). -/
def Obligations.StepRunsTheDecodedInstruction : Prop :=
  ∀ (s : State),
    (s.inbox = [] → step s = .next s) ∧
    (∀ x rest i, s.inbox = x :: rest → decode s.decState s.cp x = .ok i →
      step s = exec i { s with inbox := rest }) ∧
    (∀ x rest op, s.inbox = x :: rest → decode s.decState s.cp x = .error (.wrongLength op) →
      step s = .refused .malformedCommand)

/-- The reset event sets every register of the block to its reset value in one step, asks no agent, and leaves the
parameters as they are; power-on leaves the same values, with `CP_RESET` = 3C (70_reset_and_hazards.md R300). -/
def Obligations.ResetSetsEveryRegister : Prop :=
  (∀ (s : State) (rest : List Input), s.inbox = .reset :: rest → ∃ t, step s = .next t ∧
    t.cp = s.params.cpReset ∧ t.crc = 0xFFFFFFFF#32 ∧ t.decState = .data ∧ t.decPkt = none ∧ t.decDiscard = false ∧
    t.encMode = .idle ∧ t.encCollision = false ∧ t.encPkt = none ∧ t.encCursor = 0#16 ∧ t.encEnd = 0#16 ∧
    t.fault = 0#8 ∧ t.pm = [] ∧ t.nextHandle = 1#32 ∧ t.params = s.params ∧ t.log = s.log ∧ t.draws = s.draws) ∧
  State.reset.params.cpReset = 0x3C#8 ∧ State.reset.cp = 0x3C#8 ∧
  State.reset.crc = 0xFFFFFFFF#32 ∧ State.reset.decState = .data ∧
  State.reset.decPkt = none ∧ State.reset.decDiscard = false ∧ State.reset.encMode = .idle ∧
  State.reset.encCollision = false ∧ State.reset.encPkt = none ∧ State.reset.encCursor = 0#16 ∧
  State.reset.encEnd = 0#16 ∧ State.reset.fault = 0#8 ∧ State.reset.pm = [] ∧ State.reset.nextHandle = 1#32

/-- The state after power-on is good, whatever the OPEN parameters are: every invariant of the block holds in it. -/
def Obligations.ResetStateIsGood : Prop := State.reset.Good

/-- Every step keeps the block's invariants: a legal control byte (10_state.md R31), no packet held while discarding (R36),
an idle encoder exactly when it holds no packet and a cursor inside its packet (R40), records in their bounds (R42),
handles handed out once (R43), held packets live with the block's references on them (42_packet_buffer.md R173), never one
packet held by both units (45_frame_encoder.md R260), and the packet memory's one canonical form. -/
def Obligations.EveryStepKeepsTheInvariants : Prop :=
  ∀ (s t : State), s.Good → step s = .next t → t.Good

/-- In the Faulted state every command but `SYS_GET_FAULT` changes nothing and returns no result, a command with an
undefined opcode too, and no step but a reset leaves the state (60_exceptions.md R281). -/
def Obligations.FaultedBlockRefusesEveryCommand : Prop :=
  ∀ (s : State), s.fault ≠ 0#8 →
    (∀ i, i ≠ .sysGetFault → exec i s = .next { s with result := none }) ∧
    execUndefinedOpcode s = .next { s with result := none } ∧
    exec .sysGetFault s = answers s .good [.byte s.fault] ∧
    (∀ t, s.inbox.head? ≠ some .reset → step s = .next t → t.fault = s.fault)

/-- A command that faults writes nothing but the fault register, which takes one of the codes 1 to 8, and has no result;
what the agents were asked before the fault stays asked, which is the model's choice (log entry 18). From a good state, with
a `REF_MAX` of at least 1, the agents were asked nothing, so that the state is exactly as before the command
(60_exceptions.md R280, R282). -/
def Obligations.RaisedFaultsDiscardEveryWrite : Prop :=
  ∀ (i : Instr) (s t : State), s.fault = 0#8 → exec i s = .next t → t.fault ≠ 0#8 →
    t.fault ≤ 8#8 ∧
    t = { s with fault := t.fault, result := none, draws := t.draws, log := t.log } ∧
    (s.Good → 1 ≤ s.params.refMax → t = { s with fault := t.fault, result := none })

/-- Each register is written only by the commands that 10_state.md R30 lists for it (the encoder's end also by the end of a
frame, R39), no command changes a parameter (00_scope.md R10), and none takes an input but its own. -/
def Obligations.RegistersAreWrittenOnlyByTheirCommands : Prop :=
  ∀ (i : Instr) (s t : State), exec i s = .next t →
    (t.cp ≠ s.cp → ∃ v, i = .cfgSetPrefix v) ∧
    (t.crc ≠ s.crc → i = .crcReset ∨ ∃ b, i = .crcSink b) ∧
    ((t.decState ≠ s.decState ∨ t.decPkt ≠ s.decPkt ∨ t.decDiscard ≠ s.decDiscard) → isReceive i = true) ∧
    ((t.encMode ≠ s.encMode ∨ t.encCollision ≠ s.encCollision ∨ t.encPkt ≠ s.encPkt ∨ t.encCursor ≠ s.encCursor ∨
      t.encEnd ≠ s.encEnd) → i = .encProcess ∨ ∃ h off, i = .encSubmit h off) ∧
    (t.nextHandle ≠ s.nextHandle → (∃ cap, i = .pbAlloc cap) ∨ isReceive i = true) ∧
    t.params = s.params ∧ t.inbox = s.inbox

/-- A command that answers `Busy` or `Bad` leaves every register and packet as it was, but for the one commit of a literal
pair, which leaves exactly what an escaped control byte leaves (00_scope.md R16; 60_exceptions.md R285;
44_frame_decoder.md R237, R242). What the agents were asked stays asked (log entry 18). -/
def Obligations.RefusedCommandsChangeNothing : Prop :=
  ∀ (i : Instr) (s t : State) (r : Result), exec i s = .next t → t.result = some r → r.status ≠ .good →
    t = { s with draws := t.draws, log := t.log, result := t.result } ∨
    (r.status = .busy ∧
      (∃ b, i = .wireLiteral b ∨ (i = .decRx b ∧ s.decState = .controlSeen ∧ b &&& 0xFC#8 ≠ s.cp)) ∧
      ∃ u, exec .wireEsc s = .next u ∧ u.result = some ⟨.good, []⟩ ∧
        t = { u with draws := t.draws, log := t.log, result := t.result })

/-- A handle that was handed out and is dead stays dead in every step but a reset, and the next handle never falls
(10_state.md R43). -/
def Obligations.DeadHandlesStayDead : Prop :=
  ∀ (s t : State), s.inbox.head? ≠ some .reset → step s = .next t →
    s.nextHandle ≤ t.nextHandle ∧
    ∀ h, h < s.nextHandle → s.packet h = none → t.packet h = none

/-- The packet being assembled keeps its data and capacity but for the decoder's own appends: a received byte extends its
data by one of the lists that its wire unit may append, none but for a data byte, an escaped control byte and a literal pair,
and leaves its capacity where the appended bytes, if any, fit in it. The packet being sent keeps both (20_memory.md R74). -/
def Obligations.HeldPacketsKeepTheirData : Prop :=
  ∀ (i : Instr) (s t : State) (h : Handle) (p q : Packet), s.Good → exec i s = .next t →
    s.packet h = some p → t.packet h = some q →
    (s.encPkt = some h → q.data = p.data ∧ q.cap = p.cap) ∧
    (s.decPkt = some h → isReceive i = false → q.data = p.data ∧ q.cap = p.cap) ∧
    (s.decPkt = some h → isReceive i = true → ∃ added ∈ unitAppends s.cp (wireUnit i s),
      q.data = p.data ++ added ∧ (added = [] → q.cap = p.cap) ∧ (p.len + added.length ≤ p.cap → q.cap = p.cap))

/-- The frame of the host's commands in memory: a byte of a packet that is there before and after reads the same, unless it
is one of the bytes the command stores to: the index of a byte or header write, the end of the packet for an append, the
header and the trailer for a checksum, what a removal takes away or clears (20_memory.md R62, R73). -/
def Obligations.HostCommandsStoreOnlyWhereTheySay : Prop :=
  ∀ (i : Instr) (s t : State) (h : Handle) (p q : Packet) (a : Nat), s.Good → isReceive i = false →
    exec i s = .next t → s.packet h = some p → t.packet h = some q → ¬ storesTo i s h a →
    t.readByte h a = s.readByte h a

/-- An instruction leaves every packet alone but the one it names, the one it allocates, and for the decoder's and the
encoder's own instructions the one they hold (20_memory.md R60; 44_frame_decoder.md R230; 45_frame_encoder.md R266). -/
def Obligations.OtherPacketsAreUntouched : Prop :=
  ∀ (i : Instr) (s t : State) (k : Handle), exec i s = .next t → ¬ touches i s k → t.packet k = s.packet k

/-- No command's behaviour but the read of it depends on a packet's status tag: two states that differ only in status tags
stay so under every command but `PB_GET_STATUS`, with equal results (20_memory.md R75). -/
def Obligations.StatusTagsInfluenceNothing : Prop :=
  ∀ (i : Instr) (s s' t t' : State), s.withoutStatus = s'.withoutStatus → (∀ h, i ≠ .pbGetStatus h) →
    exec i s = .next t → exec i s' = .next t' → t.withoutStatus = t'.withoutStatus

/-- A question to an agent takes the oldest listed answer, records question and answer, and changes nothing else of the
block, whether or not an answer is listed (00_scope.md R5, R6). A sink's answer never keeps more references than `REF_MAX`
allows (44_frame_decoder.md R244; log entry 11). -/
def Obligations.QuestionsTakeTheAgentsAnswers : Prop :=
  ∀ (s : State) (h : Handle) (p : Packet) (n : Nat) (v : Byte),
    (∀ a as, s.draws.alloc = a :: as → drawAlloc s n =
      (a, { s with draws := { s.draws with alloc := as }, log := s.log ++ [.alloc n a] })) ∧
    (∀ a as, s.draws.realloc = a :: as → drawRealloc s h n =
      (a, { s with draws := { s.draws with realloc := as }, log := s.log ++ [.realloc h n a] })) ∧
    (∀ a as, s.draws.tx = a :: as → drawTx s v =
      (a, { s with draws := { s.draws with tx := as }, log := s.log ++ [.tx v a] })) ∧
    (∀ as, s.draws.sink = .bad :: as → drawSink s h p =
      (.bad, { s with draws := { s.draws with sink := as }, log := s.log ++ [.offer h 0#8 p.data .bad] })) ∧
    (∀ as, s.draws.sink = .busy :: as → drawSink s h p =
      (.busy, { s with draws := { s.draws with sink := as }, log := s.log ++ [.offer h 0#8 p.data .busy] })) ∧
    (∀ k as, s.draws.sink = .good k :: as → p.ref + k ≤ s.params.refMax → drawSink s h p =
      (.good k, { s with draws := { s.draws with sink := as }, log := s.log ++ [.offer h 0#8 p.data (.good k)] })) ∧
    (∀ a t, drawAlloc s n = (a, t) → t = { s with draws := t.draws, log := s.log ++ [.alloc n a] }) ∧
    (∀ a t, drawRealloc s h n = (a, t) → t = { s with draws := t.draws, log := s.log ++ [.realloc h n a] }) ∧
    (∀ a t, drawTx s v = (a, t) → t = { s with draws := t.draws, log := s.log ++ [.tx v a] }) ∧
    (∀ a t, drawSink s h p = (a, t) → t = { s with draws := t.draws, log := s.log ++ [.offer h 0#8 p.data a] }) ∧
    (∀ k t, drawSink s h p = (.good k, t) → p.ref ≤ s.params.refMax → p.ref + k ≤ s.params.refMax)

/-! ### CRC-32 -/

/-- The CRC commands, each with its whole effect (40_crc32.md R122 to R124), and entries of the table (R121). -/
def Obligations.CrcCommandsComplete : Prop :=
  (∀ (s : State), s.fault = 0#8 →
    exec .crcReset s = answers { s with crc := 0xFFFFFFFF#32 } .good [] ∧
    (∀ b, exec (.crcSink b) s =
      answers { s with crc := crcTable ((s.crc &&& 0xFF#32).setWidth 8 ^^^ b) ^^^ (s.crc >>> 8) } .good []) ∧
    exec .crcGet s = answers s .good [.word (s.crc ^^^ 0xFFFFFFFF#32)]) ∧
  crcTable 0#8 = 0#32 ∧ crcTable 1#8 = 0x77073096#32 ∧ crcTable 2#8 = 0xEE0E612C#32 ∧
  crcTable 3#8 = 0x990951BA#32 ∧ crcTable 128#8 = 0xEDB88320#32 ∧ crcTable 255#8 = 0x2D02EF8D#32

/-- Resetting the engine, sinking a list of bytes and reading gives the CRC-32 of the list, and nothing but the CRC
register has changed; the CRC-32 of no bytes is 0 (40_crc32.md R126). -/
def Obligations.SunkBytesGiveTheirCrc : Prop :=
  (∀ (s : State) (bytes : List Byte), s.fault = 0#8 →
    execAll (.crcReset :: bytes.map .crcSink ++ [.crcGet]) s =
      answers { s with crc := crc32 bytes ^^^ 0xFFFFFFFF#32 } .good [.word (crc32 bytes)]) ∧
  crc32 [] = 0#32

/-- The update of the CRC register is a bijection for every byte (40_crc32.md R123), and a change of one byte anywhere in a
list changes its CRC-32 (the property that 43_map.md R217 rests on). -/
def Obligations.OneChangedByteChangesTheCrc : Prop :=
  (∀ b, Function.Bijective (fun c => crcUpdate c b)) ∧
  (∀ (before after : List Byte) (b b' : Byte), b ≠ b' → crc32 (before ++ b :: after) ≠ crc32 (before ++ b' :: after))

/-! ### Code78 -/

/-- Appending the Code78 form of a value at the end of a packet and reading at the old end gives the value and the new end,
for every 32-bit value and for the signed pair: as functions of bytes, and as commands on a packet (41_code78.md R146). At
`C78_WIDTH` = 32 every value fits; at any other width the value, or its zig-zag, is one that fits it, and what is read
there is the model's choice (log entry 21). -/
def Obligations.Code78RoundTrip : Prop :=
  (∀ (width : Nat) (data : List Byte) (v : Word),
    (width = 32 ∨ v.toNat < 2 ^ width →
      c78Decode width (data ++ c78Encode v) data.length = some (v, data.length + c78Groups v)) ∧
    (width = 32 ∨ (zigZag v).toNat < 2 ^ width →
      c78Decode width (data ++ c78Encode (zigZag v)) data.length =
        some (zigZag v, data.length + c78Groups (zigZag v))) ∧
    unZigZag (zigZag v) = v) ∧
  (∀ (s t : State) (h : Handle) (p : Packet) (v : Word) (inc lim cur : Half), s.Good → s.fault = 0#8 →
    s.packet h = some p → cur.toNat = p.len → t.result = some ⟨.good, []⟩ →
    (s.params.c78Width = 32 ∨ v.toNat < 2 ^ s.params.c78Width → exec (.c78EncU h v inc lim) s = .next t →
      exec (.c78DecU h cur) t = answers t .good [.word v, .index (cur + BitVec.ofNat 16 (c78Groups v))]) ∧
    (s.params.c78Width = 32 ∨ (zigZag v).toNat < 2 ^ s.params.c78Width → exec (.c78EncS h v inc lim) s = .next t →
      exec (.c78DecS h cur) t = answers t .good [.word v, .index (cur + BitVec.ofNat 16 (c78Groups (zigZag v)))]))

/-- The Code78 form of a value is a field, as long as 41_code78.md R147 says for the value's range, and no byte sequence
that reads as the value is shorter (30_encoding.md R103, R104). What a sequence reads as at a `C78_WIDTH` other than 32 is
the model's choice (log entry 21). -/
def Obligations.Code78FormIsMinimal : Prop :=
  ∀ (v : Word),
    isC78Field (c78Encode v) ∧
    (c78Encode v).length = (if v.toNat ≤ 0x7F then 1 else if v.toNat ≤ 0x3FFF then 2 else if v.toNat ≤ 0x1FFFFF then 3
      else if v.toNat ≤ 0xFFFFFFF then 4 else 5) ∧
    (∀ (width : Nat) (data : List Byte) (cur next : Nat), c78Decode width data cur = some (v, next) →
      cur + (c78Encode v).length ≤ next)

/-- The Code78 reads on a packet as 30_encoding.md R103 to R105 lay an integer out: a field gives its base-128 value modulo
2^`C78_WIDTH`, in 32 bits (un-zig-zagged for the signed read) and the position after it; a run of continuation bytes to the
end of the packet, an empty one too, gives `Bad`; a position beyond the end raises `F_INDEX` (41_code78.md R141, R143,
R145). At `C78_WIDTH` = 32 the value is the rules' own; what it is at any other width, which the rules write out for 32
alone, is the model's choice (log entry 21). -/
def Obligations.Code78ReadsFollowTheLayout : Prop :=
  ∀ (s : State) (h : Handle) (p : Packet) (cur : Half), s.fault = 0#8 → s.packet h = some p →
    (∀ before field after u, p.data = before ++ field ++ after → before.length = cur.toNat → isC78Field field →
      u = c78Value field % 2 ^ s.params.c78Width % 2 ^ 32 →
      exec (.c78DecU h cur) s = answers s .good
        [.word (BitVec.ofNat 32 u), .index (BitVec.ofNat 16 (cur.toNat + field.length))] ∧
      exec (.c78DecS h cur) s = answers s .good
        [.word (BitVec.ofInt 32 (if u % 2 = 0 then ((u / 2 : Nat) : Int) else -((u / 2 : Nat) : Int) - 1)),
          .index (BitVec.ofNat 16 (cur.toNat + field.length))]) ∧
    (∀ before rest, p.data = before ++ rest → before.length = cur.toNat → allContinue rest →
      exec (.c78DecU h cur) s = answers s .bad [.word 0#32, .index 0#16] ∧
      exec (.c78DecS h cur) s = answers s .bad [.word 0#32, .index 0#16]) ∧
    (p.len < cur.toNat →
      exec (.c78DecU h cur) s = faultsWith s 2#8 ∧ exec (.c78DecS h cur) s = faultsWith s 2#8)

/-- The three appending commands with room in the packet: all the bytes are appended (one byte; the Code78 form of the
value; the Code78 form of the zig-zag of the signed value), and nothing else changes, whatever the growth operands are
(42_packet_buffer.md R162; 41_code78.md R142, R144). The zig-zag is computed on integers (30_encoding.md R105). -/
def Obligations.AppendsWithRoomComplete : Prop :=
  (∀ (s : State) (h : Handle) (p : Packet) (i : Instr) (bytes : List Byte) (inc lim : Half),
    s.fault = 0#8 → s.packet h = some p → s.held h = false →
    ((∃ b, i = .pbAppend h b inc lim ∧ bytes = [b]) ∨
      (∃ v, i = .c78EncU h v inc lim ∧ bytes = c78Encode v) ∨
      (∃ v, i = .c78EncS h v inc lim ∧ bytes = c78Encode (zigZag v))) →
    p.len + bytes.length ≤ p.cap →
    exec i s = answers (s.setPacket h { p with data := p.data ++ bytes }) .good []) ∧
  (∀ (v : Word), ((zigZag v).toNat : Int) = if 0 ≤ v.toInt then 2 * v.toInt else -2 * v.toInt - 1)

/-- The three appending commands without room: `Bad` where no growth can help (a zero increment, a packet at its limit, a
limit below the need), which asks nobody; else the allocator is asked for the capacity after the fewest whole increments
that hold the bytes, cut at the limit: its refusal is `Busy`, and its consent grows the packet and appends all the bytes
(20_memory.md R68, R70). -/
def Obligations.AppendsGrowOrRefuse : Prop :=
  ∀ (s : State) (h : Handle) (p : Packet) (i : Instr) (bytes : List Byte) (inc lim : Half) (lim2 : Nat),
    s.fault = 0#8 → s.packet h = some p → s.held h = false →
    ((∃ b, i = .pbAppend h b inc lim ∧ bytes = [b]) ∨
      (∃ v, i = .c78EncU h v inc lim ∧ bytes = c78Encode v) ∨
      (∃ v, i = .c78EncS h v inc lim ∧ bytes = c78Encode (zigZag v))) →
    lim2 = min lim.toNat s.params.lenMax → p.cap < p.len + bytes.length →
    (inc.toNat = 0 ∨ lim2 ≤ p.cap ∨ lim2 < p.len + bytes.length → exec i s = answers s .bad []) ∧
    (∀ k newcap, inc.toNat ≠ 0 → p.cap < lim2 → p.len + bytes.length ≤ lim2 →
      p.cap + inc.toNat * k < p.len + bytes.length → p.len + bytes.length ≤ p.cap + inc.toNat * (k + 1) →
      newcap = min lim2 (p.cap + inc.toNat * (k + 1)) →
      (∀ s1, drawRealloc s h newcap = (false, s1) → exec i s = answers s1 .busy []) ∧
      (∀ s1, drawRealloc s h newcap = (true, s1) →
        exec i s = answers (s1.setPacket h { p with data := p.data ++ bytes, cap := newcap }) .good []))

/-! ### Packet buffer -/

/-- `PB_ALLOC` in every case: a capacity of 0 or above `LEN_MAX` is `Bad`; a refusal of the allocator is `Busy`; with its
consent the next handle gets an empty packet of that capacity with status Busy and no reference, and is returned and
incremented (42_packet_buffer.md R160; 20_memory.md R69). That the allocator is asked first where the handles are
exhausted is the model's choice (log entry 12). -/
def Obligations.AllocationMakesAnEmptyPacket : Prop :=
  ∀ (s : State) (cap : Half), s.fault = 0#8 →
    (cap = 0#16 ∨ s.params.lenMax < cap.toNat → exec (.pbAlloc cap) s = answers s .bad [.word 0#32]) ∧
    (∀ s1, cap ≠ 0#16 → cap.toNat ≤ s.params.lenMax → drawAlloc s cap.toNat = (false, s1) →
      exec (.pbAlloc cap) s = answers s1 .busy [.word 0#32]) ∧
    (∀ s1, cap ≠ 0#16 → cap.toNat ≤ s.params.lenMax → drawAlloc s cap.toNat = (true, s1) →
      (s.nextHandle = 0xFFFFFFFF#32 → exec (.pbAlloc cap) s = answers s1 .busy [.word 0#32]) ∧
      (s.nextHandle ≠ 0xFFFFFFFF#32 → exec (.pbAlloc cap) s = answers
        { s1.setPacket s.nextHandle { data := [], cap := cap.toNat, status := .busy, ref := 0 } with
          nextHandle := s.nextHandle + 1#32 } .good [.word s.nextHandle]))

/-- `PB_SET_CAPACITY` in every case (42_packet_buffer.md R161): below the length, zero or above `LEN_MAX` is `Bad`; the
current capacity asks nobody; else the allocator decides, and only the capacity changes (20_memory.md R71). -/
def Obligations.SetCapacityResizes : Prop :=
  ∀ (s : State) (h : Handle) (p : Packet) (cap : Half), s.fault = 0#8 → s.packet h = some p → s.held h = false →
    (cap.toNat < p.len ∨ cap = 0#16 ∨ s.params.lenMax < cap.toNat →
      exec (.pbSetCapacity h cap) s = answers s .bad []) ∧
    (p.len ≤ cap.toNat → cap ≠ 0#16 → cap.toNat ≤ s.params.lenMax → cap.toNat = p.cap →
      exec (.pbSetCapacity h cap) s = answers s .good []) ∧
    (p.len ≤ cap.toNat → cap ≠ 0#16 → cap.toNat ≤ s.params.lenMax → cap.toNat ≠ p.cap →
      (∀ s1, drawRealloc s h cap.toNat = (false, s1) → exec (.pbSetCapacity h cap) s = answers s1 .busy []) ∧
      (∀ s1, drawRealloc s h cap.toNat = (true, s1) →
        exec (.pbSetCapacity h cap) s = answers (s1.setPacket h { p with cap := cap.toNat }) .good []))

/-- `PB_REFERENCE` and `PB_DEREFERENCE` in every case (42_packet_buffer.md R163, R164): one more reference, or `F_REFCOUNT`
at `REF_MAX`; one less, a free at the last one, nothing on a dead handle or at 0, and `F_PACKET_HELD` where the reference
is one that the decoder or the encoder owns. -/
def Obligations.ReferencesCount : Prop :=
  ∀ (s : State) (h : Handle), s.fault = 0#8 →
    (∀ p, s.packet h = some p → p.ref ≠ s.params.refMax →
      exec (.pbReference h) s = answers (s.setPacket h { p with ref := p.ref + 1 }) .good []) ∧
    (∀ p, s.packet h = some p → p.ref = s.params.refMax → exec (.pbReference h) s = faultsWith s 6#8) ∧
    (s.packet h = none → exec (.pbDereference h) s = answers s .good []) ∧
    (∀ p, s.packet h = some p → s.held h = true → p.ref ≤ s.heldRefs h →
      exec (.pbDereference h) s = faultsWith s 4#8) ∧
    (∀ p, s.packet h = some p → (s.held h = false ∨ s.heldRefs h < p.ref) →
      (p.ref = 0 → exec (.pbDereference h) s = answers s .good []) ∧
      (p.ref = 1 → exec (.pbDereference h) s = answers { s with pm := s.pm.erase h } .good []) ∧
      (2 ≤ p.ref → exec (.pbDereference h) s = answers (s.setPacket h { p with ref := p.ref - 1 }) .good []))

/-- A packet referenced N times from 0 and then dereferenced is freed by the Nth dereference and not before, more
dereferences change nothing, and a packet that was never referenced is never freed (42_packet_buffer.md R172). -/
def Obligations.TheLastDereferenceFrees : Prop :=
  ∀ (s : State) (h : Handle) (p : Packet) (n m : Nat), s.fault = 0#8 → s.packet h = some p → p.ref = 0 →
    s.held h = false → n ≤ s.params.refMax →
    ∃ t, execAll (List.replicate n (.pbReference h) ++ List.replicate m (.pbDereference h)) s = .next t ∧
      t.fault = 0#8 ∧
      (m < n → t.packet h = some { p with ref := n - m }) ∧
      (1 ≤ n → n ≤ m → t.packet h = none) ∧
      (n = 0 → t.packet h = some p) ∧
      (∀ k, k ≠ h → t.packet k = s.packet k)

/-- `PB_SET_STATUS` writes the tag alone, on a held packet too, and the four reads of a record give its fields
(42_packet_buffer.md R165 to R169; 30_encoding.md R96). A count that its byte cannot hold, which no `REF_MAX` up to 255
allows, is reported as a free value: the model's choice, log entry 21. -/
def Obligations.StatusAndSizeCommands : Prop :=
  ∀ (s : State) (h : Handle) (p : Packet), s.fault = 0#8 → s.packet h = some p →
    exec (.pbSetStatus h 0#8) s = answers (s.setPacket h { p with status := .busy }) .good [] ∧
    exec (.pbSetStatus h 1#8) s = answers (s.setPacket h { p with status := .good }) .good [] ∧
    exec (.pbSetStatus h 2#8) s = answers (s.setPacket h { p with status := .bad }) .good [] ∧
    exec (.pbSetStatus h 3#8) s = answers (s.setPacket h { p with status := .complete }) .good [] ∧
    exec (.pbGetStatus h) s = answers s .good [.byte (match p.status with
      | .busy => 0#8
      | .good => 1#8
      | .bad => 2#8
      | .complete => 3#8)] ∧
    exec (.pbGetLength h) s = answers s .good [.index (BitVec.ofNat 16 p.data.length)] ∧
    exec (.pbGetCapacity h) s = answers s .good [.index (BitVec.ofNat 16 p.cap)] ∧
    (p.ref ≤ 255 → exec (.pbGetRefcount h) s = answers s .good [.byte (BitVec.ofNat 8 p.ref)]) ∧
    (255 < p.ref → ∃ v, exec (.pbGetRefcount h) s =
      answers { s with draws := { s.draws with free := s.draws.free + 1 } } .good [.byte v])

/-- `PB_READ` gives the byte and changes nothing; `PB_WRITE` replaces that byte alone; both raise `F_INDEX` at the end of
the packet and beyond (42_packet_buffer.md R170, R171; 20_memory.md R62). -/
def Obligations.BytesAreReadAndWritten : Prop :=
  ∀ (s : State) (h : Handle) (p : Packet) (idx : Half) (b : Byte), s.fault = 0#8 → s.packet h = some p →
    (∀ x, p.data[idx.toNat]? = some x → exec (.pbRead h idx) s = answers s .good [.byte x]) ∧
    (p.data.length ≤ idx.toNat → exec (.pbRead h idx) s = faultsWith s 2#8) ∧
    (s.held h = false → idx.toNat < p.data.length →
      exec (.pbWrite h idx b) s = answers (s.setPacket h { p with data := p.data.set idx.toNat b }) .good []) ∧
    (s.held h = false → p.data.length ≤ idx.toNat → exec (.pbWrite h idx b) s = faultsWith s 2#8)

/-- Every command with a handle operand raises `F_STALE_HANDLE` where the handle is dead, before every check but that of
its flag operands; `PB_DEREFERENCE` alone does nothing then (20_memory.md R63; 60_exceptions.md R284). Handle 0 is dead in
every good state (10_state.md R43). -/
def Obligations.DeadHandlesFault : Prop :=
  (∀ (i : Instr) (s : State) (h : Handle), s.fault = 0#8 → handleOf i = some h → s.packet h = none →
    i.wellFormed = true → i ≠ .pbDereference h → exec i s = faultsWith s 3#8) ∧
  (∀ (s : State) (h : Handle), s.fault = 0#8 → s.packet h = none →
    exec (.pbDereference h) s = answers s .good []) ∧
  (∀ (s : State), s.Good → s.packet 0#32 = none)

/-- A command that would mutate a packet held by the decoder or the encoder raises `F_PACKET_HELD`, whatever its other
operands, and so does the submission of the decoder's packet (20_memory.md R73; 45_frame_encoder.md R260). -/
def Obligations.HeldPacketsRefuseMutation : Prop :=
  (∀ (i : Instr) (s : State) (h : Handle) (p : Packet), s.fault = 0#8 → handleOf i = some h → mutates i = true →
    i.wellFormed = true → s.packet h = some p → s.held h = true → exec i s = faultsWith s 4#8) ∧
  (∀ (s : State) (h : Handle) (p : Packet) (off : Byte), s.fault = 0#8 → s.packet h = some p →
    s.decPkt = some h → exec (.encSubmit h off) s = faultsWith s 4#8)

/-! ### MAP headers -/

/-- The reads of a header byte: each flag at its bit (7 CK, 6 NP, 5 DA, 4 SA), and the address type in the low nibble, 15
too; past the end they raise `F_INDEX` (43_map.md R191, R192, R194, R196, R198, R200; 30_encoding.md R100). -/
def Obligations.HeaderByteReads : Prop :=
  ∀ (s : State) (h : Handle) (p : Packet) (hp : Half), s.fault = 0#8 → s.packet h = some p →
    (∀ x, p.data[hp.toNat]? = some x →
      exec (.mapGetCk h hp) s = answers s .good [.byte (if x.getLsbD 7 then 1#8 else 0#8)] ∧
      exec (.mapGetNp h hp) s = answers s .good [.byte (if x.getLsbD 6 then 1#8 else 0#8)] ∧
      exec (.mapGetDa h hp) s = answers s .good [.byte (if x.getLsbD 5 then 1#8 else 0#8)] ∧
      exec (.mapGetSa h hp) s = answers s .good [.byte (if x.getLsbD 4 then 1#8 else 0#8)] ∧
      exec (.mapGetAtype h hp) s = answers s .good [.byte (BitVec.ofNat 8 (x.toNat % 16))]) ∧
    (∀ i, p.data.length ≤ hp.toNat → i ∈ [Instr.mapGetCk h hp, .mapGetNp h hp, .mapGetDa h hp, .mapGetSa h hp,
      .mapGetAtype h hp] → exec i s = faultsWith s 2#8)

/-- The writes of a header byte: the flag's bit, or the low nibble for the address type, and no other bit, of that byte
alone; past the end they raise `F_INDEX`, and a type of 15 or more, inside the packet, `F_ADDR_TYPE` (43_map.md R190, R191,
R193, R195, R197, R199, R201). -/
def Obligations.HeaderByteWrites : Prop :=
  ∀ (s : State) (h : Handle) (p : Packet) (hp : Half) (f t : Byte), s.fault = 0#8 → s.packet h = some p →
    s.held h = false →
    (∀ x i bit, p.data[hp.toNat]? = some x → f = 0#8 ∨ f = 1#8 →
      (i, bit) ∈ [(Instr.mapSetCk h hp f, 7), (.mapSetNp h hp f, 6), (.mapSetDa h hp f, 5), (.mapSetSa h hp f, 4)] →
      ∃ y : Byte, exec i s = answers (s.setPacket h { p with data := p.data.set hp.toNat y }) .good [] ∧
        ∀ k, k < 8 → y.getLsbD k = if k = bit then decide (f = 1#8) else x.getLsbD k) ∧
    (∀ x, p.data[hp.toNat]? = some x → t.toNat < 15 → exec (.mapSetAtype h hp t) s = answers
      (s.setPacket h { p with data := p.data.set hp.toNat (BitVec.ofNat 8 (x.toNat / 16 * 16 + t.toNat)) }) .good []) ∧
    (hp.toNat < p.data.length → 15 ≤ t.toNat → exec (.mapSetAtype h hp t) s = faultsWith s 1#8) ∧
    (∀ i, p.data.length ≤ hp.toNat → f = 0#8 ∨ f = 1#8 → i ∈ [Instr.mapSetCk h hp f, .mapSetNp h hp f,
      .mapSetDa h hp f, .mapSetSa h hp f, .mapSetAtype h hp t] → exec i s = faultsWith s 2#8)

/-- The navigation commands answer the position their function gives, or `Bad` with 0 for the null position, and change
nothing; the five that take a header position raise `F_INDEX` where it has no byte (43_map.md R191, R204 to R210). -/
def Obligations.NavigationCommandsAnswerPositions : Prop :=
  ∀ (s : State) (h : Handle) (p : Packet) (hp : Half) (off : Byte), s.fault = 0#8 → s.packet h = some p →
    (hp.toNat < p.data.length →
      exec (.mapNextprotoPos h hp) s = answersPos s (some (hp.toNat + 1)) ∧
      exec (.mapDestPos h hp) s = answersPos s (fields p.data hp.toNat).da ∧
      exec (.mapSrcPos h hp) s = answersPos s (fields p.data hp.toNat).sa ∧
      exec (.mapContentsPos h hp) s = answersPos s (fields p.data hp.toNat).ct ∧
      exec (.mapNextHeader h hp) s = answersPos s (nextHeader s.params p.data hp.toNat)) ∧
    exec (.mapHeader h off) s = answersPos s (headerAt s.params p.data off.toNat) ∧
    exec (.mapData h off) s = answersPos s (getData s.params p.data off.toNat) ∧
    (∀ i, p.data.length ≤ hp.toNat → i ∈ [Instr.mapNextprotoPos h hp, .mapDestPos h hp, .mapSrcPos h hp,
      .mapContentsPos h hp, .mapNextHeader h hp] → exec i s = faultsWith s 2#8)

/-- The field positions of a header follow the packet's layout: after the header byte, each field whose presence bit is set,
in the order next protocol, destination, source, and then the contents; and where the bytes of a field that is present run
off the end of the packet, the positions after it are null (30_encoding.md R101; 43_map.md R202, R203). -/
def Obligations.FieldPositionsFollowTheLayout : Prop :=
  ∀ (before np da sa rest : List Byte) (x : Byte),
    (∀ data, data = before ++ x :: np ++ da ++ sa ++ rest →
      (if x.getLsbD 6 then isC78Field np else np = []) → (if x.getLsbD 5 then isC78Field da else da = []) →
      (if x.getLsbD 4 then isC78Field sa else sa = []) →
      fields data before.length =
        { np := before.length + 1,
          da := some (before.length + 1 + np.length),
          sa := some (before.length + 1 + np.length + da.length),
          ct := some (before.length + 1 + np.length + da.length + sa.length) }) ∧
    (allContinue rest →
      (x.getLsbD 6 = true →
        fields (before ++ x :: rest) before.length = ⟨before.length + 1, none, none, none⟩) ∧
      ((if x.getLsbD 6 then isC78Field np else np = []) →
        (x.getLsbD 5 = true →
          fields (before ++ x :: np ++ rest) before.length =
            ⟨before.length + 1, some (before.length + 1 + np.length), none, none⟩) ∧
        ((if x.getLsbD 5 then isC78Field da else da = []) → x.getLsbD 4 = true →
          fields (before ++ x :: np ++ da ++ rest) before.length =
            ⟨before.length + 1, some (before.length + 1 + np.length),
              some (before.length + 1 + np.length + da.length), none⟩)))

/-- The chain of nested headers: the header at offset 0 of a packet with a byte is at position 0, and each further offset is
one nested header further in; a header holds a nested one exactly where its next-protocol field is there and reads as the
MAP identifier and its contents have a byte; the nested header lies strictly further in, inside the packet; and the walk
that `MAP_DATA` makes ends at the header that holds no other, whose contents position it answers (43_map.md R208 to
R210). -/
def Obligations.HeaderChainEndsAtTheInnermost : Prop :=
  (∀ (prm : Params) (data : List Byte), data ≠ [] → headerAt prm data 0 = some 0) ∧
  (∀ (prm : Params) (data : List Byte) (n : Nat),
    headerAt prm data (n + 1) = (headerAt prm data n).bind (nextHeader prm data)) ∧
  (∀ (prm : Params) (data : List Byte) (hp q : Nat), nextHeader prm data hp = some q ↔
    hasFlag (headerByte data hp) 0x40#8 = true ∧ (fields data hp).ct = some q ∧ q < data.length ∧
      ∃ n, c78Decode prm.c78Width data (hp + 1) = some (prm.mapProtocolId, n)) ∧
  (∀ (prm : Params) (data : List Byte) (hp q : Nat), nextHeader prm data hp = some q → hp < q ∧ q < data.length) ∧
  (∀ (prm : Params) (data : List Byte) (off : Nat),
    (data = [] → headerAt prm data off = none) ∧
    (headerAt prm data off = none → getData prm data off = none) ∧
    (∀ p, headerAt prm data off = some p → p < data.length ∧
      ∃ n q, walkHeaders prm data n p = some q ∧ nextHeader prm data q = none ∧
        getData prm data off = (fields data q).ct))

/-! ### MAP checksums -/

/-- `MAP_VALIDATE` answers by the walk from the header at the offset inward: an empty packet, no header there, a checksum
required and missing, a level without room for its trailer, a level whose trailer is wrong, each with its reason and level
and no change; or `Good`, and then with removal asked the trailers are cut off and, by the parameter, the removed levels'
bits cleared (43_map.md R212 to R214). A failure at a level above 255, which the 8-bit field cannot hold, has its status and
its reason, and reports a free value as the level: the model's choice, log entry 13. -/
def Obligations.ValidateAnswersByTheWalk : Prop :=
  ∀ (s : State) (h : Handle) (p : Packet) (off req rem : Byte), s.fault = 0#8 → s.packet h = some p →
    (req = 0#8 ∨ req = 1#8) → (rem = 0#8 ∨ (rem = 1#8 ∧ s.held h = false)) →
    (p.data = [] → exec (.mapValidate h off req rem) s = answers s .bad [.byte 1#8, .byte 0#8]) ∧
    (p.data ≠ [] → headerAt s.params p.data off.toNat = none →
      exec (.mapValidate h off req rem) s = answers s .bad [.byte 2#8, .byte 0#8]) ∧
    (∀ hp, headerAt s.params p.data off.toNat = some hp →
      (req = 1#8 → ckAt p.data hp = false →
        exec (.mapValidate h off req rem) s = answers s .bad [.byte 3#8, .byte 0#8]) ∧
      (req = 0#8 ∨ ckAt p.data hp = true →
        (∀ j, checkLevels p.data (headerWalk s.params p.data hp) p.data.length 0 [] = .short j →
          (j ≤ 255 → exec (.mapValidate h off req rem) s = answers s .bad [.byte 4#8, .byte (BitVec.ofNat 8 j)]) ∧
          (255 < j → ∃ v, exec (.mapValidate h off req rem) s =
            answers { s with draws := { s.draws with free := s.draws.free + 1 } } .bad [.byte 4#8, .byte v])) ∧
        (∀ j, checkLevels p.data (headerWalk s.params p.data hp) p.data.length 0 [] = .mismatch j →
          (j ≤ 255 → exec (.mapValidate h off req rem) s = answers s .bad [.byte 5#8, .byte (BitVec.ofNat 8 j)]) ∧
          (255 < j → ∃ v, exec (.mapValidate h off req rem) s =
            answers { s with draws := { s.draws with free := s.draws.free + 1 } } .bad [.byte 5#8, .byte v])) ∧
        (∀ stop removed, checkLevels p.data (headerWalk s.params p.data hp) p.data.length 0 [] =
            .passed stop removed →
          (rem = 0#8 → exec (.mapValidate h off req rem) s = answers s .good [.byte 0#8, .byte 0#8]) ∧
          (rem = 1#8 → exec (.mapValidate h off req rem) s = answers (s.setPacket h { p with
            data := if s.params.clearCkBitsOnRemove then removed.foldl clearCkAt (p.data.take stop)
              else p.data.take stop }) .good [.byte 0#8, .byte 0#8]))))

/-- The scopes of the levels: the levels of a walk are the headers that repeated `NextHeader` steps reach, outer to inner,
up to the first step that finds none; the walk of `MAP_VALIDATE` passes exactly where every checksummed level, outer to
inner, has room for its trailer and carries there the checksum of the bytes from its header to that trailer, where each
level's trailer ends four bytes before that of the checksummed level outside it and the outermost one's ends the packet; it
fails at the first level that does not (43_map.md R211, R212). -/
def Obligations.ChecksumScopesFollowTheWalk : Prop :=
  (∀ (prm : Params) (data : List Byte) (p j : Nat), (headerWalk prm data p)[j]? = walkHeaders prm data j p) ∧
  (∀ (data : List Byte) (ps : List Nat),
    (∀ stop removed, checkLevels data ps data.length 0 [] = .passed stop removed ↔
      (∀ j, j < ps.length → levelFits data ps j ∧ levelMatches data ps j) ∧
      stop = levelStop data ps ps.length ∧ removed = ps.filter (ckAt data)) ∧
    (∀ j, checkLevels data ps data.length 0 [] = .short j ↔
      j < ps.length ∧ ¬ levelFits data ps j ∧ ∀ k, k < j → levelFits data ps k ∧ levelMatches data ps k) ∧
    (∀ j, checkLevels data ps data.length 0 [] = .mismatch j ↔
      j < ps.length ∧ levelFits data ps j ∧ ¬ levelMatches data ps j ∧
        ∀ k, k < j → levelFits data ps k ∧ levelMatches data ps k))

/-- `MAP_APPEND_CHECKSUM` in every case: no header at the offset is `Bad`; a checksum bit already set changes nothing; with
four bytes of room the bit is set and the CRC-32 from the header to the end, least significant byte first, is appended;
without room the packet grows by exactly what is missing if `LEN_MAX` and the allocator allow it, and else is unchanged
(43_map.md R215; 30_encoding.md R106). -/
def Obligations.AppendChecksumComplete : Prop :=
  ∀ (s : State) (h : Handle) (p : Packet) (off : Byte), s.fault = 0#8 → s.packet h = some p → s.held h = false →
    (headerAt s.params p.data off.toNat = none →
      exec (.mapAppendChecksum h off) s = answers s .bad []) ∧
    (∀ hp, headerAt s.params p.data off.toNat = some hp →
      (ckAt p.data hp = true → exec (.mapAppendChecksum h off) s = answers s .good []) ∧
      (∀ marked c data', ckAt p.data hp = false →
        marked = p.data.set hp (headerByte p.data hp ||| 0x80#8) → c = crc32 (marked.drop hp) →
        data' = marked ++ [c.setWidth 8, (c >>> 8).setWidth 8, (c >>> 16).setWidth 8, (c >>> 24).setWidth 8] →
        (p.data.length + 4 ≤ p.cap →
          exec (.mapAppendChecksum h off) s = answers (s.setPacket h { p with data := data' }) .good []) ∧
        (p.cap < p.data.length + 4 → s.params.lenMax < p.data.length + 4 →
          exec (.mapAppendChecksum h off) s = answers s .bad []) ∧
        (p.cap < p.data.length + 4 → p.data.length + 4 ≤ s.params.lenMax →
          (∀ s1, drawRealloc s h (p.data.length + 4) = (false, s1) →
            exec (.mapAppendChecksum h off) s = answers s1 .busy []) ∧
          (∀ s1, drawRealloc s h (p.data.length + 4) = (true, s1) →
            exec (.mapAppendChecksum h off) s =
              answers (s1.setPacket h { p with data := data', cap := p.data.length + 4 }) .good []))))

/-- A checksum appended at the outermost header, whose checksum bit was clear, validates, required and with or without
removal, where no inner header of the packet so made carries the bit; with removal the trailer is gone again, and the
packet's bytes are then what they were before the append, but for the header's checksum bit, which the clearing parameter
alone takes away; and a change of any one byte of the scope makes the validation fail at
level 0 (43_map.md R217, R213). That the inner headers are those of the packet after the append is how the statement reads
R217's proviso. -/
def Obligations.AppendedChecksumsValidate : Prop :=
  ∀ (s t : State) (h : Handle) (p q : Packet), s.Good → s.fault = 0#8 → s.packet h = some p → p.data ≠ [] →
    ckAt p.data 0 = false → exec (.mapAppendChecksum h 0#8) s = .next t → t.result = some ⟨.good, []⟩ →
    t.packet h = some q →
    ((∀ a ∈ (headerWalk s.params q.data 0).tail, ckAt q.data a = false) →
      exec (.mapValidate h 0#8 1#8 0#8) t = answers t .good [.byte 0#8, .byte 0#8] ∧
      exec (.mapValidate h 0#8 1#8 1#8) t = answers (t.setPacket h { q with
        data := if s.params.clearCkBitsOnRemove then p.data else p.data.set 0 (headerByte p.data 0 ||| 0x80#8) })
        .good [.byte 0#8, .byte 0#8]) ∧
    (∀ (a : Nat) (b rem : Byte), a < p.data.length → q.data[a]? ≠ some b → rem = 0#8 ∨ rem = 1#8 →
      ∃ reason, exec (.mapValidate h 0#8 1#8 rem) (t.setPacket h { q with data := q.data.set a b }) =
        answers (t.setPacket h { q with data := q.data.set a b }) .bad [.byte reason, .byte 0#8] ∧
        (reason = 3#8 ∨ reason = 5#8))

/-! ### Frame decoder -/

/-- `DEC_RX` of a byte is the wire unit that the byte is by the table of 44_frame_decoder.md R232, and a received byte that
the RX source presents has the same step as the `DEC_RX` command of it (R231; 00_scope.md R4). -/
def Obligations.DecRxIsItsWireUnit : Prop :=
  (∀ (s : State) (b : Byte), exec (.decRx b) s = exec (decodeWire s.decState s.cp b) s) ∧
  (∀ (s : State) (b : Byte) (rest : List Input),
    step { s with inbox := .wire b :: rest } = step { s with inbox := .command [0x50#8, b] :: rest }) ∧
  (∀ (cp b : Byte), legalControl cp = true →
    (decodeWire .data cp b = if b = cp then .wireCtrl else .wireData b) ∧
    (decodeWire .controlSeen cp b =
      if b = cp then .wireIdle else if b = cp ||| 1#8 then .wireEsc else if b = cp ||| 2#8 then .wireEnd
      else if b = cp ||| 3#8 then .wireAbort else .wireLiteral b))

/-- A data byte: appended to the packet being assembled where there is room; with none yet, a packet of the initial
capacity is allocated, referenced once, and holds the byte; a full packet grows by the decoder's increment up to its
limit; a refusing allocator is `Busy`; at the ceiling the packet is dropped and the decoder discards, or under `RetryAll`
answers `Busy` (44_frame_decoder.md R233, R234, R245). The model's choices in it: that the allocator is asked, and its answer
taken, also where the handles are exhausted (log entry 12), and that the unit has this effect in every position of the
decoder (log entry 9). -/
def Obligations.DataBytesAreAssembled : Prop :=
  ∀ (s : State) (b : Byte) (i : Instr), s.fault = 0#8 → s.params.wf → s.decDiscard = false →
    (i = .wireData b ∨ (i = .decRx b ∧ s.decState = .data ∧ b ≠ s.cp)) →
    (∀ h p, s.decPkt = some h → s.packet h = some p → p.len < p.cap →
      exec i s = answers (s.setPacket h { p with data := p.data ++ [b] }) .good []) ∧
    (∀ h p, s.decPkt = some h → s.packet h = some p → p.len = p.cap →
      (p.cap < s.params.decLimit →
        (∀ s1, drawRealloc s h (min s.params.decLimit (p.cap + s.params.decIncrement)) = (false, s1) →
          exec i s = answers s1 .busy []) ∧
        (∀ s1, drawRealloc s h (min s.params.decLimit (p.cap + s.params.decIncrement)) = (true, s1) →
          exec i s = answers (s1.setPacket h { p with
            data := p.data ++ [b], cap := min s.params.decLimit (p.cap + s.params.decIncrement) }) .good [])) ∧
      (s.params.decLimit ≤ p.cap → s.params.decFailPolicy = .discardAtCeiling →
        exec i s = answers { s.dereference h with decPkt := none, decDiscard := true } .good []) ∧
      (s.params.decLimit ≤ p.cap → s.params.decFailPolicy = .retryAll → exec i s = answers s .busy [])) ∧
    (s.decPkt = none →
      (∀ s1, drawAlloc s s.params.decInitCap = (false, s1) → exec i s = answers s1 .busy []) ∧
      (∀ s1, drawAlloc s s.params.decInitCap = (true, s1) → s.nextHandle ≠ 0xFFFFFFFF#32 → 1 ≤ s.params.refMax →
        exec i s = answers { s1.setPacket s.nextHandle
            { data := [b], cap := s.params.decInitCap, status := .busy, ref := 1 } with
          nextHandle := s.nextHandle + 1#32, decPkt := some s.nextHandle } .good []) ∧
      (∀ s1, drawAlloc s s.params.decInitCap = (true, s1) → s.nextHandle = 0xFFFFFFFF#32 →
        exec i s = answers s1 .busy []))

/-- The control byte read in Data moves the decoder to ControlSeen, and read in ControlSeen leaves it there; neither
touches a packet or asks an agent (44_frame_decoder.md R235, R236). -/
def Obligations.ControlBytesAndIdles : Prop :=
  (∀ (s : State) (i : Instr), s.fault = 0#8 → s.decState = .data → (i = .wireCtrl ∨ i = .decRx s.cp) →
    exec i s = answers { s with decState := .controlSeen } .good []) ∧
  (∀ (s : State) (i : Instr), s.fault = 0#8 → s.decState = .controlSeen → legalControl s.cp = true →
    (i = .wireIdle ∨ i = .decRx s.cp) → exec i s = answers s .good [])

/-- An escaped control byte appends the control byte as a data byte is appended, and a literal pair the control byte and
then its second byte; both return to Data with the control byte's append, which a refused second append does not undo. With
room in the packet being assembled, or while discarding, they complete at once (44_frame_decoder.md R237, R238, R246). The
append of the control byte is named by what the unit of a data byte does with it, which no received byte is: log entry 9
says what that is, `DecAppend` of the byte, and that each unit has its effect in every position of the decoder. -/
def Obligations.ControlBytesAsData : Prop :=
  ∀ (s : State) (i j : Instr) (b : Byte), s.fault = 0#8 → legalControl s.cp = true →
    (i = .wireEsc ∨ (i = .decRx (s.cp ||| 1#8) ∧ s.decState = .controlSeen)) →
    (j = .wireLiteral b ∨ (j = .decRx b ∧ s.decState = .controlSeen ∧ b &&& 0xFC#8 ≠ s.cp)) →
    (∀ h p, s.decDiscard = false → s.decPkt = some h → s.packet h = some p → p.len + 1 ≤ p.cap →
      exec i s = answers { s.setPacket h { p with data := p.data ++ [s.cp] } with decState := .data } .good []) ∧
    (∀ h p, s.decDiscard = false → s.decPkt = some h → s.packet h = some p → p.len + 2 ≤ p.cap →
      exec j s = answers { s.setPacket h { p with data := p.data ++ [s.cp, b] } with decState := .data } .good []) ∧
    (s.decDiscard = true →
      exec i s = answers { s with decState := .data } .good [] ∧
      exec j s = answers { s with decState := .data } .good []) ∧
    (∀ u, s.Good → exec (.wireData s.cp) s = .next u →
      (u.result = some ⟨.busy, []⟩ → exec i s = .next u ∧ exec j s = .next u) ∧
      (u.result = some ⟨.good, []⟩ → exec i s = .next { u with decState := .data } ∧
        exec j s = exec (.wireData b) { u with decState := .data }))

/-- The complete opcode: it ends a discarded frame without an offer; else it offers the packet being assembled, or by the
policy a fresh empty one, to the packet sink, and on `Good` or `Bad` lets it go with the references the sink keeps and
returns to Data; `Busy` from the sink or the allocator, or with the handles exhausted, changes nothing
(44_frame_decoder.md R239, R243, R244, R246; 20_memory.md R69). The model's choices in it: that the allocator is asked, and
its answer taken, also where the handles are exhausted (log entry 12); that the questions of a command answered `Busy` stay
asked, a granted allocation among them, which is undone (log entry 18); and that the unit has this effect in every position
of the decoder (log entry 9). -/
def Obligations.CompletedFramesAreOffered : Prop :=
  ∀ (s : State) (i : Instr), s.fault = 0#8 → s.params.wf → legalControl s.cp = true →
    (i = .wireEnd ∨ (i = .decRx (s.cp ||| 2#8) ∧ s.decState = .controlSeen)) →
    (s.decDiscard = true → exec i s = answers { s with decDiscard := false, decState := .data } .good []) ∧
    (s.decDiscard = false →
      (∀ h p, s.decPkt = some h → s.packet h = some p →
        (∀ s1, drawSink s h p = (.busy, s1) → exec i s = answers s1 .busy []) ∧
        (∀ s1, drawSink s h p = (.bad, s1) → exec i s =
          answers { s1.dereference h with decPkt := none, decState := .data } .good []) ∧
        (∀ k s1, drawSink s h p = (.good k, s1) → exec i s =
          answers { (s1.setPacket h { p with ref := p.ref + k }).dereference h with
            decPkt := none, decState := .data } .good [])) ∧
      (s.decPkt = none → s.params.emptyFramePolicy = .drop →
        exec i s = answers { s with decState := .data } .good []) ∧
      (s.decPkt = none → s.params.emptyFramePolicy = .deliver →
        (∀ s1, drawAlloc s s.params.decInitCap = (false, s1) → exec i s = answers s1 .busy []) ∧
        (∀ s1, drawAlloc s s.params.decInitCap = (true, s1) → s.nextHandle = 0xFFFFFFFF#32 →
          exec i s = answers s1 .busy []) ∧
        (∀ s1 s2 p, drawAlloc s s.params.decInitCap = (true, s1) → s.nextHandle ≠ 0xFFFFFFFF#32 → 1 ≤ s.params.refMax →
          p = { data := [], cap := s.params.decInitCap, status := .busy, ref := 1 } →
          s2 = { s1.setPacket s.nextHandle p with nextHandle := s.nextHandle + 1#32, decPkt := some s.nextHandle } →
          (∀ s3, drawSink s2 s.nextHandle p = (.busy, s3) →
            exec i s = answers { s with draws := s3.draws, log := s3.log } .busy []) ∧
          (∀ s3, drawSink s2 s.nextHandle p = (.bad, s3) → exec i s =
            answers { s3.dereference s.nextHandle with decPkt := none, decState := .data } .good []) ∧
          (∀ k s3, drawSink s2 s.nextHandle p = (.good k, s3) → exec i s =
            answers { (s3.setPacket s.nextHandle { p with ref := 1 + k }).dereference s.nextHandle with
              decPkt := none, decState := .data } .good []))))

/-- The abort opcode drops the packet being assembled, which is freed where the decoder's reference was the last one, ends a
discarded frame too, and never answers `Busy` (44_frame_decoder.md R240). That the unit has this effect in every position
of the decoder is the model's choice (log entry 9). -/
def Obligations.AbortedFramesAreDropped : Prop :=
  ∀ (s : State) (i : Instr), s.fault = 0#8 → legalControl s.cp = true →
    (i = .wireAbort ∨ (i = .decRx (s.cp ||| 3#8) ∧ s.decState = .controlSeen)) →
    (s.decPkt = none → exec i s = answers { s with decDiscard := false, decState := .data } .good []) ∧
    (∀ h p, s.decPkt = some h → s.packet h = some p →
      (p.ref = 1 → exec i s = answers
        { s with pm := s.pm.erase h, decPkt := none, decDiscard := false, decState := .data } .good []) ∧
      (2 ≤ p.ref → exec i s = answers
        { s.setPacket h { p with ref := p.ref - 1 } with
          decPkt := none, decDiscard := false, decState := .data } .good []))

/-- From a good state, with a `REF_MAX` of at least 1, every received byte, as a command or as the wire unit that it is, is
answered `Good` or `Busy`: never `Bad`, and never a fault (44_frame_decoder.md R231, R241, R242; 30_encoding.md R99). That
a unit has its effect in every position of the decoder is the model's choice (log entry 9). -/
def Obligations.EveryReceivedByteIsGoodOrBusy : Prop :=
  ∀ (i : Instr) (s : State), s.Good → s.fault = 0#8 → 1 ≤ s.params.refMax →
    isReceive i = true → ∃ t, exec i s = .next t ∧ t.fault = 0#8 ∧ (t.result = some ⟨.good, []⟩ ∨ t.result = some ⟨.busy, []⟩)

/-- While the decoder discards, a received byte that is neither the complete nor the abort opcode is consumed at once: the
flag stays set, no packet is made, no agent is asked, and no packet changes (44_frame_decoder.md R246). That a unit has its
effect in every position of the decoder is the model's choice (log entry 9). -/
def Obligations.DiscardedBytesChangeNoPacket : Prop :=
  ∀ (i : Instr) (s : State), s.fault = 0#8 → s.decDiscard = true → s.decPkt = none → isReceive i = true →
    i ≠ .wireEnd → i ≠ .wireAbort →
    (∀ b, i = .decRx b → ¬ (s.decState = .controlSeen ∧ b &&& 0xFC#8 = s.cp ∧ (b &&& 3#8 = 2#8 ∨ b &&& 3#8 = 3#8))) →
    ∃ d, exec i s = answers { s with decState := d } .good []

/-- Frame round trip: a decoder between frames that is fed the wire image of a byte list, each byte again while it is
answered `Busy`, and consumes all of it, delivers exactly one packet more, whose bytes are the list, and is between frames
again, whatever the allocator and the sink answered meanwhile (45_frame_encoder.md R269). -/
def Obligations.FrameRoundTrip : Prop :=
  ∀ (s t : State) (bytes : List Byte) (n : Nat), s.Good → s.fault = 0#8 →
    s.decState = .data → s.decPkt = none → s.decDiscard = false →
    bytes.length ≤ s.params.decLimit → (bytes = [] → s.params.emptyFramePolicy = .deliver) →
    receive n (encodeFrame s.cp bytes) s = some t →
    deliveredPackets t.log = deliveredPackets s.log ++ [bytes] ∧
    t.decState = .data ∧ t.decPkt = none ∧ t.decDiscard = false

/-- With an allocator that grants, a sink that takes or rejects, and a `REF_MAX` of at least 1, the decoder consumes the
wire image of a list no longer than its limit without one `Busy` answer (45_frame_encoder.md R269; 44_frame_decoder.md
R242). -/
def Obligations.FramesAreConsumed : Prop :=
  ∀ (s : State) (bytes : List Byte) (n k : Nat) (a : SinkAnswer) (allocs : List Bool) (sinks : List SinkAnswer),
    s.Good → s.fault = 0#8 → s.decState = .data → s.decPkt = none → s.decDiscard = false →
    s.nextHandle ≠ 0xFFFFFFFF#32 → 1 ≤ s.params.refMax → bytes.length ≤ s.params.decLimit →
    s.draws.alloc = true :: allocs → s.draws.realloc = List.replicate k true → bytes.length ≤ k →
    s.draws.sink = a :: sinks → a ≠ .busy → (encodeFrame s.cp bytes).length ≤ n →
    ∃ t, receive n (encodeFrame s.cp bytes) s = some t

/-! ### Frame encoder -/

/-- `ENC_SUBMIT` on a live packet that the decoder does not hold, in every case: a busy encoder is `Busy`; an offset above 0
without a header is `Bad`; a full reference count raises `F_REFCOUNT`; else the encoder takes the packet, references it, and
starts at its first byte, or at the nested header's, up to its end (45_frame_encoder.md R260, R261). -/
def Obligations.SubmittedPacketsAreTaken : Prop :=
  ∀ (s : State) (h : Handle) (p : Packet) (off : Byte), s.fault = 0#8 → s.packet h = some p → s.decPkt ≠ some h →
    (s.encMode ≠ .idle → exec (.encSubmit h off) s = answers s .busy []) ∧
    (s.encMode = .idle → off ≠ 0#8 → headerAt s.params p.data off.toNat = none →
      exec (.encSubmit h off) s = answers s .bad []) ∧
    (∀ start, s.encMode = .idle →
      ((off = 0#8 ∧ start = 0) ∨
        (off ≠ 0#8 ∧ headerAt s.params p.data off.toNat = some start)) →
      (p.ref = s.params.refMax → exec (.encSubmit h off) s = faultsWith s 6#8) ∧
      (p.ref ≠ s.params.refMax → exec (.encSubmit h off) s = answers { s.setPacket h { p with ref := p.ref + 1 } with
        encPkt := some h, encCursor := BitVec.ofNat 16 start, encEnd := BitVec.ofNat 16 p.data.length,
        encCollision := false, encMode := .transmitting } .good []))

/-- `ENC_PROCESS` on an idle encoder does nothing. With a TX sink that takes every byte of what is left of the frame, it
sends exactly that, marks the packet Complete, drops the encoder's reference on it and is idle again; it asks for no more
(45_frame_encoder.md R263 to R266). -/
def Obligations.ProcessSendsTheFrame : Prop :=
  (∀ (s : State), s.fault = 0#8 → s.encMode = .idle → exec .encProcess s = answers s .good []) ∧
  (∀ (s : State) (h : Handle) (p : Packet) (rest : List Verdict), s.Good → s.fault = 0#8 →
    s.encPkt = some h → s.packet h = some p →
    s.draws.tx = List.replicate s.wireRemainder.length .good ++ rest →
    exec .encProcess s = answers
      { (s.setPacket h { p with status := .complete }).dereference h with
        encPkt := none, encCursor := 0#16, encEnd := 0#16, encCollision := false, encMode := .idle,
        draws := { s.draws with tx := rest },
        log := s.log ++ s.wireRemainder.map (fun v => .tx v .good) } .good [])

/-- The wire image: a submitted packet has the image of its bytes from the start position still to send; under every
instruction but a submission that is taken, whatever the agents answer, the bytes the TX sink has taken followed by those
still to send stay one and the same list; so what it takes between submission and completion, over any commands that submit
nothing, is that image. `Busy` from `ENC_PROCESS` means that no byte was taken, and an idle encoder has nothing to send
(45_frame_encoder.md R262, R263, R268). -/
def Obligations.EncoderSendsTheWireImage : Prop :=
  (∀ (s t : State) (h : Handle) (p : Packet) (off : Byte), s.Good → s.fault = 0#8 → s.packet h = some p →
    exec (.encSubmit h off) s = .next t → t.result = some ⟨.good, []⟩ →
    ∃ start, (off = 0#8 ∧ start = 0 ∨ off ≠ 0#8 ∧ headerAt s.params p.data off.toNat = some start) ∧
      t.wireRemainder = encodeFrame s.cp (p.data.drop start)) ∧
  (∀ (i : Instr) (s t : State), s.Good → exec i s = .next t →
    (¬ ((∃ h off, i = .encSubmit h off) ∧ t.result = some ⟨.good, []⟩) →
      acceptedBytes t.log ++ t.wireRemainder = acceptedBytes s.log ++ s.wireRemainder) ∧
    (i = .encProcess → t.result = some ⟨.busy, []⟩ → acceptedBytes t.log = acceptedBytes s.log) ∧
    (t.encMode = .idle → t.wireRemainder = [])) ∧
  (∀ (s t u : State) (h : Handle) (p : Packet) (off : Byte) (is : List Instr), s.Good → s.fault = 0#8 →
    s.packet h = some p → exec (.encSubmit h off) s = .next t → t.result = some ⟨.good, []⟩ →
    (∀ i ∈ is, ∀ h' off', i ≠ .encSubmit h' off') → execAll is t = .next u → u.encMode = .idle →
    ∃ start, (off = 0#8 ∧ start = 0 ∨ off ≠ 0#8 ∧ headerAt s.params p.data off.toNat = some start) ∧
      acceptedBytes u.log = acceptedBytes s.log ++ encodeFrame s.cp (p.data.drop start))

/-- No wire image holds a control byte followed by the abort opcode, and every image ends with the control byte and the
complete opcode (45_frame_encoder.md R270, R268). -/
def Obligations.NoImageHoldsAnAbort : Prop :=
  ∀ (cp : Byte) (bytes : List Byte), legalControl cp = true →
    (∀ before after, encodeFrame cp bytes ≠ before ++ cp :: (cp ||| 3#8) :: after) ∧
    (∃ before, encodeFrame cp bytes = before ++ [cp, cp ||| 2#8])

/-- The bound on the encoder's loop is never what ends it: any larger bound gives the same command, from every good state
with a frame in flight (45_frame_encoder.md R267; log entry 16). -/
def Obligations.TheEncoderLoopEndsBeforeItsBound : Prop :=
  ∀ (s : State) (k : Nat), s.Good → s.encMode ≠ .idle →
    encLoop s (encBound s + k) false s = encLoop s (encBound s) false s

/-! ### Configuration and system -/

/-- `CFG_SET_PREFIX` in every case, and the two reads (46_system.md R275 to R277): a low bit set raises `F_BAD_PREFIX`; a
frame in progress in either direction is `Busy`; else the control byte is written, and nothing else. The fault register's
read runs in the Faulted state too, and clears nothing. -/
def Obligations.SystemCommandsComplete : Prop :=
  ∀ (s : State),
    (∀ v, s.fault = 0#8 → v &&& 3#8 ≠ 0#8 → exec (.cfgSetPrefix v) s = faultsWith s 5#8) ∧
    (∀ v, s.fault = 0#8 → v &&& 3#8 = 0#8 →
      (s.decState ≠ .data ∨ s.decPkt ≠ none ∨ s.decDiscard = true ∨ s.encMode ≠ .idle) →
      exec (.cfgSetPrefix v) s = answers s .busy []) ∧
    (∀ v, s.fault = 0#8 → v &&& 3#8 = 0#8 → s.decState = .data → s.decPkt = none → s.decDiscard = false →
      s.encMode = .idle → exec (.cfgSetPrefix v) s = answers { s with cp := v } .good []) ∧
    (s.fault = 0#8 → exec .cfgGetPrefix s = answers s .good [.byte s.cp]) ∧
    exec .sysGetFault s = answers s .good [.byte s.fault]

end
end

