-- ==== Sys2Proof/Laws/State.lean ====
section
/-! SUPPORT. One lemma per field per update of the state, true by rfl, so that no proof unfolds a record update. -/

namespace Sys2Proof.Machine

variable (s t : State)

/-! ### A result -/

@[simp] theorem answer_cp (st : Verdict) (fs : List Field) : (s.answer st fs).cp = s.cp := rfl
@[simp] theorem answer_crc (st : Verdict) (fs : List Field) : (s.answer st fs).crc = s.crc := rfl
@[simp] theorem answer_decState (st : Verdict) (fs : List Field) : (s.answer st fs).decState = s.decState := rfl
@[simp] theorem answer_decPkt (st : Verdict) (fs : List Field) : (s.answer st fs).decPkt = s.decPkt := rfl
@[simp] theorem answer_decDiscard (st : Verdict) (fs : List Field) : (s.answer st fs).decDiscard = s.decDiscard := rfl
@[simp] theorem answer_encMode (st : Verdict) (fs : List Field) : (s.answer st fs).encMode = s.encMode := rfl
@[simp] theorem answer_encCollision (st : Verdict) (fs : List Field) : (s.answer st fs).encCollision = s.encCollision := rfl
@[simp] theorem answer_encPkt (st : Verdict) (fs : List Field) : (s.answer st fs).encPkt = s.encPkt := rfl
@[simp] theorem answer_encCursor (st : Verdict) (fs : List Field) : (s.answer st fs).encCursor = s.encCursor := rfl
@[simp] theorem answer_encEnd (st : Verdict) (fs : List Field) : (s.answer st fs).encEnd = s.encEnd := rfl
@[simp] theorem answer_fault (st : Verdict) (fs : List Field) : (s.answer st fs).fault = s.fault := rfl
@[simp] theorem answer_pm (st : Verdict) (fs : List Field) : (s.answer st fs).pm = s.pm := rfl
@[simp] theorem answer_nextHandle (st : Verdict) (fs : List Field) : (s.answer st fs).nextHandle = s.nextHandle := rfl
@[simp] theorem answer_params (st : Verdict) (fs : List Field) : (s.answer st fs).params = s.params := rfl
@[simp] theorem answer_inbox (st : Verdict) (fs : List Field) : (s.answer st fs).inbox = s.inbox := rfl
@[simp] theorem answer_draws (st : Verdict) (fs : List Field) : (s.answer st fs).draws = s.draws := rfl
@[simp] theorem answer_result (st : Verdict) (fs : List Field) : (s.answer st fs).result = some ⟨st, fs⟩ := rfl
@[simp] theorem answer_log (st : Verdict) (fs : List Field) : (s.answer st fs).log = s.log := rfl

/-! ### Undoing a command but for what the agents were asked -/

@[simp] theorem undoTo_cp : (s.undoTo t).cp = s.cp := rfl
@[simp] theorem undoTo_crc : (s.undoTo t).crc = s.crc := rfl
@[simp] theorem undoTo_decState : (s.undoTo t).decState = s.decState := rfl
@[simp] theorem undoTo_decPkt : (s.undoTo t).decPkt = s.decPkt := rfl
@[simp] theorem undoTo_decDiscard : (s.undoTo t).decDiscard = s.decDiscard := rfl
@[simp] theorem undoTo_encMode : (s.undoTo t).encMode = s.encMode := rfl
@[simp] theorem undoTo_encCollision : (s.undoTo t).encCollision = s.encCollision := rfl
@[simp] theorem undoTo_encPkt : (s.undoTo t).encPkt = s.encPkt := rfl
@[simp] theorem undoTo_encCursor : (s.undoTo t).encCursor = s.encCursor := rfl
@[simp] theorem undoTo_encEnd : (s.undoTo t).encEnd = s.encEnd := rfl
@[simp] theorem undoTo_fault : (s.undoTo t).fault = s.fault := rfl
@[simp] theorem undoTo_pm : (s.undoTo t).pm = s.pm := rfl
@[simp] theorem undoTo_nextHandle : (s.undoTo t).nextHandle = s.nextHandle := rfl
@[simp] theorem undoTo_params : (s.undoTo t).params = s.params := rfl
@[simp] theorem undoTo_inbox : (s.undoTo t).inbox = s.inbox := rfl
@[simp] theorem undoTo_draws : (s.undoTo t).draws = t.draws := rfl
@[simp] theorem undoTo_result : (s.undoTo t).result = s.result := rfl
@[simp] theorem undoTo_log : (s.undoTo t).log = t.log := rfl

/-! ### Taking a fault -/

@[simp] theorem raiseFrom_cp (c : FaultCode) : (s.raiseFrom t c).cp = s.cp := rfl
@[simp] theorem raiseFrom_crc (c : FaultCode) : (s.raiseFrom t c).crc = s.crc := rfl
@[simp] theorem raiseFrom_decState (c : FaultCode) : (s.raiseFrom t c).decState = s.decState := rfl
@[simp] theorem raiseFrom_decPkt (c : FaultCode) : (s.raiseFrom t c).decPkt = s.decPkt := rfl
@[simp] theorem raiseFrom_decDiscard (c : FaultCode) : (s.raiseFrom t c).decDiscard = s.decDiscard := rfl
@[simp] theorem raiseFrom_encMode (c : FaultCode) : (s.raiseFrom t c).encMode = s.encMode := rfl
@[simp] theorem raiseFrom_encCollision (c : FaultCode) : (s.raiseFrom t c).encCollision = s.encCollision := rfl
@[simp] theorem raiseFrom_encPkt (c : FaultCode) : (s.raiseFrom t c).encPkt = s.encPkt := rfl
@[simp] theorem raiseFrom_encCursor (c : FaultCode) : (s.raiseFrom t c).encCursor = s.encCursor := rfl
@[simp] theorem raiseFrom_encEnd (c : FaultCode) : (s.raiseFrom t c).encEnd = s.encEnd := rfl
@[simp] theorem raiseFrom_fault (c : FaultCode) : (s.raiseFrom t c).fault = faultCode c := rfl
@[simp] theorem raiseFrom_pm (c : FaultCode) : (s.raiseFrom t c).pm = s.pm := rfl
@[simp] theorem raiseFrom_nextHandle (c : FaultCode) : (s.raiseFrom t c).nextHandle = s.nextHandle := rfl
@[simp] theorem raiseFrom_params (c : FaultCode) : (s.raiseFrom t c).params = s.params := rfl
@[simp] theorem raiseFrom_inbox (c : FaultCode) : (s.raiseFrom t c).inbox = s.inbox := rfl
@[simp] theorem raiseFrom_draws (c : FaultCode) : (s.raiseFrom t c).draws = t.draws := rfl
@[simp] theorem raiseFrom_result (c : FaultCode) : (s.raiseFrom t c).result = none := rfl
@[simp] theorem raiseFrom_log (c : FaultCode) : (s.raiseFrom t c).log = t.log := rfl

/-! ### Taking a fault before anything was written -/

@[simp] theorem raise_cp (c : FaultCode) : (s.raise c).cp = s.cp := rfl
@[simp] theorem raise_crc (c : FaultCode) : (s.raise c).crc = s.crc := rfl
@[simp] theorem raise_decState (c : FaultCode) : (s.raise c).decState = s.decState := rfl
@[simp] theorem raise_decPkt (c : FaultCode) : (s.raise c).decPkt = s.decPkt := rfl
@[simp] theorem raise_decDiscard (c : FaultCode) : (s.raise c).decDiscard = s.decDiscard := rfl
@[simp] theorem raise_encMode (c : FaultCode) : (s.raise c).encMode = s.encMode := rfl
@[simp] theorem raise_encCollision (c : FaultCode) : (s.raise c).encCollision = s.encCollision := rfl
@[simp] theorem raise_encPkt (c : FaultCode) : (s.raise c).encPkt = s.encPkt := rfl
@[simp] theorem raise_encCursor (c : FaultCode) : (s.raise c).encCursor = s.encCursor := rfl
@[simp] theorem raise_encEnd (c : FaultCode) : (s.raise c).encEnd = s.encEnd := rfl
@[simp] theorem raise_fault (c : FaultCode) : (s.raise c).fault = faultCode c := rfl
@[simp] theorem raise_pm (c : FaultCode) : (s.raise c).pm = s.pm := rfl
@[simp] theorem raise_nextHandle (c : FaultCode) : (s.raise c).nextHandle = s.nextHandle := rfl
@[simp] theorem raise_params (c : FaultCode) : (s.raise c).params = s.params := rfl
@[simp] theorem raise_inbox (c : FaultCode) : (s.raise c).inbox = s.inbox := rfl
@[simp] theorem raise_draws (c : FaultCode) : (s.raise c).draws = s.draws := rfl
@[simp] theorem raise_result (c : FaultCode) : (s.raise c).result = none := rfl
@[simp] theorem raise_log (c : FaultCode) : (s.raise c).log = s.log := rfl

/-! ### Writing a record -/

@[simp] theorem setPacket_cp (h : Handle) (p : Packet) : (s.setPacket h p).cp = s.cp := rfl
@[simp] theorem setPacket_crc (h : Handle) (p : Packet) : (s.setPacket h p).crc = s.crc := rfl
@[simp] theorem setPacket_decState (h : Handle) (p : Packet) : (s.setPacket h p).decState = s.decState := rfl
@[simp] theorem setPacket_decPkt (h : Handle) (p : Packet) : (s.setPacket h p).decPkt = s.decPkt := rfl
@[simp] theorem setPacket_decDiscard (h : Handle) (p : Packet) : (s.setPacket h p).decDiscard = s.decDiscard := rfl
@[simp] theorem setPacket_encMode (h : Handle) (p : Packet) : (s.setPacket h p).encMode = s.encMode := rfl
@[simp] theorem setPacket_encCollision (h : Handle) (p : Packet) : (s.setPacket h p).encCollision = s.encCollision := rfl
@[simp] theorem setPacket_encPkt (h : Handle) (p : Packet) : (s.setPacket h p).encPkt = s.encPkt := rfl
@[simp] theorem setPacket_encCursor (h : Handle) (p : Packet) : (s.setPacket h p).encCursor = s.encCursor := rfl
@[simp] theorem setPacket_encEnd (h : Handle) (p : Packet) : (s.setPacket h p).encEnd = s.encEnd := rfl
@[simp] theorem setPacket_fault (h : Handle) (p : Packet) : (s.setPacket h p).fault = s.fault := rfl
@[simp] theorem setPacket_pm (h : Handle) (p : Packet) : (s.setPacket h p).pm = s.pm.put h p := rfl
@[simp] theorem setPacket_nextHandle (h : Handle) (p : Packet) : (s.setPacket h p).nextHandle = s.nextHandle := rfl
@[simp] theorem setPacket_params (h : Handle) (p : Packet) : (s.setPacket h p).params = s.params := rfl
@[simp] theorem setPacket_inbox (h : Handle) (p : Packet) : (s.setPacket h p).inbox = s.inbox := rfl
@[simp] theorem setPacket_draws (h : Handle) (p : Packet) : (s.setPacket h p).draws = s.draws := rfl
@[simp] theorem setPacket_result (h : Handle) (p : Packet) : (s.setPacket h p).result = s.result := rfl
@[simp] theorem setPacket_log (h : Handle) (p : Packet) : (s.setPacket h p).log = s.log := rfl

/-! ### Reset -/

@[simp] theorem hardReset_cp : (s.hardReset).cp = s.params.cpReset := rfl
@[simp] theorem hardReset_crc : (s.hardReset).crc = 0xFFFFFFFF#32 := rfl
@[simp] theorem hardReset_decState : (s.hardReset).decState = .data := rfl
@[simp] theorem hardReset_decPkt : (s.hardReset).decPkt = none := rfl
@[simp] theorem hardReset_decDiscard : (s.hardReset).decDiscard = false := rfl
@[simp] theorem hardReset_encMode : (s.hardReset).encMode = .idle := rfl
@[simp] theorem hardReset_encCollision : (s.hardReset).encCollision = false := rfl
@[simp] theorem hardReset_encPkt : (s.hardReset).encPkt = none := rfl
@[simp] theorem hardReset_encCursor : (s.hardReset).encCursor = 0#16 := rfl
@[simp] theorem hardReset_encEnd : (s.hardReset).encEnd = 0#16 := rfl
@[simp] theorem hardReset_fault : (s.hardReset).fault = 0#8 := rfl
@[simp] theorem hardReset_pm : (s.hardReset).pm = [] := rfl
@[simp] theorem hardReset_nextHandle : (s.hardReset).nextHandle = 1#32 := rfl
@[simp] theorem hardReset_params : (s.hardReset).params = s.params := rfl
@[simp] theorem hardReset_inbox : (s.hardReset).inbox = s.inbox := rfl
@[simp] theorem hardReset_draws : (s.hardReset).draws = s.draws := rfl
@[simp] theorem hardReset_result : (s.hardReset).result = none := rfl
@[simp] theorem hardReset_log : (s.hardReset).log = s.log := rfl

/-! ### Views of the memory through an update that leaves it -/

@[simp] theorem answer_packet (st : Verdict) (fs : List Field) (h : Handle) : (s.answer st fs).packet h = s.packet h := rfl
@[simp] theorem answer_readByte (st : Verdict) (fs : List Field) (h : Handle) (i : Nat) : (s.answer st fs).readByte h i = s.readByte h i := rfl
@[simp] theorem answer_held (st : Verdict) (fs : List Field) (h : Handle) : (s.answer st fs).held h = s.held h := rfl
@[simp] theorem answer_heldRefs (st : Verdict) (fs : List Field) (h : Handle) : (s.answer st fs).heldRefs h = s.heldRefs h := rfl
@[simp] theorem undoTo_packet (h : Handle) : (s.undoTo t).packet h = s.packet h := rfl
@[simp] theorem undoTo_readByte (h : Handle) (i : Nat) : (s.undoTo t).readByte h i = s.readByte h i := rfl
@[simp] theorem undoTo_held (h : Handle) : (s.undoTo t).held h = s.held h := rfl
@[simp] theorem undoTo_heldRefs (h : Handle) : (s.undoTo t).heldRefs h = s.heldRefs h := rfl
@[simp] theorem raiseFrom_packet (c : FaultCode) (h : Handle) : (s.raiseFrom t c).packet h = s.packet h := rfl
@[simp] theorem raiseFrom_readByte (c : FaultCode) (h : Handle) (i : Nat) : (s.raiseFrom t c).readByte h i = s.readByte h i := rfl
@[simp] theorem raiseFrom_held (c : FaultCode) (h : Handle) : (s.raiseFrom t c).held h = s.held h := rfl
@[simp] theorem raiseFrom_heldRefs (c : FaultCode) (h : Handle) : (s.raiseFrom t c).heldRefs h = s.heldRefs h := rfl
@[simp] theorem raise_packet (c : FaultCode) (h : Handle) : (s.raise c).packet h = s.packet h := rfl
@[simp] theorem raise_readByte (c : FaultCode) (h : Handle) (i : Nat) : (s.raise c).readByte h i = s.readByte h i := rfl
@[simp] theorem raise_held (c : FaultCode) (h : Handle) : (s.raise c).held h = s.held h := rfl
@[simp] theorem raise_heldRefs (c : FaultCode) (h : Handle) : (s.raise c).heldRefs h = s.heldRefs h := rfl

@[simp] theorem setPacket_held (h k : Handle) (p : Packet) : (s.setPacket h p).held k = s.held k := rfl
@[simp] theorem setPacket_heldRefs (h k : Handle) (p : Packet) : (s.setPacket h p).heldRefs k = s.heldRefs k := rfl

/-- A fault taken before anything was written changes the fault register and the result alone. -/
theorem raise_eq (c : FaultCode) : s.raise c = { s with fault := faultCode c, result := none } := rfl

/-- An answer changes the result alone. -/
theorem answer_eq (st : Verdict) (fs : List Field) : s.answer st fs = { s with result := some ⟨st, fs⟩ } := rfl

/-- Every command's code runs only where the block is not Faulted (60_exceptions.md R281). -/
theorem runCommand_of_ok (f : State → State) (hs : s.fault = 0#8) : runCommand s f = .next (f s) := by
  simp [runCommand, hs]

/-- In the Faulted state a command changes nothing and gives no result (60_exceptions.md R281). -/
theorem runCommand_of_faulted (f : State → State) (hs : s.fault ≠ 0#8) :
    runCommand s f = .next { s with result := none } := by
  simp [runCommand, hs]

/-- A number that fits a one-byte result field stands in it, and the state stays. -/
theorem byteField_of_fits (free : Nat → Byte) {n : Nat} (hn : n ≤ 255) :
    s.byteField free n = (.byte (BitVec.ofNat 8 n), s) := by
  simp [State.byteField, hn]

/-- A number that does not fit gives a free value and moves the counter of free values on. -/
theorem byteField_of_wide (free : Nat → Byte) {n : Nat} (hn : 255 < n) :
    s.byteField free n =
      (.byte (free s.draws.free), { s with draws := { s.draws with free := s.draws.free + 1 } }) := by
  simp [State.byteField, Nat.not_le.mpr hn]

/-- A command always answers a next state. -/
theorem runCommand_next (f : State → State) :
    runCommand s f = .next (if s.fault = 0#8 then f s else { s with result := none }) := rfl

end Sys2Proof.Machine
end

