-- ==== Sys2Proof/Laws/Memory.lean ====
section
/-! SUPPORT. Packet memory: a read after a write, and the canonical form, which every operation keeps. -/

namespace Sys2Proof.Machine

/-- The record written is the record read. -/
@[simp] theorem lookup_put_self (m : Memory) (h : Handle) (p : Packet) : (m.put h p).lookup h = some p := by
  induction m with
  | nil => simp [Memory.put, Memory.lookup]
  | cons e m ih =>
    obtain ⟨k, q⟩ := e
    by_cases hk : k = h
    · simp [Memory.put, Memory.lookup, hk]
    · by_cases hlt : h < k <;> simp [Memory.put, Memory.lookup, hk, hlt, ih]

/-- A write leaves every other handle's record alone. -/
theorem lookup_put_other (m : Memory) {h k : Handle} (p : Packet) (hne : k ≠ h) :
    (m.put h p).lookup k = m.lookup k := by
  induction m with
  | nil => simp [Memory.put, Memory.lookup, hne.symm]
  | cons e m ih =>
    obtain ⟨j, q⟩ := e
    by_cases hj : j = h
    · simp [Memory.put, Memory.lookup, hj, hne.symm]
    · by_cases hlt : h < j
      · simp [Memory.put, Memory.lookup, hj, hlt, hne.symm]
      · simp [Memory.put, Memory.lookup, hj, hlt, ih]

/-- A write, seen at any handle. -/
theorem lookup_put (m : Memory) (h k : Handle) (p : Packet) :
    (m.put h p).lookup k = if k = h then some p else m.lookup k := by
  split
  · next e => rw [e]; exact lookup_put_self m h p
  · next e => exact lookup_put_other m p e

/-- An erased handle is dead. -/
@[simp] theorem lookup_erase_self (m : Memory) (h : Handle) : (Memory.erase m h).lookup h = none := by
  induction m with
  | nil => rfl
  | cons e m ih =>
    obtain ⟨k, q⟩ := e
    by_cases hk : k = h <;> simp [Memory.erase, Memory.lookup, hk, ih]

/-- Erasing a handle leaves every other one alone. -/
theorem lookup_erase_other (m : Memory) {h k : Handle} (hne : k ≠ h) : (Memory.erase m h).lookup k = m.lookup k := by
  induction m with
  | nil => rfl
  | cons e m ih =>
    obtain ⟨j, q⟩ := e
    by_cases hj : j = h
    · simp [Memory.erase, Memory.lookup, hj, ih, hne.symm]
    · simp [Memory.erase, Memory.lookup, hj, ih]

/-- An erased memory, seen at any handle. -/
theorem lookup_erase (m : Memory) (h k : Handle) :
    (Memory.erase m h).lookup k = if k = h then none else m.lookup k := by
  split
  · next e => rw [e]; exact lookup_erase_self m h
  · next e => exact lookup_erase_other m e

/-- The second of two writes to one handle stands. -/
@[simp] theorem put_put (m : Memory) (h : Handle) (p q : Packet) : (m.put h p).put h q = m.put h q := by
  induction m with
  | nil => simp [Memory.put]
  | cons e m ih =>
    obtain ⟨k, r⟩ := e
    by_cases hk : k = h
    · simp [Memory.put, hk]
    · by_cases hlt : h < k <;> simp [Memory.put, hk, hlt, ih]

/-- Erasing what was just written. -/
@[simp] theorem erase_put (m : Memory) (h : Handle) (p : Packet) :
    Memory.erase (m.put h p) h = Memory.erase m h := by
  induction m with
  | nil => simp [Memory.put, Memory.erase]
  | cons e m ih =>
    obtain ⟨k, r⟩ := e
    by_cases hk : k = h
    · simp [Memory.put, Memory.erase, hk]
    · by_cases hlt : h < k
      · simp [Memory.put, Memory.erase, hk, hlt]
      · simp [Memory.put, Memory.erase, hk, hlt, ih]

/-- A handle in a memory after a write is the one written or was there. -/
theorem mem_put {m : Memory} {h : Handle} {p : Packet} {e : Handle × Packet} (he : e ∈ m.put h p) :
    e = (h, p) ∨ e ∈ m := by
  induction m with
  | nil => exact .inl (by simpa [Memory.put] using he)
  | cons a m ih =>
    obtain ⟨k, q⟩ := a
    simp only [Memory.put] at he
    split at he
    · rcases List.mem_cons.mp he with h1 | h1
      · exact .inl h1
      · exact .inr (List.mem_cons_of_mem _ h1)
    · split at he
      · rcases List.mem_cons.mp he with h1 | h1
        · exact .inl h1
        · exact .inr h1
      · rcases List.mem_cons.mp he with h1 | h1
        · exact .inr (by simp [h1])
        · rcases ih h1 with h2 | h2
          · exact .inl h2
          · exact .inr (List.mem_cons_of_mem _ h2)

/-- A handle in a memory after an erase was there. -/
theorem mem_erase {m : Memory} {h : Handle} {e : Handle × Packet} (he : e ∈ Memory.erase m h) : e ∈ m := by
  induction m with
  | nil => exact he
  | cons a m ih =>
    obtain ⟨k, q⟩ := a
    simp only [Memory.erase] at he
    split at he
    · exact List.mem_cons_of_mem _ (ih he)
    · rcases List.mem_cons.mp he with h1 | h1
      · simp [h1]
      · exact List.mem_cons_of_mem _ (ih h1)

/-- A write keeps the canonical form. -/
theorem put_wf {m : Memory} (hm : Memory.wf m) (h : Handle) (p : Packet) : Memory.wf (m.put h p) := by
  induction m with
  | nil => simp [Memory.put]
  | cons a m ih =>
    obtain ⟨k, q⟩ := a
    obtain ⟨hk, hrest⟩ := List.pairwise_cons.mp hm
    simp only [Memory.put]
    split
    · next e => subst e; exact List.pairwise_cons.mpr ⟨fun b hb => hk b hb, hrest⟩
    · next hne =>
      split
      · next hlt =>
        refine List.pairwise_cons.mpr ⟨fun b hb => ?_, hm⟩
        rcases List.mem_cons.mp hb with rfl | hb
        · exact hlt
        · exact BitVec.lt_trans hlt (hk b hb)
      · next hge =>
        refine List.pairwise_cons.mpr ⟨fun b hb => ?_, ih hrest⟩
        rcases mem_put hb with rfl | hb
        · show k < h
          simp only [BitVec.lt_def] at hge ⊢
          have := mt BitVec.eq_of_toNat_eq hne
          omega
        · exact hk b hb

/-- An erase keeps the canonical form. -/
theorem erase_wf {m : Memory} (hm : Memory.wf m) (h : Handle) : Memory.wf (Memory.erase m h) := by
  induction m with
  | nil => simp [Memory.erase]
  | cons a m ih =>
    obtain ⟨k, q⟩ := a
    obtain ⟨hk, hrest⟩ := List.pairwise_cons.mp hm
    simp only [Memory.erase]
    split
    · exact ih hrest
    · exact List.pairwise_cons.mpr ⟨fun b hb => hk b (mem_erase hb), ih hrest⟩

/-- The memory after reset has the canonical form. -/
theorem reset_memory_wf : Memory.wf State.reset.pm := List.Pairwise.nil

/-- The records of a state after one is written. -/
theorem setPacket_packet (s : State) (h k : Handle) (p : Packet) :
    (s.setPacket h p).packet k = if k = h then some p else s.packet k := lookup_put s.pm h k p

@[simp] theorem setPacket_packet_self (s : State) (h : Handle) (p : Packet) :
    (s.setPacket h p).packet h = some p := lookup_put_self s.pm h p

theorem setPacket_packet_other (s : State) {h k : Handle} (p : Packet) (hne : k ≠ h) :
    (s.setPacket h p).packet k = s.packet k := lookup_put_other s.pm p hne

/-- What `Dereference(h)` does to the records (20_memory.md R72). -/
theorem dereference_packet (s : State) (h k : Handle) :
    (s.dereference h).packet k =
      if k = h then
        (s.packet h).bind (fun p =>
          if p.ref = 0 then some p else if p.ref = 1 then none else some { p with ref := p.ref - 1 })
      else s.packet k := by
  unfold State.dereference
  rcases hp : s.packet h with _ | p
  · by_cases hk : k = h
    · simp [hk, hp]
    · simp [hk]
  · by_cases h0 : p.ref = 0
    · by_cases hk : k = h
      · simp [hk, hp, h0]
      · simp [hk, h0]
    · by_cases h1 : p.ref = 1
      · by_cases hk : k = h
        · simp [hk, h1, State.packet]
        · simp [hk, h1, State.packet, lookup_erase_other _ hk]
      · by_cases hk : k = h
        · simp [hk, h0, h1]
        · simp [hk, h0, h1, setPacket_packet_other _ _ hk]

/-- `Dereference(h)` changes the memory alone. -/
theorem dereference_eq (s : State) (h : Handle) : s.dereference h = { s with pm := (s.dereference h).pm } := by
  unfold State.dereference
  split
  · rfl
  · split
    · rfl
    · split <;> rfl

/-- `Dereference(h)` keeps the canonical form. -/
theorem dereference_wf {s : State} (hs : Memory.wf s.pm) (h : Handle) : Memory.wf (s.dereference h).pm := by
  unfold State.dereference
  split
  · exact hs
  · split
    · exact hs
    · split
      · exact erase_wf hs h
      · exact put_wf hs h _

end Sys2Proof.Machine
end

