-- ==== Sys2Proof/Laws/Good.lean ====
section
/-! SUPPORT. A decidable check that a state is good, so that a concrete good state can be shown to be one. -/

namespace Sys2Proof.Machine

/-- A live handle's record stands in the memory. -/
theorem mem_of_lookup {m : Memory} {h : Handle} {p : Packet} (hl : m.lookup h = some p) : (h, p) ∈ m := by
  induction m with
  | nil => cases hl
  | cons e m ih =>
    obtain ⟨k, q⟩ := e
    by_cases hk : k = h
    · obtain rfl : q = p := by simpa [Memory.lookup, hk] using hl
      simp [hk]
    · exact List.mem_cons_of_mem _ (ih (by simpa [Memory.lookup, hk] using hl))

/-- The conditions of `State.Good`, each over the finitely many records and handles it can speak of. -/
abbrev State.goodCheck (s : State) : Prop :=
  s.params.wf ∧ Memory.wf s.pm ∧
  s.pm.all (fun e => 1 ≤ e.2.cap ∧ e.2.cap ≤ s.params.lenMax ∧ e.2.len ≤ e.2.cap ∧ e.2.ref ≤ s.params.refMax ∧
    e.1 ≠ 0#32 ∧ e.1 < s.nextHandle) = true ∧
  s.nextHandle ≠ 0#32 ∧ s.cp &&& 3#8 = 0#8 ∧ s.fault ≤ 8#8 ∧
  (s.decDiscard = true → s.decPkt = none) ∧ (s.encMode = .idle ↔ s.encPkt = none) ∧
  (s.decPkt.toList ++ s.encPkt.toList).all
    (fun h => (s.packet h).any (fun p => decide (1 ≤ s.heldRefs h ∧ s.heldRefs h ≤ p.ref))) = true ∧
  s.decPkt.toList.all (fun h => s.encPkt ≠ some h) = true ∧
  s.encPkt.toList.all (fun h => (s.packet h).all (fun p =>
    decide (s.encCursor.toNat ≤ s.encEnd.toNat ∧ s.encEnd.toNat = p.len))) = true ∧
  (s.encCollision = true → s.encMode = .transmitting ∨ s.encMode = .flushCollision)

/-- A state that passes the check is good. -/
theorem good_of_check {s : State} (hs : s.goodCheck) : s.Good := by
  obtain ⟨h1, h2, h3, h4, h5, h6, h7, h8, h9, h10, h11, h12⟩ := hs
  refine ⟨h1, h2, fun h p hp => ?_, fun h p hp => ?_, h4, h5, h6, h7, h8, fun h hh => ?_, fun h hd => ?_,
    fun h p he hp => ?_, h12⟩
  · obtain ⟨a, b, c, d, _⟩ := of_decide_eq_true (List.all_eq_true.mp h3 _ (mem_of_lookup hp)); exact ⟨a, b, c, d⟩
  · obtain ⟨_, _, _, _, a, b⟩ := of_decide_eq_true (List.all_eq_true.mp h3 _ (mem_of_lookup hp)); exact ⟨a, b⟩
  · have : h ∈ s.decPkt.toList ++ s.encPkt.toList := by simpa [State.held] using hh
    have hq := List.all_eq_true.mp h9 h this
    rcases hp : s.packet h with _ | p
    · simp [hp] at hq
    · exact ⟨p, rfl, by simpa [hp] using hq⟩
  · simpa [hd] using List.all_eq_true.mp h10 h (by simp [hd])
  · simpa [hp] using List.all_eq_true.mp h11 h (by simp [he])

end Sys2Proof.Machine
end

