-- ==== Sys2Proof/Laws/Ops.lean ====
section
/-! SUPPORT. What each shared operation can do, said once, for proofs to cite in place of unfolding it. -/

namespace Sys2Proof.Machine

variable {s : State} {h : Handle} {p : Packet}

/-! ### The checks -/

@[simp] theorem ifLegal_true (k : State) : s.ifLegal true k = k := rfl

@[simp] theorem ifLegal_false (k : State) : s.ifLegal false k = s.raise .badArg := rfl

theorem ifLive_of_dead (hp : s.packet h = none) (k : Packet → State) : s.ifLive h k = s.raise .staleHandle := by
  simp [State.ifLive, hp]

theorem ifLive_of_live (hp : s.packet h = some p) (k : Packet → State) : s.ifLive h k = k p := by
  simp [State.ifLive, hp]

theorem ifMutable_of_dead (hp : s.packet h = none) (k : Packet → State) :
    s.ifMutable h k = s.raise .staleHandle := ifLive_of_dead hp _

theorem ifMutable_of_held (hp : s.packet h = some p) (hh : s.held h = true) (k : Packet → State) :
    s.ifMutable h k = s.raise .packetHeld := by
  simp [State.ifMutable, ifLive_of_live hp, hh]

theorem ifMutable_of_free (hp : s.packet h = some p) (hh : s.held h = false) (k : Packet → State) :
    s.ifMutable h k = k p := by
  simp [State.ifMutable, ifLive_of_live hp, hh]

theorem ifIndex_of_lt {i : Nat} (hi : i < p.len) (k : State) : s.ifIndex p i k = k := by
  simp [State.ifIndex, hi]

theorem ifIndex_of_ge {i : Nat} (hi : p.len ≤ i) (k : State) : s.ifIndex p i k = s.raise .index := by
  simp [State.ifIndex, Nat.not_lt.mpr hi]

/-! ### The agents' answers: a question changes the answers to come and the log alone -/

theorem drawAlloc_frame (s : State) (cap : Nat) : (drawAlloc s cap).2 = s.undoTo (drawAlloc s cap).2 := by
  unfold drawAlloc; split <;> rfl

theorem drawRealloc_frame (s : State) (h : Handle) (cap : Nat) :
    (drawRealloc s h cap).2 = s.undoTo (drawRealloc s h cap).2 := by
  unfold drawRealloc; split <;> rfl

theorem drawTx_frame (s : State) (v : Byte) : (drawTx s v).2 = s.undoTo (drawTx s v).2 := by
  unfold drawTx; split <;> rfl

theorem drawSink_frame (s : State) (h : Handle) (p : Packet) : (drawSink s h p).2 = s.undoTo (drawSink s h p).2 := by
  unfold drawSink; split <;> rfl

theorem drawAlloc_log (s : State) (cap : Nat) :
    (drawAlloc s cap).2.log = s.log ++ [.alloc cap (drawAlloc s cap).1] := by
  unfold drawAlloc; split <;> rfl

theorem drawRealloc_log (s : State) (h : Handle) (cap : Nat) :
    (drawRealloc s h cap).2.log = s.log ++ [.realloc h cap (drawRealloc s h cap).1] := by
  unfold drawRealloc; split <;> rfl

theorem drawTx_log (s : State) (v : Byte) : (drawTx s v).2.log = s.log ++ [.tx v (drawTx s v).1] := by
  unfold drawTx; split <;> rfl

theorem drawSink_log (s : State) (h : Handle) (p : Packet) :
    (drawSink s h p).2.log = s.log ++ [.offer h 0#8 p.data (drawSink s h p).1] := by
  unfold drawSink; split <;> rfl

/-- Going back to the state one is at. -/
@[simp] theorem undoTo_self (s : State) : s.undoTo s = s := rfl

@[simp] theorem undoTo_undoTo (a b c : State) : (a.undoTo b).undoTo c = a.undoTo c := rfl

/-- A legal answer keeps no more references than there is room for (44_frame_decoder.md R244). -/
theorem legalAnswer_good {refMax ref k : Nat} {a : SinkAnswer} (hr : ref ≤ refMax)
    (ha : legalAnswer refMax ref a = .good k) : ref + k ≤ refMax := by
  cases a with
  | busy => cases ha
  | bad => cases ha
  | good n =>
    obtain rfl : min n (refMax - ref) = k := by simpa [legalAnswer] using ha
    omega

theorem drawSink_good {k : Nat} {t : State} (hr : p.ref ≤ s.params.refMax) (hd : drawSink s h p = (.good k, t)) :
    p.ref + k ≤ s.params.refMax := by
  unfold drawSink at hd
  split at hd
  · exact legalAnswer_good hr (congrArg Prod.fst hd)
  · exact legalAnswer_good hr (congrArg Prod.fst hd)

/-! ### Allocation and growth -/

/-- All that `Allocate` can do (20_memory.md R69): refuse the capacity; be refused; run out of handles; make the packet. -/
theorem allocate_cases (s : State) (cap : Nat) :
    ((cap = 0 ∨ s.params.lenMax < cap) ∧ allocate s cap = (.bad, 0#32, s)) ∨
    (cap ≠ 0 ∧ cap ≤ s.params.lenMax ∧
      ((∃ s1, drawAlloc s cap = (false, s1) ∧ allocate s cap = (.busy, 0#32, s1)) ∨
       (∃ s1, drawAlloc s cap = (true, s1) ∧ s.nextHandle = 0xFFFFFFFF#32 ∧ allocate s cap = (.busy, 0#32, s1)) ∨
       (∃ s1, drawAlloc s cap = (true, s1) ∧ s.nextHandle ≠ 0xFFFFFFFF#32 ∧
          allocate s cap = (.good, s.nextHandle,
            { s1.setPacket s.nextHandle { data := [], cap := cap, status := .busy, ref := 0 } with
              nextHandle := s.nextHandle + 1#32 })))) := by
  by_cases hc : cap = 0 ∨ s.params.lenMax < cap
  · exact .inl ⟨hc, by simp [allocate, hc]⟩
  · refine .inr ⟨fun h0 => hc (.inl h0), Nat.le_of_not_lt fun h1 => hc (.inr h1), ?_⟩
    rcases hd : drawAlloc s cap with ⟨a, s1⟩
    cases a with
    | false => exact .inl ⟨s1, rfl, by simp [allocate, hc, hd]⟩
    | true =>
      by_cases hn : s.nextHandle = 0xFFFFFFFF#32
      · exact .inr (.inl ⟨s1, rfl, hn, by simp [allocate, hc, hd, hn]⟩)
      · exact .inr (.inr ⟨s1, rfl, hn, by simp [allocate, hc, hd, hn, State.setPacket]⟩)

/-- The grown capacity is within the limit. -/
theorem grownCap_le (cap need inc lim2 : Nat) : grownCap cap need inc lim2 ≤ lim2 := Nat.min_le_left _ _

/-- All that `EnsureRoom` can do (20_memory.md R70): find room; see that no growth helps; be refused; grow. -/
theorem ensureRoom_cases (s : State) (h : Handle) (p : Packet) (need inc lim : Nat) :
    (need ≤ p.cap ∧ ensureRoom s h p need inc lim = (.good, p, s)) ∨
    (p.cap < need ∧
      ((inc = 0 ∨ min lim s.params.lenMax ≤ p.cap ∨ grownCap p.cap need inc (min lim s.params.lenMax) < need) ∧
          ensureRoom s h p need inc lim = (.bad, p, s) ∨
       (inc ≠ 0 ∧ p.cap < min lim s.params.lenMax ∧ need ≤ grownCap p.cap need inc (min lim s.params.lenMax)) ∧
          ((∃ s1, drawRealloc s h (grownCap p.cap need inc (min lim s.params.lenMax)) = (false, s1) ∧
              ensureRoom s h p need inc lim = (.busy, p, s1)) ∨
           (∃ s1, drawRealloc s h (grownCap p.cap need inc (min lim s.params.lenMax)) = (true, s1) ∧
              ensureRoom s h p need inc lim =
                (.good, { p with cap := grownCap p.cap need inc (min lim s.params.lenMax) }, s1))))) := by
  by_cases hn : need ≤ p.cap
  · exact .inl ⟨hn, by simp [ensureRoom, hn]⟩
  refine .inr ⟨Nat.lt_of_not_le hn, ?_⟩
  by_cases h1 : inc = 0 ∨ min lim s.params.lenMax ≤ p.cap
  · refine .inl ⟨?_, by unfold ensureRoom; simp only [if_neg hn, if_pos h1]⟩
    rcases h1 with h1 | h1
    · exact .inl h1
    · exact .inr (.inl h1)
  by_cases h2 : grownCap p.cap need inc (min lim s.params.lenMax) < need
  · exact .inl ⟨.inr (.inr h2), by unfold ensureRoom; simp only [if_neg hn, if_neg h1, if_pos h2]⟩
  refine .inr ⟨⟨fun h0 => h1 (.inl h0), Nat.lt_of_not_le fun h0 => h1 (.inr h0), Nat.le_of_not_lt h2⟩, ?_⟩
  rcases hd : drawRealloc s h (grownCap p.cap need inc (min lim s.params.lenMax)) with ⟨a, s1⟩
  cases a with
  | false => exact .inl ⟨s1, rfl, by unfold ensureRoom; simp only [if_neg hn, if_neg h1, if_neg h2, hd]⟩
  | true => exact .inr ⟨s1, rfl, by unfold ensureRoom; simp only [if_neg hn, if_neg h1, if_neg h2, hd]⟩

/-- With room there is nothing to ask. -/
theorem ensureRoom_room {need inc lim : Nat} (hn : need ≤ p.cap) : ensureRoom s h p need inc lim = (.good, p, s) := by
  simp [ensureRoom, hn]

/-- What `EnsureRoom` leaves: the record but for its capacity, which is enough on `Good` and else unchanged, and the state but
for what the allocator was asked. -/
theorem ensureRoom_frame {need inc lim : Nat} {r : Verdict} {p' : Packet} {s' : State}
    (he : ensureRoom s h p need inc lim = (r, p', s')) :
    s' = s.undoTo s' ∧ p' = { p with cap := p'.cap } ∧ (r = .good → need ≤ p'.cap) ∧ (r ≠ .good → p' = p) ∧
      (p'.cap = p.cap ∨ (p'.cap ≤ s.params.lenMax ∧ p.cap < p'.cap)) := by
  rcases ensureRoom_cases s h p need inc lim with ⟨hn, e⟩ | ⟨hlt, ⟨_, e⟩ | ⟨⟨_, _, hg⟩, ⟨s1, hd, e⟩ | ⟨s1, hd, e⟩⟩⟩
  · obtain ⟨rfl, rfl, rfl⟩ : r = .good ∧ p' = p ∧ s' = s := by rw [e] at he; simpa [eq_comm] using he
    exact ⟨rfl, rfl, fun _ => hn, fun hr => absurd rfl hr, .inl rfl⟩
  · obtain ⟨rfl, rfl, rfl⟩ : r = .bad ∧ p' = p ∧ s' = s := by rw [e] at he; simpa [eq_comm] using he
    exact ⟨rfl, rfl, nofun, fun _ => rfl, .inl rfl⟩
  · obtain ⟨rfl, rfl, rfl⟩ : r = .busy ∧ p' = p ∧ s' = s1 := by rw [e] at he; simpa [eq_comm] using he
    have := drawRealloc_frame s h (grownCap p'.cap need inc (min lim s.params.lenMax))
    rw [hd] at this
    exact ⟨this, rfl, nofun, fun _ => rfl, .inl rfl⟩
  · obtain ⟨rfl, rfl, rfl⟩ : r = .good ∧
        p' = { p with cap := grownCap p.cap need inc (min lim s.params.lenMax) } ∧ s' = s1 := by
      rw [e] at he; simpa [eq_comm] using he
    have := drawRealloc_frame s h (grownCap p.cap need inc (min lim s.params.lenMax))
    rw [hd] at this
    refine ⟨this, rfl, fun _ => hg, fun hr => absurd rfl hr, .inr ⟨?_, by simp only; omega⟩⟩
    exact Nat.le_trans (grownCap_le _ _ _ _) (Nat.min_le_right _ _)

/-- All that an append can do (20_memory.md R68): every byte is appended, or the answer is `Busy` or `Bad` and only the
allocator was asked. -/
theorem appendCommand_cases (s : State) (h : Handle) (p : Packet) (bytes : List Byte) (inc lim : Nat) :
    ∃ r p' s', ensureRoom s h p (p.len + bytes.length) inc lim = (r, p', s') ∧
      appendCommand s h p bytes inc lim =
        if r = .good then (s'.setPacket h (p'.append bytes)).answer .good [] else s'.answer r [] := by
  rcases e : ensureRoom s h p (p.len + bytes.length) inc lim with ⟨r, p', s'⟩
  refine ⟨r, p', s', rfl, ?_⟩
  cases r <;> simp [appendCommand, e]

/-! ### References -/

@[simp] theorem dereference_of_dead (hp : s.packet h = none) : s.dereference h = s := by
  simp [State.dereference, hp]

theorem dereference_of_zero (hp : s.packet h = some p) (h0 : p.ref = 0) : s.dereference h = s := by
  simp [State.dereference, hp, h0]

theorem dereference_of_one (hp : s.packet h = some p) (h1 : p.ref = 1) :
    s.dereference h = { s with pm := s.pm.erase h } := by
  simp [State.dereference, hp, h1]

theorem dereference_of_more (hp : s.packet h = some p) (h2 : 2 ≤ p.ref) :
    s.dereference h = s.setPacket h { p with ref := p.ref - 1 } := by
  have h0 : p.ref ≠ 0 := by omega
  have h1 : p.ref ≠ 1 := by omega
  simp [State.dereference, hp, h0, h1]

/-! ### The decoder -/

/-- All that getting the packet to assemble can do: it is there; it is allocated with one reference, or none can be added
because `REF_MAX` is 0; the allocator refuses. -/
theorem decPacket_cases (s : State) (hw : s.params.wf) :
    (∃ k, s.decPkt = some k ∧ decPacket s = .consumed s) ∨
    (s.decPkt = none ∧
      ((∃ s1, drawAlloc s s.params.decInitCap = (true, s1) ∧ s.nextHandle ≠ 0xFFFFFFFF#32 ∧ s.params.refMax ≠ 0 ∧
          decPacket s = .consumed
            { s1.setPacket s.nextHandle { data := [], cap := s.params.decInitCap, status := .busy, ref := 1 } with
              nextHandle := s.nextHandle + 1#32, decPkt := some s.nextHandle }) ∨
       (∃ s1, s.params.refMax = 0 ∧ decPacket s = .faulted .refcount s1) ∨
       (∃ a s1, drawAlloc s s.params.decInitCap = (a, s1) ∧ (a = false ∨ s.nextHandle = 0xFFFFFFFF#32) ∧
          decPacket s = .busy (s.undoTo s1)))) := by
  rcases hd : s.decPkt with _ | k
  · refine .inr ⟨rfl, ?_⟩
    rcases allocate_cases s s.params.decInitCap with ⟨hc, _⟩ | ⟨_, _, ⟨s1, ha, e⟩ | ⟨s1, ha, hn, e⟩ | ⟨s1, ha, hn, e⟩⟩
    · obtain ⟨_, _, _, _, _, _, _⟩ := hw
      omega
    · exact .inr (.inr ⟨false, s1, ha, .inl rfl, by simp [decPacket, hd, e]⟩)
    · exact .inr (.inr ⟨true, s1, ha, .inr hn, by simp [decPacket, hd, e]⟩)
    · by_cases h0 : s.params.refMax = 0
      · exact .inr (.inl ⟨_, h0, by simp [decPacket, hd, e, State.packet, State.setPacket, Packet.addRef, h0]; rfl⟩)
      · refine .inl ⟨s1, ha, hn, h0, ?_⟩
        simp [decPacket, hd, e, State.packet, State.setPacket, Packet.addRef, Ne.symm h0]
  · exact .inl ⟨k, rfl, by simp [decPacket, hd]⟩

/-- All that the append to the packet being assembled can do, where it is live. -/
theorem appendAssembled_cases (s0 : State) (v : Byte) (hd : s.decPkt = some h) (hp : s.packet h = some p) :
    ∃ r p' s1, ensureRoom s h p (p.len + 1) s.params.decIncrement s.params.decLimit = (r, p', s1) ∧
      ((r = .good ∧ appendAssembled s0 s v = .consumed (s1.setPacket h (p'.append [v]))) ∨
       (r = .busy ∧ appendAssembled s0 s v = .busy (s0.undoTo s1)) ∨
       (r = .bad ∧ s.params.decFailPolicy = .retryAll ∧ appendAssembled s0 s v = .busy (s0.undoTo s1)) ∨
       (r = .bad ∧ s.params.decFailPolicy = .discardAtCeiling ∧
          appendAssembled s0 s v = .consumed (enterDiscard s1))) := by
  rcases e : ensureRoom s h p (p.len + 1) s.params.decIncrement s.params.decLimit with ⟨r, p', s1⟩
  refine ⟨r, p', s1, rfl, ?_⟩
  cases r with
  | good => exact .inl ⟨rfl, by simp [appendAssembled, hd, hp, e]⟩
  | busy => exact .inr (.inl ⟨rfl, by simp [appendAssembled, hd, hp, e]⟩)
  | bad =>
    cases hf : s.params.decFailPolicy with
    | retryAll => exact .inr (.inr (.inl ⟨rfl, rfl, by simp [appendAssembled, hd, hp, e, hf]⟩))
    | discardAtCeiling => exact .inr (.inr (.inr ⟨rfl, rfl, by simp [appendAssembled, hd, hp, e, hf]⟩))

theorem decAppend_of_discard (hd : s.decDiscard = true) (v : Byte) : decAppend s v = .consumed s := by
  simp [decAppend, hd]

/-- All that the offer of an assembled packet can do, where it is live (44_frame_decoder.md R239). -/
theorem deliver_cases (s0 : State) (hd : s.decPkt = some h) (hp : s.packet h = some p) :
    ∃ a s1, drawSink s h p = (a, s1) ∧
      ((a = .busy ∧ deliver s0 s = .busy (s0.undoTo s1)) ∨
       (a = .bad ∧ deliver s0 s = .consumed
          { s1.dereference h with decPkt := none, decState := .data, decDiscard := false }) ∨
       (∃ k, a = .good k ∧ deliver s0 s = .consumed
          { (s1.setPacket h { p with ref := p.ref + k }).dereference h with
            decPkt := none, decState := .data, decDiscard := false })) := by
  rcases e : drawSink s h p with ⟨a, s1⟩
  refine ⟨a, s1, rfl, ?_⟩
  cases a with
  | busy => exact .inl ⟨rfl, by simp [deliver, hd, hp, e]⟩
  | bad => exact .inr (.inl ⟨rfl, by simp [deliver, hd, hp, e]⟩)
  | good k => exact .inr (.inr ⟨k, rfl, by simp [deliver, hd, hp, e]⟩)

/-! ### The encoder -/

/-- All that offering one byte can do (45_frame_encoder.md R262). -/
theorem offerByte_cases (s : State) (v : Byte) (f : State → State) :
    (∃ s1, drawTx s v = (.good, s1) ∧ offerByte s v f = .progress (f s1)) ∨
    (∃ a s1, drawTx s v = (a, s1) ∧ a ≠ .good ∧ offerByte s v f = .refused s1) := by
  rcases e : drawTx s v with ⟨a, s1⟩
  cases a with
  | good => exact .inl ⟨s1, rfl, by simp [offerByte, e]⟩
  | busy => exact .inr ⟨.busy, s1, rfl, nofun, by simp [offerByte, e]⟩
  | bad => exact .inr ⟨.bad, s1, rfl, nofun, by simp [offerByte, e]⟩

/-- The micro-step, where the packet being sent is live. -/
theorem encStep_of_live (he : s.encPkt = some h) (hp : s.packet h = some p) :
    encStep s = match s.encMode with
      | .idle => .progress s
      | .transmitting => stepTransmitting s p
      | .flushCollision => stepFlush s
      | .sendControl => stepControl s
      | .sendEndOpcode => stepEnd s h p := by
  cases e : s.encMode <;> simp [encStep, he, hp, e]

/-- One turn of the loop of `ENC_PROCESS` (45_frame_encoder.md R263). -/
theorem encLoop_succ (s0 s : State) (n : Nat) (progressed : Bool) :
    encLoop s0 (n + 1) progressed s = match encStep s with
      | .faulted c s1 => s0.raiseFrom s1 c
      | .refused s1 => s1.answer (if progressed then .good else .busy) []
      | .progress s1 => if s1.encMode = .idle then s1.answer .good [] else encLoop s0 n true s1 := rfl

end Sys2Proof.Machine
end

