-- ==== Sys2Proof/Laws/PerInstr.lean ====
section
/-! SUPPORT. Facts about every instruction as syntax, one lemma per constructor. -/

/-- The encoding of a command is its opcode and exactly the operand bytes that the opcode has; that of a wire unit is one
received byte (spec/30_encoding.md R90, R91, R98, R109). -/
def Sys2Proof.Laws.EncodedLength.Statement (i : Sys2Proof.Instr) : Prop :=
  ∀ cp : Sys2Proof.Byte,
    if i.isCommand then
      ∃ (op : Sys2Proof.Byte) (ops : List Sys2Proof.Byte), Sys2Proof.encode cp i = .command (op :: ops) ∧
        Sys2Proof.operandCount op.toNat = some ops.length
    else ∃ b : Sys2Proof.Byte, Sys2Proof.encode cp i = .wire b

namespace Sys2Proof.Laws

theorem EncodedLength.crcReset : EncodedLength.Statement (.crcReset) :=
  fun _ => ⟨_, _, rfl, rfl⟩

theorem EncodedLength.crcSink (b : Byte) : EncodedLength.Statement (.crcSink b) :=
  fun _ => ⟨_, _, rfl, rfl⟩

theorem EncodedLength.crcGet : EncodedLength.Statement (.crcGet) :=
  fun _ => ⟨_, _, rfl, rfl⟩

theorem EncodedLength.c78EncU (h : Handle) (v : Word) (inc lim : Half) : EncodedLength.Statement (.c78EncU h v inc lim) :=
  fun _ => ⟨_, _, rfl, rfl⟩

theorem EncodedLength.c78DecU (h : Handle) (cur : Half) : EncodedLength.Statement (.c78DecU h cur) :=
  fun _ => ⟨_, _, rfl, rfl⟩

theorem EncodedLength.c78EncS (h : Handle) (v : Word) (inc lim : Half) : EncodedLength.Statement (.c78EncS h v inc lim) :=
  fun _ => ⟨_, _, rfl, rfl⟩

theorem EncodedLength.c78DecS (h : Handle) (cur : Half) : EncodedLength.Statement (.c78DecS h cur) :=
  fun _ => ⟨_, _, rfl, rfl⟩

theorem EncodedLength.pbAlloc (cap : Half) : EncodedLength.Statement (.pbAlloc cap) :=
  fun _ => ⟨_, _, rfl, rfl⟩

theorem EncodedLength.pbSetCapacity (h : Handle) (cap : Half) : EncodedLength.Statement (.pbSetCapacity h cap) :=
  fun _ => ⟨_, _, rfl, rfl⟩

theorem EncodedLength.pbAppend (h : Handle) (b : Byte) (inc lim : Half) : EncodedLength.Statement (.pbAppend h b inc lim) :=
  fun _ => ⟨_, _, rfl, rfl⟩

theorem EncodedLength.pbReference (h : Handle) : EncodedLength.Statement (.pbReference h) :=
  fun _ => ⟨_, _, rfl, rfl⟩

theorem EncodedLength.pbDereference (h : Handle) : EncodedLength.Statement (.pbDereference h) :=
  fun _ => ⟨_, _, rfl, rfl⟩

theorem EncodedLength.pbSetStatus (h : Handle) (st : Byte) : EncodedLength.Statement (.pbSetStatus h st) :=
  fun _ => ⟨_, _, rfl, rfl⟩

theorem EncodedLength.pbGetStatus (h : Handle) : EncodedLength.Statement (.pbGetStatus h) :=
  fun _ => ⟨_, _, rfl, rfl⟩

theorem EncodedLength.pbGetLength (h : Handle) : EncodedLength.Statement (.pbGetLength h) :=
  fun _ => ⟨_, _, rfl, rfl⟩

theorem EncodedLength.pbGetCapacity (h : Handle) : EncodedLength.Statement (.pbGetCapacity h) :=
  fun _ => ⟨_, _, rfl, rfl⟩

theorem EncodedLength.pbGetRefcount (h : Handle) : EncodedLength.Statement (.pbGetRefcount h) :=
  fun _ => ⟨_, _, rfl, rfl⟩

theorem EncodedLength.pbRead (h : Handle) (idx : Half) : EncodedLength.Statement (.pbRead h idx) :=
  fun _ => ⟨_, _, rfl, rfl⟩

theorem EncodedLength.pbWrite (h : Handle) (idx : Half) (b : Byte) : EncodedLength.Statement (.pbWrite h idx b) :=
  fun _ => ⟨_, _, rfl, rfl⟩

theorem EncodedLength.mapGetCk (h : Handle) (hp : Half) : EncodedLength.Statement (.mapGetCk h hp) :=
  fun _ => ⟨_, _, rfl, rfl⟩

theorem EncodedLength.mapSetCk (h : Handle) (hp : Half) (f : Byte) : EncodedLength.Statement (.mapSetCk h hp f) :=
  fun _ => ⟨_, _, rfl, rfl⟩

theorem EncodedLength.mapGetNp (h : Handle) (hp : Half) : EncodedLength.Statement (.mapGetNp h hp) :=
  fun _ => ⟨_, _, rfl, rfl⟩

theorem EncodedLength.mapSetNp (h : Handle) (hp : Half) (f : Byte) : EncodedLength.Statement (.mapSetNp h hp f) :=
  fun _ => ⟨_, _, rfl, rfl⟩

theorem EncodedLength.mapGetDa (h : Handle) (hp : Half) : EncodedLength.Statement (.mapGetDa h hp) :=
  fun _ => ⟨_, _, rfl, rfl⟩

theorem EncodedLength.mapSetDa (h : Handle) (hp : Half) (f : Byte) : EncodedLength.Statement (.mapSetDa h hp f) :=
  fun _ => ⟨_, _, rfl, rfl⟩

theorem EncodedLength.mapGetSa (h : Handle) (hp : Half) : EncodedLength.Statement (.mapGetSa h hp) :=
  fun _ => ⟨_, _, rfl, rfl⟩

theorem EncodedLength.mapSetSa (h : Handle) (hp : Half) (f : Byte) : EncodedLength.Statement (.mapSetSa h hp f) :=
  fun _ => ⟨_, _, rfl, rfl⟩

theorem EncodedLength.mapGetAtype (h : Handle) (hp : Half) : EncodedLength.Statement (.mapGetAtype h hp) :=
  fun _ => ⟨_, _, rfl, rfl⟩

theorem EncodedLength.mapSetAtype (h : Handle) (hp : Half) (t : Byte) : EncodedLength.Statement (.mapSetAtype h hp t) :=
  fun _ => ⟨_, _, rfl, rfl⟩

theorem EncodedLength.mapNextprotoPos (h : Handle) (hp : Half) : EncodedLength.Statement (.mapNextprotoPos h hp) :=
  fun _ => ⟨_, _, rfl, rfl⟩

theorem EncodedLength.mapDestPos (h : Handle) (hp : Half) : EncodedLength.Statement (.mapDestPos h hp) :=
  fun _ => ⟨_, _, rfl, rfl⟩

theorem EncodedLength.mapSrcPos (h : Handle) (hp : Half) : EncodedLength.Statement (.mapSrcPos h hp) :=
  fun _ => ⟨_, _, rfl, rfl⟩

theorem EncodedLength.mapContentsPos (h : Handle) (hp : Half) : EncodedLength.Statement (.mapContentsPos h hp) :=
  fun _ => ⟨_, _, rfl, rfl⟩

theorem EncodedLength.mapNextHeader (h : Handle) (hp : Half) : EncodedLength.Statement (.mapNextHeader h hp) :=
  fun _ => ⟨_, _, rfl, rfl⟩

theorem EncodedLength.mapHeader (h : Handle) (off : Byte) : EncodedLength.Statement (.mapHeader h off) :=
  fun _ => ⟨_, _, rfl, rfl⟩

theorem EncodedLength.mapData (h : Handle) (off : Byte) : EncodedLength.Statement (.mapData h off) :=
  fun _ => ⟨_, _, rfl, rfl⟩

theorem EncodedLength.mapValidate (h : Handle) (off req rem : Byte) : EncodedLength.Statement (.mapValidate h off req rem) :=
  fun _ => ⟨_, _, rfl, rfl⟩

theorem EncodedLength.mapAppendChecksum (h : Handle) (off : Byte) : EncodedLength.Statement (.mapAppendChecksum h off) :=
  fun _ => ⟨_, _, rfl, rfl⟩

theorem EncodedLength.decRx (b : Byte) : EncodedLength.Statement (.decRx b) :=
  fun _ => ⟨_, _, rfl, rfl⟩

theorem EncodedLength.encSubmit (h : Handle) (off : Byte) : EncodedLength.Statement (.encSubmit h off) :=
  fun _ => ⟨_, _, rfl, rfl⟩

theorem EncodedLength.encProcess : EncodedLength.Statement (.encProcess) :=
  fun _ => ⟨_, _, rfl, rfl⟩

theorem EncodedLength.cfgSetPrefix (cp : Byte) : EncodedLength.Statement (.cfgSetPrefix cp) :=
  fun _ => ⟨_, _, rfl, rfl⟩

theorem EncodedLength.cfgGetPrefix : EncodedLength.Statement (.cfgGetPrefix) :=
  fun _ => ⟨_, _, rfl, rfl⟩

theorem EncodedLength.sysGetFault : EncodedLength.Statement (.sysGetFault) :=
  fun _ => ⟨_, _, rfl, rfl⟩

theorem EncodedLength.wireData (b : Byte) : EncodedLength.Statement (.wireData b) :=
  fun _ => ⟨_, rfl⟩

theorem EncodedLength.wireCtrl : EncodedLength.Statement (.wireCtrl) :=
  fun _ => ⟨_, rfl⟩

theorem EncodedLength.wireIdle : EncodedLength.Statement (.wireIdle) :=
  fun _ => ⟨_, rfl⟩

theorem EncodedLength.wireEsc : EncodedLength.Statement (.wireEsc) :=
  fun _ => ⟨_, rfl⟩

theorem EncodedLength.wireEnd : EncodedLength.Statement (.wireEnd) :=
  fun _ => ⟨_, rfl⟩

theorem EncodedLength.wireAbort : EncodedLength.Statement (.wireAbort) :=
  fun _ => ⟨_, rfl⟩

theorem EncodedLength.wireLiteral (b : Byte) : EncodedLength.Statement (.wireLiteral b) :=
  fun _ => ⟨_, rfl⟩

end Sys2Proof.Laws
end

