-- ==== Sys2Proof/Tests/Slice0.lean ====
section
/-! SUPPORT. The model's own tests: the smoke test of WellFormed, a byte string of the spec's encoding for every
constructor, single commands on small states with the results that spec/95_test_vectors.md or a rule gives, and a witness
for the hypotheses of every obligation that has some. -/

namespace Sys2Proof.Tests

open Sys2Proof.Machine

/-! ### Small states -/

/-- The premises of spec/95_test_vectors.md, with small decoder sizes. -/
def par : Params where
  cpReset := 0x3C#8
  mapProtocolId := 1#32
  decInitCap := 4
  decIncrement := 4
  decLimit := 16
  lenMax := 64
  refMax := 255
  c78Width := 32
  decFailPolicy := .discardAtCeiling
  emptyFramePolicy := .deliver
  clearCkBitsOnRemove := true

/-- Agents that accept once each. -/
def yes : Draws := { alloc := [true], realloc := [true], tx := List.replicate 8 .good, sink := [.good 0], free := 0 }

/-- Agents that refuse once each. -/
def no : Draws := { alloc := [false], realloc := [false], tx := [.busy], sink := [.busy], free := 0 }

/-- The reset state under these parameters, with accepting agents. -/
def base : State := { State.reset with params := par, draws := yes }

/-- One packet, at handle 1. -/
def one (data : List Byte) (cap ref : Nat) : State :=
  { base with pm := [(1#32, { data := data, cap := cap, status := .busy, ref := ref })], nextHandle := 2#32 }

/-- The decoder is assembling packet 1. -/
def assembling (data : List Byte) (cap : Nat) : State := { one data cap 1 with decPkt := some 1#32 }

/-- The encoder is sending packet 1, from its first byte. -/
def sending (data : List Byte) : State :=
  { one data 16 1 with
    encPkt := some 1#32, encMode := .transmitting, encEnd := BitVec.ofNat 16 data.length }

/-- The decoder stands in ControlSeen. -/
def seen (s : State) : State := { s with decState := .controlSeen }

/-- The next state, where there is one. -/
def after (i : Instr) (s : State) : Option State :=
  match exec i s with
  | .next t => some t
  | .fault _ => none
  | .refused _ => none

/-- The next state of a step, where there is one. -/
def stepped (s : State) : Option State :=
  match step s with
  | .next t => some t
  | .fault _ => none
  | .refused _ => none

/-- A view of the next state. -/
def view {α : Type} (i : Instr) (s : State) (f : State → α) : Option α := (after i s).map f

/-- The result's bytes of the next state (30_encoding.md R90). -/
def answer (i : Instr) (s : State) : Option (List Byte) := (after i s).bind (fun t => t.result.map resultBytes)

/-- Packet 1's bytes in the next state. -/
def bytes (i : Instr) (s : State) : Option (List Byte) :=
  (after i s).bind (fun t => (t.packet 1#32).map (fun p => p.data))

/-- Packets S, N and NC of spec/43_map.md. -/
def packetS : List Byte := [0xA2#8, 0x05#8, 0xAA#8, 0xBB#8, 0x1E#8, 0xF2#8, 0xB6#8, 0xC8#8]
def packetN : List Byte := [0x62#8, 0x01#8, 0x05#8, 0x13#8, 0x07#8, 0xAA#8, 0xBB#8]
def packetNC : List Byte := [0xE2#8, 0x01#8, 0x05#8, 0x93#8, 0x07#8, 0xAA#8, 0xBB#8,
  0xB4#8, 0xB9#8, 0xA5#8, 0x83#8, 0x8E#8, 0x85#8, 0xED#8, 0xF5#8]

/-! ### WellFormed refuses an ill-formed term for each of its checks -/

theorem test_wellformed_status : (Instr.pbSetStatus 1#32 4#8).wellFormed = false := by decide
theorem test_wellformed_ck : (Instr.mapSetCk 1#32 0#16 2#8).wellFormed = false := by decide
theorem test_wellformed_np : (Instr.mapSetNp 1#32 0#16 2#8).wellFormed = false := by decide
theorem test_wellformed_da : (Instr.mapSetDa 1#32 0#16 2#8).wellFormed = false := by decide
theorem test_wellformed_sa : (Instr.mapSetSa 1#32 0#16 2#8).wellFormed = false := by decide
theorem test_wellformed_req : (Instr.mapValidate 1#32 0#8 2#8 0#8).wellFormed = false := by decide
theorem test_wellformed_rem : (Instr.mapValidate 1#32 0#8 0#8 2#8).wellFormed = false := by decide
theorem test_wellformed_control : legalControl 0x3D#8 = false ∧ legalControl 0x3E#8 = false := by decide
theorem test_wellformed_wire :
    (Instr.wireData 0x3C#8).fitsWire .data 0x3C#8 = false ∧ Instr.wireCtrl.fitsWire .controlSeen 0x3C#8 = false ∧
    Instr.wireIdle.fitsWire .data 0x3C#8 = false ∧ Instr.wireEsc.fitsWire .data 0x3C#8 = false ∧
    Instr.wireEnd.fitsWire .data 0x3C#8 = false ∧ Instr.wireAbort.fitsWire .data 0x3C#8 = false ∧
    (Instr.wireLiteral 0x3F#8).fitsWire .controlSeen 0x3C#8 = false := by decide

/-! ### Decoding, from byte strings written out by 30_encoding.md R90, R91 and R98 -/

theorem test_decode_crc :
    decodeCommand [0x01#8] = .ok .crcReset ∧
    decodeCommand [0x02#8, 0x31#8] = .ok (.crcSink 0x31#8) ∧
    decodeCommand [0x03#8] = .ok .crcGet := ⟨rfl, rfl, rfl⟩

theorem test_decode_c78 :
    decodeCommand [0x10#8, 1#8, 2#8, 3#8, 4#8, 0x78#8, 0x56#8, 0x34#8, 0x12#8, 5#8, 6#8, 7#8, 8#8] =
      .ok (.c78EncU 0x04030201#32 0x12345678#32 0x0605#16 0x0807#16) ∧
    decodeCommand [0x11#8, 1#8, 2#8, 3#8, 4#8, 5#8, 6#8] = .ok (.c78DecU 0x04030201#32 0x0605#16) ∧
    decodeCommand [0x12#8, 1#8, 2#8, 3#8, 4#8, 0x78#8, 0x56#8, 0x34#8, 0x12#8, 5#8, 6#8, 7#8, 8#8] =
      .ok (.c78EncS 0x04030201#32 0x12345678#32 0x0605#16 0x0807#16) ∧
    decodeCommand [0x13#8, 1#8, 2#8, 3#8, 4#8, 5#8, 6#8] = .ok (.c78DecS 0x04030201#32 0x0605#16) :=
  ⟨rfl, rfl, rfl, rfl⟩

theorem test_decode_pb :
    decodeCommand [0x20#8, 0x34#8, 0x12#8] = .ok (.pbAlloc 0x1234#16) ∧
    decodeCommand [0x21#8, 1#8, 2#8, 3#8, 4#8, 5#8, 6#8] = .ok (.pbSetCapacity 0x04030201#32 0x0605#16) ∧
    decodeCommand [0x22#8, 1#8, 2#8, 3#8, 4#8, 9#8, 5#8, 6#8, 7#8, 8#8] =
      .ok (.pbAppend 0x04030201#32 9#8 0x0605#16 0x0807#16) ∧
    decodeCommand [0x23#8, 1#8, 2#8, 3#8, 4#8] = .ok (.pbReference 0x04030201#32) ∧
    decodeCommand [0x24#8, 1#8, 2#8, 3#8, 4#8] = .ok (.pbDereference 0x04030201#32) ∧
    decodeCommand [0x25#8, 1#8, 2#8, 3#8, 4#8, 3#8] = .ok (.pbSetStatus 0x04030201#32 3#8) ∧
    decodeCommand [0x26#8, 1#8, 2#8, 3#8, 4#8] = .ok (.pbGetStatus 0x04030201#32) ∧
    decodeCommand [0x27#8, 1#8, 2#8, 3#8, 4#8] = .ok (.pbGetLength 0x04030201#32) ∧
    decodeCommand [0x28#8, 1#8, 2#8, 3#8, 4#8] = .ok (.pbGetCapacity 0x04030201#32) ∧
    decodeCommand [0x29#8, 1#8, 2#8, 3#8, 4#8] = .ok (.pbGetRefcount 0x04030201#32) ∧
    decodeCommand [0x2A#8, 0x07#8, 0x00#8, 0x00#8, 0x00#8, 0x02#8, 0x00#8] = .ok (.pbRead 7#32 2#16) ∧
    decodeCommand [0x2B#8, 1#8, 2#8, 3#8, 4#8, 5#8, 6#8, 9#8] = .ok (.pbWrite 0x04030201#32 0x0605#16 9#8) :=
  ⟨rfl, rfl, rfl, rfl, rfl, rfl, rfl, rfl, rfl, rfl, rfl, rfl⟩

theorem test_decode_map_bits :
    decodeCommand [0x30#8, 1#8, 2#8, 3#8, 4#8, 5#8, 6#8] = .ok (.mapGetCk 0x04030201#32 0x0605#16) ∧
    decodeCommand [0x31#8, 1#8, 2#8, 3#8, 4#8, 5#8, 6#8, 1#8] = .ok (.mapSetCk 0x04030201#32 0x0605#16 1#8) ∧
    decodeCommand [0x32#8, 1#8, 2#8, 3#8, 4#8, 5#8, 6#8] = .ok (.mapGetNp 0x04030201#32 0x0605#16) ∧
    decodeCommand [0x33#8, 1#8, 2#8, 3#8, 4#8, 5#8, 6#8, 1#8] = .ok (.mapSetNp 0x04030201#32 0x0605#16 1#8) ∧
    decodeCommand [0x34#8, 1#8, 2#8, 3#8, 4#8, 5#8, 6#8] = .ok (.mapGetDa 0x04030201#32 0x0605#16) ∧
    decodeCommand [0x35#8, 1#8, 2#8, 3#8, 4#8, 5#8, 6#8, 1#8] = .ok (.mapSetDa 0x04030201#32 0x0605#16 1#8) ∧
    decodeCommand [0x36#8, 1#8, 2#8, 3#8, 4#8, 5#8, 6#8] = .ok (.mapGetSa 0x04030201#32 0x0605#16) ∧
    decodeCommand [0x37#8, 1#8, 2#8, 3#8, 4#8, 5#8, 6#8, 1#8] = .ok (.mapSetSa 0x04030201#32 0x0605#16 1#8) ∧
    decodeCommand [0x38#8, 1#8, 2#8, 3#8, 4#8, 5#8, 6#8] = .ok (.mapGetAtype 0x04030201#32 0x0605#16) ∧
    decodeCommand [0x39#8, 1#8, 2#8, 3#8, 4#8, 5#8, 6#8, 14#8] = .ok (.mapSetAtype 0x04030201#32 0x0605#16 14#8) :=
  ⟨rfl, rfl, rfl, rfl, rfl, rfl, rfl, rfl, rfl, rfl⟩

theorem test_decode_map :
    decodeCommand [0x40#8, 1#8, 2#8, 3#8, 4#8, 5#8, 6#8] = .ok (.mapNextprotoPos 0x04030201#32 0x0605#16) ∧
    decodeCommand [0x41#8, 1#8, 2#8, 3#8, 4#8, 5#8, 6#8] = .ok (.mapDestPos 0x04030201#32 0x0605#16) ∧
    decodeCommand [0x42#8, 1#8, 2#8, 3#8, 4#8, 5#8, 6#8] = .ok (.mapSrcPos 0x04030201#32 0x0605#16) ∧
    decodeCommand [0x43#8, 1#8, 2#8, 3#8, 4#8, 5#8, 6#8] = .ok (.mapContentsPos 0x04030201#32 0x0605#16) ∧
    decodeCommand [0x44#8, 1#8, 2#8, 3#8, 4#8, 5#8, 6#8] = .ok (.mapNextHeader 0x04030201#32 0x0605#16) ∧
    decodeCommand [0x45#8, 1#8, 2#8, 3#8, 4#8, 5#8] = .ok (.mapHeader 0x04030201#32 5#8) ∧
    decodeCommand [0x46#8, 1#8, 2#8, 3#8, 4#8, 5#8] = .ok (.mapData 0x04030201#32 5#8) ∧
    decodeCommand [0x48#8, 1#8, 2#8, 3#8, 4#8, 5#8, 1#8, 0#8] = .ok (.mapValidate 0x04030201#32 5#8 1#8 0#8) ∧
    decodeCommand [0x49#8, 1#8, 2#8, 3#8, 4#8, 5#8] = .ok (.mapAppendChecksum 0x04030201#32 5#8) :=
  ⟨rfl, rfl, rfl, rfl, rfl, rfl, rfl, rfl, rfl⟩

theorem test_decode_frame_and_system :
    decodeCommand [0x50#8, 0x3C#8] = .ok (.decRx 0x3C#8) ∧
    decodeCommand [0x60#8, 1#8, 2#8, 3#8, 4#8, 5#8] = .ok (.encSubmit 0x04030201#32 5#8) ∧
    decodeCommand [0x61#8] = .ok .encProcess ∧
    decodeCommand [0x70#8, 0x7C#8] = .ok (.cfgSetPrefix 0x7C#8) ∧
    decodeCommand [0x71#8] = .ok .cfgGetPrefix ∧
    decodeCommand [0x72#8] = .ok .sysGetFault := ⟨rfl, rfl, rfl, rfl, rfl, rfl⟩

theorem test_decode_wire :
    decodeWire .data 0x3C#8 0x01#8 = .wireData 0x01#8 ∧ decodeWire .data 0x3C#8 0x3C#8 = .wireCtrl ∧
    decodeWire .controlSeen 0x3C#8 0x3C#8 = .wireIdle ∧ decodeWire .controlSeen 0x3C#8 0x3D#8 = .wireEsc ∧
    decodeWire .controlSeen 0x3C#8 0x3E#8 = .wireEnd ∧ decodeWire .controlSeen 0x3C#8 0x3F#8 = .wireAbort ∧
    decodeWire .controlSeen 0x3C#8 0x41#8 = .wireLiteral 0x41#8 := ⟨rfl, rfl, rfl, rfl, rfl, rfl, rfl⟩

/-- An undefined opcode and a wrong length are no instruction. -/
theorem test_decode_rejects :
    decodeCommand [0x47#8] = .error (.undefinedOpcode 0x47#8) ∧
    decodeCommand [0x02#8] = .error (.wrongLength 0x02#8) ∧ decodeCommand [] = .error .noOpcode := ⟨rfl, rfl, rfl⟩

/-- Table words: `PB_READ 7, 2` with its operand bytes in the word, and cut to its opcode. -/
theorem test_table_words :
    decodeTableWord 56 0x0002000000072A = some (.pbRead 7#32 2#16) ∧
    decodeTableWord 8 0x2A = some (.pbRead 0#32 0#16) ∧
    decodeTableWord 8 0x3E = some .wireEnd ∧ decodeTableWord 8 0x3C = some .wireCtrl := by decide

/-- The three parameters with a value that a claim may override (00_scope.md R9): another control byte at reset, a count of
references that is full at 1, and a Code78 value of 7 bits. -/
theorem test_parameters :
    view .crcReset State.reset (fun s => s.cp) = some 0x3C#8 ∧
    (stepped { base with params := { par with cpReset := 0x7C#8 }, inbox := [.reset] }).map (fun s => s.cp) =
      some 0x7C#8 ∧
    view (.pbReference 1#32) { one [] 4 1 with params := { par with refMax := 1 } } (fun s => s.fault) = some 6#8 ∧
    answer (.c78DecU 1#32 0#16) { one [0x82#8, 0x2C#8] 4 0 with params := { par with c78Width := 7 } } =
      some [1#8, 0x2C#8, 0#8, 0#8, 0#8, 2#8, 0#8] := by decide

/-! ### Single commands (values from spec/95_test_vectors.md part 2, or from the examples of the rules) -/

/-- Vectors K1, K2, K4, and the CRC of "123456789" of 40_crc32.md R124. -/
theorem test_crc :
    view .crcReset { base with crc := 5#32 } (fun s => s.crc) = some 0xFFFFFFFF#32 ∧
    view (.crcSink 0x31#8) base (fun s => s.crc) = some 0x7C231048#32 ∧
    answer .crcGet { base with crc := 0x00FFFFFF#32 } = some [1#8, 0#8, 0#8, 0#8, 0xFF#8] := by decide

theorem test_crc_check_value :
    crc32 [0x31#8, 0x32#8, 0x33#8, 0x34#8, 0x35#8, 0x36#8, 0x37#8, 0x38#8, 0x39#8] = 0xCBF43926#32 := by decide +kernel

theorem test_c78_enc :
    bytes (.c78EncU 1#32 300#32 0#16 0#16) (one [] 4 0) = some [0x82#8, 0x2C#8] ∧
    bytes (.c78EncU 1#32 0x12345678#32 0#16 0#16) (one [] 5 0) =
      some [0x81#8, 0x91#8, 0xD1#8, 0xAC#8, 0x78#8] ∧
    bytes (.c78EncS 1#32 0xFFFFFFFE#32 0#16 0#16) (one [] 5 0) = some [0x03#8] ∧
    bytes (.c78EncS 1#32 0x80000000#32 0#16 0#16) (one [] 5 0) =
      some [0x8F#8, 0xFF#8, 0xFF#8, 0xFF#8, 0x7F#8] := by decide

/-- Growth: eight bytes of capacity for seven needed, from two with increments of two and limit ten; limit six is `Bad`. -/
theorem test_c78_enc_grows :
    view (.c78EncU 1#32 0xFFFFFFFF#32 2#16 10#16) (one [0#8, 0#8] 2 0)
      (fun s => (s.packet 1#32).map (fun p => (p.cap, p.len))) = some (some (8, 7)) ∧
    answer (.c78EncU 1#32 0xFFFFFFFF#32 2#16 6#16) (one [0#8, 0#8] 2 0) = some [2#8] := by decide

theorem test_c78_dec :
    answer (.c78DecU 1#32 0#16) (one [0x81#8, 0x80#8, 0x00#8] 4 0) =
      some [1#8, 0x00#8, 0x40#8, 0#8, 0#8, 3#8, 0#8] ∧
    answer (.c78DecU 1#32 0#16) (one [0xFF#8, 0xFF#8, 0xFF#8, 0xFF#8, 0xFF#8, 0x7F#8] 8 0) =
      some [1#8, 0xFF#8, 0xFF#8, 0xFF#8, 0xFF#8, 6#8, 0#8] ∧
    answer (.c78DecU 1#32 0#16) (one [0x90#8, 0x80#8, 0x80#8, 0x80#8, 0x00#8] 8 0) =
      some [1#8, 0#8, 0#8, 0#8, 0#8, 5#8, 0#8] ∧
    answer (.c78DecU 1#32 1#16) (one [0x05#8] 4 0) = some [2#8, 0#8, 0#8, 0#8, 0#8, 0#8, 0#8] ∧
    view (.c78DecU 1#32 2#16) (one [0x05#8] 4 0) (fun s => s.fault) = some 2#8 := by decide

theorem test_c78_dec_signed :
    answer (.c78DecS 1#32 0#16) (one [0x81#8, 0x01#8] 4 0) =
      some [1#8, 0xBF#8, 0xFF#8, 0xFF#8, 0xFF#8, 2#8, 0#8] ∧
    answer (.c78DecS 1#32 0#16) (one [0x8F#8, 0xFF#8, 0xFF#8, 0xFF#8, 0x7F#8] 8 0) =
      some [1#8, 0#8, 0#8, 0#8, 0x80#8, 5#8, 0#8] := by decide

/-- Vectors B1 to B4. -/
theorem test_pb_alloc :
    answer (.pbAlloc 16#16) base = some [1#8, 1#8, 0#8, 0#8, 0#8] ∧
    view (.pbAlloc 16#16) base (fun s => (s.pm, s.nextHandle)) =
      some ([(1#32, { data := [], cap := 16, status := .busy, ref := 0 })], 2#32) ∧
    answer (.pbAlloc 65#16) base = some [2#8, 0#8, 0#8, 0#8, 0#8] ∧
    answer (.pbAlloc 4#16) { base with draws := no } = some [0#8, 0#8, 0#8, 0#8, 0#8] := by decide

/-- Vectors B5 to B8. -/
theorem test_pb_append :
    view (.pbAppend 1#32 0xAA#8 4#16 5#16) (one [1#8, 2#8] 2 0) (fun s => s.packet 1#32) =
      some (some { data := [1#8, 2#8, 0xAA#8], cap := 5, status := .busy, ref := 0 }) ∧
    answer (.pbAppend 1#32 0xAA#8 0#16 5#16) (one [1#8, 2#8] 2 0) = some [2#8] ∧
    answer (.pbAppend 1#32 0xAA#8 4#16 2#16) (one [1#8, 2#8] 2 0) = some [2#8] ∧
    answer (.pbAppend 1#32 0xAA#8 4#16 5#16) { one [1#8, 2#8] 2 0 with draws := no } = some [0#8] := by decide

/-- Vectors B10 to B13. -/
theorem test_pb_set_capacity :
    answer (.pbSetCapacity 1#32 2#16) (one [1#8, 2#8, 3#8] 16 0) = some [2#8] ∧
    view (.pbSetCapacity 1#32 3#16) (one [1#8, 2#8, 3#8] 16 0) (fun s => (s.packet 1#32).map (fun p => p.cap)) =
      some (some 3) ∧
    view (.pbSetCapacity 1#32 16#16) (one [1#8] 16 0) (fun s => s.log) = some [] ∧
    answer (.pbSetCapacity 1#32 0#16) (one [] 16 0) = some [2#8] := by decide

/-- Vectors B14 to B19, B29 and B30. -/
theorem test_pb_references :
    view (.pbReference 1#32) (one [] 4 0) (fun s => (s.packet 1#32).map (fun p => p.ref)) = some (some 1) ∧
    view (.pbReference 1#32) (one [] 4 255) (fun s => s.fault) = some 6#8 ∧
    view (.pbDereference 1#32) (one [] 4 1) (fun s => s.live 1#32) = some false ∧
    answer (.pbDereference 0#32) (one [] 4 1) = some [1#8] ∧
    view (.pbDereference 1#32) (one [] 4 0) (fun s => s.live 1#32) = some true ∧
    view (.pbDereference 1#32) (sending [1#8]) (fun s => s.fault) = some 4#8 := by decide

/-- Vectors B20 to B28. -/
theorem test_pb_status_and_bytes :
    view (.pbSetStatus 1#32 3#8) (one [] 4 0) (fun s => (s.packet 1#32).map (fun p => p.status)) =
      some (some .complete) ∧
    view (.pbSetStatus 1#32 4#8) (one [] 4 0) (fun s => s.fault) = some 8#8 ∧
    answer (.pbGetStatus 1#32) (one [] 4 0) = some [1#8, 0#8] ∧
    answer (.pbRead 1#32 1#16) (one [0xA2#8, 0x05#8] 4 0) = some [1#8, 0x05#8] ∧
    view (.pbRead 1#32 2#16) (one [0xA2#8, 0x05#8] 4 0) (fun s => s.fault) = some 2#8 ∧
    bytes (.pbWrite 1#32 0#16 0x22#8) (one [0xA2#8, 0x05#8] 4 0) = some [0x22#8, 0x05#8] ∧
    view (.pbRead 2#32 0#16) (one [] 4 0) (fun s => s.fault) = some 3#8 ∧
    view (.pbAppend 1#32 1#8 1#16 8#16) (sending [1#8]) (fun s => s.fault) = some 4#8 ∧
    view (.pbWrite 1#32 9#16 0#8) (sending [1#8]) (fun s => s.fault) = some 4#8 := by decide

theorem test_pb_sizes :
    answer (.pbGetLength 1#32) (one [1#8, 2#8] 16 1) = some [1#8, 2#8, 0#8] ∧
    answer (.pbGetCapacity 1#32) (one [1#8, 2#8] 16 1) = some [1#8, 16#8, 0#8] ∧
    answer (.pbGetRefcount 1#32) (one [1#8, 2#8] 16 1) = some [1#8, 1#8] := by decide

/-- Vectors M1 to M8 and M18, M19. -/
theorem test_map_reads :
    answer (.mapGetCk 1#32 0#16) (one packetS 16 0) = some [1#8, 1#8] ∧
    answer (.mapGetNp 1#32 0#16) (one packetS 16 0) = some [1#8, 0#8] ∧
    answer (.mapGetDa 1#32 0#16) (one packetS 16 0) = some [1#8, 1#8] ∧
    answer (.mapGetSa 1#32 0#16) (one packetS 16 0) = some [1#8, 0#8] ∧
    answer (.mapGetAtype 1#32 0#16) (one packetS 16 0) = some [1#8, 2#8] ∧
    answer (.mapGetSa 1#32 3#16) (one packetN 16 0) = some [1#8, 1#8] ∧
    answer (.mapGetAtype 1#32 0#16) (one [0x0F#8] 16 0) = some [1#8, 15#8] ∧
    view (.mapGetCk 1#32 8#16) (one packetS 16 0) (fun s => s.fault) = some 2#8 := by decide

/-- Vectors M9 to M17. -/
theorem test_map_writes :
    view (.mapSetCk 1#32 0#16 0#8) (one packetS 16 0) (fun s => s.readByte 1#32 0) = some (some 0x22#8) ∧
    view (.mapSetNp 1#32 0#16 0#8) (one packetN 16 0) (fun s => s.readByte 1#32 0) = some (some 0x22#8) ∧
    bytes (.mapSetDa 1#32 0#16 1#8) (one [0x02#8, 0xAA#8] 16 0) = some [0x22#8, 0xAA#8] ∧
    view (.mapSetSa 1#32 3#16 0#8) (one packetN 16 0) (fun s => s.readByte 1#32 3) = some (some 0x03#8) ∧
    view (.mapSetAtype 1#32 0#16 14#8) (one packetS 16 0) (fun s => s.readByte 1#32 0) = some (some 0xAE#8) ∧
    view (.mapSetAtype 1#32 0#16 15#8) (one packetS 16 0) (fun s => s.fault) = some 1#8 ∧
    view (.mapSetAtype 1#32 8#16 15#8) (one packetS 16 0) (fun s => s.fault) = some 2#8 ∧
    view (.mapSetCk 2#32 0#16 2#8) (one packetS 16 0) (fun s => s.fault) = some 8#8 := by decide

/-- The examples of 43_map.md R204 to R208. -/
theorem test_map_positions :
    answer (.mapNextprotoPos 1#32 0#16) (one packetN 16 0) = some [1#8, 1#8, 0#8] ∧
    answer (.mapDestPos 1#32 0#16) (one packetS 16 0) = some [1#8, 1#8, 0#8] ∧
    answer (.mapSrcPos 1#32 3#16) (one packetN 16 0) = some [1#8, 4#8, 0#8] ∧
    answer (.mapSrcPos 1#32 0#16) (one [0x20#8, 0x85#8] 16 0) = some [2#8, 0#8, 0#8] ∧
    answer (.mapContentsPos 1#32 0#16) (one [0x70#8, 1#8, 0x85#8, 5#8, 7#8, 0xEE#8] 16 0) = some [1#8, 5#8, 0#8] ∧
    answer (.mapNextHeader 1#32 0#16) (one packetN 16 0) = some [1#8, 3#8, 0#8] ∧
    answer (.mapNextHeader 1#32 0#16) (one [0x40#8, 1#8] 16 0) = some [2#8, 0#8, 0#8] ∧
    answer (.mapNextHeader 1#32 0#16) (one [0x40#8, 0x80#8, 1#8, 0#8] 16 0) = some [1#8, 3#8, 0#8] := by decide

/-- The examples of 43_map.md R209 and R210. -/
theorem test_map_walks :
    answer (.mapHeader 1#32 1#8) (one packetN 16 0) = some [1#8, 3#8, 0#8] ∧
    answer (.mapHeader 1#32 2#8) (one packetN 16 0) = some [2#8, 0#8, 0#8] ∧
    answer (.mapData 1#32 0#8) (one packetS 16 0) = some [1#8, 2#8, 0#8] ∧
    answer (.mapData 1#32 1#8) (one [0x41#8, 1#8, 0x41#8, 1#8, 0#8, 0x99#8] 16 0) = some [1#8, 5#8, 0#8] := by decide

/-- Packet NC validates, and with its inner scope corrupted and the outer trailer recomputed fails at level 1
(43_map.md R212, R218). -/
theorem test_map_validate :
    answer (.mapValidate 1#32 0#8 1#8 0#8) (one packetNC 16 0) = some [1#8, 0#8, 0#8] ∧
    answer (.mapValidate 1#32 0#8 1#8 0#8) (one [0xE2#8, 0x01#8, 0x05#8, 0x93#8, 0x07#8, 0xAB#8, 0xBB#8,
      0xB4#8, 0xB9#8, 0xA5#8, 0x83#8, 0x2B#8, 0x56#8, 0xB1#8, 0x3E#8] 16 0) = some [2#8, 5#8, 1#8] := by decide +kernel

/-- Removal gives packet N back (43_map.md R219); a short packet (R212). -/
theorem test_map_remove :
    bytes (.mapValidate 1#32 0#8 1#8 1#8) (one packetNC 16 0) = some packetN ∧
    answer (.mapValidate 1#32 0#8 0#8 0#8) (one [0x80#8, 1#8, 2#8] 16 0) = some [2#8, 4#8, 0#8] := by decide +kernel

/-- Packet S, by the example of 43_map.md R215, and packet NC's inner level. -/
theorem test_map_append_checksum :
    bytes (.mapAppendChecksum 1#32 0#8) (one [0x22#8, 0x05#8, 0xAA#8, 0xBB#8] 4 0) = some packetS ∧
    bytes (.mapAppendChecksum 1#32 1#8) (one packetN 16 0) = some
      [0x62#8, 0x01#8, 0x05#8, 0x93#8, 0x07#8, 0xAA#8, 0xBB#8, 0xB4#8, 0xB9#8, 0xA5#8, 0x83#8] := by decide +kernel

/-- The wire `01 02 3C 3E` delivers one packet (44_frame_decoder.md R231), `3C 3D 3C 3E` the packet `3C` (vector W2). -/
theorem test_dec_rx :
    (receive 4 [0x01#8, 0x02#8, 0x3C#8, 0x3E#8] base).map (fun s => (deliveredPackets s.log, s.pm)) =
      some ([[0x01#8, 0x02#8]], []) ∧
    (receive 4 [0x3C#8, 0x3D#8, 0x3C#8, 0x3E#8] base).map (fun s => deliveredPackets s.log) =
      some [[0x3C#8]] := by decide

theorem test_wire_units :
    bytes (.wireData 5#8) (assembling [1#8] 4) = some [1#8, 5#8] ∧
    view .wireCtrl base (fun s => s.decState) = some .controlSeen ∧
    view .wireIdle (seen base) (fun s => s.decState) = some .controlSeen ∧
    bytes .wireEsc (seen (assembling [1#8] 4)) = some [1#8, 0x3C#8] ∧
    bytes (.wireLiteral 5#8) (seen (assembling [1#8] 4)) = some [1#8, 0x3C#8, 5#8] ∧
    view .wireEnd (seen (assembling [1#8] 4)) (fun s => (s.decState, s.decPkt, s.live 1#32)) =
      some (.data, none, false) ∧
    view .wireAbort (seen (assembling [1#8] 4)) (fun s => (s.decPkt, s.live 1#32, s.log)) =
      some (none, false, []) := by decide

/-- The commit of a literal pair: the control byte stays, the decoder is in Data, and the answer is `Busy`
(44_frame_decoder.md R237); a packet at its ceiling is discarded (R245). -/
theorem test_wire_commit_and_discard :
    view (.wireLiteral 5#8) { seen (assembling [1#8] 2) with draws := no }
      (fun s => (s.decState, (s.packet 1#32).map (fun p => p.data), s.result)) =
      some (.data, some [1#8, 0x3C#8], some ⟨.busy, []⟩) ∧
    view (.wireData 5#8) (assembling (List.replicate 16 1#8) 16) (fun s => (s.decDiscard, s.decPkt, s.pm)) =
      some (true, none, []) := by decide

/-- The examples of 45_frame_encoder.md R260 and R263, and the image `3C 3D 3C 3D 3C 3E` of `3C 3C` (90_conflicts.md C2). -/
theorem test_encoder :
    view (.encSubmit 1#32 0#8) (one [1#8, 2#8] 16 0)
      (fun s => (s.encMode, s.encCursor, s.encEnd, (s.packet 1#32).map (fun p => p.ref))) =
      some (.transmitting, 0#16, 2#16, some 1) ∧
    view .encProcess (sending [1#8, 2#8]) (fun s => (acceptedBytes s.log, s.encMode)) =
      some ([1#8, 2#8, 0x3C#8, 0x3E#8], .idle) := by decide

theorem test_encoder_escapes :
    view .encProcess (sending [0x3C#8, 0x3C#8]) (fun s => acceptedBytes s.log) =
      some [0x3C#8, 0x3D#8, 0x3C#8, 0x3D#8, 0x3C#8, 0x3E#8] ∧
    answer .encProcess { sending [1#8] with draws := no } = some [0#8] := by decide

/-- The examples of 46_system.md R275 to R277. -/
theorem test_system :
    view (.cfgSetPrefix 0x7C#8) base (fun s => s.cp) = some 0x7C#8 ∧
    view (.cfgSetPrefix 0x3D#8) base (fun s => s.fault) = some 5#8 ∧
    answer (.cfgSetPrefix 0x7C#8) (seen base) = some [0#8] ∧
    answer .cfgGetPrefix base = some [1#8, 0x3C#8] ∧
    answer .sysGetFault { base with fault := 1#8 } = some [1#8, 1#8] ∧
    answer .cfgGetPrefix { base with fault := 1#8 } = none := by decide

/-- A step takes one input: a command, a received byte, the reset event, none. -/
theorem test_step :
    (stepped { base with inbox := [.command [0x02#8, 0x31#8], .reset] }).map (fun s => (s.crc, s.inbox)) =
      some (0x7C231048#32, [.reset]) ∧
    (stepped { base with inbox := [.wire 0x3C#8] }).map (fun s => s.decState) = some .controlSeen ∧
    (stepped { one [1#8] 4 0 with inbox := [.reset] }).map (fun s => (s.pm, s.nextHandle)) = some ([], 1#32) ∧
    (stepped { base with inbox := [.command [0x47#8]] }).map (fun s => s.fault) = some 7#8 := by decide

/-! ### Witnesses: for each obligation with hypotheses, concrete values that meet them together, clause by clause -/

/-- The command answers a next state with this result status. -/
def ends (i : Instr) (s : State) (st : Verdict) : Bool :=
  ((after i s).bind (fun t => t.result)).map (fun r => r.status) = some st

/-- The next state is the one `exec` answers. -/
theorem exec_of_after {i : Instr} {s t : State} (ha : after i s = some t) : exec i s = .next t := by
  unfold after at ha
  split at ha
  · next e => rw [e, Option.some.inj ha]
  · cases ha
  · cases ha

theorem wit_EncodedInstructionsDecodeBack :
    legalControl 0x3C#8 = true ∧ (Instr.pbRead 7#32 2#16).fitsWire .data 0x3C#8 = true ∧
    (Instr.wireData 0x3D#8).fitsWire .data 0x3C#8 = true ∧ Instr.wireCtrl.fitsWire .data 0x3C#8 = true ∧
    Instr.wireIdle.fitsWire .controlSeen 0x3C#8 = true ∧ Instr.wireEsc.fitsWire .controlSeen 0x3C#8 = true ∧
    Instr.wireEnd.fitsWire .controlSeen 0x3C#8 = true ∧ Instr.wireAbort.fitsWire .controlSeen 0x3C#8 = true ∧
    (Instr.wireLiteral 0x40#8).fitsWire .controlSeen 0x3C#8 = true := by decide

theorem wit_DecodedInputsEncodeBack :
    legalControl 0x3C#8 = true ∧ decode .data 0x3C#8 (.command [0x02#8, 5#8]) = .ok (.crcSink 5#8) ∧
    decode .controlSeen 0x3C#8 (.wire 0x3D#8) = .ok .wireEsc := ⟨rfl, rfl, rfl⟩

/-- Both ends of every range of undefined opcodes, and the defined opcodes beside them. -/
theorem wit_UndefinedOpcodesRaiseBadOpcode :
    base.fault = 0#8 ∧ ({ base with inbox := [.command [0x47#8, 1#8]] } : State).inbox = [.command [0x47#8, 1#8]] ∧
    (∀ op ∈ [0x00#8, 0x04#8, 0x0F#8, 0x14#8, 0x1F#8, 0x2C#8, 0x2F#8, 0x3A#8, 0x3F#8, 0x47#8, 0x4A#8, 0x4F#8, 0x51#8,
      0x5F#8, 0x62#8, 0x6F#8, 0x73#8, 0xFF#8], undefinedOpcode op) ∧
    (∀ op ∈ [0x01#8, 0x03#8, 0x10#8, 0x13#8, 0x20#8, 0x2B#8, 0x30#8, 0x39#8, 0x40#8, 0x46#8, 0x48#8, 0x49#8, 0x50#8,
      0x60#8, 0x61#8, 0x70#8, 0x72#8], ¬ undefinedOpcode op) := by
  refine ⟨rfl, rfl, ?_, ?_⟩ <;> simp [undefinedOpcode]

theorem wit_IllegalFlagOperandsRaiseBadArg :
    base.fault = 0#8 ∧ (Instr.mapSetCk 1#32 0#16 2#8).wellFormed = false ∧
    (Instr.pbSetStatus 1#32 4#8).wellFormed = false ∧ (Instr.mapSetCk 1#32 0#16 1#8).wellFormed = true ∧
    ∃ t, exec (.mapSetCk 1#32 0#16 1#8) base = .next t := ⟨rfl, rfl, rfl, rfl, _, rfl⟩

theorem wit_StepRunsTheDecodedInstruction :
    base.inbox = [] ∧ ({ base with inbox := [.wire 5#8] } : State).inbox = [.wire 5#8] ∧
    decode base.decState base.cp (.wire 5#8) = .ok (.wireData 5#8) ∧
    decode base.decState base.cp (.command [0x02#8]) = .error (.wrongLength 0x02#8) := ⟨rfl, rfl, rfl, rfl⟩

theorem wit_ResetSetsEveryRegister : ({ base with inbox := [.reset] } : State).inbox = [.reset] := rfl

theorem good_base : base.Good := good_of_check (by decide)
theorem good_one : (one packetS 16 2).Good := good_of_check (by decide)
theorem good_assembling : (assembling [1#8] 4).Good := good_of_check (by decide)
theorem good_sending : (sending [1#8, 2#8]).Good := good_of_check (by decide)

theorem wit_EveryStepKeepsTheInvariants :
    ({ sending [1#8] with inbox := [.command [0x61#8]] } : State).Good ∧
    ∃ t, step { sending [1#8] with inbox := [.command [0x61#8]] } = .next t :=
  ⟨good_of_check (by decide), _, rfl⟩

theorem wit_FaultedBlockRefusesEveryCommand :
    ({ base with fault := 3#8, inbox := [.wire 5#8] } : State).fault ≠ 0#8 ∧ Instr.crcReset ≠ .sysGetFault ∧
    ({ base with fault := 3#8, inbox := [.wire 5#8] } : State).inbox.head? ≠ some .reset ∧
    ∃ t, step { base with fault := 3#8, inbox := [.wire 5#8] } = .next t := ⟨by decide, by decide, by decide, _, rfl⟩

theorem wit_RaisedFaultsDiscardEveryWrite :
    base.fault = 0#8 ∧ base.Good ∧ 1 ≤ base.params.refMax ∧ ∃ t, exec (.pbRead 9#32 0#16) base = .next t ∧ t.fault ≠ 0#8 :=
  ⟨rfl, good_base, by decide, _, rfl, by decide⟩

/-- One command for each register that the statement speaks of, each of which it changes. -/
theorem wit_RegistersAreWrittenOnlyByTheirCommands :
    view (.cfgSetPrefix 0x7C#8) base (fun t => decide (t.cp ≠ base.cp)) = some true ∧
    view (.crcSink 1#8) base (fun t => decide (t.crc ≠ base.crc)) = some true ∧
    view .wireCtrl base (fun t => decide (t.decState ≠ base.decState)) = some true ∧
    view (.encSubmit 1#32 0#8) (one [1#8] 4 0) (fun t => decide (t.encMode ≠ .idle)) = some true ∧
    view (.pbAlloc 4#16) base (fun t => decide (t.nextHandle ≠ base.nextHandle)) = some true := by decide

/-- A `Busy`, a `Bad`, and the commit of a literal pair, as `DEC_RX` and as the wire unit. -/
theorem wit_RefusedCommandsChangeNothing :
    ends (.pbAlloc 4#16) { base with draws := no } .busy = true ∧ ends (.pbAlloc 0#16) base .bad = true ∧
    ends (.wireLiteral 5#8) { seen (assembling [1#8] 2) with draws := no } .busy = true ∧
    ends (.decRx 5#8) { seen (assembling [1#8] 2) with draws := no } .busy = true := by decide

theorem wit_DeadHandlesStayDead :
    ({ one [1#8] 4 1 with pm := [], inbox := [.command [0x20#8, 4#8, 0#8]] } : State).inbox.head? ≠ some .reset ∧
    1#32 < ({ one [1#8] 4 1 with pm := [] } : State).nextHandle ∧
    ({ one [1#8] 4 1 with pm := [] } : State).packet 1#32 = none ∧
    ∃ t, step { one [1#8] 4 1 with pm := [], inbox := [.command [0x20#8, 4#8, 0#8]] } = .next t :=
  ⟨by decide, by decide, rfl, _, rfl⟩

/-- The packet being sent; the packet being assembled, under a host command, a data byte that just fits, and an idle. -/
theorem wit_HeldPacketsKeepTheirData :
    (sending [1#8, 2#8]).Good ∧ (sending [1#8, 2#8]).encPkt = some 1#32 ∧
    view (.pbReference 1#32) (sending [1#8, 2#8]) (fun t => t.live 1#32) = some true ∧
    (assembling [1#8] 4).Good ∧ (assembling [1#8] 4).decPkt = some 1#32 ∧ isReceive (.pbReference 1#32) = false ∧
    view (.pbReference 1#32) (assembling [1#8] 4) (fun t => t.live 1#32) = some true ∧
    isReceive (.decRx 5#8) = true ∧
    view (.decRx 5#8) (assembling [1#8] 2) (fun t => (t.packet 1#32).map (fun q => (q.data, q.cap))) =
      some (some ([1#8] ++ [5#8], 2)) ∧ 1 + [5#8].length ≤ 2 ∧
    isReceive .wireIdle = true ∧ view .wireIdle (seen (assembling [1#8] 4)) (fun t => t.live 1#32) = some true :=
  ⟨good_sending, by decide, by decide, good_assembling, by decide, by decide, by decide, by decide, by decide, by decide,
    by decide, by decide⟩

theorem wit_HostCommandsStoreOnlyWhereTheySay :
    (one packetS 16 2).Good ∧ isReceive (.pbWrite 1#32 0#16 7#8) = false ∧
    view (.pbWrite 1#32 0#16 7#8) (one packetS 16 2) (fun t => t.live 1#32) = some true ∧
    ¬ storesTo (.pbWrite 1#32 0#16 7#8) (one packetS 16 2) 1#32 1 :=
  ⟨good_one, by decide, by decide, by simp [storesTo]⟩

theorem wit_OtherPacketsAreUntouched :
    ¬ touches (.pbWrite 1#32 0#16 7#8) (one packetS 16 2) 2#32 ∧
    ∃ t, exec (.pbWrite 1#32 0#16 7#8) (one packetS 16 2) = .next t :=
  ⟨by simp [touches, handleOf, isReceive], _, rfl⟩

theorem wit_StatusTagsInfluenceNothing :
    (one packetS 16 2).withoutStatus = ((one packetS 16 2).setPacket 1#32
      { data := packetS, cap := 16, status := .good, ref := 2 }).withoutStatus ∧
    (∀ h, Instr.pbReference 1#32 ≠ .pbGetStatus h) ∧
    (∃ t, exec (.pbReference 1#32) (one packetS 16 2) = .next t) ∧
    ∃ t, exec (.pbReference 1#32) ((one packetS 16 2).setPacket 1#32
      { data := packetS, cap := 16, status := .good, ref := 2 }) = .next t :=
  ⟨by decide, nofun, ⟨_, rfl⟩, _, rfl⟩

/-- Listed answers of each kind; questions answered; a kept count at the bound `REF_MAX`. -/
theorem wit_QuestionsTakeTheAgentsAnswers :
    base.draws.alloc = true :: [] ∧ base.draws.realloc = true :: [] ∧
    base.draws.tx = .good :: List.replicate 7 .good ∧
    ({ base with draws := { yes with sink := [.bad] } } : State).draws.sink = .bad :: [] ∧
    ({ base with draws := no } : State).draws.sink = .busy :: [] ∧
    ({ base with draws := { yes with sink := [.good 254] } } : State).draws.sink = .good 254 :: [] ∧ 1 + 254 ≤ base.params.refMax ∧
    (∃ a t, drawAlloc base 4 = (a, t)) ∧ (∃ a t, drawRealloc base 1#32 4 = (a, t)) ∧
    (∃ a t, drawTx base 5#8 = (a, t)) ∧
    (∃ k t, drawSink base 1#32 { data := [], cap := 4, status := .busy, ref := 1 } = (.good k, t)) :=
  ⟨rfl, rfl, rfl, rfl, rfl, rfl, by decide, ⟨_, _, rfl⟩, ⟨_, _, rfl⟩, ⟨_, _, rfl⟩, _, _, rfl⟩

theorem wit_CrcCommandsComplete : base.fault = 0#8 := rfl
theorem wit_SunkBytesGiveTheirCrc : base.fault = 0#8 := rfl
theorem wit_OneChangedByteChangesTheCrc : (0x01#8 : Byte) ≠ 0x02#8 := by decide

theorem wit_Code78RoundTrip :
    (one [] 8 1).Good ∧ (one [] 8 1).fault = 0#8 ∧ (0#16).toNat = 0 ∧
    (one [] 8 1).params.c78Width = 32 ∧ (3#32).toNat < 2 ^ 2 ∧
    ends (.c78EncU 1#32 300#32 0#16 0#16) (one [] 8 1) .good = true ∧
    ends (.c78EncS 1#32 300#32 0#16 0#16) (one [] 8 1) .good = true :=
  ⟨good_of_check (by decide), rfl, rfl, rfl, by decide, by decide, by decide⟩

theorem wit_Code78FormIsMinimal : c78Decode 32 [0x80#8, 0x82#8, 0x2C#8] 0 = some (300#32, 3) := by decide

/-- A field; a run of continuation bytes, an empty one at the end of the packet; a position beyond the end by one. -/
theorem wit_Code78ReadsFollowTheLayout :
    (one [7#8, 0x82#8, 0x2C#8, 9#8] 8 1).fault = 0#8 ∧
    (one [7#8, 0x82#8, 0x2C#8, 9#8] 8 1).packet 1#32 =
      some { data := [7#8] ++ [0x82#8, 0x2C#8] ++ [9#8], cap := 8, status := .busy, ref := 1 } ∧
    [7#8].length = (1#16).toNat ∧ isC78Field [0x82#8, 0x2C#8] ∧
    300 = c78Value [0x82#8, 0x2C#8] % 2 ^ (one [] 8 1).params.c78Width % 2 ^ 32 ∧
    (one [7#8, 0x82#8] 8 1).packet 1#32 =
      some { data := [7#8] ++ [0x82#8], cap := 8, status := .busy, ref := 1 } ∧ allContinue [0x82#8] ∧
    allContinue [] ∧ ({ data := [7#8], cap := 8, status := .busy, ref := 1 } : Packet).len < (2#16).toNat :=
  ⟨rfl, rfl, rfl, ⟨[0x82#8], 0x2C#8, rfl, by simp [allContinue], by decide⟩, by decide, rfl, by simp [allContinue],
    by simp [allContinue], by decide⟩

/-- The three commands, each just filling its packet. -/
theorem wit_AppendsWithRoomComplete :
    (one [7#8] 3 1).fault = 0#8 ∧ (one [7#8] 3 1).held 1#32 = false ∧
    (one [7#8] 3 1).packet 1#32 = some { data := [7#8], cap := 3, status := .busy, ref := 1 } ∧
    1 + [5#8].length ≤ 3 ∧ 1 + (c78Encode 300#32).length ≤ 3 ∧ 1 + (c78Encode (zigZag 300#32)).length ≤ 3 := by decide

/-- A zero increment; a packet at its limit; a limit one below the need; and a growth by one increment of two to the need
exactly, refused and granted. -/
theorem wit_AppendsGrowOrRefuse :
    (one [7#8] 1 1).fault = 0#8 ∧ (one [7#8] 1 1).held 1#32 = false ∧
    (one [7#8] 1 1).packet 1#32 = some { data := [7#8], cap := 1, status := .busy, ref := 1 } ∧
    1 < 1 + (c78Encode 300#32).length ∧
    ((0#16).toNat = 0 ∧ min (1#16).toNat 64 ≤ 1 ∧ min (2#16).toNat 64 < 1 + (c78Encode 300#32).length) ∧
    ((2#16).toNat ≠ 0 ∧ 1 < min (3#16).toNat 64 ∧ 1 + (c78Encode 300#32).length ≤ min (3#16).toNat 64 ∧
      1 + (2#16).toNat * 0 < 1 + (c78Encode 300#32).length ∧
      1 + (c78Encode 300#32).length ≤ 1 + (2#16).toNat * (0 + 1) ∧ 3 = min 3 (1 + (2#16).toNat * (0 + 1))) ∧
    (drawRealloc { one [7#8] 1 1 with draws := no } 1#32 3).1 = false ∧
    (drawRealloc (one [7#8] 1 1) 1#32 3).1 = true := by decide

/-- Capacities 0 and one above `LEN_MAX`; 1 and `LEN_MAX` refused and granted; exhausted handles. -/
theorem wit_AllocationMakesAnEmptyPacket :
    base.fault = 0#8 ∧ base.params.lenMax < (65#16).toNat ∧ (64#16).toNat ≤ base.params.lenMax ∧
    (1#16).toNat ≤ base.params.lenMax ∧ 1#16 ≠ 0#16 ∧ (drawAlloc { base with draws := no } 64).1 = false ∧
    (drawAlloc base 64).1 = true ∧ base.nextHandle ≠ 0xFFFFFFFF#32 ∧
    ({ base with nextHandle := 0xFFFFFFFF#32 } : State).nextHandle = 0xFFFFFFFF#32 := by decide

/-- Below the length; zero; above `LEN_MAX`; the current capacity; the length and `LEN_MAX` exactly. -/
theorem wit_SetCapacityResizes :
    (one [7#8, 8#8] 4 1).fault = 0#8 ∧ (one [7#8, 8#8] 4 1).held 1#32 = false ∧
    (one [7#8, 8#8] 4 1).packet 1#32 = some { data := [7#8, 8#8], cap := 4, status := .busy, ref := 1 } ∧
    (1#16).toNat < 2 ∧ 64 < (65#16).toNat ∧ (2 ≤ (4#16).toNat ∧ 4#16 ≠ 0#16 ∧ (4#16).toNat = 4) ∧
    (2 ≤ (2#16).toNat ∧ (64#16).toNat ≤ 64 ∧ (64#16).toNat ≠ 4) ∧
    (drawRealloc { one [7#8, 8#8] 4 1 with draws := no } 1#32 2).1 = false ∧
    (drawRealloc (one [7#8, 8#8] 4 1) 1#32 64).1 = true := by decide

/-- Counts 0, 1, 2, 254 and 255; a dead handle; a held packet with the block's reference alone, and with one more. -/
theorem wit_ReferencesCount :
    (one [] 4 254).fault = 0#8 ∧ ((one [] 4 254).packet 1#32).map (fun p => p.ref) = some 254 ∧
    ((one [] 4 255).packet 1#32).map (fun p => p.ref) = some 255 ∧ (one [] 4 0).packet 2#32 = none ∧
    (sending []).held 1#32 = true ∧ (sending []).heldRefs 1#32 = 1 ∧
    ((sending []).packet 1#32).map (fun p => p.ref) = some 1 ∧ (one [] 4 2).held 1#32 = false ∧
    ((one [] 4 2).packet 1#32).map (fun p => p.ref) = some 2 := by decide

theorem wit_TheLastDereferenceFrees :
    (one [] 4 0).fault = 0#8 ∧ (one [] 4 0).held 1#32 = false ∧
    (one [] 4 0).packet 1#32 = some { data := [], cap := 4, status := .busy, ref := 0 } ∧ 255 ≤ 255 ∧ 254 < 255 := by
  decide

/-- Counts 1, 255, and 256, which only a greater `REF_MAX` lets a packet have. -/
theorem wit_StatusAndSizeCommands : (sending [1#8]).fault = 0#8 ∧
    ((one [] 4 255).packet 1#32).map (fun p => p.ref) = some 255 ∧
    ((one [] 4 256).packet 1#32).map (fun p => p.ref) = some 256 ∧
    (sending [1#8]).packet 1#32 = some { data := [1#8], cap := 16, status := .busy, ref := 1 } := by decide

/-- The last byte, and the index one past it. -/
theorem wit_BytesAreReadAndWritten :
    (one [7#8, 8#8] 4 1).fault = 0#8 ∧ (one [7#8, 8#8] 4 1).held 1#32 = false ∧
    ((one [7#8, 8#8] 4 1).packet 1#32).map (fun p => p.data) = some [7#8, 8#8] ∧
    [7#8, 8#8][(1#16).toNat]? = some 8#8 ∧ [7#8, 8#8].length ≤ (2#16).toNat := by decide

theorem wit_DeadHandlesFault :
    base.fault = 0#8 ∧ handleOf (.pbRead 1#32 0#16) = some 1#32 ∧ base.packet 1#32 = none ∧
    (Instr.pbRead 1#32 0#16).wellFormed = true ∧ Instr.pbRead 1#32 0#16 ≠ .pbDereference 1#32 := by decide

theorem wit_HeldPacketsRefuseMutation :
    (sending [1#8]).fault = 0#8 ∧ handleOf (.pbWrite 1#32 9#16 0#8) = some 1#32 ∧
    mutates (.pbWrite 1#32 9#16 0#8) = true ∧ mutates (.mapValidate 1#32 0#8 0#8 1#8) = true ∧
    (Instr.mapValidate 1#32 0#8 0#8 1#8).wellFormed = true ∧ (sending [1#8]).held 1#32 = true ∧
    (sending [1#8]).live 1#32 = true ∧ (assembling [1#8] 4).decPkt = some 1#32 := by decide

theorem wit_HeaderByteReads :
    (one packetS 16 1).fault = 0#8 ∧ ((one packetS 16 1).packet 1#32).map (fun p => p.data) = some packetS ∧
    packetS[(7#16).toNat]? = some 0xC8#8 ∧ packetS.length ≤ (8#16).toNat := by decide

theorem wit_HeaderByteWrites :
    (one packetS 16 1).fault = 0#8 ∧ (one packetS 16 1).held 1#32 = false ∧
    ((one packetS 16 1).packet 1#32).map (fun p => p.data) = some packetS ∧ packetS[(7#16).toNat]? = some 0xC8#8 ∧
    (14#8).toNat < 15 ∧ 15 ≤ (15#8).toNat ∧ (7#16).toNat < packetS.length ∧ packetS.length ≤ (8#16).toNat := by decide

theorem wit_NavigationCommandsAnswerPositions :
    (one packetN 16 1).fault = 0#8 ∧ ((one packetN 16 1).packet 1#32).map (fun p => p.data) = some packetN ∧
    (6#16).toNat < packetN.length ∧ packetN.length ≤ (7#16).toNat := by decide

/-- Every field there; none there; and each field in turn run off the end. -/
theorem wit_FieldPositionsFollowTheLayout :
    isC78Field [0x81#8, 0x01#8] ∧ isC78Field [0x05#8] ∧ allContinue [0x85#8] ∧ allContinue [] ∧
    (0x70#8).getLsbD 6 = true ∧ (0x70#8).getLsbD 5 = true ∧ (0x70#8).getLsbD 4 = true ∧
    (0x0F#8).getLsbD 6 = false ∧ (0x0F#8).getLsbD 5 = false ∧ (0x0F#8).getLsbD 4 = false :=
  ⟨⟨[0x81#8], 0x01#8, rfl, by simp [allContinue], by decide⟩, ⟨[], 0x05#8, rfl, by simp [allContinue], by decide⟩,
    by simp [allContinue], by simp [allContinue], by decide, by decide, by decide, by decide, by decide, by decide⟩

theorem wit_HeaderChainEndsAtTheInnermost : packetN ≠ [] ∧
    nextHeader par packetN 0 = some 3 ∧ headerAt par packetN 1 = some 3 ∧ headerAt par packetN 2 = none := by decide

/-- The parameters of a nest, whose headers name the MAP identifier 0. -/
def parNest : Params := { par with mapProtocolId := 0#32 }

/-- A nest of `n` headers without a checksum, each a header byte and a next-protocol field, around these bytes. -/
def nest : Nat → List Byte → List Byte
  | 0, inner => inner
  | n + 1, inner => 0x40#8 :: 0x00#8 :: nest n inner

theorem nest_ne_nil (n : Nat) (b : Byte) (inner : List Byte) : nest n (b :: inner) ≠ [] := by
  cases n <;> simp [nest]

theorem headerByte_append (outer rest : List Byte) (b : Byte) : headerByte (outer ++ b :: rest) outer.length = b := by
  simp [headerByte]

/-- A header of a nest is followed by the next one. -/
theorem nextHeader_nest (outer rest : List Byte) (hr : rest ≠ []) :
    nextHeader parNest (outer ++ 0x40#8 :: 0x00#8 :: rest) outer.length = some (outer.length + 2) := by
  have hd : (outer ++ 0x40#8 :: 0x00#8 :: rest).drop (outer.length + 1) = 0x00#8 :: rest := by simp
  have hl : 0 < rest.length := List.length_pos_iff.mpr hr
  simp only [nextHeader, fields, headerByte_append, skipField, skipC78, c78Decode, hd]
  simp [hasFlag, maskNp, maskDa, maskSa, skipLoop, c78Loop, isLastByte, c78Wrap, parNest, skipField]
  omega

/-- The walk over a nest around a header with a checksum and no next protocol comes down to that header. -/
theorem checkLevels_nest (tail : List Byte) (n m j stop : Nat) (outer : List Byte) :
    checkLevels (outer ++ nest n (0x80#8 :: tail))
      (headerChain parNest (outer ++ nest n (0x80#8 :: tail)) (n + m) outer.length) stop j [] =
    checkLevels (outer ++ nest n (0x80#8 :: tail)) [outer.length + 2 * n] stop (j + n) [] := by
  induction n generalizing j outer with
  | zero =>
    have hn : nextHeader parNest (outer ++ 0x80#8 :: tail) outer.length = none := by
      simp [nextHeader, headerByte_append, hasFlag, maskNp]
    cases m <;> simp [nest, headerChain, hn]
  | succ n ih =>
    have hi := ih (j + 1) (outer ++ [0x40#8, 0x00#8])
    simp only [List.append_assoc, List.cons_append, List.nil_append, List.length_append, List.length_cons,
      List.length_nil] at hi
    rw [show n + 1 + m = (n + m) + 1 by omega, headerChain, nest, nextHeader_nest _ _ (nest_ne_nil n _ _)]
    simp only [checkLevels, headerByte_append, show hasFlag 0x40#8 maskCk = false by decide, Bool.false_eq_true,
      if_false]
    rw [hi, show outer.length + (0 + 1 + 1) + 2 * n = outer.length + 2 * (n + 1) by omega,
      show j + 1 + n = j + (n + 1) by omega]
    rfl

/-- How the walk over such a nest ends. -/
def nestWalk (n : Nat) (tail : List Byte) : CkWalk :=
  checkLevels (nest n (0x80#8 :: tail)) (headerWalk parNest (nest n (0x80#8 :: tail)) 0)
    (nest n (0x80#8 :: tail)).length 0 []

theorem nestWalk_eq (n : Nat) (tail : List Byte) :
    nestWalk n tail =
      checkLevels (nest n (0x80#8 :: tail)) [2 * n] (nest n (0x80#8 :: tail)).length n [] := by
  have hl : ∀ k, (nest k (0x80#8 :: tail)).length = k + (k + tail.length + 1) := by
    intro k
    induction k with
    | zero => simp [nest]
    | succ k ih => simp [nest, ih]; omega
  have h := checkLevels_nest tail n (n + tail.length + 1) 0 (nest n (0x80#8 :: tail)).length []
  rw [← hl n] at h
  simpa [nestWalk, headerWalk] using h

/-- Levels 255, the last that the 8-bit field holds, and 256: without room for a trailer, and with a trailer that is not the
checksum. -/
theorem wit_ValidateAnswersByTheWalk_levels :
    headerAt parNest (nest 256 [0x80#8]) 0 = some 0 ∧ nestWalk 255 [] = .short 255 ∧ nestWalk 256 [] = .short 256 ∧
    nestWalk 255 [0#8, 0#8, 0#8, 0#8] = .mismatch 255 ∧ nestWalk 256 [0#8, 0#8, 0#8, 0#8] = .mismatch 256 := by
  simp only [nestWalk_eq]
  decide +kernel

/-- An empty packet; no header; a required bit missing; a short level; a mismatch; a pass, with a removal. -/
theorem wit_ValidateAnswersByTheWalk :
    (one [] 4 1).fault = 0#8 ∧ (one [] 4 1).held 1#32 = false ∧
    (((one [] 4 1).packet 1#32).map (fun p => p.data) = some []) ∧
    (packetN ≠ [] ∧ headerAt par packetN 2 = none) ∧
    (headerAt par packetN 0 = some 0 ∧ ckAt packetN 0 = false) ∧
    (headerAt par [0x80#8, 1#8, 2#8] 0 = some 0 ∧
      checkLevels [0x80#8, 1#8, 2#8] (headerWalk par [0x80#8, 1#8, 2#8] 0) 3 0 [] = .short 0) ∧
    (headerAt par [0x80#8, 0#8, 0#8, 0#8] 0 = some 0 ∧
      checkLevels [0x80#8, 0#8, 0#8, 0#8] (headerWalk par [0x80#8, 0#8, 0#8, 0#8] 0) 4 0 [] = .mismatch 0) ∧
    (headerAt par packetNC 0 = some 0 ∧ ckAt packetNC 0 = true ∧
      checkLevels packetNC (headerWalk par packetNC 0) packetNC.length 0 [] = .passed 7 [0, 3]) := by decide +kernel

/-- No header; the bit set already; room for four bytes exactly; `LEN_MAX` one short; a growth refused and granted. -/
theorem wit_AppendChecksumComplete :
    (one packetN 16 1).fault = 0#8 ∧ (one packetN 16 1).held 1#32 = false ∧
    ((one packetN 16 1).packet 1#32).map (fun p => p.data) = some packetN ∧
    headerAt par packetN 2 = none ∧ headerAt par packetN 0 = some 0 ∧ ckAt packetS 0 = true ∧
    ckAt packetN 0 = false ∧ packetN.length + 4 ≤ 11 ∧ 10 < packetN.length + 4 ∧ packetN.length + 4 ≤ 64 ∧
    (drawRealloc { one packetN 10 1 with draws := no } 1#32 11).1 = false ∧
    (drawRealloc (one packetN 10 1) 1#32 11).1 = true := by decide

theorem wit_AppendedChecksumsValidate :
    (one [0x22#8, 5#8, 0xAA#8, 0xBB#8] 16 1).Good ∧ (one [0x22#8, 5#8, 0xAA#8, 0xBB#8] 16 1).fault = 0#8 ∧
    ckAt [0x22#8, 5#8, 0xAA#8, 0xBB#8] 0 = false ∧
    (after (.mapAppendChecksum 1#32 0#8) (one [0x22#8, 5#8, 0xAA#8, 0xBB#8] 16 1)).map
      (fun t => (t.result, (t.packet 1#32).map (fun q => q.data))) = some (some ⟨.good, []⟩, some packetS) ∧
    (headerWalk par packetS 0).tail = [] ∧ packetS[3]? ≠ some 0xBA#8 :=
  ⟨good_of_check (by decide), rfl, by decide, by decide +kernel, by decide, by decide⟩

theorem wit_DecRxIsItsWireUnit : legalControl 0x3C#8 = true := by decide

/-- Room for one byte; a full packet below the limit, refused and granted; one at the limit under each policy; no packet,
refused and granted, with and without a handle left. -/
theorem wit_DataBytesAreAssembled :
    (assembling [1#8] 2).fault = 0#8 ∧ par.wf ∧ (assembling [1#8] 2).decDiscard = false ∧
    (assembling [1#8] 2).decState = .data ∧ 5#8 ≠ (assembling [1#8] 2).cp ∧
    (assembling [1#8] 2).decPkt = some 1#32 ∧
    ((assembling [1#8] 2).packet 1#32).map (fun p => decide (p.len < p.cap)) = some true ∧
    ((assembling [1#8] 1).packet 1#32).map (fun p => decide (p.len = p.cap ∧ p.cap < par.decLimit)) = some true ∧
    (drawRealloc (assembling [1#8] 1) 1#32 5).1 = true ∧
    (drawRealloc { assembling [1#8] 1 with draws := no } 1#32 5).1 = false ∧
    ((assembling (List.replicate 16 1#8) 16).packet 1#32).map
      (fun p => decide (p.len = p.cap ∧ par.decLimit ≤ p.cap)) = some true ∧
    par.decFailPolicy = .discardAtCeiling ∧ ({ par with decFailPolicy := .retryAll } : Params).wf ∧
    base.decPkt = none ∧ (drawAlloc { base with draws := no } 4).1 = false ∧ (drawAlloc base 4).1 = true ∧
    base.nextHandle ≠ 0xFFFFFFFF#32 ∧ 1 ≤ base.params.refMax ∧
    ({ base with nextHandle := 0xFFFFFFFF#32 } : State).nextHandle = 0xFFFFFFFF#32 ∧
    (drawAlloc { base with nextHandle := 0xFFFFFFFF#32 } 4).1 = true := by decide

theorem wit_ControlBytesAndIdles :
    base.fault = 0#8 ∧ base.decState = .data ∧ (seen base).fault = 0#8 ∧ (seen base).decState = .controlSeen ∧
    legalControl (seen base).cp = true := by decide

/-- Room for one and for two bytes exactly; discarding; and the append of the control byte refused and done. -/
theorem wit_ControlBytesAsData :
    (seen (assembling [1#8] 2)).fault = 0#8 ∧ legalControl (seen base).cp = true ∧
    (seen base).decState = .controlSeen ∧ 5#8 &&& 0xFC#8 ≠ (seen base).cp ∧
    (seen (assembling [1#8] 2)).decDiscard = false ∧ (seen (assembling [1#8] 2)).decPkt = some 1#32 ∧
    ((assembling [1#8] 2).packet 1#32).map (fun p => decide (p.len + 1 ≤ p.cap)) = some true ∧
    ((assembling [1#8] 3).packet 1#32).map (fun p => decide (p.len + 2 ≤ p.cap)) = some true ∧
    ({ seen base with decDiscard := true } : State).decDiscard = true ∧
    (seen (assembling [1#8] 2)).goodCheck ∧
    ends (.wireData 0x3C#8) { seen (assembling [1#8] 1) with draws := no } .busy = true ∧
    ends (.wireData 0x3C#8) (seen (assembling [1#8] 1)) .good = true := by decide

/-- Discarding; each answer of the sink; an empty frame under each policy, refused, out of handles, and offered with each
answer. -/
theorem wit_CompletedFramesAreOffered :
    (seen (assembling [1#8] 4)).fault = 0#8 ∧ par.wf ∧ legalControl (seen base).cp = true ∧
    ({ seen base with decDiscard := true } : State).decDiscard = true ∧
    (seen (assembling [1#8] 4)).decDiscard = false ∧ (seen (assembling [1#8] 4)).decPkt = some 1#32 ∧
    (seen (assembling [1#8] 4)).packet 1#32 = some { data := [1#8], cap := 4, status := .busy, ref := 1 } ∧
    (drawSink base 1#32 { data := [1#8], cap := 4, status := .busy, ref := 1 }).1 = .good 0 ∧
    (drawSink { base with draws := no } 1#32 { data := [1#8], cap := 4, status := .busy, ref := 1 }).1 = .busy ∧
    (drawSink { base with draws := { yes with sink := [.bad] } } 1#32
      { data := [1#8], cap := 4, status := .busy, ref := 1 }).1 = .bad ∧
    (seen base).decPkt = none ∧ ({ par with emptyFramePolicy := .drop } : Params).wf ∧
    par.emptyFramePolicy = .deliver ∧ (drawAlloc { base with draws := no } 4).1 = false ∧
    (drawAlloc base 4).1 = true ∧ base.nextHandle ≠ 0xFFFFFFFF#32 ∧ 1 ≤ base.params.refMax ∧
    ({ base with nextHandle := 0xFFFFFFFF#32 } : State).nextHandle = 0xFFFFFFFF#32 ∧
    (drawAlloc { base with nextHandle := 0xFFFFFFFF#32 } 4).1 = true := by decide

theorem wit_AbortedFramesAreDropped :
    (seen (assembling [1#8] 4)).fault = 0#8 ∧ legalControl (seen base).cp = true ∧ (seen base).decPkt = none ∧
    (seen (assembling [1#8] 4)).decPkt = some 1#32 ∧
    ((assembling [1#8] 4).packet 1#32).map (fun p => p.ref) = some 1 ∧
    (({ one [1#8] 4 2 with decPkt := some 1#32 } : State).packet 1#32).map (fun p => p.ref) = some 2 := by decide

theorem wit_EveryReceivedByteIsGoodOrBusy :
    (assembling [1#8] 4).Good ∧ (assembling [1#8] 4).fault = 0#8 ∧ 1 ≤ (assembling [1#8] 4).params.refMax ∧
    isReceive (.decRx 5#8) = true := ⟨good_assembling, rfl, by decide, rfl⟩

theorem wit_DiscardedBytesChangeNoPacket :
    ({ seen base with decDiscard := true } : State).fault = 0#8 ∧
    ({ seen base with decDiscard := true } : State).decDiscard = true ∧ (seen base).decPkt = none ∧
    isReceive (.decRx 0x3D#8) = true ∧ Instr.decRx 0x3D#8 ≠ .wireEnd ∧ Instr.decRx 0x3D#8 ≠ .wireAbort ∧
    ¬ (0x3D#8 &&& 3#8 = 2#8 ∨ 0x3D#8 &&& 3#8 = 3#8) := by decide

/-- An empty list, and one with a control byte in it, each consumed whole. -/
theorem wit_FrameRoundTrip :
    base.Good ∧ base.fault = 0#8 ∧ base.decState = .data ∧ base.decPkt = none ∧ base.decDiscard = false ∧
    [0x3C#8, 1#8].length ≤ base.params.decLimit ∧ base.params.emptyFramePolicy = .deliver ∧
    (receive 9 (encodeFrame base.cp [0x3C#8, 1#8]) base).isSome = true ∧
    (receive 9 (encodeFrame base.cp []) base).isSome = true :=
  ⟨good_base, rfl, rfl, rfl, rfl, by decide, rfl, by decide, by decide⟩

theorem wit_FramesAreConsumed :
    base.Good ∧ base.fault = 0#8 ∧ base.decState = .data ∧ base.decPkt = none ∧ base.decDiscard = false ∧
    base.nextHandle ≠ 0xFFFFFFFF#32 ∧ 1 ≤ base.params.refMax ∧ [5#8].length ≤ base.params.decLimit ∧ base.draws.alloc = true :: [] ∧
    base.draws.realloc = List.replicate 1 true ∧ [5#8].length ≤ 1 ∧ base.draws.sink = .good 0 :: [] ∧
    SinkAnswer.good 0 ≠ .busy ∧ (encodeFrame base.cp [5#8]).length ≤ 3 :=
  ⟨good_base, rfl, rfl, rfl, rfl, by decide, by decide, by decide, rfl, rfl, by decide, rfl, by decide, by decide⟩

/-- A busy encoder; a missing header; a full count; a start at 0 and at a nested header. -/
theorem wit_SubmittedPacketsAreTaken :
    (sending packetN).fault = 0#8 ∧ (sending packetN).decPkt ≠ some 1#32 ∧ (sending packetN).encMode ≠ .idle ∧
    (one packetN 16 254).encMode = .idle ∧ headerAt par packetN 2 = none ∧ headerAt par packetN 1 = some 3 ∧
    ((one packetN 16 255).packet 1#32).map (fun p => p.ref) = some 255 ∧
    ((one packetN 16 254).packet 1#32).map (fun p => p.ref) = some 254 := by decide

theorem wit_ProcessSendsTheFrame :
    base.fault = 0#8 ∧ base.encMode = .idle ∧ (sending [1#8, 2#8]).Good ∧ (sending [1#8, 2#8]).fault = 0#8 ∧
    (sending [1#8, 2#8]).encPkt = some 1#32 ∧ (sending [1#8, 2#8]).live 1#32 = true ∧
    (sending [1#8, 2#8]).draws.tx =
      List.replicate (sending [1#8, 2#8]).wireRemainder.length .good ++ List.replicate 4 .good :=
  ⟨rfl, rfl, good_sending, rfl, rfl, by decide, by decide⟩

/-- A submission that is taken, one that is not, a host command and a received byte while the frame is in flight, a refused
offer, and a whole frame: submitted, another packet's byte received, and sent. -/
theorem wit_EncoderSendsTheWireImage :
    ends (.encSubmit 1#32 0#8) (sending [1#8, 2#8]) .busy = true ∧
    ends (.pbSetStatus 1#32 2#8) (sending [1#8, 2#8]) .good = true ∧
    ends (.decRx 5#8) (sending [1#8, 2#8]) .good = true ∧
    ((after (.encSubmit 1#32 0#8) (one [1#8, 2#8] 4 1)).map (fun t =>
      match execAll [.decRx 5#8, .encProcess] t with
      | .next u => decide (u.encMode = .idle)
      | .fault _ => false
      | .refused _ => false)) = some true ∧
    (one packetN 16 2).goodCheck ∧ (one packetN 16 2).fault = 0#8 ∧ (one packetN 16 2).live 1#32 = true ∧
    ends (.encSubmit 1#32 1#8) (one packetN 16 2) .good = true ∧ (sending [1#8, 2#8]).goodCheck ∧
    ends .encProcess (sending [1#8, 2#8]) .good = true ∧
    ends .encProcess { sending [1#8, 2#8] with draws := no } .busy = true := by decide

theorem wit_NoImageHoldsAnAbort : legalControl 0x3C#8 = true := by decide

theorem wit_TheEncoderLoopEndsBeforeItsBound :
    (sending [1#8, 2#8]).Good ∧ (sending [1#8, 2#8]).encMode ≠ .idle := ⟨good_sending, by decide⟩

/-- A low bit set; each kind of frame in progress; a quiescent block. -/
theorem wit_SystemCommandsComplete :
    base.fault = 0#8 ∧ 0x3D#8 &&& 3#8 ≠ 0#8 ∧ 0x7C#8 &&& 3#8 = 0#8 ∧ (seen base).decState ≠ .data ∧
    (assembling [1#8] 4).decPkt ≠ none ∧ ({ base with decDiscard := true } : State).decDiscard = true ∧
    (sending [1#8]).encMode ≠ .idle ∧ base.decState = .data ∧ base.decPkt = none ∧ base.decDiscard = false ∧
    base.encMode = .idle := by decide

end Sys2Proof.Tests
end

section
/-! SUPPORT. What the invariant `State.Good` rests on, and which updates of the state keep it: the layer from which every
command's invariance is assembled. -/

namespace Sys2Proof.Machine

section

variable {s : State} {h : Handle} {p q : Packet}

/-! ### Updates that the invariant does not see -/

/-- No condition of `State.Good` speaks of the CRC register, the inputs to come or the model's outputs. -/
theorem State.Good.withOutputs (hs : s.Good) (crc : Word) (inbox : List Input) (draws : Draws) (result : Option Result)
    (log : List Event) :
    ({ s with crc := crc, inbox := inbox, draws := draws, result := result, log := log }).Good :=
  { hs with }

theorem State.Good.answer (hs : s.Good) (st : Verdict) (fs : List Field) : (s.answer st fs).Good :=
  hs.withOutputs s.crc s.inbox s.draws _ s.log

theorem State.Good.undoTo (hs : s.Good) (t : State) : (s.undoTo t).Good :=
  hs.withOutputs s.crc s.inbox t.draws s.result t.log

/-- Every code of 60_exceptions.md R280 is one of the eight. -/
theorem faultCode_le (c : FaultCode) : faultCode c ≤ 8#8 := by
  cases c <;> decide

theorem State.Good.raiseFrom (hs : s.Good) (t : State) (c : FaultCode) : (s.raiseFrom t c).Good :=
  { hs with faultCode := faultCode_le c }

/-- A legal control byte may take the place of the old one (10_state.md R31). -/
theorem State.Good.withControl (hs : s.Good) {v : Byte} (hv : v &&& 3#8 = 0#8) : ({ s with cp := v }).Good :=
  { hs with control := hv }

/-- The decoder's position is in no condition. -/
theorem State.Good.withDecState (hs : s.Good) (d : DecState) : ({ s with decState := d }).Good :=
  { hs with }

/-! ### Reset -/

/-- The registers' reset values satisfy every condition where the parameters are in their ranges. -/
theorem good_hardReset (hw : s.params.wf) : s.hardReset.Good where
  params := hw
  memory := List.Pairwise.nil
  records := nofun
  handles := nofun
  nextHandle := show 1#32 ≠ 0#32 by decide
  control := hw.1
  faultCode := show 0#8 ≤ 8#8 by decide
  discard := nofun
  idle := by simp
  held := nofun
  apart := nofun
  cursor := nofun
  collision := nofun

/-- The parameters of this hardware are in the ranges of 00_scope.md R9, whatever the OPEN ones are: each is given by its
distance from the bound below it. -/
theorem config_params_wf : Config.params.wf := by
  have hlen := Config.lenMaxPred.isLt
  have hcap := Config.decInitCapPred.isLt
  have hslack := Config.decLimitSlack.isLt
  refine ⟨by decide, ?_⟩
  simp only [Config.params]
  omega

/-! ### Held packets -/

theorem held_of_decPkt (hd : s.decPkt = some h) : s.held h = true := by simp [State.held, hd]

theorem held_of_encPkt (he : s.encPkt = some h) : s.held h = true := by simp [State.held, he]

/-- One unit at most holds a packet, so the block has one reference on it. -/
theorem State.Good.heldRefs_of_held (hs : s.Good) (hh : s.held h = true) : s.heldRefs h = 1 := by
  by_cases hd : s.decPkt = some h
  · simp [State.heldRefs, hd, hs.apart h hd]
  · have he : s.encPkt = some h := by simpa [State.held, hd] using hh
    simp [State.heldRefs, hd, he]

/-- A held packet is live, and referenced. -/
theorem State.Good.live_of_held (hs : s.Good) (hh : s.held h = true) : ∃ p, s.packet h = some p ∧ 1 ≤ p.ref := by
  obtain ⟨p, hp, hone, hle⟩ := hs.held h hh
  exact ⟨p, hp, hone.trans hle⟩

theorem State.Good.ref_pos (hs : s.Good) (hh : s.held h = true) (hp : s.packet h = some p) : 1 ≤ p.ref := by
  obtain ⟨p', hp', hr⟩ := hs.live_of_held hh
  rw [hp] at hp'
  cases hp'
  exact hr

/-! ### Updates of the packet memory -/

/-- A record in its bounds, at a handle that was handed out (10_state.md R42, R43): what `State.Good` asks of every record. -/
structure State.InBounds (s : State) (h : Handle) (p : Packet) : Prop where
  cap_pos : 1 ≤ p.cap
  cap_le : p.cap ≤ s.params.lenMax
  len_le : p.len ≤ p.cap
  ref_le : p.ref ≤ s.params.refMax
  nonzero : h ≠ 0#32
  handedOut : h < s.nextHandle

theorem State.Good.inBounds (hs : s.Good) (hp : s.packet h = some p) : s.InBounds h p := by
  obtain ⟨hpos, hcap, hlen, href⟩ := hs.records h p hp
  obtain ⟨hnz, hlt⟩ := hs.handles h p hp
  exact ⟨hpos, hcap, hlen, href, hnz, hlt⟩

/-- Another memory keeps the state good where its records are in their bounds, and every held packet keeps its references
and, for the encoder's, its length. -/
theorem State.Good.withMemory (hs : s.Good) {m : Memory} (hm : Memory.wf m)
    (hrec : ∀ k q, m.lookup k = some q → s.InBounds k q)
    (hheld : ∀ k p, s.held k = true → s.packet k = some p →
      ∃ q, m.lookup k = some q ∧ s.heldRefs k ≤ q.ref ∧ (s.encPkt = some k → q.len = p.len)) :
    ({ s with pm := m }).Good := {
  hs with
  memory := hm
  records k q hq := by
    obtain ⟨hpos, hcap, hlen, href, _, _⟩ := hrec k q hq
    exact ⟨hpos, hcap, hlen, href⟩
  handles k q hq := ⟨(hrec k q hq).nonzero, (hrec k q hq).handedOut⟩
  held k hk := by
    obtain ⟨p, hp, hone, _⟩ := hs.held k hk
    obtain ⟨q, hq, href, _⟩ := hheld k p hk hp
    exact ⟨q, hq, hone, href⟩
  cursor k q he hq := by
    obtain ⟨p, hp, _⟩ := hs.held k (held_of_encPkt he)
    obtain ⟨q', hq', _, hlen⟩ := hheld k p (held_of_encPkt he) hp
    obtain rfl : q' = q := Option.some.inj (hq'.symm.trans hq)
    rw [hlen he]
    exact hs.cursor k p he hp }

/-- A record may be replaced by one in its bounds with no fewer references; the encoder's packet keeps its length. -/
theorem State.Good.setPacket (hs : s.Good) (hp : s.packet h = some p) (hq : s.InBounds h q) (href : p.ref ≤ q.ref)
    (hlen : s.encPkt = some h → q.len = p.len) : (s.setPacket h q).Good := by
  refine hs.withMemory (put_wf hs.memory h q) (fun k r hr => ?_) (fun k r hk hr => ?_)
  · rw [lookup_put] at hr
    split at hr
    · next e => cases hr; rw [e]; exact hq
    · exact hs.inBounds hr
  · rw [lookup_put]
    split
    · next e =>
      subst e
      obtain rfl : p = r := Option.some.inj (hp.symm.trans hr)
      exact ⟨q, rfl, (hs.heldRefs_of_held hk).trans_le ((hs.ref_pos hk hp).trans href), hlen⟩
    · exact ⟨r, hr, (hs.heldRefs_of_held hk).trans_le (hs.ref_pos hk hr), fun _ => rfl⟩

/-- `Dereference(h)` keeps the state good where the block's own references on `h` are not all that there are. -/
theorem State.Good.dereference (hs : s.Good) (hp : s.packet h = some p)
    (hfree : s.held h = true → s.heldRefs h < p.ref) : (s.dereference h).Good := by
  rw [dereference_eq]
  refine hs.withMemory (dereference_wf hs.memory h) (fun k q hq => ?_) (fun k q hk hq => ?_)
  · replace hq : (s.dereference h).packet k = some q := hq
    rw [dereference_packet, hp] at hq
    split at hq
    · next e =>
      subst e
      obtain ⟨hpos, hcap, hlen, href, hnz, hlt⟩ := hs.inBounds hp
      simp only [Option.bind_some] at hq
      split at hq
      · cases hq; exact hs.inBounds hp
      · split at hq
        · cases hq
        · cases hq; exact ⟨hpos, hcap, hlen, (Nat.sub_le _ _).trans href, hnz, hlt⟩
    · exact hs.inBounds hq
  · change ∃ q', (s.dereference h).packet k = some q' ∧ _
    rw [dereference_packet, hp]
    split
    · next e =>
      subst e
      obtain rfl : p = q := Option.some.inj (hp.symm.trans hq)
      have hmore : 1 < p.ref := hs.heldRefs_of_held hk ▸ hfree hk
      refine ⟨{ p with ref := p.ref - 1 }, ?_, ?_, fun _ => rfl⟩
      · simp [show p.ref ≠ 0 by omega, show p.ref ≠ 1 by omega]
      · simp only [hs.heldRefs_of_held hk]; omega
    · exact ⟨q, hq, (hs.heldRefs_of_held hk).trans_le (hs.ref_pos hk hq), fun _ => rfl⟩

/-- The next handle may be given to a record in its bounds: no unit can hold it yet (20_memory.md R69). -/
theorem State.Good.withNewPacket (hs : s.Good) (hn : s.nextHandle ≠ 0xFFFFFFFF#32) (hpos : 1 ≤ q.cap)
    (hcap : q.cap ≤ s.params.lenMax) (hlen : q.len ≤ q.cap) (href : q.ref ≤ s.params.refMax) :
    ({ s.setPacket s.nextHandle q with nextHandle := s.nextHandle + 1#32 }).Good := by
  have hlt : s.nextHandle < s.nextHandle + 1#32 := by bv_omega
  have hnext : ({ s with nextHandle := s.nextHandle + 1#32 }).Good :=
    { hs with
      handles := fun k p hk => ⟨(hs.handles k p hk).1, BitVec.lt_trans (hs.handles k p hk).2 hlt⟩
      nextHandle := by bv_omega }
  refine hnext.withMemory (put_wf hs.memory s.nextHandle q) (fun k r hr => ?_) (fun k r hk hr => ?_)
  · rw [setPacket_pm, lookup_put] at hr
    split at hr
    · next e => subst e; cases hr; exact ⟨hpos, hcap, hlen, href, hs.nextHandle, hlt⟩
    · exact hnext.inBounds hr
  · have hne : k ≠ s.nextHandle := fun e => BitVec.lt_irrefl _ (e ▸ (hs.handles k r hr).2)
    refine ⟨r, (lookup_put_other s.pm q hne).trans hr, ?_, fun _ => rfl⟩
    exact (hnext.heldRefs_of_held hk).trans_le (hnext.ref_pos hk hr)

/-! ### Taking and letting go of a packet -/

/-- The decoder takes a referenced packet that the encoder does not hold. -/
theorem State.Good.holdDec (hs : s.Good) (hp : s.packet h = some p) (href : 1 ≤ p.ref)
    (he : s.encPkt ≠ some h) (hd : s.decDiscard = false) : ({ s with decPkt := some h }).Good := {
  hs with
  discard e := absurd e (by simp [hd])
  held k hk := by
    by_cases hkh : h = k
    · subst hkh
      exact ⟨p, hp, by simp [State.heldRefs, he], by simpa [State.heldRefs, he] using href⟩
    · have hek : s.encPkt = some k := by simpa [State.held, hkh] using hk
      obtain ⟨q, hq, hr⟩ := hs.live_of_held (held_of_encPkt hek)
      exact ⟨q, hq, by simp [State.heldRefs, hek], by simpa [State.heldRefs, hek, hkh] using hr⟩
  apart k hk := by
    obtain rfl : h = k := Option.some.inj hk
    exact he }

/-- The decoder lets its packet go. -/
theorem State.Good.dropDec (hs : s.Good) (d : DecState) (b : Bool) :
    ({ s with decPkt := none, decState := d, decDiscard := b }).Good := {
  hs with
  discard _ := rfl
  held k hk := by
    have he : s.encPkt = some k := by simpa [State.held] using hk
    obtain ⟨q, hq, hr⟩ := hs.live_of_held (held_of_encPkt he)
    exact ⟨q, hq, by simp [State.heldRefs, he], by simpa [State.heldRefs, he] using hr⟩
  apart := nofun }

/-- The encoder takes a referenced packet that the decoder does not hold, with its cursor inside it
(45_frame_encoder.md R260). -/
theorem State.Good.holdEnc (hs : s.Good) (hp : s.packet h = some p) (href : 1 ≤ p.ref) (hd : s.decPkt ≠ some h)
    {cur len : Half} (hcur : cur.toNat ≤ len.toNat) (hlen : len.toNat = p.len) :
    ({ s with encPkt := some h, encCursor := cur, encEnd := len, encCollision := false,
              encMode := .transmitting }).Good := {
  hs with
  idle := by simp
  held k hk := by
    by_cases hkh : h = k
    · subst hkh
      exact ⟨p, hp, by simp [State.heldRefs, hd], by simpa [State.heldRefs, hd] using href⟩
    · have hdk : s.decPkt = some k := by simpa [State.held, hkh] using hk
      obtain ⟨q, hq, hr⟩ := hs.live_of_held (held_of_decPkt hdk)
      exact ⟨q, hq, by simp [State.heldRefs, hdk], by simpa [State.heldRefs, hdk, hkh] using hr⟩
  apart k hk hek := by
    obtain rfl : h = k := Option.some.inj hek
    exact hd hk
  cursor k q hek hq := by
    obtain rfl : h = k := Option.some.inj hek
    obtain rfl : p = q := Option.some.inj (hp.symm.trans hq)
    exact ⟨hcur, hlen⟩
  collision := nofun }

/-- The encoder lets its packet go (45_frame_encoder.md R266). -/
theorem State.Good.dropEnc (hs : s.Good) :
    ({ s with encPkt := none, encCursor := 0#16, encEnd := 0#16, encCollision := false, encMode := .idle }).Good := {
  hs with
  idle := by simp
  held k hk := by
    have hd : s.decPkt = some k := by simpa [State.held] using hk
    obtain ⟨q, hq, hr⟩ := hs.live_of_held (held_of_decPkt hd)
    exact ⟨q, hq, by simp [State.heldRefs, hd], by simpa [State.heldRefs, hd] using hr⟩
  apart _ _ := nofun
  cursor := nofun
  collision := nofun }

/-- The encoder moves within its packet (10_state.md R38, R40). -/
theorem State.Good.moveEnc (hs : s.Good) (he : s.encPkt ≠ none) {m : EncMode} {c : Bool} {cur : Half} (hm : m ≠ .idle)
    (hcur : cur.toNat ≤ s.encEnd.toNat) (hc : c = true → m = .transmitting ∨ m = .flushCollision) :
    ({ s with encMode := m, encCollision := c, encCursor := cur }).Good := {
  hs with
  idle := by simp [hm, he]
  cursor k p hk hp := ⟨hcur, (hs.cursor k p hk hp).2⟩
  collision := hc }

/-! ### Releases: a unit lets its packet go and gives its reference back -/

/-- `Dereference` on the memory, which is all that it looks at (20_memory.md R72). -/
def Memory.dereference (m : Memory) (h : Handle) : Memory :=
  match m.lookup h with
  | none => m
  | some p =>
    if p.ref = 0 then m
    else if p.ref = 1 then Memory.erase m h
    else m.put h { p with ref := p.ref - 1 }

/-- Registers may be written before `Dereference` or after it. -/
theorem dereference_eq_memory (s : State) (h : Handle) :
    s.dereference h = { s with pm := Memory.dereference s.pm h } := by
  simp only [State.dereference, Memory.dereference, State.packet]
  cases s.pm.lookup h with
  | none => rfl
  | some p =>
    by_cases h0 : p.ref = 0
    · simp [h0]
    · by_cases h1 : p.ref = 1
      · simp [h1]
      · simp [h0, h1, State.setPacket]

/-- The decoder's release of its packet (44_frame_decoder.md R239, R240). -/
theorem State.Good.releaseDec (hs : s.Good) (hd : s.decPkt = some h) (d : DecState) (b : Bool) :
    ({ s.dereference h with decPkt := none, decState := d, decDiscard := b }).Good := by
  obtain ⟨p, hp, _⟩ := hs.live_of_held (held_of_decPkt hd)
  have hdrop := (hs.dropDec d b).dereference (h := h) (p := p) hp fun hh =>
    absurd (by simpa [State.held] using hh) (hs.apart h hd)
  rw [dereference_eq_memory] at hdrop ⊢
  exact hdrop

/-- The encoder's release of its packet (45_frame_encoder.md R266). -/
theorem State.Good.releaseEnc (hs : s.Good) (he : s.encPkt = some h) :
    ({ s.dereference h with
        encPkt := none, encCursor := 0#16, encEnd := 0#16, encCollision := false, encMode := .idle }).Good := by
  obtain ⟨p, hp, _⟩ := hs.live_of_held (held_of_encPkt he)
  have hdrop := hs.dropEnc.dereference (h := h) (p := p) hp fun hh =>
    absurd he (hs.apart h (by simpa [State.held] using hh))
  rw [dereference_eq_memory] at hdrop ⊢
  exact hdrop

end

end Sys2Proof.Machine
end

section
/-! SUPPORT. All that a command can leave, said once: `exec_effect` inverts every meaning into one of the few kinds of
`Effect`. The decoder and the encoder are inverted in sections of their own, since their commands run through many states. -/

namespace Sys2Proof.Machine

section

variable {s : State} {h : Handle} {p q : Packet} {i : Instr}

/-! ### What the named operations keep -/

theorem byteField_frame (s : State) (free : Nat → Byte) (n : Nat) :
    (s.byteField free n).2 = s.undoTo (s.byteField free n).2 := by
  unfold State.byteField; split <;> rfl

theorem drawAlloc_undoTo {cap : Nat} {a : Bool} {t : State} (hd : drawAlloc s cap = (a, t)) : t = s.undoTo t := by
  have e := drawAlloc_frame s cap
  rw [hd] at e
  exact e

theorem drawRealloc_undoTo {cap : Nat} {a : Bool} {t : State} (hd : drawRealloc s h cap = (a, t)) :
    t = s.undoTo t := by
  have e := drawRealloc_frame s h cap
  rw [hd] at e
  exact e

theorem drawTx_undoTo {v : Byte} {a : Verdict} {t : State} (hd : drawTx s v = (a, t)) : t = s.undoTo t := by
  have e := drawTx_frame s v
  rw [hd] at e
  exact e

theorem drawSink_undoTo {a : SinkAnswer} {t : State} (hd : drawSink s h p = (a, t)) : t = s.undoTo t := by
  have e := drawSink_frame s h p
  rw [hd] at e
  exact e

/-- `Allocate` writes the memory and the next handle alone, and nothing where it refuses. -/
theorem allocate_frame {cap : Nat} {r : Verdict} {k : Handle} {t : State} (ha : allocate s cap = (r, k, t)) :
    t = { s.undoTo t with pm := t.pm, nextHandle := t.nextHandle } ∧ (r ≠ .good → t = s.undoTo t) := by
  rcases allocate_cases s cap with ⟨_, e⟩ | ⟨_, _, ⟨s1, hd, e⟩ | ⟨s1, hd, _, e⟩ | ⟨s1, hd, _, e⟩⟩
  all_goals rw [e] at ha; cases ha
  · exact ⟨rfl, fun _ => rfl⟩
  · have hs1 := drawAlloc_undoTo hd
    exact ⟨by rw [hs1]; rfl, fun _ => hs1⟩
  · have hs1 := drawAlloc_undoTo hd
    exact ⟨by rw [hs1]; rfl, fun _ => hs1⟩
  · rw [drawAlloc_undoTo hd]
    exact ⟨rfl, fun hr => absurd rfl hr⟩

theorem State.Good.allocate (hs : s.Good) {cap : Nat} {r : Verdict} {k : Handle} {t : State}
    (ha : allocate s cap = (r, k, t)) : t.Good := by
  by_cases hr : r = .good
  · rcases allocate_cases s cap with ⟨_, e⟩ | ⟨hpos, hcap, ⟨s1, hd, e⟩ | ⟨s1, hd, _, e⟩ | ⟨s1, hd, hn, e⟩⟩
    all_goals rw [e] at ha; cases ha
    · cases hr
    · cases hr
    · cases hr
    · rw [drawAlloc_undoTo hd]
      exact (hs.undoTo s1).withNewPacket (q := { data := [], cap := cap, status := .busy, ref := 0 }) hn
        (Nat.pos_of_ne_zero hpos) hcap (Nat.zero_le _) (Nat.zero_le _)
  · rw [(allocate_frame ha).2 hr]
    exact hs.undoTo t

/-- The packet that a granted allocation makes is live, and has no reference yet. -/
theorem allocate_packet {cap : Nat} {k : Handle} {t : State} (ha : Machine.allocate s cap = (.good, k, t)) :
    k = s.nextHandle ∧ t.packet k = some { data := [], cap := cap, status := .busy, ref := 0 } := by
  rcases allocate_cases s cap with ⟨_, e⟩ | ⟨_, _, ⟨s1, _, e⟩ | ⟨s1, _, _, e⟩ | ⟨s1, _, _, e⟩⟩
  all_goals rw [e] at ha; cases ha
  exact ⟨rfl, lookup_put_self _ _ _⟩

/-- `Reference` counts one more, unless the count is at `REF_MAX` (20_memory.md R72). -/
theorem addRef_eq_some {m : Nat} : p.addRef m = some q ↔ p.ref ≠ m ∧ q = { p with ref := p.ref + 1 } := by
  unfold Packet.addRef
  split
  · next e => simp [e]
  · next e => simp [e, eq_comm]

/-! ### Positions that a submission starts at -/

theorem nextHeader_lt {prm : Params} {data : List Byte} {hp k : Nat} (hk : nextHeader prm data hp = some k) :
    k < data.length := by
  unfold nextHeader at hk
  split at hk
  · split at hk
    · split at hk
      · next hlt => cases hk; exact hlt.2
      · cases hk
    · cases hk
  · cases hk

theorem walkHeaders_lt {prm : Params} {data : List Byte} {n a k : Nat} (ha : a < data.length)
    (hk : walkHeaders prm data n a = some k) : k < data.length := by
  induction n generalizing a with
  | zero => cases hk; exact ha
  | succ n ih =>
    obtain ⟨b, hb, hk⟩ := Option.bind_eq_some_iff.mp hk
    exact ih (nextHeader_lt hb) hk

theorem headerAt_lt {prm : Params} {data : List Byte} {off k : Nat} (hk : headerAt prm data off = some k) :
    k < data.length := by
  unfold headerAt at hk
  split at hk
  · cases hk
  · next hne => exact walkHeaders_lt (Nat.pos_of_ne_zero hne) hk

theorem startPos_le {prm : Params} {data : List Byte} {off k : Nat} (hk : startPos prm data off = some k) :
    k ≤ data.length := by
  unfold startPos at hk
  split at hk
  · cases hk; exact Nat.zero_le _
  · exact (headerAt_lt hk).le

/-! ### The removal of trailers -/

theorem length_foldl_clearCkAt (removed : List Nat) (data : List Byte) :
    (removed.foldl clearCkAt data).length = data.length := by
  induction removed generalizing data with
  | nil => rfl
  | cons a removed ih => rw [List.foldl_cons, ih]; simp [clearCkAt]

theorem length_removeTrailers_le (clear : Bool) (data : List Byte) (stop : Nat) (removed : List Nat) :
    (removeTrailers clear data stop removed).length ≤ data.length := by
  unfold removeTrailers
  split
  · rw [length_foldl_clearCkAt]; exact List.length_take_le' _ _
  · exact List.length_take_le' _ _

/-! ### The effects -/

/-- How a command of the host may rewrite a record: within the bounds of 10_state.md R42, one reference more at most, and
with its length kept where a unit holds the packet (20_memory.md R73, R74). -/
structure Rewrites (s : State) (h : Handle) (p q : Packet) : Prop where
  cap : q.cap = p.cap ∨ (1 ≤ q.cap ∧ q.cap ≤ s.params.lenMax)
  len : p.len ≤ p.cap → q.len ≤ q.cap
  ref : q.ref = p.ref ∨ (q.ref = p.ref + 1 ∧ p.ref ≠ s.params.refMax)
  held : s.held h = true → q.len = p.len

/-- The case of the decoder that a receiving instruction is (44_frame_decoder.md R231; log entry 9). -/
def unitStep : Instr → State → DecStep
  | .decRx b, s => decByte s b
  | .wireData b, s => decDataByte s b
  | .wireCtrl, s => decEnterControl s
  | .wireIdle, s => decIdle s
  | .wireEsc, s => decEscaped s
  | .wireEnd, s => decComplete s
  | .wireAbort, s => decAbort s
  | .wireLiteral b, s => decLiteralPair s b
  | _, s => .consumed s

/-- Every receiving instruction is a command that runs its case of the decoder (44_frame_decoder.md R231). -/
theorem exec_receive (hi : isReceive i = true) (s : State) :
    exec i s = runCommand s (fun s => (unitStep i s).finish s) := by
  cases i with
  | decRx b => rfl
  | wireData b => rfl
  | wireCtrl => rfl
  | wireIdle => rfl
  | wireEsc => rfl
  | wireEnd => rfl
  | wireAbort => rfl
  | wireLiteral b => rfl
  | _ => cases hi

/-- All that an instruction can leave of the state `s` that it begins at. -/
inductive Effect (i : Instr) (s : State) : State → Prop
  /-- Refused in the Faulted state (60_exceptions.md R281). -/
  | refused : Effect i s { s with result := none }
  /-- A fault (60_exceptions.md R282). -/
  | raised (u : State) (c : FaultCode) : Effect i s (s.raiseFrom u c)
  /-- An answer that writes nothing, whatever the agents were asked. -/
  | answered (u : State) (st : Verdict) (fs : List Field) : Effect i s ((s.undoTo u).answer st fs)
  /-- One record rewritten. -/
  | rewrote (u : State) (h : Handle) (p q : Packet) (hp : s.packet h = some p) (hq : Rewrites s h p q)
      (fs : List Field) : Effect i s (((s.undoTo u).setPacket h q).answer .good fs)
  /-- A packet made (42_packet_buffer.md R160). -/
  | allocated (cap : Half) (hi : i = .pbAlloc cap) (k : Handle) (u : State)
      (ha : allocate s cap.toNat = (.good, k, u)) (fs : List Field) : Effect i s (u.answer .good fs)
  /-- A reference dropped, which is not the block's own (42_packet_buffer.md R164). -/
  | released (h : Handle) (p : Packet) (hp : s.packet h = some p)
      (hfree : s.held h = true → s.heldRefs h < p.ref) (fs : List Field) :
      Effect i s ((s.dereference h).answer .good fs)
  /-- The CRC register written (40_crc32.md R122, R123). -/
  | crcWritten (hi : i = .crcReset ∨ ∃ b, i = .crcSink b) (c : Word) (fs : List Field) :
      Effect i s (({ s with crc := c }).answer .good fs)
  /-- The control byte written (46_system.md R275). -/
  | controlWritten (v : Byte) (hi : i = .cfgSetPrefix v) (hv : v &&& 3#8 = 0#8) (fs : List Field) :
      Effect i s (({ s with cp := v }).answer .good fs)
  /-- A packet submitted (45_frame_encoder.md R260). -/
  | submitted (h : Handle) (off : Byte) (hi : i = .encSubmit h off) (p q : Packet) (hp : s.packet h = some p)
      (hd : s.decPkt ≠ some h) (hidle : s.encMode = .idle) (start : Nat)
      (hstart : startPos s.params p.data off.toNat = some start) (hq : p.addRef s.params.refMax = some q)
      (fs : List Field) :
      Effect i s (({ s.setPacket h q with
        encPkt := some h, encCursor := BitVec.ofNat 16 start, encEnd := BitVec.ofNat 16 p.len,
        encCollision := false, encMode := .transmitting }).answer .good fs)
  /-- The encoder's loop (45_frame_encoder.md R263). -/
  | processed (hi : i = .encProcess) (hbusy : s.encMode ≠ .idle) : Effect i s (encLoop s (encBound s) false s)
  /-- A received byte (44_frame_decoder.md R231). -/
  | received (hi : isReceive i = true) (hok : s.fault = 0#8) : Effect i s ((unitStep i s).finish s)

/-! ### The effects of the checks and the shared operations -/

theorem effect_answer (i : Instr) (s : State) (st : Verdict) (fs : List Field) : Effect i s (s.answer st fs) :=
  .answered s st fs

theorem effect_raise (i : Instr) (s : State) (c : FaultCode) : Effect i s (s.raise c) := .raised s c

/-- A record rewritten with no agent asked. -/
theorem effect_setPacket (hp : s.packet h = some p) (hq : Rewrites s h p q) (fs : List Field) :
    Effect i s ((s.setPacket h q).answer .good fs) :=
  .rewrote s h p q hp hq fs

theorem runCommand_effect {f : State → State} {t : State} (ht : runCommand s f = .next t)
    (hf : s.fault = 0#8 → Effect i s (f s)) : Effect i s t := by
  by_cases hok : s.fault = 0#8
  · rw [runCommand_of_ok s f hok] at ht
    cases ht
    exact hf hok
  · rw [runCommand_of_faulted s f hok] at ht
    cases ht
    exact .refused

theorem ifLegal_effect (legal : Bool) {k : State} (hk : Effect i s k) : Effect i s (s.ifLegal legal k) := by
  cases legal
  · exact effect_raise i s _
  · exact hk

theorem ifLive_effect {k : Packet → State} (hk : ∀ p, s.packet h = some p → Effect i s (k p)) :
    Effect i s (s.ifLive h k) := by
  rcases hp : s.packet h with _ | p
  · rw [ifLive_of_dead hp]; exact effect_raise i s _
  · rw [ifLive_of_live hp]; exact hk p hp

theorem ifMutable_effect {k : Packet → State}
    (hk : ∀ p, s.packet h = some p → s.held h = false → Effect i s (k p)) : Effect i s (s.ifMutable h k) := by
  rcases hp : s.packet h with _ | p
  · rw [ifMutable_of_dead hp]; exact effect_raise i s _
  · by_cases hh : s.held h = true
    · rw [ifMutable_of_held hp hh]; exact effect_raise i s _
    · rw [ifMutable_of_free hp (by simpa using hh)]; exact hk p hp (by simpa using hh)

theorem ifIndex_effect (p : Packet) (n : Nat) {k : State} (hk : Effect i s k) : Effect i s (s.ifIndex p n k) := by
  by_cases hn : n < p.len
  · rw [ifIndex_of_lt hn]; exact hk
  · rw [ifIndex_of_ge (Nat.le_of_not_lt hn)]; exact effect_raise i s _

theorem answerPos_effect (i : Instr) (s : State) (o : Option Nat) : Effect i s (s.answerPos o) := by
  cases o <;> exact effect_answer i s _ _

/-- The commands that read at a header byte ask no more than that it is there. -/
theorem atHeader_effect {hp : Half} {k : State → Packet → State} (hk : ∀ p, Effect i s (k s p)) :
    Effect i s (atHeader h hp k s) :=
  ifLive_effect fun p _ => ifIndex_effect p _ (hk p)

theorem atMutableHeader_effect {hp : Half} {k : State → Packet → State}
    (hk : ∀ p, s.packet h = some p → s.held h = false → Effect i s (k s p)) :
    Effect i s (atMutableHeader h hp k s) :=
  ifMutable_effect fun p hp hh => ifIndex_effect p _ (hk p hp hh)

/-- New bytes in the place of as many old ones. -/
theorem rewrites_data {data : List Byte} (hl : data.length = p.len) : Rewrites s h p { p with data := data } :=
  ⟨.inl rfl, fun hlen => hl.trans_le hlen, .inl rfl, fun _ => hl⟩

theorem putHeader_effect (hp : s.packet h = some p) (pos : Nat) (x : Byte) (fs : List Field) :
    Effect i s ((putHeader s h p pos x).answer .good fs) :=
  effect_setPacket hp (rewrites_data List.length_set) fs

theorem setFlag_effect (m : Byte) (h : Handle) (hp : Half) (f : Byte) : Effect i s (setFlag m h hp f s) :=
  ifLegal_effect _ (atMutableHeader_effect fun _ hp _ => putHeader_effect hp _ _ _)

theorem getFlag_effect (m : Byte) (h : Handle) (hp : Half) : Effect i s (getFlag m h hp s) :=
  atHeader_effect fun _ => effect_answer i s _ _

theorem readC78_effect (h : Handle) (cur : Half) (f : Word → Word) : Effect i s (readC78 h cur f s) := by
  refine ifLive_effect fun p _ => ?_
  split
  · exact effect_raise i s _
  · split <;> exact effect_answer i s _ _

/-- Growth with the bytes that it makes room for, on a packet that no unit holds. -/
theorem rewrites_grown {need inc lim : Nat} {p' : Packet} {u : State} {data : List Byte}
    (he : ensureRoom s h p need inc lim = (.good, p', u)) (hl : data.length ≤ need) (hh : s.held h = false) :
    Rewrites s h p { p' with data := data } := by
  obtain ⟨_, hp', hroom, _, hcap⟩ := ensureRoom_frame he
  refine ⟨?_, fun _ => hl.trans (hroom rfl), .inl (by rw [hp']), fun hk => absurd hk (by simp [hh])⟩
  rcases hcap with hcap | ⟨hcap, hgrown⟩
  · exact .inl hcap
  · exact .inr ⟨(Nat.zero_le _).trans_lt hgrown, hcap⟩

theorem appendCommand_effect (hp : s.packet h = some p) (hh : s.held h = false) (bytes : List Byte) (inc lim : Nat) :
    Effect i s (appendCommand s h p bytes inc lim) := by
  obtain ⟨r, p', u, he, e⟩ := appendCommand_cases s h p bytes inc lim
  obtain ⟨hu, hp', _, _, _⟩ := ensureRoom_frame he
  rw [e, hu]
  split
  · next hr =>
    subst hr
    have hdata : (p'.append bytes).data.length ≤ p.len + bytes.length := by rw [hp']; simp [Packet.append, Packet.len]
    exact .rewrote u h p _ hp (rewrites_grown he hdata hh) _
  · exact .answered u r []

/-! ### The effects of the commands -/

theorem execPbAlloc_effect {cap : Half} {t : State} (ht : execPbAlloc cap s = .next t) : Effect (.pbAlloc cap) s t := by
  refine runCommand_effect ht fun _ => ?_
  rcases ha : allocate s cap.toNat with ⟨r, k, u⟩
  by_cases hr : r = .good
  · subst hr
    exact .allocated cap rfl k u ha _
  · show Effect _ s (u.answer r _)
    rw [(allocate_frame ha).2 hr]
    exact .answered u r _

theorem execPbSetCapacity_effect {cap : Half} {t : State} (ht : execPbSetCapacity h cap s = .next t) : Effect i s t := by
  refine runCommand_effect ht fun _ => ifMutable_effect fun p hp hh => ?_
  split
  · exact effect_answer i s _ _
  · next hcap =>
    split
    · exact effect_answer i s _ _
    · split
      · next u hd =>
        rw [drawRealloc_undoTo hd]
        exact .answered u _ _
      · next u hd =>
        rw [drawRealloc_undoTo hd]
        refine .rewrote u h p _ hp ?_ _
        refine ⟨.inr ⟨?_, ?_⟩, fun _ => ?_, .inl rfl, fun _ => rfl⟩
        · show 1 ≤ cap.toNat; omega
        · show cap.toNat ≤ _; omega
        · show p.len ≤ cap.toNat; omega

theorem execPbReference_effect {t : State} (ht : execPbReference h s = .next t) : Effect i s t := by
  refine runCommand_effect ht fun _ => ifLive_effect fun p hp => ?_
  split
  · exact effect_raise i s _
  · next q hq =>
    obtain ⟨hne, rfl⟩ := addRef_eq_some.mp hq
    refine effect_setPacket hp ?_ _
    exact ⟨.inl rfl, id, .inr ⟨rfl, hne⟩, fun _ => rfl⟩

theorem execPbDereference_effect {t : State} (ht : execPbDereference h s = .next t) : Effect i s t := by
  refine runCommand_effect ht fun _ => ?_
  split
  · exact effect_answer i s _ _
  · next p hp =>
    split
    · exact effect_raise i s _
    · next hfree => exact .released h p hp (fun hh => Nat.lt_of_not_le fun hle => hfree ⟨hh, hle⟩) _

theorem execPbSetStatus_effect {st : Byte} {t : State} (ht : execPbSetStatus h st s = .next t) : Effect i s t := by
  refine runCommand_effect ht fun _ => ifLegal_effect _ (ifLive_effect fun p hp => ?_)
  refine effect_setPacket hp ?_ _
  exact ⟨.inl rfl, id, .inl rfl, fun _ => rfl⟩

theorem execPbGetRefcount_effect {t : State} (ht : execPbGetRefcount h s = .next t) : Effect i s t := by
  refine runCommand_effect ht fun _ => ifLive_effect fun p _ => ?_
  change Effect i s (State.answer (s.byteField Config.freeCount p.ref).2 .good [(s.byteField Config.freeCount p.ref).1])
  rw [byteField_frame]
  exact .answered _ _ _

theorem execPbRead_effect {idx : Half} {t : State} (ht : execPbRead h idx s = .next t) : Effect i s t := by
  refine runCommand_effect ht fun _ => ifLive_effect fun p _ => ?_
  split
  · exact effect_raise i s _
  · exact effect_answer i s _ _

theorem execPbWrite_effect {idx : Half} {b : Byte} {t : State} (ht : execPbWrite h idx b s = .next t) : Effect i s t :=
  runCommand_effect ht fun _ => ifMutable_effect fun p hp _ => ifIndex_effect p _
    (effect_setPacket hp (rewrites_data List.length_set) _)

theorem execMapSetAtype_effect {hp : Half} {a : Byte} {t : State} (ht : execMapSetAtype h hp a s = .next t) :
    Effect i s t := by
  refine runCommand_effect ht fun _ => atMutableHeader_effect fun p hp _ => ?_
  split
  · exact effect_raise i s _
  · exact putHeader_effect hp _ _ _

theorem answerLevel_effect (i : Instr) (s : State) (r : CkReason) (j : Nat) : Effect i s (answerLevel s r j) := by
  change Effect i s (State.answer (s.byteField Config.freeLevel j).2 .bad [_, (s.byteField Config.freeLevel j).1])
  rw [byteField_frame]
  exact .answered _ _ _

theorem validatePacket_effect {off req rem : Byte} (hp : s.packet h = some p) (hh : rem = 1#8 → s.held h = false) :
    Effect i s (validatePacket s h p off req rem) := by
  unfold validatePacket
  split
  · exact effect_answer i s _ _
  · split
    · exact effect_answer i s _ _
    · split
      · exact effect_answer i s _ _
      · split
        · exact answerLevel_effect i s _ _
        · exact answerLevel_effect i s _ _
        · next stop removed _ =>
          by_cases hrem : rem = 1#8
          · simp only [if_pos hrem]
            refine effect_setPacket hp ?_ _
            refine ⟨.inl rfl, fun hlen => ?_, .inl rfl, fun hk => absurd hk (by simp [hh hrem])⟩
            exact (length_removeTrailers_le _ _ _ _).trans hlen
          · simp only [if_neg hrem]
            exact effect_answer i s _ _

theorem execMapValidate_effect {off req rem : Byte} {t : State} (ht : execMapValidate h off req rem s = .next t) :
    Effect i s t := by
  refine runCommand_effect ht fun _ => ifLegal_effect _ (ifLive_effect fun p hp => ?_)
  split
  · exact effect_raise i s _
  · next hfree => exact validatePacket_effect hp fun hrem => by simpa [hrem] using hfree

theorem length_withChecksum (data : List Byte) (pos : Nat) : (withChecksum data pos).length = data.length + 4 := by
  simp [withChecksum, crcTrailer]

theorem execMapAppendChecksum_effect {off : Byte} {t : State} (ht : execMapAppendChecksum h off s = .next t) :
    Effect i s t := by
  refine runCommand_effect ht fun _ => ifMutable_effect fun p hp hh => ?_
  split
  · exact effect_answer i s _ _
  · next pos _ =>
    split
    · exact effect_answer i s _ _
    · rcases he : ensureRoom s h p (p.len + 4) 1 s.params.lenMax with ⟨r, p', u⟩
      obtain ⟨hu, _⟩ := ensureRoom_frame he
      rw [hu]
      cases r with
      | good => exact .rewrote u h p _ hp (rewrites_grown he (length_withChecksum _ _).le hh) _
      | busy => exact .answered u _ _
      | bad => exact .answered u _ _

theorem execEncSubmit_effect {off : Byte} {t : State} (ht : execEncSubmit h off s = .next t) :
    Effect (.encSubmit h off) s t := by
  refine runCommand_effect ht fun _ => ifLive_effect fun p hp => ?_
  split
  · exact effect_raise _ s _
  · next hd =>
    split
    · exact effect_answer _ s _ _
    · next hidle =>
      split
      · exact effect_answer _ s _ _
      · next start hstart =>
        split
        · exact effect_raise _ s _
        · next q hq => exact .submitted h off rfl p q hp hd (by simpa using hidle) start hstart hq _

theorem execEncProcess_effect {t : State} (ht : execEncProcess s = .next t) : Effect .encProcess s t := by
  refine runCommand_effect ht fun _ => ?_
  split
  · exact effect_answer _ s _ _
  · next hbusy => exact .processed rfl hbusy

theorem execCfgSetPrefix_effect {v : Byte} {t : State} (ht : execCfgSetPrefix v s = .next t) :
    Effect (.cfgSetPrefix v) s t := by
  refine runCommand_effect ht fun _ => ?_
  split
  · exact effect_raise _ s _
  · next hv =>
    split
    · exact .controlWritten v rfl (by simpa using hv) _
    · exact effect_answer _ s _ _

/-- The effect of a receiving instruction. -/
theorem exec_receive_effect {t : State} (hi : isReceive i = true) (ht : exec i s = .next t) : Effect i s t := by
  rw [exec_receive hi] at ht
  exact runCommand_effect ht fun hok => .received hi hok

/-- Every instruction has one of the effects. -/
theorem exec_effect {t : State} (ht : exec i s = .next t) : Effect i s t := by
  cases i with dsimp only [exec] at ht
  | crcReset => exact runCommand_effect ht fun _ => .crcWritten (.inl rfl) _ _
  | crcSink b => exact runCommand_effect ht fun _ => .crcWritten (.inr ⟨b, rfl⟩) _ _
  | crcGet => exact runCommand_effect ht fun _ => effect_answer _ s _ _
  | c78EncU h v inc lim =>
    exact runCommand_effect ht fun _ => ifMutable_effect fun _ hp hh => appendCommand_effect hp hh _ _ _
  | c78DecU h cur => exact runCommand_effect ht fun _ => readC78_effect h cur id
  | c78EncS h v inc lim =>
    exact runCommand_effect ht fun _ => ifMutable_effect fun _ hp hh => appendCommand_effect hp hh _ _ _
  | c78DecS h cur => exact runCommand_effect ht fun _ => readC78_effect h cur unZigZag
  | pbAlloc cap => exact execPbAlloc_effect ht
  | pbSetCapacity h cap => exact execPbSetCapacity_effect ht
  | pbAppend h b inc lim =>
    exact runCommand_effect ht fun _ => ifMutable_effect fun _ hp hh => appendCommand_effect hp hh _ _ _
  | pbReference h => exact execPbReference_effect ht
  | pbDereference h => exact execPbDereference_effect ht
  | pbSetStatus h st => exact execPbSetStatus_effect ht
  | pbGetStatus h => exact runCommand_effect ht fun _ => ifLive_effect fun _ _ => effect_answer _ s _ _
  | pbGetLength h => exact runCommand_effect ht fun _ => ifLive_effect fun _ _ => effect_answer _ s _ _
  | pbGetCapacity h => exact runCommand_effect ht fun _ => ifLive_effect fun _ _ => effect_answer _ s _ _
  | pbGetRefcount h => exact execPbGetRefcount_effect ht
  | pbRead h idx => exact execPbRead_effect ht
  | pbWrite h idx b => exact execPbWrite_effect ht
  | mapGetCk h hp => exact runCommand_effect ht fun _ => getFlag_effect _ h hp
  | mapSetCk h hp f => exact runCommand_effect ht fun _ => setFlag_effect _ h hp f
  | mapGetNp h hp => exact runCommand_effect ht fun _ => getFlag_effect _ h hp
  | mapSetNp h hp f => exact runCommand_effect ht fun _ => setFlag_effect _ h hp f
  | mapGetDa h hp => exact runCommand_effect ht fun _ => getFlag_effect _ h hp
  | mapSetDa h hp f => exact runCommand_effect ht fun _ => setFlag_effect _ h hp f
  | mapGetSa h hp => exact runCommand_effect ht fun _ => getFlag_effect _ h hp
  | mapSetSa h hp f => exact runCommand_effect ht fun _ => setFlag_effect _ h hp f
  | mapGetAtype h hp => exact runCommand_effect ht fun _ => atHeader_effect fun _ => effect_answer _ s _ _
  | mapSetAtype h hp a => exact execMapSetAtype_effect ht
  | mapNextprotoPos h hp => exact runCommand_effect ht fun _ => atHeader_effect fun _ => answerPos_effect _ s _
  | mapDestPos h hp => exact runCommand_effect ht fun _ => atHeader_effect fun _ => answerPos_effect _ s _
  | mapSrcPos h hp => exact runCommand_effect ht fun _ => atHeader_effect fun _ => answerPos_effect _ s _
  | mapContentsPos h hp => exact runCommand_effect ht fun _ => atHeader_effect fun _ => answerPos_effect _ s _
  | mapNextHeader h hp => exact runCommand_effect ht fun _ => atHeader_effect fun _ => answerPos_effect _ s _
  | mapHeader h off => exact runCommand_effect ht fun _ => ifLive_effect fun _ _ => answerPos_effect _ s _
  | mapData h off => exact runCommand_effect ht fun _ => ifLive_effect fun _ _ => answerPos_effect _ s _
  | mapValidate h off req rem => exact execMapValidate_effect ht
  | mapAppendChecksum h off => exact execMapAppendChecksum_effect ht
  | encSubmit h off => exact execEncSubmit_effect ht
  | encProcess => exact execEncProcess_effect ht
  | cfgSetPrefix v => exact execCfgSetPrefix_effect ht
  | cfgGetPrefix => exact runCommand_effect ht fun _ => effect_answer _ s _ _
  | sysGetFault =>
    cases ht
    exact effect_answer _ s _ _
  | decRx b => exact exec_receive_effect rfl ht
  | wireData b => exact exec_receive_effect rfl ht
  | wireCtrl => exact exec_receive_effect rfl ht
  | wireIdle => exact exec_receive_effect rfl ht
  | wireEsc => exact exec_receive_effect rfl ht
  | wireEnd => exact exec_receive_effect rfl ht
  | wireAbort => exact exec_receive_effect rfl ht
  | wireLiteral b => exact exec_receive_effect rfl ht

end

end Sys2Proof.Machine
end

section
/-! SUPPORT. The frame decoder: what a case of it writes, what a `Busy` leaves, and that its cases keep a good state good. -/

namespace Sys2Proof.Machine

section

variable {s t u : State} {h : Handle} {p : Packet} {i : Instr} {d : DecStep}

/-! ### How a case ends, and one case after another -/

/-- The registers of `s` but for the decoder's own, the packets and the questions, which are those of `t` (10_state.md R30). -/
def State.withDecoder (s t : State) : State :=
  { s with
    decState := t.decState, decPkt := t.decPkt, decDiscard := t.decDiscard, pm := t.pm, nextHandle := t.nextHandle,
    draws := t.draws, log := t.log }

/-- From `s` to `t` the decoder's own registers were written, at most. -/
abbrev DecoderOnly (s t : State) : Prop := t = s.withDecoder t

theorem decoderOnly_refl (s : State) : DecoderOnly s s := rfl

theorem decoderOnly_undoTo (s t : State) : DecoderOnly s (s.undoTo t) := rfl

theorem DecoderOnly.trans (hst : DecoderOnly s t) (htu : DecoderOnly t u) : DecoderOnly s u :=
  calc u = t.withDecoder u := htu
    _ = (s.withDecoder t).withDecoder u := congrArg (State.withDecoder · u) hst

/-- A case begun at `s` that writes the decoder's registers alone, if the byte is consumed, and nothing on `Busy`. -/
def DecStep.Confined (s : State) : DecStep → Prop
  | .consumed t => DecoderOnly s t
  | .busy t => t = s.undoTo t
  | .faulted _ _ => True

/-- A case begun at `s` that writes the decoder's registers alone, however it ends. -/
def DecStep.Within (s : State) : DecStep → Prop
  | .consumed t => DecoderOnly s t
  | .busy t => DecoderOnly s t
  | .faulted _ _ => True

/-- A case that ends in a good state; what a fault leaves is not its own (60_exceptions.md R282). -/
def DecStep.EndsGood : DecStep → Prop
  | .consumed t => t.Good
  | .busy t => t.Good
  | .faulted _ _ => True

theorem DecStep.Confined.within (hd : d.Confined s) : d.Within s := by
  cases d with
  | consumed t => exact hd
  | busy t => rw [show t = s.undoTo t from hd]; exact decoderOnly_undoTo s t
  | faulted c t => trivial

theorem DecStep.Within.of_decoderOnly (hst : DecoderOnly s t) (hd : d.Within t) : d.Within s := by
  cases d with
  | consumed u => exact hst.trans hd
  | busy u => exact hst.trans hd
  | faulted c u => trivial

/-- What `DEC_RX` leaves, where its case writes the decoder's registers alone. -/
theorem DecStep.Within.finish_eq (hd : d.Within s) :
    d.finish s = { s.withDecoder (d.finish s) with fault := (d.finish s).fault, result := (d.finish s).result } := by
  cases d with
  | consumed t => rw [show t = s.withDecoder t from hd]; rfl
  | busy t => rw [show t = s.withDecoder t from hd]; rfl
  | faulted c t => rfl

theorem DecStep.EndsGood.finish (hd : d.EndsGood) (hs : s.Good) : (d.finish s).Good := by
  cases d with
  | consumed t => exact State.Good.answer hd _ _
  | busy t => exact State.Good.answer hd _ _
  | faulted c t => exact hs.raiseFrom t c

/-- A case, and where it consumes, another one after it. -/
def DecStep.andThen (d : DecStep) (g : State → DecStep) : DecStep :=
  match d with
  | .consumed t => g t
  | o => o

theorem andThen_confined {g : State → DecStep} (hd : d.Confined s)
    (hg : ∀ t, d = .consumed t → DecoderOnly s t → (g t).Confined s) : (d.andThen g).Confined s := by
  cases d with
  | consumed t => exact hg t rfl hd
  | busy t => exact hd
  | faulted c t => trivial

theorem andThen_within {g : State → DecStep} (hd : d.Within s) (hg : ∀ t, DecoderOnly s t → (g t).Within s) :
    (d.andThen g).Within s := by
  cases d with
  | consumed t => exact hg t hd
  | busy t => exact hd
  | faulted c t => trivial

theorem andThen_endsGood {g : State → DecStep} (hd : d.EndsGood)
    (hg : ∀ t, d = .consumed t → t.Good → (g t).EndsGood) : (d.andThen g).EndsGood := by
  cases d with
  | consumed t => exact hg t rfl hd
  | busy t => exact hd
  | faulted c t => trivial

/-! ### The cases as sequences -/

theorem decAppend_of_assembling (hd : s.decDiscard = false) (v : Byte) :
    decAppend s v = (decPacket s).andThen (fun s1 => appendAssembled s s1 v) := by
  cases e : decPacket s <;> simp [decAppend, hd, DecStep.andThen, e]

theorem decLiteralPair_eq (s : State) (b : Byte) :
    decLiteralPair s b = (decAppend s s.cp).andThen (fun s1 => decAppend { s1 with decState := .data } b) := by
  cases e : decAppend s s.cp <;> simp [decLiteralPair, DecStep.andThen, e]

theorem decEscaped_eq (s : State) :
    decEscaped s = (decAppend s s.cp).andThen (fun s1 => .consumed { s1 with decState := .data }) := by
  cases e : decAppend s s.cp <;> simp [decEscaped, DecStep.andThen, e]

theorem decComplete_of_discard (hd : s.decDiscard = true) :
    decComplete s = .consumed { s with decDiscard := false, decState := .data } := by
  simp [decComplete, hd]

theorem decComplete_of_dropped (hd : s.decDiscard = false)
    (he : s.decPkt = none ∧ s.params.emptyFramePolicy = .drop) :
    decComplete s = .consumed { s with decState := .data } := by
  simp [decComplete, hd, he]

theorem decComplete_of_offered (hd : s.decDiscard = false)
    (he : ¬ (s.decPkt = none ∧ s.params.emptyFramePolicy = .drop)) :
    decComplete s = (decPacket s).andThen (fun s1 => deliver s s1) := by
  cases e : decPacket s <;> simp [decComplete, hd, DecStep.andThen, he, e]

/-- The two low bits of a byte, which tell the opcode bytes apart (44_frame_decoder.md R232). -/
theorem lowBits_cases : ∀ b : Byte, b &&& 3#8 = 0#8 ∨ b &&& 3#8 = 1#8 ∨ b &&& 3#8 = 2#8 ∨ b &&& 3#8 = 3#8 := by
  decide

/-- `DEC_RX` of a byte runs the case of the wire unit that the byte is (44_frame_decoder.md R231, R232). -/
theorem decByte_eq_unitStep (s : State) (b : Byte) : decByte s b = unitStep (decodeWire s.decState s.cp b) s := by
  unfold decByte decodeWire
  cases s.decState with
  | data =>
    by_cases hb : b ≠ s.cp
    · simp only [if_pos hb]; rfl
    · simp only [if_neg hb]; rfl
  | controlSeen =>
    by_cases hb : b &&& 0xFC#8 ≠ s.cp
    · simp only [if_pos hb]; rfl
    · simp only [if_neg hb]
      rcases lowBits_cases b with e | e | e | e <;> simp only [e] <;> rfl

theorem decodeWire_isWireUnit (d : DecState) (cp b : Byte) : (decodeWire d cp b).isCommand = false := by
  unfold decodeWire
  split
  · split <;> rfl
  · split
    · rfl
    · split <;> rfl

theorem isReceive_of_wireUnit (hw : i.isCommand = false) : isReceive i = true := by
  cases i with
  | wireData b => rfl
  | wireCtrl => rfl
  | wireIdle => rfl
  | wireEsc => rfl
  | wireEnd => rfl
  | wireAbort => rfl
  | wireLiteral b => rfl
  | _ => cases hw

/-- A receiving instruction runs the case of a wire unit: its own, or that of its byte. -/
theorem unitStep_wireUnit (s : State) (hi : isReceive i = true) :
    unitStep i s = unitStep (wireUnit i s) s ∧ (wireUnit i s).isCommand = false := by
  cases i with
  | decRx b => exact ⟨decByte_eq_unitStep s b, decodeWire_isWireUnit _ _ _⟩
  | wireData b => exact ⟨rfl, rfl⟩
  | wireCtrl => exact ⟨rfl, rfl⟩
  | wireIdle => exact ⟨rfl, rfl⟩
  | wireEsc => exact ⟨rfl, rfl⟩
  | wireEnd => exact ⟨rfl, rfl⟩
  | wireAbort => exact ⟨rfl, rfl⟩
  | wireLiteral b => exact ⟨rfl, rfl⟩
  | _ => cases hi

/-! ### What each case writes -/

theorem dereference_decoderOnly (s : State) (h : Handle) : DecoderOnly s (s.dereference h) := by
  rw [dereference_eq]
  rfl

theorem discardPacket_decoderOnly (s : State) : DecoderOnly s (discardPacket s) := by
  unfold discardPacket
  split
  · rfl
  · exact (dereference_decoderOnly s _).trans rfl

theorem decPacket_confined (s : State) : (decPacket s).Confined s := by
  unfold decPacket
  split
  · exact decoderOnly_refl s
  · split
    · next k u ha =>
      have hu : DecoderOnly s u := by rw [(allocate_frame ha).1]; rfl
      split
      · trivial
      · split
        · trivial
        · exact hu.trans rfl
    · exact rfl

theorem appendAssembled_confined (v : Byte) (hst : DecoderOnly s t) : (appendAssembled s t v).Confined s := by
  rcases hd : t.decPkt with _ | h
  · simp only [appendAssembled, hd]; trivial
  rcases hp : t.packet h with _ | p
  · simp only [appendAssembled, hd, hp]; trivial
  obtain ⟨r, p', u, he, hcases⟩ := appendAssembled_cases s v hd hp
  have hu : DecoderOnly s u := hst.trans (by rw [(ensureRoom_frame he).1]; exact decoderOnly_undoTo t u)
  rcases hcases with ⟨_, e⟩ | ⟨_, e⟩ | ⟨_, _, e⟩ | ⟨_, _, e⟩
  · rw [e]; exact hu.trans rfl
  · rw [e]; exact rfl
  · rw [e]; exact rfl
  · rw [e]; exact hu.trans ((discardPacket_decoderOnly u).trans rfl)

theorem decAppend_confined (s : State) (v : Byte) : (decAppend s v).Confined s := by
  cases hd : s.decDiscard with
  | true => rw [decAppend_of_discard hd]; exact decoderOnly_refl s
  | false =>
    rw [decAppend_of_assembling hd]
    exact andThen_confined (decPacket_confined s) fun _ _ => appendAssembled_confined v

theorem decEscaped_confined (s : State) : (decEscaped s).Confined s := by
  rw [decEscaped_eq]
  exact andThen_confined (decAppend_confined s _) fun _ _ ht => ht.trans rfl

theorem deliver_confined (hst : DecoderOnly s t) : (deliver s t).Confined s := by
  rcases hd : t.decPkt with _ | h
  · simp only [deliver, hd]; trivial
  rcases hp : t.packet h with _ | p
  · simp only [deliver, hd, hp]; trivial
  obtain ⟨a, u, hask, hcases⟩ := deliver_cases s hd hp
  have hu : DecoderOnly s u := hst.trans (by rw [drawSink_undoTo hask]; exact decoderOnly_undoTo t u)
  rcases hcases with ⟨_, e⟩ | ⟨_, e⟩ | ⟨k, _, e⟩
  · rw [e]; exact rfl
  · rw [e]; exact hu.trans ((dereference_decoderOnly u h).trans rfl)
  · rw [e]
    have hset : DecoderOnly u (u.setPacket h { p with ref := p.ref + k }) := rfl
    exact hu.trans (hset.trans ((dereference_decoderOnly _ h).trans rfl))

theorem decComplete_confined (s : State) : (decComplete s).Confined s := by
  cases hd : s.decDiscard with
  | true => rw [decComplete_of_discard hd]; exact rfl
  | false =>
    by_cases he : s.decPkt = none ∧ s.params.emptyFramePolicy = .drop
    · rw [decComplete_of_dropped hd he]; exact rfl
    · rw [decComplete_of_offered hd he]
      exact andThen_confined (decPacket_confined s) fun _ _ => deliver_confined

theorem decAbort_confined (s : State) : (decAbort s).Confined s :=
  (discardPacket_decoderOnly s).trans rfl

/-- Every case but the literal pair commits all or nothing (44_frame_decoder.md R242). -/
theorem wireUnit_confined (s : State) (hw : i.isCommand = false) (hl : ∀ b, i ≠ .wireLiteral b) :
    (unitStep i s).Confined s := by
  cases i with
  | wireData b => exact decAppend_confined s b
  | wireCtrl => exact rfl
  | wireIdle => exact decoderOnly_refl s
  | wireEsc => exact decEscaped_confined s
  | wireEnd => exact decComplete_confined s
  | wireAbort => exact decAbort_confined s
  | wireLiteral b => exact absurd rfl (hl b)
  | _ => cases hw

theorem decLiteralPair_within (s : State) (b : Byte) : (decLiteralPair s b).Within s := by
  rw [decLiteralPair_eq]
  refine andThen_within (decAppend_confined s _).within fun t ht => ?_
  have hdata : DecoderOnly s { t with decState := .data } := ht.trans rfl
  exact .of_decoderOnly hdata (decAppend_confined _ b).within

/-- A `Busy` of the literal pair wrote nothing, or committed what an escaped control byte leaves (44_frame_decoder.md
R237, R242). -/
theorem decLiteralPair_busy {b : Byte} (hb : decLiteralPair s b = .busy t) :
    t = s.undoTo t ∨ ∃ u, decEscaped s = .consumed u ∧ t = u.undoTo t := by
  rw [decLiteralPair_eq] at hb
  rw [decEscaped_eq]
  have hfirst := decAppend_confined s s.cp
  cases e : decAppend s s.cp with
  | consumed u =>
    rw [e] at hb
    have hsecond := decAppend_confined { u with decState := .data } b
    rw [show decAppend { u with decState := .data } b = .busy t from hb] at hsecond
    exact .inr ⟨_, rfl, hsecond⟩
  | busy u =>
    rw [e] at hb hfirst
    cases hb
    exact .inl hfirst
  | faulted c u =>
    rw [e] at hb
    cases hb

theorem wireUnit_within (s : State) (hw : i.isCommand = false) : (unitStep i s).Within s := by
  by_cases hl : ∃ b, i = .wireLiteral b
  · obtain ⟨b, rfl⟩ := hl
    exact decLiteralPair_within s b
  · exact (wireUnit_confined s hw fun b e => hl ⟨b, e⟩).within

/-- Every receiving instruction writes the decoder's registers alone (44_frame_decoder.md R230). -/
theorem unitStep_within (s : State) (hi : isReceive i = true) : (unitStep i s).Within s := by
  obtain ⟨e, hw⟩ := unitStep_wireUnit s hi
  rw [e]
  exact wireUnit_within s hw

/-! ### The cases keep a good state good -/

/-- What getting a packet to assemble leaves: a packet held, in a good state. -/
theorem decPacket_endsGood (hs : s.Good) (hd : s.decDiscard = false) : (decPacket s).EndsGood := by
  unfold decPacket
  split
  · exact hs
  · split
    · next k u ha =>
      obtain ⟨rfl, hp⟩ := allocate_packet ha
      have hu : u.Good := hs.allocate ha
      have hframe := (allocate_frame ha).1
      have henc : u.encPkt ≠ some s.nextHandle := by
        intro he
        have he' : s.encPkt = some s.nextHandle := by rw [hframe] at he; exact he
        obtain ⟨q, hq, _⟩ := hs.live_of_held (held_of_encPkt he')
        exact BitVec.lt_irrefl _ (hs.handles _ q hq).2
      have hdisc : u.decDiscard = false := by rw [hframe]; exact hd
      simp only [hp]
      split
      · trivial
      · next q hq =>
        obtain ⟨hne, rfl⟩ := addRef_eq_some.mp hq
        obtain ⟨hpos, hcap, hlen, _, hnz, hlt⟩ := hu.inBounds hp
        have hmax : 1 ≤ u.params.refMax := by
          rw [hframe]; exact Nat.pos_of_ne_zero (Ne.symm hne)
        have hset : (u.setPacket s.nextHandle
            { data := [], cap := s.params.decInitCap, status := .busy, ref := 1 }).Good :=
          hu.setPacket hp ⟨hpos, hcap, hlen, hmax, hnz, hlt⟩ (Nat.zero_le _) fun he => absurd he henc
        exact hset.holdDec (setPacket_packet_self u _ _) (Nat.le_refl 1) henc hdisc
    · exact hs.undoTo _

/-- The decoder drops its packet and discards (44_frame_decoder.md R245). -/
theorem State.Good.enterDiscard (hs : s.Good) : (enterDiscard s).Good := by
  unfold Machine.enterDiscard discardPacket
  split
  · next hd =>
    have := hs.dropDec s.decState true
    rwa [← hd] at this
  · next h hd =>
    have := hs.releaseDec hd s.decState true
    rw [dereference_eq] at this ⊢
    exact this

theorem appendAssembled_endsGood (hs : s.Good) (ht : t.Good) (v : Byte) : (appendAssembled s t v).EndsGood := by
  rcases hd : t.decPkt with _ | h
  · simp only [appendAssembled, hd]; trivial
  rcases hp : t.packet h with _ | p
  · simp only [appendAssembled, hd, hp]; trivial
  obtain ⟨r, p', u, he, hcases⟩ := appendAssembled_cases s v hd hp
  obtain ⟨hframe, hp', hroom, _, hcap⟩ := ensureRoom_frame he
  have hu : u.Good := by rw [hframe]; exact ht.undoTo u
  rcases hcases with ⟨rfl, e⟩ | ⟨_, e⟩ | ⟨_, _, e⟩ | ⟨_, _, e⟩
  · rw [e, hframe]
    obtain ⟨hpos, hle, _, href, hnz, hlt⟩ := ht.inBounds hp
    have hlen : (p'.append [v]).len = p.len + 1 := by rw [hp']; simp [Packet.append, Packet.len]
    have href' : (p'.append [v]).ref = p.ref := by rw [hp']; rfl
    have hcaps : 1 ≤ p'.cap ∧ p'.cap ≤ t.params.lenMax := by omega
    refine (ht.undoTo u).setPacket hp ⟨hcaps.1, hcaps.2, hlen.trans_le (hroom rfl), ?_, hnz, hlt⟩ href'.ge ?_
    · exact href'.trans_le href
    · exact fun henc => absurd henc (ht.apart h hd)
  · rw [e]; exact hs.undoTo u
  · rw [e]; exact hs.undoTo u
  · rw [e]; exact hu.enterDiscard

theorem decAppend_endsGood (hs : s.Good) (v : Byte) : (decAppend s v).EndsGood := by
  cases hd : s.decDiscard with
  | true => rw [decAppend_of_discard hd]; exact hs
  | false =>
    rw [decAppend_of_assembling hd]
    exact andThen_endsGood (decPacket_endsGood hs hd) fun _ _ ht => appendAssembled_endsGood hs ht v

theorem deliver_endsGood (hs : s.Good) (ht : t.Good) : (deliver s t).EndsGood := by
  rcases hd : t.decPkt with _ | h
  · simp only [deliver, hd]; trivial
  rcases hp : t.packet h with _ | p
  · simp only [deliver, hd, hp]; trivial
  obtain ⟨a, u, hask, hcases⟩ := deliver_cases s hd hp
  have hframe := drawSink_undoTo hask
  rcases hcases with ⟨_, e⟩ | ⟨_, e⟩ | ⟨k, rfl, e⟩
  · rw [e]; exact hs.undoTo u
  · rw [e, hframe]; exact (ht.undoTo u).releaseDec hd _ _
  · obtain ⟨hpos, hcap, hlen, href, hnz, hlt⟩ := ht.inBounds hp
    have hkept : p.ref + k ≤ t.params.refMax := drawSink_good href hask
    have hset : ((t.undoTo u).setPacket h { p with ref := p.ref + k }).Good :=
      (ht.undoTo u).setPacket hp ⟨hpos, hcap, hlen, hkept, hnz, hlt⟩ (Nat.le_add_right _ _) fun _ => rfl
    rw [e, hframe]
    exact hset.releaseDec hd _ _

theorem decComplete_endsGood (hs : s.Good) : (decComplete s).EndsGood := by
  cases hd : s.decDiscard with
  | true =>
    rw [decComplete_of_discard hd]
    have := hs.dropDec .data false
    rwa [← hs.discard hd] at this
  | false =>
    by_cases he : s.decPkt = none ∧ s.params.emptyFramePolicy = .drop
    · rw [decComplete_of_dropped hd he]; exact hs.withDecState .data
    · rw [decComplete_of_offered hd he]
      exact andThen_endsGood (decPacket_endsGood hs hd) fun _ _ ht => deliver_endsGood hs ht

theorem decAbort_endsGood (hs : s.Good) : (decAbort s).EndsGood := by
  unfold decAbort discardPacket
  split
  · next hd =>
    have := hs.dropDec .data false
    rwa [← hd] at this
  · next h hd => exact hs.releaseDec hd .data false

theorem decLiteralPair_endsGood (hs : s.Good) (b : Byte) : (decLiteralPair s b).EndsGood := by
  rw [decLiteralPair_eq]
  exact andThen_endsGood (decAppend_endsGood hs _) fun t _ ht => decAppend_endsGood (ht.withDecState .data) b

theorem decEscaped_endsGood (hs : s.Good) : (decEscaped s).EndsGood := by
  rw [decEscaped_eq]
  exact andThen_endsGood (decAppend_endsGood hs _) fun t _ ht => ht.withDecState .data

theorem wireUnit_endsGood (hs : s.Good) (hw : i.isCommand = false) : (unitStep i s).EndsGood := by
  cases i with
  | wireData b => exact decAppend_endsGood hs b
  | wireCtrl => exact hs.withDecState .controlSeen
  | wireIdle => exact hs
  | wireEsc => exact decEscaped_endsGood hs
  | wireEnd => exact decComplete_endsGood hs
  | wireAbort => exact decAbort_endsGood hs
  | wireLiteral b => exact decLiteralPair_endsGood hs b
  | _ => cases hw

theorem unitStep_endsGood (hs : s.Good) (hi : isReceive i = true) : (unitStep i s).EndsGood := by
  obtain ⟨e, hw⟩ := unitStep_wireUnit s hi
  rw [e]
  exact wireUnit_endsGood hs hw

end

end Sys2Proof.Machine
end

section
/-! SUPPORT. The frame encoder: what a micro-step writes, what a refusal leaves, and that `ENC_PROCESS` keeps a good state
good. -/

namespace Sys2Proof.Machine

section

variable {s t u : State} {h : Handle} {p : Packet} {d : EncStep}

/-! ### How a micro-step ends -/

/-- The registers of `s` but for the encoder's own, the packets and the questions, which are those of `t` (10_state.md R30). -/
def State.withEncoder (s t : State) : State :=
  { s with
    encMode := t.encMode, encCollision := t.encCollision, encPkt := t.encPkt, encCursor := t.encCursor,
    encEnd := t.encEnd, pm := t.pm, draws := t.draws, log := t.log }

/-- From `s` to `t` the encoder's own registers were written, at most. -/
abbrev EncoderOnly (s t : State) : Prop := t = s.withEncoder t

theorem EncoderOnly.trans (hst : EncoderOnly s t) (htu : EncoderOnly t u) : EncoderOnly s u :=
  calc u = t.withEncoder u := htu
    _ = (s.withEncoder t).withEncoder u := congrArg (State.withEncoder · u) hst

/-- A micro-step from `s` that writes the encoder's registers alone, and nothing where the TX sink refuses
(45_frame_encoder.md R262). -/
def EncStep.Confined (s : State) : EncStep → Prop
  | .progress t => EncoderOnly s t
  | .refused t => t = s.undoTo t
  | .faulted _ _ => True

/-- A micro-step that ends in a good state; what a fault leaves is not its own (60_exceptions.md R282). -/
def EncStep.EndsGood : EncStep → Prop
  | .progress t => t.Good
  | .refused t => t.Good
  | .faulted _ _ => True

/-- An offer to the TX sink changes the questions alone, and the write after it is `f`. -/
theorem offerByte_eq (s : State) (v : Byte) (f : State → State) :
    ∃ u, offerByte s v f = .progress (f (s.undoTo u)) ∨ offerByte s v f = .refused (s.undoTo u) := by
  rcases offerByte_cases s v f with ⟨u, hd, e⟩ | ⟨_, u, hd, _, e⟩
  · exact ⟨u, .inl (by rw [← drawTx_undoTo hd]; exact e)⟩
  · exact ⟨u, .inr (by rw [← drawTx_undoTo hd]; exact e)⟩

theorem offerByte_confined (v : Byte) {f : State → State} (hf : ∀ u, EncoderOnly s (f (s.undoTo u))) :
    (offerByte s v f).Confined s := by
  obtain ⟨u, e | e⟩ := offerByte_eq s v f
  · rw [e]; exact hf u
  · rw [e]; exact rfl

theorem offerByte_endsGood (hs : s.Good) (v : Byte) {f : State → State} (hf : ∀ u, (f (s.undoTo u)).Good) :
    (offerByte s v f).EndsGood := by
  obtain ⟨u, e | e⟩ := offerByte_eq s v f
  · rw [e]; exact hf u
  · rw [e]; exact hs.undoTo u

/-! ### What a micro-step writes -/

theorem stepTransmitting_confined (s : State) (p : Packet) : (stepTransmitting s p).Confined s := by
  unfold stepTransmitting
  split
  · exact rfl
  · split
    · trivial
    · split <;> exact offerByte_confined _ fun _ => rfl

theorem stepFlush_confined (s : State) : (stepFlush s).Confined s := by
  unfold stepFlush
  split
  · exact offerByte_confined _ fun _ => rfl
  · exact rfl

theorem finishFrame_encoderOnly (h : Handle) (p : Packet) (s : State) : EncoderOnly s (finishFrame h p s) := by
  unfold finishFrame
  rw [dereference_eq]
  rfl

theorem encStep_confined (s : State) : (encStep s).Confined s := by
  rcases he : s.encPkt with _ | h
  · simp only [encStep, he]; trivial
  rcases hp : s.packet h with _ | p
  · simp only [encStep, he, hp]; trivial
  rw [encStep_of_live he hp]
  split
  · exact rfl
  · exact stepTransmitting_confined s p
  · exact stepFlush_confined s
  · exact offerByte_confined _ fun _ => rfl
  · exact offerByte_confined _ fun u => .trans (t := s.undoTo u) rfl (finishFrame_encoderOnly h p _)

/-! ### A micro-step keeps a good state good -/

theorem stepTransmitting_endsGood (hs : s.Good) (he : s.encPkt = some h) (hp : s.packet h = some p)
    (hm : s.encMode = .transmitting) : (stepTransmitting s p).EndsGood := by
  have hheld : s.encPkt ≠ none := by simp [he]
  obtain ⟨hcur, _⟩ := hs.cursor h p he hp
  unfold stepTransmitting
  split
  · exact hs.moveEnc hheld (m := .flushCollision) nofun hcur fun _ => .inr rfl
  · next hne =>
    split
    · trivial
    · split
      · refine offerByte_endsGood hs _ fun u => ?_
        have := (hs.undoTo u).moveEnc hheld (m := .transmitting) (c := false) nofun hcur nofun
        rwa [← hm] at this
      · next b _ _ =>
        refine offerByte_endsGood hs _ fun u => ?_
        have hnext : (s.encCursor + 1#16).toNat ≤ s.encEnd.toNat := by bv_omega
        have := (hs.undoTo u).moveEnc hheld (m := .transmitting) (c := decide (b = s.cp)) nofun hnext fun _ => .inl rfl
        rwa [← hm] at this

theorem stepFlush_endsGood (hs : s.Good) (he : s.encPkt = some h) (hp : s.packet h = some p) :
    (stepFlush s).EndsGood := by
  have hheld : s.encPkt ≠ none := by simp [he]
  obtain ⟨hcur, _⟩ := hs.cursor h p he hp
  unfold stepFlush
  split
  · exact offerByte_endsGood hs _ fun u => (hs.undoTo u).moveEnc hheld (m := .sendControl) (c := false) nofun hcur nofun
  · next hc => exact hs.moveEnc hheld (m := .sendControl) nofun hcur fun e => absurd e hc

theorem stepControl_endsGood (hs : s.Good) (he : s.encPkt = some h) (hp : s.packet h = some p)
    (hm : s.encMode = .sendControl) : (stepControl s).EndsGood := by
  have hheld : s.encPkt ≠ none := by simp [he]
  obtain ⟨hcur, _⟩ := hs.cursor h p he hp
  have hcoll : s.encCollision ≠ true := fun e => by simpa [hm] using hs.collision e
  exact offerByte_endsGood hs _ fun u =>
    (hs.undoTo u).moveEnc hheld (m := .sendEndOpcode) nofun hcur fun e => absurd e hcoll

theorem State.Good.finishFrame (hs : s.Good) (he : s.encPkt = some h) (hp : s.packet h = some p) :
    (finishFrame h p s).Good := by
  obtain ⟨hpos, hcap, hlen, href, hnz, hlt⟩ := hs.inBounds hp
  have hset : (s.setPacket h { p with status := .complete }).Good :=
    hs.setPacket hp ⟨hpos, hcap, hlen, href, hnz, hlt⟩ (Nat.le_refl _) fun _ => rfl
  exact hset.releaseEnc he

theorem encStep_endsGood (hs : s.Good) : (encStep s).EndsGood := by
  rcases he : s.encPkt with _ | h
  · simp only [encStep, he]; trivial
  rcases hp : s.packet h with _ | p
  · simp only [encStep, he, hp]; trivial
  rw [encStep_of_live he hp]
  split
  · exact hs
  · next hm => exact stepTransmitting_endsGood hs he hp hm
  · exact stepFlush_endsGood hs he hp
  · next hm => exact stepControl_endsGood hs he hp hm
  · exact offerByte_endsGood hs _ fun u => (hs.undoTo u).finishFrame he hp

/-! ### The loop of `ENC_PROCESS` -/

/-- What the loop leaves of the state `s` that its command began at, but for a fault's code and the result. -/
theorem encLoop_eq (n : Nat) (progressed : Bool) (hst : EncoderOnly s t) :
    encLoop s n progressed t =
      { s.withEncoder (encLoop s n progressed t) with
        fault := (encLoop s n progressed t).fault, result := (encLoop s n progressed t).result } := by
  induction n generalizing progressed t with
  | zero =>
    rw [show encLoop s 0 progressed t = t.answer .good [] from rfl, hst]
    rfl
  | succ n ih =>
    have hstep := encStep_confined t
    rw [encLoop_succ]
    cases e : encStep t with
    | faulted c u => rfl
    | refused u =>
      rw [e] at hstep
      simp only
      rw [show u = s.withEncoder u from hst.trans (by rw [show u = t.undoTo u from hstep]; rfl)]
      rfl
    | progress u =>
      rw [e] at hstep
      have hu : EncoderOnly s u := hst.trans hstep
      by_cases hm : u.encMode = .idle
      · simp only [if_pos hm]
        rw [hu]
        rfl
      · simp only [if_neg hm]
        exact ih true hu

/-- Once a byte was taken the loop answers `Good`, unless it faults (45_frame_encoder.md R263). -/
theorem encLoop_progressed (s t : State) (n : Nat) {r : Result} (hr : (encLoop s n true t).result = some r) :
    r.status = .good := by
  induction n generalizing t with
  | zero => cases hr; rfl
  | succ n ih =>
    rw [encLoop_succ] at hr
    cases e : encStep t with
    | faulted c u => rw [e] at hr; cases hr
    | refused u => rw [e] at hr; cases hr; rfl
    | progress u =>
      rw [e] at hr
      by_cases hm : u.encMode = .idle
      · simp only [if_pos hm] at hr; cases hr; rfl
      · simp only [if_neg hm] at hr; exact ih u hr

/-- A loop that is refused at once has written nothing. -/
theorem encLoop_refused (s : State) (n : Nat) {r : Result} (hr : (encLoop s n false s).result = some r)
    (hst : r.status ≠ .good) : ∃ u, encLoop s n false s = (s.undoTo u).answer .busy [] := by
  cases n with
  | zero => cases hr; exact absurd rfl hst
  | succ n =>
    have hstep := encStep_confined s
    rw [encLoop_succ] at hr ⊢
    cases e : encStep s with
    | faulted c u => rw [e] at hr; cases hr
    | refused u =>
      rw [e] at hstep
      exact ⟨u, congrArg (State.answer · .busy []) hstep⟩
    | progress u =>
      rw [e] at hr
      by_cases hm : u.encMode = .idle
      · simp only [if_pos hm] at hr; cases hr; exact absurd rfl hst
      · simp only [if_neg hm] at hr; exact absurd (encLoop_progressed s u n hr) hst

theorem encLoop_good (hs : s.Good) (n : Nat) (progressed : Bool) (ht : t.Good) : (encLoop s n progressed t).Good := by
  induction n generalizing progressed t with
  | zero => exact ht.answer _ _
  | succ n ih =>
    have hstep := encStep_endsGood ht
    rw [encLoop_succ]
    cases e : encStep t with
    | faulted c u => exact hs.raiseFrom u c
    | refused u => rw [e] at hstep; exact State.Good.answer hstep _ _
    | progress u =>
      rw [e] at hstep
      by_cases hm : u.encMode = .idle
      · simp only [if_pos hm]; exact State.Good.answer hstep _ _
      · simp only [if_neg hm]; exact ih true hstep

end

end Sys2Proof.Machine
end

section
/-! PROOFS. The statements about every step and every instruction: which registers change, which invariants stay, what a
refusal leaves, what an agent's answer changes, and how a received byte is read. -/

namespace Sys2Proof.Machine

section

variable {s t : State} {i : Instr}

/-! ### The invariants -/

/-- Every effect keeps a good state good. -/
theorem Effect.good (he : Effect i s t) (hs : s.Good) : t.Good := by
  cases he with
  | refused => exact hs.withOutputs s.crc s.inbox s.draws none s.log
  | raised u c => exact hs.raiseFrom u c
  | answered u st fs => exact (hs.undoTo u).answer st fs
  | rewrote u h p q hp hq fs =>
    obtain ⟨hpos, hcap, hlen, href, hnz, hlt⟩ := hs.inBounds hp
    have hcaps : 1 ≤ q.cap ∧ q.cap ≤ s.params.lenMax := hq.cap.elim (fun e => e ▸ ⟨hpos, hcap⟩) id
    have hrefs : p.ref ≤ q.ref ∧ q.ref ≤ s.params.refMax := by
      have := hq.ref
      omega
    exact ((hs.undoTo u).setPacket hp ⟨hcaps.1, hcaps.2, hq.len hlen, hrefs.2, hnz, hlt⟩ hrefs.1
      fun e => hq.held (held_of_encPkt e)).answer _ _
  | allocated cap hi k u ha fs => exact (hs.allocate ha).answer _ _
  | released h p hp hfree fs => exact (hs.dereference hp hfree).answer _ _
  | crcWritten hi c fs => exact (hs.withOutputs c s.inbox s.draws s.result s.log).answer _ _
  | controlWritten v hi hv fs => exact (hs.withControl hv).answer _ _
  | submitted h off hi p q hp hd hidle start hstart hq fs =>
    obtain ⟨hne, rfl⟩ := addRef_eq_some.mp hq
    obtain ⟨hpos, hcap, hlen, href, hnz, hlt⟩ := hs.inBounds hp
    have hset : (s.setPacket h { p with ref := p.ref + 1 }).Good :=
      hs.setPacket hp ⟨hpos, hcap, hlen, by show p.ref + 1 ≤ _; omega, hnz, hlt⟩ (Nat.le_succ _) fun _ => rfl
    have hmax : p.len < 2 ^ 16 := by
      obtain ⟨_, _, hmax, _⟩ := hs.params
      omega
    have hend : (BitVec.ofNat 16 p.len).toNat = p.len := by simpa using hmax
    have hstart' : start ≤ p.len := startPos_le hstart
    have hcur : (BitVec.ofNat 16 start).toNat ≤ (BitVec.ofNat 16 p.len).toNat := by
      rw [hend, BitVec.toNat_ofNat]
      exact (Nat.mod_le _ _).trans hstart'
    exact (hset.holdEnc (setPacket_packet_self _ _ _) (Nat.succ_pos _) hd hcur hend).answer _ _
  | processed hi hbusy => exact encLoop_good hs _ _ hs
  | received hi hok => exact (unitStep_endsGood hs hi).finish hs

/-- A command whose code keeps the state good keeps it good; refused in the Faulted state it writes nothing. -/
theorem runCommand_good {f : State → State} (hs : s.Good) (hf : (f s).Good) (ht : runCommand s f = .next t) : t.Good := by
  by_cases hok : s.fault = 0#8
  · rw [runCommand_of_ok s f hok] at ht
    cases ht
    exact hf
  · rw [runCommand_of_faulted s f hok] at ht
    cases ht
    exact hs.withOutputs s.crc s.inbox s.draws none s.log

/-- What an input that is no instruction leaves of a good state. -/
theorem execUndecoded_good {e : DecodeError} (hs : s.Good) (ht : execUndecoded e s = .next t) : t.Good := by
  cases e with
  | undefinedOpcode op =>
    change runCommand s (fun s => s.raise .badOpcode) = .next t at ht
    exact runCommand_good hs (hs.raiseFrom s .badOpcode) ht
  | wrongLength op => cases ht
  | noOpcode => cases ht
  | resetEvent => cases ht; exact good_hardReset hs.params

/-! ### The step -/

theorem step_of_empty (hin : s.inbox = []) : step s = .next s := by
  simp [step, takeInput, hin]

/-- A step takes the oldest input and runs what it decodes to. -/
theorem step_of_ok {x : Input} {rest : List Input} (hin : s.inbox = x :: rest)
    (hx : decode s.decState s.cp x = .ok i) : step s = exec i { s with inbox := rest } := by
  simp only [step, takeInput, hin, hx]

theorem step_of_error {x : Input} {rest : List Input} {e : DecodeError} (hin : s.inbox = x :: rest)
    (hx : decode s.decState s.cp x = .error e) : step s = execUndecoded e { s with inbox := rest } := by
  simp only [step, takeInput, hin, hx]

/-! ### A received byte -/

/-- With a legal control byte, a byte is an opcode byte by its upper six bits, and which one by its lower two
(44_frame_decoder.md R232). -/
theorem opcodeByte_iff {cp b k : Byte} (hk : k &&& 0xFC#8 = 0#8 ∧ k &&& 3#8 = k) (hcp : cp &&& 3#8 = 0#8) :
    b = cp ||| k ↔ b &&& 0xFC#8 = cp ∧ b &&& 3#8 = k := by
  have hsplit : ∀ x : Byte, x = (x &&& 0xFC#8) ||| (x &&& 3#8) := by decide
  constructor
  · rintro rfl
    have hhigh : cp &&& 0xFC#8 = cp := by simpa [hcp] using (hsplit cp).symm
    simp [BitVec.and_or_distrib_right, hk.1, hk.2, hhigh, hcp]
  · rintro ⟨rfl, rfl⟩
    exact hsplit b

/-- The table of 44_frame_decoder.md R232 for a byte that follows a control byte. -/
theorem decodeWire_controlSeen {cp : Byte} (b : Byte) (hcp : cp &&& 3#8 = 0#8) :
    decodeWire .controlSeen cp b =
      if b = cp then .wireIdle else if b = cp ||| 1#8 then .wireEsc else if b = cp ||| 2#8 then .wireEnd
      else if b = cp ||| 3#8 then .wireAbort else .wireLiteral b := by
  have hidle : b = cp ↔ b &&& 0xFC#8 = cp ∧ b &&& 3#8 = 0#8 := by
    simpa using opcodeByte_iff (b := b) (k := 0#8) (by decide) hcp
  have hesc := opcodeByte_iff (b := b) (k := 1#8) (by decide) hcp
  have hend := opcodeByte_iff (b := b) (k := 2#8) (by decide) hcp
  have habort := opcodeByte_iff (b := b) (k := 3#8) (by decide) hcp
  simp only [decodeWire, hidle, hesc, hend, habort]
  by_cases hb : b &&& 0xFC#8 = cp
  · rcases lowBits_cases b with e | e | e | e <;> simp [hb, e]
  · simp [hb]

/-- `DEC_RX` of a byte is the wire unit of the byte (44_frame_decoder.md R231). -/
theorem exec_decRx (s : State) (b : Byte) : exec (.decRx b) s = exec (decodeWire s.decState s.cp b) s := by
  have hunit := isReceive_of_wireUnit (decodeWire_isWireUnit s.decState s.cp b)
  rw [exec_receive rfl, exec_receive hunit, runCommand_next, runCommand_next]
  rw [show unitStep (.decRx b) s = decByte s b from rfl, decByte_eq_unitStep]

/-! ### Refusals -/

/-- An answer of a receiving instruction that is not `Good` is `Busy`. -/
theorem finish_refused {d : DecStep} {r : Result} (hr : (d.finish s).result = some r) (hst : r.status ≠ .good) :
    ∃ u, d = .busy u ∧ r.status = .busy := by
  cases d with
  | consumed u => cases hr; exact absurd rfl hst
  | busy u => cases hr; exact ⟨u, rfl, rfl⟩
  | faulted c u => cases hr

/-- The receiving instructions that read a literal pair (44_frame_decoder.md R237). -/
theorem literal_of_wireUnit {b : Byte} (hi : wireUnit i s = .wireLiteral b) :
    i = .wireLiteral b ∨ (i = .decRx b ∧ s.decState = .controlSeen ∧ b &&& 0xFC#8 ≠ s.cp) := by
  by_cases hd : ∃ c, i = .decRx c
  · obtain ⟨c, rfl⟩ := hd
    change decodeWire s.decState s.cp c = .wireLiteral b at hi
    unfold decodeWire at hi
    split at hi
    · split at hi <;> cases hi
    · next hs =>
      split at hi
      · next hc => cases hi; exact .inr ⟨rfl, hs, hc⟩
      · split at hi <;> cases hi
  · refine .inl ?_
    cases i with
    | decRx c => exact absurd ⟨c, rfl⟩ hd
    | _ => exact hi

/-- A `Busy` of a receiving instruction wrote nothing, or is the commit of a literal pair (44_frame_decoder.md R237, R242). -/
theorem unitStep_busy {u : State} (hi : isReceive i = true) (hu : unitStep i s = .busy u) :
    u = s.undoTo u ∨
      ((∃ b, i = .wireLiteral b ∨ (i = .decRx b ∧ s.decState = .controlSeen ∧ b &&& 0xFC#8 ≠ s.cp)) ∧
        ∃ v, decEscaped s = .consumed v ∧ u = v.undoTo u) := by
  obtain ⟨e, hw⟩ := unitStep_wireUnit s hi
  rw [e] at hu
  by_cases hl : ∃ b, wireUnit i s = .wireLiteral b
  · obtain ⟨b, hb⟩ := hl
    rw [hb] at hu
    exact (decLiteralPair_busy hu).imp id fun hv => ⟨⟨b, literal_of_wireUnit hb⟩, hv⟩
  · have hc := wireUnit_confined s hw fun b hb => hl ⟨b, hb⟩
    rw [hu] at hc
    exact .inl hc

/-! ### Questions -/

/-- A state that was only asked something, with its log known. -/
theorem eq_of_undoTo_of_log {l : List Event} (ht : t = s.undoTo t) (hl : t.log = l) :
    t = { s with draws := t.draws, log := l } := by
  subst hl
  exact ht

end

/-! ### The obligations -/

/-- Settles O6, by the branches of the step. -/
theorem stepRunsTheDecodedInstruction : Obligations.StepRunsTheDecodedInstruction := by
  intro s
  exact ⟨step_of_empty, fun _ _ _ hin hx => step_of_ok hin hx, fun _ _ _ hin hx => step_of_error hin hx⟩

/-- Settles O8: the state after power-on is a reset state, with this hardware's parameters. -/
theorem resetStateIsGood : Obligations.ResetStateIsGood :=
  good_hardReset (s := State.reset) config_params_wf

/-- Settles O9, by the effects of the instructions. -/
theorem everyStepKeepsTheInvariants : Obligations.EveryStepKeepsTheInvariants := by
  intro s t hs ht
  rcases hin : s.inbox with _ | ⟨x, rest⟩
  · rw [step_of_empty hin] at ht
    cases ht
    exact hs
  · have hs' : ({ s with inbox := rest }).Good := hs.withOutputs s.crc rest s.draws s.result s.log
    rcases hx : decode s.decState s.cp x with e | i
    · rw [step_of_error hin hx] at ht
      exact execUndecoded_good hs' ht
    · rw [step_of_ok hin hx] at ht
      exact (exec_effect ht).good hs'

/-- Settles O12: the effects that write a register name their instructions; the decoder and the encoder write theirs alone. -/
theorem registersAreWrittenOnlyByTheirCommands : Obligations.RegistersAreWrittenOnlyByTheirCommands := by
  intro i s t ht
  cases exec_effect ht with
  | refused => simp
  | raised u c => simp
  | answered u st fs => simp
  | rewrote u h p q hp hq fs => simp
  | allocated cap hi k u ha fs =>
    rw [(allocate_frame ha).1]
    simp [hi]
  | released h p hp hfree fs =>
    rw [dereference_eq]
    simp
  | crcWritten hi c fs => simp [hi]
  | controlWritten v hi hv fs => simp [hi]
  | submitted h off hi p q hp hd hidle start hstart hq fs => simp [hi]
  | processed hi hbusy =>
    rw [encLoop_eq (encBound s) false (s := s) (t := s) rfl]
    simp [hi, State.withEncoder]
  | received hi hok =>
    rw [(unitStep_within s hi).finish_eq]
    simp [hi, State.withDecoder]

/-- Settles O13: the effects that are no answer `Good` write nothing, but for the literal pair's. -/
theorem refusedCommandsChangeNothing : Obligations.RefusedCommandsChangeNothing := by
  intro i s t r ht hr hst
  cases exec_effect ht with
  | refused => cases hr
  | raised u c => cases hr
  | answered u st fs => exact .inl rfl
  | processed hi hbusy =>
    obtain ⟨u, e⟩ := encLoop_refused s (encBound s) hr hst
    exact .inl (by rw [e]; rfl)
  | received hi hok =>
    obtain ⟨u, hu, hbusy⟩ := finish_refused hr hst
    rw [hu]
    rcases unitStep_busy hi hu with e | ⟨hlit, v, hv, e⟩
    · exact .inl (by rw [e]; rfl)
    · refine .inr ⟨hbusy, hlit, v.answer .good [], ?_, rfl, by rw [e]; rfl⟩
      rw [exec_receive rfl, runCommand_of_ok s _ hok, show unitStep .wireEsc s = decEscaped s from rfl, hv]
      rfl
  | _ => cases hr; exact absurd rfl hst

/-- Settles O19: the listed answers by the questions' definitions, the rest by their frames. -/
theorem questionsTakeTheAgentsAnswers : Obligations.QuestionsTakeTheAgentsAnswers := by
  intro s h p n v
  refine ⟨?_, ?_, ?_, ?_, ?_, ?_, ?_, ?_, ?_, ?_, ?_⟩
  · intro a as e; simp [drawAlloc, e]
  · intro a as e; simp [drawRealloc, e]
  · intro a as e; simp [drawTx, e]
  · intro as e; simp [drawSink, e, legalAnswer]
  · intro as e; simp [drawSink, e, legalAnswer]
  · intro k as e hk
    have hmin : min k (s.params.refMax - p.ref) = k := by omega
    simp [drawSink, e, legalAnswer, hmin]
  · exact fun a t hd => eq_of_undoTo_of_log (drawAlloc_undoTo hd) (by simpa [hd] using drawAlloc_log s n)
  · exact fun a t hd => eq_of_undoTo_of_log (drawRealloc_undoTo hd) (by simpa [hd] using drawRealloc_log s h n)
  · exact fun a t hd => eq_of_undoTo_of_log (drawTx_undoTo hd) (by simpa [hd] using drawTx_log s v)
  · exact fun a t hd => eq_of_undoTo_of_log (drawSink_undoTo hd) (by simpa [hd] using drawSink_log s h p)
  · exact fun k t hd href => drawSink_good href hd

/-- Settles O45: `DEC_RX` and the byte's wire unit run the same case of the decoder, and the opcode bytes are told apart by
their two low bits. -/
theorem decRxIsItsWireUnit : Obligations.DecRxIsItsWireUnit := by
  refine ⟨exec_decRx, fun s b rest => ?_, fun cp b hcp => ⟨?_, ?_⟩⟩
  · rw [step_of_ok (i := decodeWire s.decState s.cp b) rfl rfl, step_of_ok (i := .decRx b) rfl rfl]
    exact (exec_decRx { s with inbox := rest } b).symm
  · by_cases hb : b = cp <;> simp [decodeWire, hb]
  · exact decodeWire_controlSeen b (by simpa [legalControl] using hcp)

end Sys2Proof.Machine
end

section
/-! SUPPORT. Handles over time: no operation, case of the decoder or micro-step of the encoder brings back a handle that was
handed out and is dead. And the one order in which the commands with a handle operand check their operands. -/

namespace Sys2Proof.Machine

section

variable {s t u : State} {h : Handle} {p : Packet} {i : Instr} {d : DecStep}

/-! ### States that come after one another in the life of the handles -/

/-- From `s` to `t` the next handle did not fall, and no handle that was handed out and dead came back (10_state.md R43). -/
structure NoRevival (s t : State) : Prop where
  next_le : s.nextHandle ≤ t.nextHandle
  dead : ∀ h, h < s.nextHandle → s.packet h = none → t.packet h = none

/-- Only the packets and the next handle matter. -/
theorem NoRevival.of_eq (hpm : t.pm = s.pm) (hn : t.nextHandle = s.nextHandle) : NoRevival s t where
  next_le := hn ▸ BitVec.le_refl _
  dead h _ hp := (congrArg (Memory.lookup · h) hpm).trans hp

theorem NoRevival.refl (s : State) : NoRevival s s := .of_eq rfl rfl

theorem NoRevival.trans (hst : NoRevival s t) (htu : NoRevival t u) : NoRevival s u where
  next_le := BitVec.le_trans hst.next_le htu.next_le
  dead h hlt hp := htu.dead h (Nat.lt_of_lt_of_le hlt hst.next_le) (hst.dead h hlt hp)

/-- A live packet's record may be replaced. -/
theorem noRevival_setPacket (hp : s.packet h = some p) (q : Packet) : NoRevival s (s.setPacket h q) where
  next_le := BitVec.le_refl _
  dead k _ hk := by
    have hne : k ≠ h := by rintro rfl; simp [hp] at hk
    rw [setPacket_packet_other s q hne, hk]

/-- `Dereference` frees or keeps what is live (20_memory.md R72). -/
theorem noRevival_dereference (s : State) (h : Handle) : NoRevival s (s.dereference h) where
  next_le := by rw [dereference_eq]; exact BitVec.le_refl _
  dead k _ hk := by
    rw [dereference_packet]
    split
    · next e => simp [← e, hk]
    · exact hk

/-- `Allocate` gives out the next handle, which was not handed out before (20_memory.md R69). -/
theorem noRevival_allocate {cap : Nat} {r : Verdict} {k : Handle} (ha : allocate s cap = (r, k, t)) : NoRevival s t := by
  by_cases hr : r = .good
  · subst hr
    rcases allocate_cases s cap with ⟨_, e⟩ | ⟨_, _, ⟨u, _, e⟩ | ⟨u, _, _, e⟩ | ⟨u, hd, hn, e⟩⟩
    all_goals rw [e] at ha; cases ha
    rw [drawAlloc_undoTo hd]
    refine ⟨?_, fun h hlt hp => ?_⟩
    · show s.nextHandle ≤ s.nextHandle + 1#32
      bv_omega
    · exact (setPacket_packet_other s _ (BitVec.ne_of_lt hlt)).trans hp
  · rw [(allocate_frame ha).2 hr]
    exact .of_eq rfl rfl

/-! ### The decoder -/

/-- Where a case leaves a state, it is one in which no handle of `s` came back; what a fault leaves is not its own
(60_exceptions.md R282). -/
def DecStep.NoRevival (s : State) : DecStep → Prop
  | .consumed t => Machine.NoRevival s t
  | .busy t => Machine.NoRevival s t
  | .faulted _ _ => True

theorem DecStep.NoRevival.finish (hd : d.NoRevival s) : Machine.NoRevival s (d.finish s) := by
  cases d with
  | consumed t => exact .trans hd (.of_eq rfl rfl)
  | busy t => exact .trans hd (.of_eq rfl rfl)
  | faulted c t => exact .of_eq rfl rfl

theorem DecStep.NoRevival.of_trans (hst : Machine.NoRevival s t) (hd : d.NoRevival t) : d.NoRevival s := by
  cases d with
  | consumed u => exact hst.trans hd
  | busy u => exact hst.trans hd
  | faulted c u => trivial

theorem andThen_noRevival {g : State → DecStep} (hd : d.NoRevival s)
    (hg : ∀ t, NoRevival s t → (g t).NoRevival s) : (d.andThen g).NoRevival s := by
  cases d with
  | consumed t => exact hg t hd
  | busy t => exact hd
  | faulted c t => trivial

theorem decPacket_noRevival (s : State) : (decPacket s).NoRevival s := by
  unfold decPacket
  split
  · exact .refl s
  · split
    · next k u ha =>
      split
      · trivial
      · next p hp =>
        split
        · trivial
        · next q _ => exact (noRevival_allocate ha).trans ((noRevival_setPacket hp q).trans (.of_eq rfl rfl))
    · exact .of_eq rfl rfl

theorem discardPacket_noRevival (s : State) : NoRevival s (discardPacket s) := by
  unfold discardPacket
  split
  · exact .refl s
  · exact (noRevival_dereference s _).trans (.of_eq rfl rfl)

theorem appendAssembled_noRevival (v : Byte) (hst : NoRevival s t) : (appendAssembled s t v).NoRevival s := by
  rcases hd : t.decPkt with _ | h
  · simp only [appendAssembled, hd]; trivial
  rcases hp : t.packet h with _ | p
  · simp only [appendAssembled, hd, hp]; trivial
  obtain ⟨r, p', u, he, hcases⟩ := appendAssembled_cases s v hd hp
  have hframe := (ensureRoom_frame he).1
  have htu : NoRevival t u := by rw [hframe]; exact .of_eq rfl rfl
  have hpu : u.packet h = some p := by rw [hframe]; exact hp
  rcases hcases with ⟨_, e⟩ | ⟨_, e⟩ | ⟨_, _, e⟩ | ⟨_, _, e⟩
  · rw [e]; exact hst.trans (htu.trans (noRevival_setPacket hpu _))
  · rw [e]; exact .of_eq rfl rfl
  · rw [e]; exact .of_eq rfl rfl
  · rw [e]; exact hst.trans (htu.trans ((discardPacket_noRevival u).trans (.of_eq rfl rfl)))

theorem decAppend_noRevival (s : State) (v : Byte) : (decAppend s v).NoRevival s := by
  cases hd : s.decDiscard with
  | true => rw [decAppend_of_discard hd]; exact .refl s
  | false =>
    rw [decAppend_of_assembling hd]
    exact andThen_noRevival (decPacket_noRevival s) fun _ => appendAssembled_noRevival v

theorem decLiteralPair_noRevival (s : State) (b : Byte) : (decLiteralPair s b).NoRevival s := by
  rw [decLiteralPair_eq]
  refine andThen_noRevival (decAppend_noRevival s _) fun t ht => ?_
  have hdata : NoRevival s { t with decState := .data } := ht.trans (.of_eq rfl rfl)
  exact .of_trans hdata (decAppend_noRevival _ b)

theorem decEscaped_noRevival (s : State) : (decEscaped s).NoRevival s := by
  rw [decEscaped_eq]
  exact andThen_noRevival (decAppend_noRevival s _) fun _ ht => ht.trans (.of_eq rfl rfl)

theorem deliver_noRevival (hst : NoRevival s t) : (deliver s t).NoRevival s := by
  rcases hd : t.decPkt with _ | h
  · simp only [deliver, hd]; trivial
  rcases hp : t.packet h with _ | p
  · simp only [deliver, hd, hp]; trivial
  obtain ⟨a, u, hask, hcases⟩ := deliver_cases s hd hp
  have hframe := drawSink_undoTo hask
  have htu : NoRevival t u := by rw [hframe]; exact .of_eq rfl rfl
  have hpu : u.packet h = some p := by rw [hframe]; exact hp
  rcases hcases with ⟨_, e⟩ | ⟨_, e⟩ | ⟨k, _, e⟩
  · rw [e]; exact .of_eq rfl rfl
  · rw [e]; exact hst.trans (htu.trans ((noRevival_dereference u h).trans (.of_eq rfl rfl)))
  · rw [e]
    have hkept := noRevival_setPacket hpu { p with ref := p.ref + k }
    exact hst.trans (htu.trans (hkept.trans ((noRevival_dereference _ h).trans (.of_eq rfl rfl))))

theorem decComplete_noRevival (s : State) : (decComplete s).NoRevival s := by
  cases hd : s.decDiscard with
  | true => rw [decComplete_of_discard hd]; exact .of_eq rfl rfl
  | false =>
    by_cases he : s.decPkt = none ∧ s.params.emptyFramePolicy = .drop
    · rw [decComplete_of_dropped hd he]; exact .of_eq rfl rfl
    · rw [decComplete_of_offered hd he]
      exact andThen_noRevival (decPacket_noRevival s) fun _ => deliver_noRevival

theorem wireUnit_noRevival (s : State) (hw : i.isCommand = false) : (unitStep i s).NoRevival s := by
  cases i with
  | wireData b => exact decAppend_noRevival s b
  | wireCtrl => exact .of_eq rfl rfl
  | wireIdle => exact .refl s
  | wireEsc => exact decEscaped_noRevival s
  | wireEnd => exact decComplete_noRevival s
  | wireAbort => exact (discardPacket_noRevival s).trans (.of_eq rfl rfl)
  | wireLiteral b => exact decLiteralPair_noRevival s b
  | _ => cases hw

theorem unitStep_noRevival (s : State) (hi : isReceive i = true) : (unitStep i s).NoRevival s := by
  obtain ⟨e, hw⟩ := unitStep_wireUnit s hi
  rw [e]
  exact wireUnit_noRevival s hw

/-! ### The encoder -/

/-- Where a micro-step leaves a state, it is one in which no handle of `s` came back. -/
def EncStep.NoRevival (s : State) : EncStep → Prop
  | .progress t => Machine.NoRevival s t
  | .refused t => Machine.NoRevival s t
  | .faulted _ _ => True

theorem offerByte_noRevival (v : Byte) {f : State → State} (hf : ∀ u, NoRevival s (f (s.undoTo u))) :
    (offerByte s v f).NoRevival s := by
  obtain ⟨u, e | e⟩ := offerByte_eq s v f
  · rw [e]; exact hf u
  · rw [e]; exact .of_eq rfl rfl

theorem stepTransmitting_noRevival (s : State) (p : Packet) : (stepTransmitting s p).NoRevival s := by
  unfold stepTransmitting
  split
  · exact .of_eq rfl rfl
  · split
    · trivial
    · split <;> exact offerByte_noRevival _ fun _ => .of_eq rfl rfl

theorem stepFlush_noRevival (s : State) : (stepFlush s).NoRevival s := by
  unfold stepFlush
  split
  · exact offerByte_noRevival _ fun _ => .of_eq rfl rfl
  · exact .of_eq rfl rfl

theorem finishFrame_noRevival (hp : s.packet h = some p) : NoRevival s (finishFrame h p s) :=
  (noRevival_setPacket hp _).trans ((noRevival_dereference _ h).trans (.of_eq rfl rfl))

theorem encStep_noRevival (s : State) : (encStep s).NoRevival s := by
  rcases he : s.encPkt with _ | h
  · simp only [encStep, he]; trivial
  rcases hp : s.packet h with _ | p
  · simp only [encStep, he, hp]; trivial
  rw [encStep_of_live he hp]
  split
  · exact .refl s
  · exact stepTransmitting_noRevival s p
  · exact stepFlush_noRevival s
  · exact offerByte_noRevival _ fun _ => .of_eq rfl rfl
  · exact offerByte_noRevival _ fun u =>
      .trans (t := s.undoTo u) (.of_eq rfl rfl) (finishFrame_noRevival hp)

theorem encLoop_noRevival (n : Nat) (progressed : Bool) (hst : NoRevival s t) :
    NoRevival s (encLoop s n progressed t) := by
  induction n generalizing progressed t with
  | zero => exact hst.trans (.of_eq rfl rfl)
  | succ n ih =>
    have hstep := encStep_noRevival t
    rw [encLoop_succ]
    cases e : encStep t with
    | faulted c u => exact .of_eq rfl rfl
    | refused u =>
      rw [e] at hstep
      exact hst.trans (.trans hstep (.of_eq rfl rfl))
    | progress u =>
      rw [e] at hstep
      by_cases hm : u.encMode = .idle
      · simp only [if_pos hm]
        exact hst.trans (.trans hstep (.of_eq rfl rfl))
      · simp only [if_neg hm]
        exact ih true (hst.trans hstep)

/-! ### Every instruction, and an input that is none -/

/-- No effect brings a handle back: records are rewritten where they are live, and made at the next handle. -/
theorem Effect.noRevival (he : Effect i s t) : NoRevival s t := by
  cases he with
  | refused => exact .of_eq rfl rfl
  | raised u c => exact .of_eq rfl rfl
  | answered u st fs => exact .of_eq rfl rfl
  | rewrote u h p q hp hq fs => exact (noRevival_setPacket hp q).trans (.of_eq rfl rfl)
  | allocated cap hi k u ha fs => exact (noRevival_allocate ha).trans (.of_eq rfl rfl)
  | released h p hp hfree fs => exact (noRevival_dereference s h).trans (.of_eq rfl rfl)
  | crcWritten hi c fs => exact .of_eq rfl rfl
  | controlWritten v hi hv fs => exact .of_eq rfl rfl
  | submitted h off hi p q hp hd hidle start hstart hq fs =>
    exact (noRevival_setPacket hp q).trans (.of_eq rfl rfl)
  | processed hi hbusy => exact encLoop_noRevival _ _ (.refl s)
  | received hi hok => exact (unitStep_noRevival s hi).finish

/-- Only the reset event ends a handle's death: the other inputs that are no instruction write no packet. -/
theorem execUndecoded_noRevival {e : DecodeError} (he : e ≠ .resetEvent) (ht : execUndecoded e s = .next t) :
    NoRevival s t := by
  cases e with
  | undefinedOpcode op =>
    change runCommand s (fun s => s.raise .badOpcode) = .next t at ht
    by_cases hok : s.fault = 0#8
    · rw [runCommand_of_ok s _ hok] at ht
      cases ht
      exact .of_eq rfl rfl
    · rw [runCommand_of_faulted s _ hok] at ht
      cases ht
      exact .of_eq rfl rfl
  | wrongLength op => cases ht
  | noOpcode => cases ht
  | resetEvent => exact absurd rfl he

/-- A command's bytes fail to decode by their opcode or by their length: every operand form has that one error
(30_encoding.md R90, R92). -/
theorem decodeOp_error {op : Byte} {ops : List Byte} {e : DecodeError} (he : decodeOp op ops = .error e) :
    e = .undefinedOpcode op ∨ e = .wrongLength op := by
  unfold decodeOp formNone formB formI formH formHB formHI formHIB formHBBB formHBNN formHWNN at he
  repeat' split at he
  all_goals cases he
  all_goals simp

/-- Nothing but the reset event decodes as the reset event. -/
theorem decode_ne_resetEvent {x : Input} (hx : x ≠ .reset) (d : DecState) (cp : Byte) :
    decode d cp x ≠ .error .resetEvent := by
  cases x with
  | command bytes =>
    cases bytes with
    | nil => nofun
    | cons op ops => exact fun he => by cases decodeOp_error he <;> contradiction
  | wire b => nofun
  | reset => exact absurd rfl hx

/-! ### Handle operands -/

/-- Every command with a handle operand but `PB_DEREFERENCE` checks its flag operands first, and then that the handle is
live (30_encoding.md R94; 20_memory.md R63; 60_exceptions.md R284). -/
theorem exec_checks_handle (hi : handleOf i = some h) (hne : i ≠ .pbDereference h) (s : State) :
    ∃ k : State → Packet → State,
      exec i s = runCommand s (fun s => s.ifLegal i.wellFormed (s.ifLive h (k s))) := by
  cases i
  case pbDereference h' => cases hi; exact absurd rfl hne
  case c78EncU | c78DecU | c78EncS | c78DecS | pbSetCapacity | pbAppend | pbReference | pbSetStatus | pbGetStatus
    | pbGetLength | pbGetCapacity | pbGetRefcount | pbRead | pbWrite | mapGetCk | mapSetCk | mapGetNp | mapSetNp
    | mapGetDa | mapSetDa | mapGetSa | mapSetSa | mapGetAtype | mapSetAtype | mapNextprotoPos | mapDestPos | mapSrcPos
    | mapContentsPos | mapNextHeader | mapHeader | mapData | mapValidate | mapAppendChecksum | encSubmit =>
    cases hi
    simp only [exec, Instr.wellFormed, ifLegal_true]
    exact ⟨_, rfl⟩
  all_goals cases hi

/-- `PB_DEREFERENCE` of a dead handle is answered `Good` and does nothing (42_packet_buffer.md R164). -/
theorem execPbDereference_of_dead (hok : s.fault = 0#8) (hp : s.packet h = none) :
    execPbDereference h s = answers s .good [] := by
  rw [execPbDereference, runCommand_of_ok s _ hok, hp]
  rfl

/-- Handle 0 names no packet (10_state.md R43). -/
theorem State.Good.packet_zero (hs : s.Good) : s.packet 0#32 = none := by
  rcases hp : s.packet 0#32 with _ | p
  · rfl
  · exact absurd rfl (hs.inBounds hp).nonzero

end

end Sys2Proof.Machine
end

section
/-! PROOFS. The statements about dead handles: they stay dead, and the commands with a handle operand fault on them. -/

namespace Sys2Proof.Machine

/-- Settles O14, by the effects of the instructions; an input that is none and no reset writes no packet. -/
theorem deadHandlesStayDead : Obligations.DeadHandlesStayDead := by
  intro s t hreset ht
  suffices hst : NoRevival s t from ⟨hst.next_le, hst.dead⟩
  rcases hin : s.inbox with _ | ⟨x, rest⟩
  · rw [step_of_empty hin] at ht
    cases ht
    exact .refl s
  · have htaken : NoRevival s { s with inbox := rest } := .of_eq rfl rfl
    have hx : x ≠ .reset := by simpa [hin] using hreset
    rcases he : decode s.decState s.cp x with e | i
    · rw [step_of_error hin he] at ht
      have hne : e ≠ .resetEvent := fun e' => decode_ne_resetEvent hx _ _ (e' ▸ he)
      exact htaken.trans (execUndecoded_noRevival hne ht)
    · rw [step_of_ok hin he] at ht
      exact htaken.trans (exec_effect ht).noRevival

/-- Settles O34: the liveness check comes right after the flag operands', `PB_DEREFERENCE` has none, and a good state keeps
no record at handle 0. -/
theorem deadHandlesFault : Obligations.DeadHandlesFault := by
  refine ⟨fun i s h hok hi hp hwf hne => ?_, fun _ _ => execPbDereference_of_dead, fun _ => State.Good.packet_zero⟩
  obtain ⟨k, hexec⟩ := exec_checks_handle hi hne s
  rw [hexec, runCommand_of_ok s _ hok, hwf, ifLegal_true, ifLive_of_dead hp, raise_eq]
  rfl

end Sys2Proof.Machine
end

section
/-! SUPPORT. Status tags: every operation, case of the decoder and micro-step of the encoder does the same to a state with
its status tags blotted out as to the state itself, up to status tags (20_memory.md R75). -/

namespace Sys2Proof.Machine

section

variable {s s' t t' u : State} {h : Handle} {p : Packet} {i : Instr} {d : DecStep}

/-! ### A state without its status tags -/

/-- A record with its status tag blotted out. -/
def Packet.untagged (p : Packet) : Packet := { p with status := .busy }

/-- A packet memory with every status tag blotted out. -/
def Memory.untagged (m : Memory) : Memory := m.map (fun e => (e.1, e.2.untagged))

theorem withoutStatus_eq (s : State) : s.withoutStatus = { s with pm := Memory.untagged s.pm } := rfl

@[simp] theorem untagged_data (p : Packet) : p.untagged.data = p.data := rfl
@[simp] theorem untagged_cap (p : Packet) : p.untagged.cap = p.cap := rfl
@[simp] theorem untagged_ref (p : Packet) : p.untagged.ref = p.ref := rfl
@[simp] theorem untagged_len (p : Packet) : p.untagged.len = p.len := rfl
@[simp] theorem untagged_untagged (p : Packet) : p.untagged.untagged = p.untagged := rfl

@[simp] theorem withoutStatus_cp (s : State) : s.withoutStatus.cp = s.cp := rfl
@[simp] theorem withoutStatus_crc (s : State) : s.withoutStatus.crc = s.crc := rfl
@[simp] theorem withoutStatus_decState (s : State) : s.withoutStatus.decState = s.decState := rfl
@[simp] theorem withoutStatus_decPkt (s : State) : s.withoutStatus.decPkt = s.decPkt := rfl
@[simp] theorem withoutStatus_decDiscard (s : State) : s.withoutStatus.decDiscard = s.decDiscard := rfl
@[simp] theorem withoutStatus_encMode (s : State) : s.withoutStatus.encMode = s.encMode := rfl
@[simp] theorem withoutStatus_encCollision (s : State) : s.withoutStatus.encCollision = s.encCollision := rfl
@[simp] theorem withoutStatus_encPkt (s : State) : s.withoutStatus.encPkt = s.encPkt := rfl
@[simp] theorem withoutStatus_encCursor (s : State) : s.withoutStatus.encCursor = s.encCursor := rfl
@[simp] theorem withoutStatus_encEnd (s : State) : s.withoutStatus.encEnd = s.encEnd := rfl
@[simp] theorem withoutStatus_fault (s : State) : s.withoutStatus.fault = s.fault := rfl
@[simp] theorem withoutStatus_pm (s : State) : s.withoutStatus.pm = Memory.untagged s.pm := rfl
@[simp] theorem withoutStatus_nextHandle (s : State) : s.withoutStatus.nextHandle = s.nextHandle := rfl
@[simp] theorem withoutStatus_params (s : State) : s.withoutStatus.params = s.params := rfl
@[simp] theorem withoutStatus_draws (s : State) : s.withoutStatus.draws = s.draws := rfl
@[simp] theorem withoutStatus_result (s : State) : s.withoutStatus.result = s.result := rfl
@[simp] theorem withoutStatus_log (s : State) : s.withoutStatus.log = s.log := rfl
@[simp] theorem withoutStatus_held (s : State) (h : Handle) : s.withoutStatus.held h = s.held h := rfl
@[simp] theorem withoutStatus_heldRefs (s : State) (h : Handle) : s.withoutStatus.heldRefs h = s.heldRefs h := rfl
@[simp] theorem withoutStatus_quiescent (s : State) : s.withoutStatus.quiescent = s.quiescent := rfl

theorem lookup_untagged (m : Memory) (h : Handle) :
    (Memory.untagged m).lookup h = (m.lookup h).map Packet.untagged := by
  induction m with
  | nil => rfl
  | cons e m ih =>
    obtain ⟨k, q⟩ := e
    by_cases hk : k = h
    · simp [Memory.untagged, Memory.lookup, hk]
    · simpa [Memory.untagged, Memory.lookup, hk] using ih

theorem put_untagged (m : Memory) (h : Handle) (p : Packet) :
    Memory.untagged (m.put h p) = (Memory.untagged m).put h p.untagged := by
  induction m with
  | nil => rfl
  | cons e m ih =>
    obtain ⟨k, q⟩ := e
    by_cases hk : k = h
    · simp [Memory.untagged, Memory.put, hk]
    · by_cases hlt : h < k
      · simp [Memory.untagged, Memory.put, hk, hlt]
      · simpa [Memory.untagged, Memory.put, hk, hlt] using ih

theorem erase_untagged (m : Memory) (h : Handle) : Memory.untagged (m.erase h) = (Memory.untagged m).erase h := by
  induction m with
  | nil => rfl
  | cons e m ih =>
    obtain ⟨k, q⟩ := e
    by_cases hk : k = h
    · simpa [Memory.untagged, Memory.erase, hk] using ih
    · simpa [Memory.untagged, Memory.erase, hk] using ih

@[simp] theorem withoutStatus_packet (s : State) (h : Handle) :
    s.withoutStatus.packet h = (s.packet h).map Packet.untagged := lookup_untagged s.pm h

@[simp] theorem withoutStatus_withoutStatus (s : State) : s.withoutStatus.withoutStatus = s.withoutStatus := by
  simp [withoutStatus_eq, Memory.untagged]

theorem setPacket_withoutStatus (s : State) (h : Handle) (p : Packet) :
    (s.setPacket h p).withoutStatus = s.withoutStatus.setPacket h p.untagged :=
  congrArg (fun m => { s with pm := m }) (put_untagged s.pm h p)

theorem dereference_withoutStatus (s : State) (h : Handle) :
    (s.dereference h).withoutStatus = s.withoutStatus.dereference h := by
  rcases hp : s.packet h with _ | p
  · have hp' : s.withoutStatus.packet h = none := by simp [hp]
    rw [dereference_of_dead hp, dereference_of_dead hp']
  · have hp' : s.withoutStatus.packet h = some p.untagged := by simp [hp]
    rcases (by omega : p.ref = 0 ∨ p.ref = 1 ∨ 2 ≤ p.ref) with hr | hr | hr
    · rw [dereference_of_zero hp hr, dereference_of_zero hp' hr]
    · rw [dereference_of_one hp hr, dereference_of_one hp' hr]
      exact congrArg (fun m => { s with pm := m }) (erase_untagged s.pm h)
    · rw [dereference_of_more hp hr, dereference_of_more hp' hr, setPacket_withoutStatus]
      rfl

theorem addRef_untagged (p : Packet) (m : Nat) : p.untagged.addRef m = (p.addRef m).map Packet.untagged := by
  by_cases hr : p.ref = m
  · simp [Packet.addRef, hr]
  · simp [Packet.addRef, hr, Packet.untagged]

/-! ### The questions and the operations that ask them -/

theorem drawAlloc_withoutStatus (s : State) (cap : Nat) :
    drawAlloc s.withoutStatus cap = ((drawAlloc s cap).1, (drawAlloc s cap).2.withoutStatus) := by
  cases hd : s.draws.alloc <;> simp [drawAlloc, hd, withoutStatus_eq]

theorem drawRealloc_withoutStatus (s : State) (h : Handle) (cap : Nat) :
    drawRealloc s.withoutStatus h cap = ((drawRealloc s h cap).1, (drawRealloc s h cap).2.withoutStatus) := by
  cases hd : s.draws.realloc <;> simp [drawRealloc, hd, withoutStatus_eq]

theorem drawTx_withoutStatus (s : State) (v : Byte) :
    drawTx s.withoutStatus v = ((drawTx s v).1, (drawTx s v).2.withoutStatus) := by
  cases hd : s.draws.tx <;> simp [drawTx, hd, withoutStatus_eq]

/-- The sink is offered a packet's bytes, not its tag (44_frame_decoder.md R244). -/
theorem drawSink_withoutStatus (s : State) (h : Handle) (p : Packet) :
    drawSink s.withoutStatus h p.untagged = ((drawSink s h p).1, (drawSink s h p).2.withoutStatus) := by
  cases hd : s.draws.sink <;> simp [drawSink, hd, withoutStatus_eq]

theorem byteField_withoutStatus (s : State) (free : Nat → Byte) (n : Nat) :
    s.withoutStatus.byteField free n = ((s.byteField free n).1, (s.byteField free n).2.withoutStatus) := by
  by_cases hn : n ≤ 255
  · simp [State.byteField, hn]
  · simp [State.byteField, hn, withoutStatus_eq]

/-- A new packet's tag is the one that blotting leaves. -/
theorem allocate_withoutStatus (s : State) (cap : Nat) :
    allocate s.withoutStatus cap = ((allocate s cap).1, (allocate s cap).2.1, (allocate s cap).2.2.withoutStatus) := by
  by_cases hc : cap = 0 ∨ s.params.lenMax < cap
  · simp [allocate, hc]
  · rcases hd : drawAlloc s cap with ⟨a, u⟩
    have hd' : drawAlloc s.withoutStatus cap = (a, u.withoutStatus) := by rw [drawAlloc_withoutStatus, hd]
    cases a with
    | false => simp [allocate, hc, hd, hd']
    | true =>
      by_cases hn : s.nextHandle = 0xFFFFFFFF#32
      · simp [allocate, hc, hd, hd', hn]
      · simp only [allocate, withoutStatus_params, withoutStatus_nextHandle, hc, hd, hd', hn, if_false]
        rw [withoutStatus_eq, withoutStatus_eq, put_untagged]
        rfl

theorem ensureRoom_withoutStatus (s : State) (h : Handle) (p : Packet) (need inc lim : Nat) :
    ensureRoom s.withoutStatus h p.untagged need inc lim =
      ((ensureRoom s h p need inc lim).1, (ensureRoom s h p need inc lim).2.1.untagged,
        (ensureRoom s h p need inc lim).2.2.withoutStatus) := by
  unfold ensureRoom
  simp only [withoutStatus_params, untagged_cap, drawRealloc_withoutStatus]
  split
  · rfl
  · split
    · rfl
    · split
      · rfl
      · rcases drawRealloc s h (grownCap p.cap need inc (min lim s.params.lenMax)) with ⟨a, u⟩
        cases a <;> rfl

theorem appendCommand_withoutStatus (s : State) (h : Handle) (p : Packet) (bytes : List Byte) (inc lim : Nat) :
    appendCommand s.withoutStatus h p.untagged bytes inc lim = (appendCommand s h p bytes inc lim).withoutStatus := by
  unfold appendCommand
  simp only [untagged_len, ensureRoom_withoutStatus]
  rcases ensureRoom s h p (p.len + bytes.length) inc lim with ⟨r, p', u⟩
  cases r with
  | good => exact congrArg (State.answer · .good []) (setPacket_withoutStatus u h (p'.append bytes)).symm
  | busy => rfl
  | bad => rfl

/-! ### The checks -/

/-- What a command does to `s`, and to `s` without its status tags: the same, up to status tags. -/
abbrev SameUpToStatus (t' t : State) : Prop := t'.withoutStatus = t.withoutStatus

theorem SameUpToStatus.of_eq (ht : t' = t.withoutStatus) : SameUpToStatus t' t := by
  rw [SameUpToStatus, ht, withoutStatus_withoutStatus]

theorem ifLegal_sameUpToStatus (legal : Bool) {k k' : State} (hk : SameUpToStatus k' k) :
    SameUpToStatus (s.withoutStatus.ifLegal legal k') (s.ifLegal legal k) := by
  cases legal
  · exact .of_eq rfl
  · exact hk

theorem ifLive_sameUpToStatus {k k' : Packet → State} (hk : ∀ p, SameUpToStatus (k' p.untagged) (k p)) :
    SameUpToStatus (s.withoutStatus.ifLive h k') (s.ifLive h k) := by
  rcases hp : s.packet h with _ | p
  · rw [ifLive_of_dead hp, ifLive_of_dead (by simp [hp])]
    exact .of_eq rfl
  · rw [ifLive_of_live hp, ifLive_of_live (p := p.untagged) (by simp [hp])]
    exact hk p

theorem ifMutable_sameUpToStatus {k k' : Packet → State} (hk : ∀ p, SameUpToStatus (k' p.untagged) (k p)) :
    SameUpToStatus (s.withoutStatus.ifMutable h k') (s.ifMutable h k) := by
  refine ifLive_sameUpToStatus fun p => ?_
  rw [withoutStatus_held]
  split
  · exact .of_eq rfl
  · exact hk p

theorem ifIndex_sameUpToStatus (p : Packet) (n : Nat) {k k' : State} (hk : SameUpToStatus k' k) :
    SameUpToStatus (s.withoutStatus.ifIndex p.untagged n k') (s.ifIndex p n k) := by
  unfold State.ifIndex
  rw [untagged_len]
  split
  · exact hk
  · exact .of_eq rfl

theorem atHeader_sameUpToStatus {hp : Half} {k : State → Packet → State}
    (hk : ∀ p, SameUpToStatus (k s.withoutStatus p.untagged) (k s p)) :
    SameUpToStatus (atHeader h hp k s.withoutStatus) (atHeader h hp k s) :=
  ifLive_sameUpToStatus fun p => ifIndex_sameUpToStatus p _ (hk p)

theorem atMutableHeader_sameUpToStatus {hp : Half} {k : State → Packet → State}
    (hk : ∀ p, SameUpToStatus (k s.withoutStatus p.untagged) (k s p)) :
    SameUpToStatus (atMutableHeader h hp k s.withoutStatus) (atMutableHeader h hp k s) :=
  ifMutable_sameUpToStatus fun p => ifIndex_sameUpToStatus p _ (hk p)

/-- A record written with its tag, after whatever is asked. -/
theorem setPacket_answer_sameUpToStatus (s : State) (h : Handle) (p' p : Packet) (hp : p'.untagged = p.untagged)
    (st : Verdict) (fs : List Field) :
    SameUpToStatus ((s.withoutStatus.setPacket h p').answer st fs) ((s.setPacket h p).answer st fs) := by
  change (s.withoutStatus.setPacket h p').withoutStatus.answer st fs = (s.setPacket h p).withoutStatus.answer st fs
  rw [setPacket_withoutStatus, setPacket_withoutStatus, withoutStatus_withoutStatus, hp]

theorem putHeader_answer_sameUpToStatus (s : State) (h : Handle) (p : Packet) (pos : Nat) (x : Byte) (st : Verdict)
    (fs : List Field) : SameUpToStatus ((putHeader s.withoutStatus h p.untagged pos x).answer st fs)
      ((putHeader s h p pos x).answer st fs) :=
  setPacket_answer_sameUpToStatus s h { p.untagged with data := p.data.set pos x }
    { p with data := p.data.set pos x } rfl st fs

/-! ### The commands -/

theorem getFlag_sameUpToStatus (m : Byte) (h : Handle) (hp : Half) (s : State) :
    SameUpToStatus (getFlag m h hp s.withoutStatus) (getFlag m h hp s) :=
  atHeader_sameUpToStatus fun _ => .of_eq rfl

theorem setFlag_sameUpToStatus (m : Byte) (h : Handle) (hp : Half) (f : Byte) (s : State) :
    SameUpToStatus (setFlag m h hp f s.withoutStatus) (setFlag m h hp f s) :=
  ifLegal_sameUpToStatus _ (atMutableHeader_sameUpToStatus fun p => putHeader_answer_sameUpToStatus s h p _ _ _ _)

theorem answerPos_withoutStatus (s : State) (o : Option Nat) :
    s.withoutStatus.answerPos o = (s.answerPos o).withoutStatus := by
  cases o <;> rfl

theorem readC78_sameUpToStatus (h : Handle) (cur : Half) (f : Word → Word) (s : State) :
    SameUpToStatus (readC78 h cur f s.withoutStatus) (readC78 h cur f s) := by
  refine ifLive_sameUpToStatus fun p => .of_eq ?_
  simp only [untagged_len, untagged_data, withoutStatus_params]
  by_cases hcur : p.len < cur.toNat
  · simp only [hcur, if_true]
    rfl
  · simp only [hcur, if_false]
    rcases c78Decode s.params.c78Width p.data cur.toNat with _ | ⟨v, next⟩ <;> rfl

theorem answerLevel_withoutStatus (s : State) (r : CkReason) (j : Nat) :
    answerLevel s.withoutStatus r j = (answerLevel s r j).withoutStatus := by
  unfold answerLevel
  rw [byteField_withoutStatus]
  rfl

theorem validatePacket_withoutStatus (s : State) (h : Handle) (p : Packet) (off req rem : Byte) :
    validatePacket s.withoutStatus h p.untagged off req rem = (validatePacket s h p off req rem).withoutStatus := by
  unfold validatePacket
  simp only [untagged_len, untagged_data, withoutStatus_params, answerLevel_withoutStatus]
  split
  · rfl
  · split
    · rfl
    · split
      · rfl
      · split
        · rfl
        · rfl
        · split
          · exact congrArg (fun t => State.answer t .good _)
              (setPacket_withoutStatus s h { p with data := removeTrailers _ p.data _ _ }).symm
          · rfl

theorem runCommand_sameUpToStatus {f : State → State} (hf : SameUpToStatus (f s.withoutStatus) (f s))
    (ht : runCommand s f = .next t) : ∃ t', runCommand s.withoutStatus f = .next t' ∧ SameUpToStatus t' t := by
  by_cases hok : s.fault = 0#8
  · rw [runCommand_of_ok s f hok] at ht
    cases ht
    exact ⟨_, runCommand_of_ok _ f hok, hf⟩
  · rw [runCommand_of_faulted s f hok] at ht
    cases ht
    exact ⟨_, runCommand_of_faulted _ f hok, .of_eq rfl⟩

/-! ### The decoder -/

/-- How a case of the decoder ends, with the status tags blotted out. -/
def DecStep.withoutStatus : DecStep → DecStep
  | .consumed t => .consumed t.withoutStatus
  | .busy t => .busy t.withoutStatus
  | .faulted c t => .faulted c t.withoutStatus

theorem finish_withoutStatus (d : DecStep) (s : State) :
    d.withoutStatus.finish s.withoutStatus = (d.finish s).withoutStatus := by
  cases d <;> rfl

theorem andThen_withoutStatus {g g' : State → DecStep}
    (hg : ∀ t, g' t.withoutStatus = (g t).withoutStatus) :
    d.withoutStatus.andThen g' = (d.andThen g).withoutStatus := by
  cases d with
  | consumed t => exact hg t
  | busy t => rfl
  | faulted c t => rfl

theorem discardPacket_withoutStatus (s : State) :
    discardPacket s.withoutStatus = (discardPacket s).withoutStatus := by
  unfold discardPacket
  rw [withoutStatus_decPkt]
  rcases s.decPkt with _ | h
  · rfl
  · exact congrArg (fun t => { t with decPkt := none }) (dereference_withoutStatus s h).symm

theorem decPacket_withoutStatus (s : State) : decPacket s.withoutStatus = (decPacket s).withoutStatus := by
  unfold decPacket
  rw [withoutStatus_decPkt, allocate_withoutStatus, withoutStatus_params]
  rcases s.decPkt with _ | h
  · rcases allocate s s.params.decInitCap with ⟨r, k, u⟩
    cases r with
    | good =>
      simp only [withoutStatus_packet]
      rcases u.packet k with _ | q
      · rfl
      · simp only [Option.map_some, addRef_untagged]
        rcases q.addRef s.params.refMax with _ | q'
        · rfl
        · exact congrArg (fun t => DecStep.consumed { t with decPkt := some k }) (setPacket_withoutStatus u k q').symm
    | busy => rfl
    | bad => rfl
  · rfl

theorem appendAssembled_withoutStatus (s0 s : State) (v : Byte) :
    appendAssembled s0.withoutStatus s.withoutStatus v = (appendAssembled s0 s v).withoutStatus := by
  unfold appendAssembled
  rw [withoutStatus_decPkt, withoutStatus_params]
  rcases s.decPkt with _ | h
  · rfl
  simp only [withoutStatus_packet]
  rcases s.packet h with _ | p
  · rfl
  simp only [Option.map_some, untagged_len, ensureRoom_withoutStatus]
  rcases ensureRoom s h p (p.len + 1) s.params.decIncrement s.params.decLimit with ⟨r, p', u⟩
  cases r with
  | good => exact congrArg DecStep.consumed (setPacket_withoutStatus u h (p'.append [v])).symm
  | busy => rfl
  | bad =>
    cases s.params.decFailPolicy with
    | retryAll => rfl
    | discardAtCeiling =>
      exact congrArg (fun t => DecStep.consumed { t with decDiscard := true }) (discardPacket_withoutStatus u)

theorem decAppend_withoutStatus (s : State) (v : Byte) :
    decAppend s.withoutStatus v = (decAppend s v).withoutStatus := by
  cases hd : s.decDiscard with
  | true =>
    rw [decAppend_of_discard hd, decAppend_of_discard (s := s.withoutStatus) hd]
    rfl
  | false =>
    rw [decAppend_of_assembling hd, decAppend_of_assembling (s := s.withoutStatus) hd, decPacket_withoutStatus]
    exact andThen_withoutStatus fun t => appendAssembled_withoutStatus s t v

theorem deliver_withoutStatus (s0 s : State) :
    deliver s0.withoutStatus s.withoutStatus = (deliver s0 s).withoutStatus := by
  unfold deliver
  rw [withoutStatus_decPkt]
  rcases s.decPkt with _ | h
  · rfl
  simp only [withoutStatus_packet]
  rcases s.packet h with _ | p
  · rfl
  simp only [Option.map_some, drawSink_withoutStatus]
  rcases drawSink s h p with ⟨a, u⟩
  cases a with
  | busy => rfl
  | bad =>
    exact congrArg (fun t => DecStep.consumed { t with decPkt := none, decState := .data, decDiscard := false })
      (dereference_withoutStatus u h).symm
  | good k =>
    have hkept := dereference_withoutStatus (u.setPacket h { p with ref := p.ref + k }) h
    rw [setPacket_withoutStatus] at hkept
    exact congrArg (fun t => DecStep.consumed { t with decPkt := none, decState := .data, decDiscard := false })
      hkept.symm

theorem decComplete_withoutStatus (s : State) : decComplete s.withoutStatus = (decComplete s).withoutStatus := by
  cases hd : s.decDiscard with
  | true =>
    rw [decComplete_of_discard hd, decComplete_of_discard (s := s.withoutStatus) hd]
    rfl
  | false =>
    by_cases he : s.decPkt = none ∧ s.params.emptyFramePolicy = .drop
    · rw [decComplete_of_dropped hd he, decComplete_of_dropped (s := s.withoutStatus) hd he]
      rfl
    · rw [decComplete_of_offered hd he, decComplete_of_offered (s := s.withoutStatus) hd he, decPacket_withoutStatus]
      exact andThen_withoutStatus (deliver_withoutStatus s)

/-- Every case of the decoder is the same with and without status tags. -/
theorem wireUnit_withoutStatus (s : State) (hw : i.isCommand = false) :
    unitStep i s.withoutStatus = (unitStep i s).withoutStatus := by
  cases i with
  | wireData b => exact decAppend_withoutStatus s b
  | wireCtrl => rfl
  | wireIdle => rfl
  | wireEsc =>
    change decEscaped s.withoutStatus = (decEscaped s).withoutStatus
    rw [decEscaped_eq, decEscaped_eq, withoutStatus_cp, decAppend_withoutStatus]
    exact andThen_withoutStatus fun _ => rfl
  | wireEnd => exact decComplete_withoutStatus s
  | wireAbort =>
    exact congrArg (fun t => DecStep.consumed { t with decDiscard := false, decState := .data })
      (discardPacket_withoutStatus s)
  | wireLiteral b =>
    change decLiteralPair s.withoutStatus b = (decLiteralPair s b).withoutStatus
    rw [decLiteralPair_eq, decLiteralPair_eq, withoutStatus_cp, decAppend_withoutStatus]
    exact andThen_withoutStatus fun t => decAppend_withoutStatus { t with decState := .data } b
  | _ => cases hw

theorem exec_receive_sameUpToStatus (hi : isReceive i = true) (ht : exec i s = .next t) :
    ∃ t', exec i s.withoutStatus = .next t' ∧ SameUpToStatus t' t := by
  rw [exec_receive hi] at ht ⊢
  refine runCommand_sameUpToStatus (.of_eq ?_) ht
  obtain ⟨e, hw⟩ := unitStep_wireUnit s hi
  obtain ⟨e', _⟩ := unitStep_wireUnit s.withoutStatus hi
  have hunit : wireUnit i s.withoutStatus = wireUnit i s := by cases i <;> rfl
  rw [e, e', hunit, wireUnit_withoutStatus s hw]
  exact finish_withoutStatus _ s

/-! ### The encoder -/

/-- How a micro-step ends, with the status tags blotted out. -/
def EncStep.withoutStatus : EncStep → EncStep
  | .progress t => .progress t.withoutStatus
  | .refused t => .refused t.withoutStatus
  | .faulted c t => .faulted c t.withoutStatus

theorem EncStep.withoutStatus_eq_progress {d : EncStep} :
    d.withoutStatus = .progress u ↔ ∃ t, d = .progress t ∧ t.withoutStatus = u := by
  cases d <;> simp [EncStep.withoutStatus]

theorem EncStep.withoutStatus_eq_refused {d : EncStep} :
    d.withoutStatus = .refused u ↔ ∃ t, d = .refused t ∧ t.withoutStatus = u := by
  cases d <;> simp [EncStep.withoutStatus]

theorem EncStep.withoutStatus_eq_faulted {d : EncStep} {c : FaultCode} :
    d.withoutStatus = .faulted c u ↔ ∃ t, d = .faulted c t ∧ t.withoutStatus = u := by
  cases d <;> simp [EncStep.withoutStatus]

theorem offerByte_withoutStatus (s : State) (v : Byte) {f : State → State}
    (hf : ∀ u, SameUpToStatus (f u.withoutStatus) (f u)) :
    (offerByte s.withoutStatus v f).withoutStatus = (offerByte s v f).withoutStatus := by
  unfold offerByte
  rw [drawTx_withoutStatus]
  rcases drawTx s v with ⟨a, u⟩
  cases a with
  | good => exact congrArg EncStep.progress (hf u)
  | busy => exact congrArg EncStep.refused (withoutStatus_withoutStatus u)
  | bad => exact congrArg EncStep.refused (withoutStatus_withoutStatus u)

theorem stepTransmitting_withoutStatus (s : State) (p : Packet) :
    (stepTransmitting s.withoutStatus p.untagged).withoutStatus = (stepTransmitting s p).withoutStatus := by
  unfold stepTransmitting
  simp only [withoutStatus_encCursor, withoutStatus_encEnd, untagged_data, withoutStatus_encCollision, withoutStatus_cp]
  by_cases hend : s.encCursor = s.encEnd
  · simp only [hend, if_true]
    exact congrArg EncStep.progress (SameUpToStatus.of_eq rfl)
  · simp only [hend, if_false]
    rcases p.data[s.encCursor.toNat]? with _ | b
    · exact congrArg (EncStep.faulted .index) (withoutStatus_withoutStatus s)
    · by_cases hesc : s.encCollision = true ∧ b &&& 0xFC#8 = s.cp
      · simp only [hesc, and_self, if_true]
        exact offerByte_withoutStatus s _ fun _ => .of_eq rfl
      · simp only [hesc, if_false]
        exact offerByte_withoutStatus s _ fun _ => .of_eq rfl

theorem stepFlush_withoutStatus (s : State) :
    (stepFlush s.withoutStatus).withoutStatus = (stepFlush s).withoutStatus := by
  unfold stepFlush
  rw [withoutStatus_encCollision]
  split
  · exact offerByte_withoutStatus s _ fun _ => .of_eq rfl
  · exact congrArg EncStep.progress (SameUpToStatus.of_eq rfl)

/-- The end of a frame tags its packet `Complete`, which blotting undoes. -/
theorem finishFrame_withoutStatus (h : Handle) (p : Packet) (u : State) :
    SameUpToStatus (finishFrame h p.untagged u.withoutStatus) (finishFrame h p u) := by
  have hpackets : ((u.withoutStatus.setPacket h { p with status := .complete }).dereference h).withoutStatus =
      ((u.setPacket h { p with status := .complete }).dereference h).withoutStatus := by
    rw [dereference_withoutStatus, dereference_withoutStatus, setPacket_withoutStatus, setPacket_withoutStatus,
      withoutStatus_withoutStatus]
  exact congrArg (fun t => { t with
    encPkt := none, encCursor := 0#16, encEnd := 0#16, encCollision := false, encMode := .idle }) hpackets

theorem encStep_withoutStatus (s : State) : (encStep s.withoutStatus).withoutStatus = (encStep s).withoutStatus := by
  rcases he : s.encPkt with _ | h
  · simp only [encStep, withoutStatus_encPkt, he]
    exact congrArg (EncStep.faulted .staleHandle) (withoutStatus_withoutStatus s)
  rcases hp : s.packet h with _ | p
  · simp only [encStep, withoutStatus_encPkt, withoutStatus_packet, he, hp]
    exact congrArg (EncStep.faulted .staleHandle) (withoutStatus_withoutStatus s)
  rw [encStep_of_live he hp, encStep_of_live (s := s.withoutStatus) (p := p.untagged) he (by simp [hp]),
    withoutStatus_encMode]
  cases s.encMode with
  | idle => exact congrArg EncStep.progress (withoutStatus_withoutStatus s)
  | transmitting => exact stepTransmitting_withoutStatus s p
  | flushCollision => exact stepFlush_withoutStatus s
  | sendControl => exact offerByte_withoutStatus s _ fun _ => .of_eq rfl
  | sendEndOpcode => exact offerByte_withoutStatus s _ (finishFrame_withoutStatus h p)

/-- Micro-steps from states that differ in status tags alone end alike. -/
theorem encStep_sameUpToStatus (hst : SameUpToStatus s' s) :
    (encStep s').withoutStatus = (encStep s).withoutStatus := by
  rw [← encStep_withoutStatus s', ← encStep_withoutStatus s, hst]

theorem encLoop_sameUpToStatus (n : Nat) (progressed : Bool) (hs : SameUpToStatus s' s) (ht : SameUpToStatus t' t) :
    SameUpToStatus (encLoop s' n progressed t') (encLoop s n progressed t) := by
  induction n generalizing progressed t' t with
  | zero => exact congrArg (State.answer · .good []) ht
  | succ n ih =>
    have hstep := encStep_sameUpToStatus ht
    rw [encLoop_succ, encLoop_succ]
    cases e : encStep t with rw [e] at hstep
    | faulted c u =>
      obtain ⟨u', e', hu⟩ := EncStep.withoutStatus_eq_faulted.mp hstep
      rw [e']
      change s'.withoutStatus.raiseFrom u'.withoutStatus c = s.withoutStatus.raiseFrom u.withoutStatus c
      rw [hs, hu]
    | refused u =>
      obtain ⟨u', e', hu⟩ := EncStep.withoutStatus_eq_refused.mp hstep
      rw [e']
      exact congrArg (State.answer · (if progressed then .good else .busy) []) hu
    | progress u =>
      obtain ⟨u', e', hu⟩ := EncStep.withoutStatus_eq_progress.mp hstep
      have hmode : u'.encMode = u.encMode := by simpa using congrArg State.encMode hu
      rw [e']
      by_cases hm : u.encMode = .idle
      · simp only [hmode, hm, if_true]
        exact congrArg (State.answer · .good []) hu
      · simp only [hmode, hm, if_false]
        exact ih true hu

/-! ### Every instruction -/

theorem execPbAlloc_sameUpToStatus {cap : Half} (ht : execPbAlloc cap s = .next t) :
    ∃ t', execPbAlloc cap s.withoutStatus = .next t' ∧ SameUpToStatus t' t := by
  refine runCommand_sameUpToStatus (.of_eq ?_) ht
  simp only [allocate_withoutStatus]
  rfl

theorem execPbSetCapacity_sameUpToStatus {cap : Half} (ht : execPbSetCapacity h cap s = .next t) :
    ∃ t', execPbSetCapacity h cap s.withoutStatus = .next t' ∧ SameUpToStatus t' t := by
  refine runCommand_sameUpToStatus (ifMutable_sameUpToStatus fun p => ?_) ht
  simp only [untagged_len, untagged_cap, withoutStatus_params, drawRealloc_withoutStatus]
  by_cases hbad : cap.toNat < p.len ∨ cap.toNat = 0 ∨ s.params.lenMax < cap.toNat
  · simp only [hbad, if_true]
    exact .of_eq rfl
  · simp only [hbad, if_false]
    by_cases hsame : cap.toNat = p.cap
    · simp only [hsame, if_true]
      exact .of_eq rfl
    · simp only [hsame, if_false]
      rcases drawRealloc s h cap.toNat with ⟨a, u⟩
      cases a with
      | false => exact .of_eq rfl
      | true =>
        exact setPacket_answer_sameUpToStatus u h { p.untagged with cap := cap.toNat }
          { p with cap := cap.toNat } rfl _ _

theorem execPbReference_sameUpToStatus (ht : execPbReference h s = .next t) :
    ∃ t', execPbReference h s.withoutStatus = .next t' ∧ SameUpToStatus t' t := by
  refine runCommand_sameUpToStatus (ifLive_sameUpToStatus fun p => ?_) ht
  rw [addRef_untagged, withoutStatus_params]
  rcases p.addRef s.params.refMax with _ | q
  · exact .of_eq rfl
  · exact setPacket_answer_sameUpToStatus s h q.untagged q (untagged_untagged q) _ _

theorem execPbDereference_sameUpToStatus (ht : execPbDereference h s = .next t) :
    ∃ t', execPbDereference h s.withoutStatus = .next t' ∧ SameUpToStatus t' t := by
  refine runCommand_sameUpToStatus (.of_eq ?_) ht
  simp only [withoutStatus_packet]
  rcases s.packet h with _ | p
  · rfl
  · simp only [Option.map_some, withoutStatus_held, untagged_ref, withoutStatus_heldRefs, ← dereference_withoutStatus]
    split <;> rfl

theorem execPbSetStatus_sameUpToStatus {st : Byte} (ht : execPbSetStatus h st s = .next t) :
    ∃ t', execPbSetStatus h st s.withoutStatus = .next t' ∧ SameUpToStatus t' t :=
  runCommand_sameUpToStatus (ifLegal_sameUpToStatus _ (ifLive_sameUpToStatus fun p =>
    setPacket_answer_sameUpToStatus s h { p.untagged with status := statusOfCode st }
      { p with status := statusOfCode st } rfl _ _)) ht

theorem execPbGetRefcount_sameUpToStatus (ht : execPbGetRefcount h s = .next t) :
    ∃ t', execPbGetRefcount h s.withoutStatus = .next t' ∧ SameUpToStatus t' t := by
  refine runCommand_sameUpToStatus (ifLive_sameUpToStatus fun p => .of_eq ?_) ht
  simp only [untagged_ref, byteField_withoutStatus]
  rfl

theorem execPbRead_sameUpToStatus {idx : Half} (ht : execPbRead h idx s = .next t) :
    ∃ t', execPbRead h idx s.withoutStatus = .next t' ∧ SameUpToStatus t' t := by
  refine runCommand_sameUpToStatus (ifLive_sameUpToStatus fun p => .of_eq ?_) ht
  rw [untagged_data]
  rcases p.data[idx.toNat]? with _ | b <;> rfl

theorem execPbWrite_sameUpToStatus {idx : Half} {b : Byte} (ht : execPbWrite h idx b s = .next t) :
    ∃ t', execPbWrite h idx b s.withoutStatus = .next t' ∧ SameUpToStatus t' t :=
  runCommand_sameUpToStatus (ifMutable_sameUpToStatus fun p => ifIndex_sameUpToStatus p _
    (setPacket_answer_sameUpToStatus s h { p.untagged with data := p.data.set idx.toNat b }
      { p with data := p.data.set idx.toNat b } rfl _ _)) ht

theorem execMapSetAtype_sameUpToStatus {hp : Half} {a : Byte} (ht : execMapSetAtype h hp a s = .next t) :
    ∃ t', execMapSetAtype h hp a s.withoutStatus = .next t' ∧ SameUpToStatus t' t := by
  refine runCommand_sameUpToStatus (atMutableHeader_sameUpToStatus fun p => ?_) ht
  split
  · exact .of_eq rfl
  · exact putHeader_answer_sameUpToStatus s h p _ _ _ _

theorem execMapValidate_sameUpToStatus {off req rem : Byte} (ht : execMapValidate h off req rem s = .next t) :
    ∃ t', execMapValidate h off req rem s.withoutStatus = .next t' ∧ SameUpToStatus t' t := by
  refine runCommand_sameUpToStatus (ifLegal_sameUpToStatus _ (ifLive_sameUpToStatus fun p => .of_eq ?_)) ht
  rw [withoutStatus_held, validatePacket_withoutStatus]
  split <;> rfl

theorem execMapAppendChecksum_sameUpToStatus {off : Byte} (ht : execMapAppendChecksum h off s = .next t) :
    ∃ t', execMapAppendChecksum h off s.withoutStatus = .next t' ∧ SameUpToStatus t' t := by
  refine runCommand_sameUpToStatus (ifMutable_sameUpToStatus fun p => ?_) ht
  simp only [untagged_len, untagged_data, withoutStatus_params, ensureRoom_withoutStatus]
  rcases headerAt s.params p.data off.toNat with _ | pos
  · exact .of_eq rfl
  · by_cases hck : hasFlag (headerByte p.data pos) maskCk = true
    · simp only [hck, if_true]
      exact .of_eq rfl
    · simp only [hck]
      rcases ensureRoom s h p (p.len + 4) 1 s.params.lenMax with ⟨r, p', u⟩
      cases r with
      | good =>
        exact setPacket_answer_sameUpToStatus u h { p'.untagged with data := withChecksum p.data pos }
          { p' with data := withChecksum p.data pos } rfl _ _
      | busy => exact .of_eq rfl
      | bad => exact .of_eq rfl

theorem execEncSubmit_sameUpToStatus {off : Byte} (ht : execEncSubmit h off s = .next t) :
    ∃ t', execEncSubmit h off s.withoutStatus = .next t' ∧ SameUpToStatus t' t := by
  refine runCommand_sameUpToStatus (ifLive_sameUpToStatus fun p => .of_eq ?_) ht
  simp only [withoutStatus_decPkt, withoutStatus_encMode, withoutStatus_params, untagged_data, untagged_len,
    addRef_untagged]
  by_cases hd : s.decPkt = some h
  · simp only [hd, if_true]
    rfl
  · simp only [hd, if_false]
    by_cases hm : s.encMode ≠ .idle
    · simp only [if_pos hm]
      rfl
    · simp only [if_neg hm]
      rcases startPos s.params p.data off.toNat with _ | start
      · rfl
      · simp only
        rcases p.addRef s.params.refMax with _ | q
        · rfl
        · exact congrArg (fun t => State.answer { t with
            encPkt := some h, encCursor := BitVec.ofNat 16 start, encEnd := BitVec.ofNat 16 p.len,
            encCollision := false, encMode := .transmitting } .good []) (setPacket_withoutStatus s h q).symm

theorem execEncProcess_sameUpToStatus (ht : execEncProcess s = .next t) :
    ∃ t', execEncProcess s.withoutStatus = .next t' ∧ SameUpToStatus t' t := by
  refine runCommand_sameUpToStatus ?_ ht
  rw [withoutStatus_encMode]
  split
  · exact .of_eq rfl
  · exact encLoop_sameUpToStatus _ _ (withoutStatus_withoutStatus s) (withoutStatus_withoutStatus s)

theorem execCfgSetPrefix_sameUpToStatus {v : Byte} (ht : execCfgSetPrefix v s = .next t) :
    ∃ t', execCfgSetPrefix v s.withoutStatus = .next t' ∧ SameUpToStatus t' t := by
  refine runCommand_sameUpToStatus (.of_eq ?_) ht
  rw [withoutStatus_quiescent]
  by_cases hv : v &&& 3#8 ≠ 0#8
  · simp only [if_pos hv]
    rfl
  · simp only [if_neg hv]
    split <;> rfl

/-- Every instruction but the read of the tag does the same with and without status tags. -/
theorem exec_sameUpToStatus (hi : ∀ h, i ≠ .pbGetStatus h) (ht : exec i s = .next t) :
    ∃ t', exec i s.withoutStatus = .next t' ∧ SameUpToStatus t' t := by
  cases i with dsimp only [exec] at ht ⊢
  | crcReset => exact runCommand_sameUpToStatus (.of_eq rfl) ht
  | crcSink b => exact runCommand_sameUpToStatus (.of_eq rfl) ht
  | crcGet => exact runCommand_sameUpToStatus (.of_eq rfl) ht
  | c78EncU h v inc lim =>
    exact runCommand_sameUpToStatus (ifMutable_sameUpToStatus fun p => .of_eq (appendCommand_withoutStatus ..)) ht
  | c78DecU h cur => exact runCommand_sameUpToStatus (readC78_sameUpToStatus h cur id s) ht
  | c78EncS h v inc lim =>
    exact runCommand_sameUpToStatus (ifMutable_sameUpToStatus fun p => .of_eq (appendCommand_withoutStatus ..)) ht
  | c78DecS h cur => exact runCommand_sameUpToStatus (readC78_sameUpToStatus h cur unZigZag s) ht
  | pbAlloc cap => exact execPbAlloc_sameUpToStatus ht
  | pbSetCapacity h cap => exact execPbSetCapacity_sameUpToStatus ht
  | pbAppend h b inc lim =>
    exact runCommand_sameUpToStatus (ifMutable_sameUpToStatus fun p => .of_eq (appendCommand_withoutStatus ..)) ht
  | pbReference h => exact execPbReference_sameUpToStatus ht
  | pbDereference h => exact execPbDereference_sameUpToStatus ht
  | pbSetStatus h st => exact execPbSetStatus_sameUpToStatus ht
  | pbGetStatus h => exact absurd rfl (hi h)
  | pbGetLength h => exact runCommand_sameUpToStatus (ifLive_sameUpToStatus fun _ => .of_eq rfl) ht
  | pbGetCapacity h => exact runCommand_sameUpToStatus (ifLive_sameUpToStatus fun _ => .of_eq rfl) ht
  | pbGetRefcount h => exact execPbGetRefcount_sameUpToStatus ht
  | pbRead h idx => exact execPbRead_sameUpToStatus ht
  | pbWrite h idx b => exact execPbWrite_sameUpToStatus ht
  | mapGetCk h hp => exact runCommand_sameUpToStatus (getFlag_sameUpToStatus _ h hp s) ht
  | mapSetCk h hp f => exact runCommand_sameUpToStatus (setFlag_sameUpToStatus _ h hp f s) ht
  | mapGetNp h hp => exact runCommand_sameUpToStatus (getFlag_sameUpToStatus _ h hp s) ht
  | mapSetNp h hp f => exact runCommand_sameUpToStatus (setFlag_sameUpToStatus _ h hp f s) ht
  | mapGetDa h hp => exact runCommand_sameUpToStatus (getFlag_sameUpToStatus _ h hp s) ht
  | mapSetDa h hp f => exact runCommand_sameUpToStatus (setFlag_sameUpToStatus _ h hp f s) ht
  | mapGetSa h hp => exact runCommand_sameUpToStatus (getFlag_sameUpToStatus _ h hp s) ht
  | mapSetSa h hp f => exact runCommand_sameUpToStatus (setFlag_sameUpToStatus _ h hp f s) ht
  | mapGetAtype h hp => exact runCommand_sameUpToStatus (atHeader_sameUpToStatus fun _ => .of_eq rfl) ht
  | mapSetAtype h hp a => exact execMapSetAtype_sameUpToStatus ht
  | mapNextprotoPos h hp =>
    exact runCommand_sameUpToStatus (atHeader_sameUpToStatus fun _ => .of_eq (answerPos_withoutStatus s _)) ht
  | mapDestPos h hp =>
    exact runCommand_sameUpToStatus (atHeader_sameUpToStatus fun _ => .of_eq (answerPos_withoutStatus s _)) ht
  | mapSrcPos h hp =>
    exact runCommand_sameUpToStatus (atHeader_sameUpToStatus fun _ => .of_eq (answerPos_withoutStatus s _)) ht
  | mapContentsPos h hp =>
    exact runCommand_sameUpToStatus (atHeader_sameUpToStatus fun _ => .of_eq (answerPos_withoutStatus s _)) ht
  | mapNextHeader h hp =>
    exact runCommand_sameUpToStatus (atHeader_sameUpToStatus fun _ => .of_eq (answerPos_withoutStatus s _)) ht
  | mapHeader h off =>
    exact runCommand_sameUpToStatus (ifLive_sameUpToStatus fun _ => .of_eq (answerPos_withoutStatus s _)) ht
  | mapData h off =>
    exact runCommand_sameUpToStatus (ifLive_sameUpToStatus fun _ => .of_eq (answerPos_withoutStatus s _)) ht
  | mapValidate h off req rem => exact execMapValidate_sameUpToStatus ht
  | mapAppendChecksum h off => exact execMapAppendChecksum_sameUpToStatus ht
  | encSubmit h off => exact execEncSubmit_sameUpToStatus ht
  | encProcess => exact execEncProcess_sameUpToStatus ht
  | cfgSetPrefix v => exact execCfgSetPrefix_sameUpToStatus ht
  | cfgGetPrefix => exact runCommand_sameUpToStatus (.of_eq rfl) ht
  | sysGetFault =>
    cases ht
    exact ⟨_, rfl, .of_eq rfl⟩
  | decRx b => exact exec_receive_sameUpToStatus (i := .decRx b) rfl ht
  | wireData b => exact exec_receive_sameUpToStatus (i := .wireData b) rfl ht
  | wireCtrl => exact exec_receive_sameUpToStatus (i := .wireCtrl) rfl ht
  | wireIdle => exact exec_receive_sameUpToStatus (i := .wireIdle) rfl ht
  | wireEsc => exact exec_receive_sameUpToStatus (i := .wireEsc) rfl ht
  | wireEnd => exact exec_receive_sameUpToStatus (i := .wireEnd) rfl ht
  | wireAbort => exact exec_receive_sameUpToStatus (i := .wireAbort) rfl ht
  | wireLiteral b => exact exec_receive_sameUpToStatus (i := .wireLiteral b) rfl ht

end

/-! ### The obligation -/

/-- Settles O18: each of two states that differ only in status tags does what their common state without tags does. -/
theorem statusTagsInfluenceNothing : Obligations.StatusTagsInfluenceNothing := by
  intro i s s' t t' hss hi ht ht'
  obtain ⟨u, hu, htu⟩ := exec_sameUpToStatus hi ht
  obtain ⟨u', hu', htu'⟩ := exec_sameUpToStatus hi ht'
  rw [hss, hu'] at hu
  cases hu
  exact htu.symm.trans htu'

end Sys2Proof.Machine
end

section
/-! SUPPORT. What an instruction does to the packets: `exec_memoryEffect` inverts every command of the host into the one record
that it writes, if any, and the bytes of it that it stores to; the encoder writes its own packet, and the decoder its own. -/

namespace Sys2Proof.Machine

section

variable {s t u : State} {h k : Handle} {p q r : Packet} {i : Instr} {d : DecStep}

/-! ### The bytes that a command stores -/

/-- A byte list with one byte replaced reads the same elsewhere. -/
theorem getElem?_clearCkAt {data : List Byte} {a pos : Nat} (ha : a ≠ pos) : (clearCkAt data pos)[a]? = data[a]? :=
  List.getElem?_set_ne ha.symm

theorem getElem?_foldl_clearCkAt {removed : List Nat} {a : Nat} (ha : a ∉ removed) (data : List Byte) :
    (removed.foldl clearCkAt data)[a]? = data[a]? := by
  induction removed generalizing data with
  | nil => rfl
  | cons pos removed ih =>
    rw [List.mem_cons, not_or] at ha
    obtain ⟨hpos, hrest⟩ := ha
    rw [List.foldl_cons, ih hrest, getElem?_clearCkAt hpos]

/-- A removal takes away what lies behind the stop position and clears the bits of the removed levels (43_map.md R213). -/
theorem getElem?_removeTrailers {clear : Bool} {data : List Byte} {stop a : Nat} {removed : List Nat} (hstop : a < stop)
    (ha : a ∉ removed) : (removeTrailers clear data stop removed)[a]? = data[a]? := by
  unfold removeTrailers
  split
  · rw [getElem?_foldl_clearCkAt ha, List.getElem?_take_of_lt hstop]
  · rw [List.getElem?_take_of_lt hstop]

/-- An append stores to the bytes that it adds alone. -/
theorem getElem?_append_outside {data bytes : List Byte} {a : Nat}
    (ha : ¬ (data.length ≤ a ∧ a < data.length + bytes.length)) : (data ++ bytes)[a]? = data[a]? := by
  by_cases hlt : a < data.length
  · rw [List.getElem?_append_left hlt]
  · have hend : data.length + bytes.length ≤ a := by omega
    rw [List.getElem?_eq_none (by simpa using hend), List.getElem?_eq_none (Nat.le_of_not_lt hlt)]

/-- An appended checksum is stored to the header byte and behind the packet's end (43_map.md R215). -/
theorem getElem?_withChecksum {data : List Byte} {pos a : Nat} (hpos : a ≠ pos)
    (ha : ¬ (data.length ≤ a ∧ a < data.length + 4)) : (withChecksum data pos)[a]? = data[a]? := by
  unfold withChecksum
  rw [getElem?_append_outside (by simpa [crcTrailer] using ha), List.getElem?_set_ne hpos.symm]

theorem length_c78Emit (v : Word) (n : Nat) : (c78Emit v n).length = n := by
  induction n using c78Emit.induct with
  | case1 => rfl
  | case2 => rfl
  | case3 n ih => simp [c78Emit, ih]

theorem length_c78Encode (v : Word) : (c78Encode v).length = c78Groups v := length_c78Emit v _

/-! ### The effects on the packets -/

/-- How a command may rewrite the record that it names: only the bytes that it stores to, and neither bytes nor capacity where
a unit holds the packet (20_memory.md R73, R74). -/
structure StoresWithin (i : Instr) (s : State) (h : Handle) (p q : Packet) : Prop where
  bytes : ∀ a, ¬ storesTo i s h a → q.data[a]? = p.data[a]?
  held : s.held h = true → q.data = p.data ∧ q.cap = p.cap

/-- All that a command of the host can do to the packets. -/
inductive MemoryEffect (i : Instr) (s t : State) : Prop
  | kept (hpm : t.pm = s.pm)
  | rewrote (h : Handle) (hi : handleOf i = some h) (p q : Packet) (hp : s.packet h = some p)
      (hq : StoresWithin i s h p q) (hpm : t.pm = s.pm.put h q)
  | released (h : Handle) (hi : handleOf i = some h) (hpm : t.pm = (s.dereference h).pm)
  | allocated (cap : Half) (hi : i = .pbAlloc cap) (p : Packet) (hpm : t.pm = s.pm.put s.nextHandle p)
  | finished (hi : i = .encProcess) (h : Handle) (p : Packet) (he : s.encPkt = some h) (hp : s.packet h = some p)
      (hpm : t.pm = (finishFrame h p s).pm)

/-- A record whose bytes and capacity stay. -/
theorem storesWithin_of_same (hdata : q.data = p.data) (hcap : q.cap = p.cap) : StoresWithin i s h p q :=
  ⟨fun _ _ => by rw [hdata], fun _ => ⟨hdata, hcap⟩⟩

/-- A record of a packet that no unit holds. -/
theorem storesWithin_of_free (hh : s.held h = false) (hbytes : ∀ a, ¬ storesTo i s h a → q.data[a]? = p.data[a]?) :
    StoresWithin i s h p q :=
  ⟨hbytes, fun hk => absurd hk (by simp [hh])⟩

theorem runCommand_memoryEffect {f : State → State} (ht : runCommand s f = .next t) (hf : MemoryEffect i s (f s)) :
    MemoryEffect i s t := by
  by_cases hok : s.fault = 0#8
  · rw [runCommand_of_ok s f hok] at ht
    cases ht
    exact hf
  · rw [runCommand_of_faulted s f hok] at ht
    cases ht
    exact .kept rfl

theorem ifLegal_memoryEffect (legal : Bool) (hu : MemoryEffect i s u) : MemoryEffect i s (s.ifLegal legal u) := by
  cases legal
  · exact .kept rfl
  · exact hu

theorem ifLive_memoryEffect {f : Packet → State} (hf : ∀ p, s.packet h = some p → MemoryEffect i s (f p)) :
    MemoryEffect i s (s.ifLive h f) := by
  rcases hp : s.packet h with _ | p
  · rw [ifLive_of_dead hp]; exact .kept rfl
  · rw [ifLive_of_live hp]; exact hf p hp

theorem ifMutable_memoryEffect {f : Packet → State}
    (hf : ∀ p, s.packet h = some p → s.held h = false → MemoryEffect i s (f p)) :
    MemoryEffect i s (s.ifMutable h f) := by
  refine ifLive_memoryEffect fun p hp => ?_
  cases hh : s.held h with
  | true => exact .kept rfl
  | false => exact hf p hp hh

theorem ifIndex_memoryEffect (p : Packet) (n : Nat) (hu : MemoryEffect i s u) : MemoryEffect i s (s.ifIndex p n u) := by
  unfold State.ifIndex
  split
  · exact hu
  · exact .kept rfl

theorem answerPos_memoryEffect (i : Instr) (s : State) (o : Option Nat) : MemoryEffect i s (s.answerPos o) := by
  cases o <;> exact .kept rfl

theorem atHeader_memoryEffect {hp : Half} {f : State → Packet → State} (hf : ∀ p, MemoryEffect i s (f s p)) :
    MemoryEffect i s (atHeader h hp f s) :=
  ifLive_memoryEffect fun p _ => ifIndex_memoryEffect p _ (hf p)

theorem getFlag_memoryEffect (m : Byte) (h : Handle) (hp : Half) : MemoryEffect i s (getFlag m h hp s) :=
  atHeader_memoryEffect fun _ => .kept rfl

/-- One byte of a packet that no unit holds is replaced. -/
theorem setByte_memoryEffect (hi : handleOf i = some h) (hp : s.packet h = some p) (hh : s.held h = false) {a : Nat}
    (hstore : storesTo i s h a) (x : Byte) (fs : List Field) :
    MemoryEffect i s ((s.setPacket h { p with data := p.data.set a x }).answer .good fs) := by
  refine .rewrote h hi p _ hp (storesWithin_of_free hh fun b hb => ?_) rfl
  have hne : a ≠ b := by rintro rfl; exact hb hstore
  exact List.getElem?_set_ne hne

theorem setFlag_memoryEffect (m : Byte) {hp : Half} (f : Byte) (hi : handleOf i = some h)
    (hstore : storesTo i s h hp.toNat) : MemoryEffect i s (setFlag m h hp f s) :=
  ifLegal_memoryEffect _ (ifMutable_memoryEffect fun p hp' hh => ifIndex_memoryEffect p _
    (setByte_memoryEffect hi hp' hh hstore _ _))

theorem readC78_memoryEffect (h : Handle) (cur : Half) (f : Word → Word) : MemoryEffect i s (readC78 h cur f s) := by
  refine ifLive_memoryEffect fun p _ => ?_
  split
  · exact .kept rfl
  · split <;> exact .kept rfl

theorem appendCommand_memoryEffect (hi : handleOf i = some h) (hp : s.packet h = some p) (hh : s.held h = false)
    (bytes : List Byte) (inc lim : Nat) (hstore : ∀ a, p.len ≤ a → a < p.len + bytes.length → storesTo i s h a) :
    MemoryEffect i s (appendCommand s h p bytes inc lim) := by
  obtain ⟨r, p', u, he, e⟩ := appendCommand_cases s h p bytes inc lim
  obtain ⟨hu, hp', _⟩ := ensureRoom_frame he
  rw [e, hu]
  split
  · refine .rewrote h hi p _ hp (storesWithin_of_free hh fun a ha => ?_) rfl
    rw [hp']
    exact getElem?_append_outside fun hin => ha (hstore a hin.1 hin.2)
  · exact .kept rfl

/-! ### The effects of the commands on the packets -/

theorem execPbAlloc_memoryEffect {cap : Half} (ht : execPbAlloc cap s = .next t) :
    MemoryEffect (.pbAlloc cap) s t := by
  refine runCommand_memoryEffect ht ?_
  rcases allocate_cases s cap.toNat with ⟨_, e⟩ | ⟨_, _, ⟨u, hd, e⟩ | ⟨u, hd, _, e⟩ | ⟨u, hd, _, e⟩⟩
  all_goals simp only [e]
  · exact .kept rfl
  · rw [drawAlloc_undoTo hd]; exact .kept rfl
  · rw [drawAlloc_undoTo hd]; exact .kept rfl
  · rw [drawAlloc_undoTo hd]; exact .allocated cap rfl _ rfl

theorem execPbSetCapacity_memoryEffect {cap : Half} (ht : execPbSetCapacity h cap s = .next t) :
    MemoryEffect (.pbSetCapacity h cap) s t := by
  refine runCommand_memoryEffect ht (ifMutable_memoryEffect fun p hp hh => ?_)
  split
  · exact .kept rfl
  · split
    · exact .kept rfl
    · split
      · next u hd => rw [drawRealloc_undoTo hd]; exact .kept rfl
      · next u hd =>
        rw [drawRealloc_undoTo hd]
        exact .rewrote h rfl p { p with cap := cap.toNat } hp (storesWithin_of_free hh fun _ _ => rfl) rfl

theorem execPbReference_memoryEffect (ht : execPbReference h s = .next t) : MemoryEffect (.pbReference h) s t := by
  refine runCommand_memoryEffect ht (ifLive_memoryEffect fun p hp => ?_)
  split
  · exact .kept rfl
  · next q hq =>
    obtain ⟨_, rfl⟩ := addRef_eq_some.mp hq
    exact .rewrote h rfl p { p with ref := p.ref + 1 } hp (storesWithin_of_same rfl rfl) rfl

theorem execPbDereference_memoryEffect (ht : execPbDereference h s = .next t) :
    MemoryEffect (.pbDereference h) s t := by
  refine runCommand_memoryEffect ht ?_
  split
  · exact .kept rfl
  · split
    · exact .kept rfl
    · exact .released h rfl rfl

theorem execPbSetStatus_memoryEffect {st : Byte} (ht : execPbSetStatus h st s = .next t) :
    MemoryEffect (.pbSetStatus h st) s t :=
  runCommand_memoryEffect ht (ifLegal_memoryEffect _ (ifLive_memoryEffect fun p hp =>
    .rewrote h rfl p { p with status := statusOfCode st } hp (storesWithin_of_same rfl rfl) rfl))

theorem execPbGetRefcount_memoryEffect (ht : execPbGetRefcount h s = .next t) :
    MemoryEffect (.pbGetRefcount h) s t := by
  refine runCommand_memoryEffect ht (ifLive_memoryEffect fun p _ => .kept ?_)
  change (s.byteField Config.freeCount p.ref).2.pm = s.pm
  rw [byteField_frame]
  rfl

theorem execPbRead_memoryEffect {idx : Half} (ht : execPbRead h idx s = .next t) :
    MemoryEffect (.pbRead h idx) s t := by
  refine runCommand_memoryEffect ht (ifLive_memoryEffect fun p _ => ?_)
  split <;> exact .kept rfl

theorem execPbWrite_memoryEffect {idx : Half} {b : Byte} (ht : execPbWrite h idx b s = .next t) :
    MemoryEffect (.pbWrite h idx b) s t :=
  runCommand_memoryEffect ht (ifMutable_memoryEffect fun p hp hh => ifIndex_memoryEffect p _
    (setByte_memoryEffect (i := .pbWrite h idx b) (a := idx.toNat) rfl hp hh ⟨rfl, rfl⟩ _ _))

theorem execMapSetAtype_memoryEffect {pos : Half} {a : Byte} (ht : execMapSetAtype h pos a s = .next t) :
    MemoryEffect (.mapSetAtype h pos a) s t := by
  refine runCommand_memoryEffect ht (ifMutable_memoryEffect fun p hp hh => ifIndex_memoryEffect p _ ?_)
  split
  · exact .kept rfl
  · exact setByte_memoryEffect (i := .mapSetAtype h pos a) (a := pos.toNat) rfl hp hh ⟨rfl, rfl⟩ _ _

theorem answerLevel_memoryEffect (i : Instr) (s : State) (r : CkReason) (j : Nat) :
    MemoryEffect i s (answerLevel s r j) := by
  refine .kept ?_
  change (s.byteField Config.freeLevel j).2.pm = s.pm
  rw [byteField_frame]
  rfl

theorem validatePacket_memoryEffect {off req rem : Byte} (hp : s.packet h = some p)
    (hh : rem = 1#8 → s.held h = false) :
    MemoryEffect (.mapValidate h off req rem) s (validatePacket s h p off req rem) := by
  unfold validatePacket
  split
  · exact .kept rfl
  · split
    · exact .kept rfl
    · next pos hpos =>
      split
      · exact .kept rfl
      · split
        · exact answerLevel_memoryEffect _ s _ _
        · exact answerLevel_memoryEffect _ s _ _
        · next stop removed hwalk =>
          by_cases hrem : rem = 1#8
          · simp only [if_pos hrem]
            refine .rewrote h rfl p _ hp (storesWithin_of_free (hh hrem) fun a ha => ?_) rfl
            have hout : ¬ (stop ≤ a ∨ a ∈ removed) := fun hin =>
              ha ⟨rfl, hrem, p, pos, stop, removed, hp, hpos, hwalk, hin⟩
            rw [not_or, Nat.not_le] at hout
            exact getElem?_removeTrailers hout.1 hout.2
          · simp only [if_neg hrem]
            exact .kept rfl

theorem execMapValidate_memoryEffect {off req rem : Byte} (ht : execMapValidate h off req rem s = .next t) :
    MemoryEffect (.mapValidate h off req rem) s t := by
  refine runCommand_memoryEffect ht (ifLegal_memoryEffect _ (ifLive_memoryEffect fun p hp => ?_))
  split
  · exact .kept rfl
  · next hfree => exact validatePacket_memoryEffect hp fun hrem => by simpa [hrem] using hfree

theorem execMapAppendChecksum_memoryEffect {off : Byte} (ht : execMapAppendChecksum h off s = .next t) :
    MemoryEffect (.mapAppendChecksum h off) s t := by
  refine runCommand_memoryEffect ht (ifMutable_memoryEffect fun p hp hh => ?_)
  split
  · exact .kept rfl
  · next pos hpos =>
    split
    · exact .kept rfl
    · rcases he : ensureRoom s h p (p.len + 4) 1 s.params.lenMax with ⟨r, p', u⟩
      rw [(ensureRoom_frame he).1]
      cases r with
      | good =>
        refine .rewrote h rfl p _ hp (storesWithin_of_free hh fun a ha => ?_) rfl
        refine getElem?_withChecksum (fun e => ha ⟨rfl, p, hp, .inl ?_⟩) fun hin => ha ⟨rfl, p, hp, .inr hin⟩
        rw [e]
        exact hpos
      | busy => exact .kept rfl
      | bad => exact .kept rfl

theorem execEncSubmit_memoryEffect {off : Byte} (ht : execEncSubmit h off s = .next t) :
    MemoryEffect (.encSubmit h off) s t := by
  refine runCommand_memoryEffect ht (ifLive_memoryEffect fun p hp => ?_)
  split
  · exact .kept rfl
  · split
    · exact .kept rfl
    · split
      · exact .kept rfl
      · split
        · exact .kept rfl
        · next q hq =>
          obtain ⟨_, rfl⟩ := addRef_eq_some.mp hq
          exact .rewrote h rfl p { p with ref := p.ref + 1 } hp (storesWithin_of_same rfl rfl) rfl

theorem execCfgSetPrefix_memoryEffect {v : Byte} (ht : execCfgSetPrefix v s = .next t) :
    MemoryEffect (.cfgSetPrefix v) s t := by
  refine runCommand_memoryEffect ht ?_
  split
  · exact .kept rfl
  · split <;> exact .kept rfl

/-! ### The encoder's packet -/

/-- A micro-step leaves the packets and the encoder's handle alone, or completes the frame and is idle. -/
inductive EncStep.PacketsKept (s : State) : EncStep → Prop
  | progress (t : State) (hpm : t.pm = s.pm) (henc : t.encPkt = s.encPkt) : PacketsKept s (.progress t)
  | finished (h : Handle) (p : Packet) (u : State) (he : s.encPkt = some h) (hp : s.packet h = some p) :
      PacketsKept s (.progress (finishFrame h p (s.undoTo u)))
  | refused (u : State) : PacketsKept s (.refused (s.undoTo u))
  | faulted (c : FaultCode) (t : State) : PacketsKept s (.faulted c t)

theorem offerByte_packetsKept (v : Byte) {f : State → State} (hpm : ∀ u, (f u).pm = u.pm)
    (henc : ∀ u, (f u).encPkt = u.encPkt) : (offerByte s v f).PacketsKept s := by
  obtain ⟨u, e | e⟩ := offerByte_eq s v f
  · rw [e]; exact .progress _ (hpm _) (henc _)
  · rw [e]; exact .refused u

theorem stepTransmitting_packetsKept (s : State) (p : Packet) : (stepTransmitting s p).PacketsKept s := by
  unfold stepTransmitting
  split
  · exact .progress _ rfl rfl
  · split
    · exact .faulted _ _
    · split <;> exact offerByte_packetsKept _ (fun _ => rfl) fun _ => rfl

theorem stepFlush_packetsKept (s : State) : (stepFlush s).PacketsKept s := by
  unfold stepFlush
  split
  · exact offerByte_packetsKept _ (fun _ => rfl) fun _ => rfl
  · exact .progress _ rfl rfl

theorem encStep_packetsKept (s : State) : (encStep s).PacketsKept s := by
  rcases he : s.encPkt with _ | h
  · simp only [encStep, he]; exact .faulted _ _
  rcases hp : s.packet h with _ | p
  · simp only [encStep, he, hp]; exact .faulted _ _
  rw [encStep_of_live he hp]
  split
  · exact .progress _ rfl rfl
  · exact stepTransmitting_packetsKept s p
  · exact stepFlush_packetsKept s
  · exact offerByte_packetsKept _ (fun _ => rfl) fun _ => rfl
  · obtain ⟨u, e | e⟩ := offerByte_eq s (s.cp ||| 2#8) (finishFrame h p)
    · rw [stepEnd, e]; exact .finished h p u he hp
    · rw [stepEnd, e]; exact .refused u

/-- The end of a frame looks at the packets alone. -/
theorem finishFrame_pm (hpm : u.pm = s.pm) : (finishFrame h p u).pm = (finishFrame h p s).pm := by
  simp only [finishFrame, dereference_eq_memory, setPacket_pm, hpm]

/-- `ENC_PROCESS` leaves the packets alone, or completes the frame of the encoder's packet (45_frame_encoder.md R266). -/
theorem encLoop_pm (n : Nat) (progressed : Bool) (hpm : t.pm = s.pm) (henc : t.encPkt = s.encPkt) :
    (encLoop s n progressed t).pm = s.pm ∨
      ∃ h p, s.encPkt = some h ∧ s.packet h = some p ∧ (encLoop s n progressed t).pm = (finishFrame h p s).pm := by
  induction n generalizing progressed t with
  | zero => exact .inl hpm
  | succ n ih =>
    have hstep := encStep_packetsKept t
    rw [encLoop_succ]
    cases e : encStep t with rw [e] at hstep
    | faulted c u => exact .inl rfl
    | refused u =>
      cases hstep
      exact .inl hpm
    | progress u =>
      cases hstep with
      | progress _ hu huenc =>
        by_cases hm : u.encMode = .idle
        · simp only [if_pos hm]
          exact .inl (hu.trans hpm)
        · simp only [if_neg hm]
          exact ih true (hu.trans hpm) (huenc.trans henc)
      | finished h p u he hp =>
        exact .inr ⟨h, p, henc ▸ he, (congrArg (Memory.lookup · h) hpm).symm.trans hp, finishFrame_pm hpm⟩

theorem execEncProcess_memoryEffect (ht : execEncProcess s = .next t) : MemoryEffect .encProcess s t := by
  refine runCommand_memoryEffect ht ?_
  split
  · exact .kept rfl
  · rcases encLoop_pm (s := s) (encBound s) false rfl rfl with hpm | ⟨h, p, he, hp, hpm⟩
    · exact .kept hpm
    · exact .finished rfl h p he hp hpm

/-! ### Every command of the host -/

theorem exec_memoryEffect (hi : isReceive i = false) (ht : exec i s = .next t) : MemoryEffect i s t := by
  cases i with dsimp only [exec] at ht
  | crcReset => exact runCommand_memoryEffect ht (.kept rfl)
  | crcSink b => exact runCommand_memoryEffect ht (.kept rfl)
  | crcGet => exact runCommand_memoryEffect ht (.kept rfl)
  | c78EncU h v inc lim =>
    refine runCommand_memoryEffect ht (ifMutable_memoryEffect fun p hp hh => ?_)
    exact appendCommand_memoryEffect rfl hp hh _ _ _ fun a hlo hhi => ⟨rfl, p, hp, hlo, length_c78Encode v ▸ hhi⟩
  | c78DecU h cur => exact runCommand_memoryEffect ht (readC78_memoryEffect h cur id)
  | c78EncS h v inc lim =>
    refine runCommand_memoryEffect ht (ifMutable_memoryEffect fun p hp hh => ?_)
    exact appendCommand_memoryEffect rfl hp hh _ _ _ fun a hlo hhi => ⟨rfl, p, hp, hlo, length_c78Encode _ ▸ hhi⟩
  | c78DecS h cur => exact runCommand_memoryEffect ht (readC78_memoryEffect h cur unZigZag)
  | pbAlloc cap => exact execPbAlloc_memoryEffect ht
  | pbSetCapacity h cap => exact execPbSetCapacity_memoryEffect ht
  | pbAppend h b inc lim =>
    refine runCommand_memoryEffect ht (ifMutable_memoryEffect fun p hp hh => ?_)
    exact appendCommand_memoryEffect rfl hp hh _ _ _ fun a hlo hhi =>
      ⟨rfl, p, hp, Nat.le_antisymm (Nat.le_of_lt_succ hhi) hlo⟩
  | pbReference h => exact execPbReference_memoryEffect ht
  | pbDereference h => exact execPbDereference_memoryEffect ht
  | pbSetStatus h st => exact execPbSetStatus_memoryEffect ht
  | pbGetStatus h => exact runCommand_memoryEffect ht (ifLive_memoryEffect fun _ _ => .kept rfl)
  | pbGetLength h => exact runCommand_memoryEffect ht (ifLive_memoryEffect fun _ _ => .kept rfl)
  | pbGetCapacity h => exact runCommand_memoryEffect ht (ifLive_memoryEffect fun _ _ => .kept rfl)
  | pbGetRefcount h => exact execPbGetRefcount_memoryEffect ht
  | pbRead h idx => exact execPbRead_memoryEffect ht
  | pbWrite h idx b => exact execPbWrite_memoryEffect ht
  | mapGetCk h hp => exact runCommand_memoryEffect ht (getFlag_memoryEffect _ h hp)
  | mapSetCk h hp f => exact runCommand_memoryEffect ht (setFlag_memoryEffect _ f rfl ⟨rfl, rfl⟩)
  | mapGetNp h hp => exact runCommand_memoryEffect ht (getFlag_memoryEffect _ h hp)
  | mapSetNp h hp f => exact runCommand_memoryEffect ht (setFlag_memoryEffect _ f rfl ⟨rfl, rfl⟩)
  | mapGetDa h hp => exact runCommand_memoryEffect ht (getFlag_memoryEffect _ h hp)
  | mapSetDa h hp f => exact runCommand_memoryEffect ht (setFlag_memoryEffect _ f rfl ⟨rfl, rfl⟩)
  | mapGetSa h hp => exact runCommand_memoryEffect ht (getFlag_memoryEffect _ h hp)
  | mapSetSa h hp f => exact runCommand_memoryEffect ht (setFlag_memoryEffect _ f rfl ⟨rfl, rfl⟩)
  | mapGetAtype h hp => exact runCommand_memoryEffect ht (atHeader_memoryEffect fun _ => .kept rfl)
  | mapSetAtype h hp a => exact execMapSetAtype_memoryEffect ht
  | mapNextprotoPos h hp => exact runCommand_memoryEffect ht (atHeader_memoryEffect fun _ => answerPos_memoryEffect _ s _)
  | mapDestPos h hp => exact runCommand_memoryEffect ht (atHeader_memoryEffect fun _ => answerPos_memoryEffect _ s _)
  | mapSrcPos h hp => exact runCommand_memoryEffect ht (atHeader_memoryEffect fun _ => answerPos_memoryEffect _ s _)
  | mapContentsPos h hp => exact runCommand_memoryEffect ht (atHeader_memoryEffect fun _ => answerPos_memoryEffect _ s _)
  | mapNextHeader h hp => exact runCommand_memoryEffect ht (atHeader_memoryEffect fun _ => answerPos_memoryEffect _ s _)
  | mapHeader h off => exact runCommand_memoryEffect ht (ifLive_memoryEffect fun _ _ => answerPos_memoryEffect _ s _)
  | mapData h off => exact runCommand_memoryEffect ht (ifLive_memoryEffect fun _ _ => answerPos_memoryEffect _ s _)
  | mapValidate h off req rem => exact execMapValidate_memoryEffect ht
  | mapAppendChecksum h off => exact execMapAppendChecksum_memoryEffect ht
  | encSubmit h off => exact execEncSubmit_memoryEffect ht
  | encProcess => exact execEncProcess_memoryEffect ht
  | cfgSetPrefix v => exact execCfgSetPrefix_memoryEffect ht
  | cfgGetPrefix => exact runCommand_memoryEffect ht (.kept rfl)
  | sysGetFault =>
    cases ht
    exact .kept rfl
  | decRx | wireData | wireCtrl | wireIdle | wireEsc | wireEnd | wireAbort | wireLiteral => cases hi

end

end Sys2Proof.Machine
end

section
/-! SUPPORT. What a received byte does to the packets: only the packet being assembled, old or new, is written, and its bytes
are extended by what its wire unit may append. -/

namespace Sys2Proof.Machine

section

variable {s t u : State} {h k : Handle} {p q r : Packet} {i : Instr} {d : DecStep} {added : List Byte}
  {adds : List (List Byte)}

/-! ### References come and go, and bytes stay -/

theorem packet_congr (hpm : t.pm = s.pm) (k : Handle) : t.packet k = s.packet k :=
  congrArg (Memory.lookup · k) hpm

theorem dereference_packet_other (s : State) (hne : k ≠ h) : (s.dereference h).packet k = s.packet k := by
  rw [dereference_packet, if_neg hne]

/-- A packet that a dereference leaves has its bytes and its capacity. -/
theorem dereference_contents (hq : (s.dereference h).packet k = some q) :
    ∃ p, s.packet k = some p ∧ q.data = p.data ∧ q.cap = p.cap := by
  rw [dereference_packet] at hq
  split at hq
  · next e =>
    subst e
    obtain ⟨p, hp, hq⟩ := Option.bind_eq_some_iff.mp hq
    refine ⟨p, hp, ?_⟩
    split at hq
    · cases hq; exact ⟨rfl, rfl⟩
    · split at hq
      · cases hq
      · cases hq; exact ⟨rfl, rfl⟩
  · exact ⟨q, hq, rfl, rfl⟩

theorem finishFrame_packet_other (p : Packet) (s : State) (hne : k ≠ h) : (finishFrame h p s).packet k = s.packet k :=
  (dereference_packet_other _ hne).trans (setPacket_packet_other s _ hne)

/-- The end of a frame writes the status and the count of the packet sent. -/
theorem finishFrame_contents (hq : (finishFrame h p s).packet h = some q) : q.data = p.data ∧ q.cap = p.cap := by
  obtain ⟨p', hp', hdata, hcap⟩ := dereference_contents (s := s.setPacket h { p with status := .complete }) hq
  rw [setPacket_packet_self] at hp'
  cases hp'
  exact ⟨hdata, hcap⟩

theorem discardPacket_contents (hq : (discardPacket s).packet k = some q) :
    ∃ p, s.packet k = some p ∧ q.data = p.data ∧ q.cap = p.cap := by
  unfold discardPacket at hq
  split at hq
  · exact ⟨q, hq, rfl, rfl⟩
  · exact dereference_contents hq

theorem discardPacket_packet_other (hd : s.decPkt ≠ some k) : (discardPacket s).packet k = s.packet k := by
  unfold discardPacket
  split
  · rfl
  · next h hdec => exact dereference_packet_other s fun e => hd (e ▸ hdec)

theorem discardPacket_decPkt (s : State) : (discardPacket s).decPkt = none := by
  unfold discardPacket
  split
  · next hd => exact hd
  · rfl

/-! ### Packets out of the decoder's reach -/

/-- The decoder can not write this packet: it does not hold it, and where it may yet allocate, the handle is not the next. -/
def OutOfReach (k : Handle) (s : State) : Prop :=
  s.decPkt ≠ some k ∧ (s.decPkt = none → s.decDiscard = false → k ≠ s.nextHandle)

theorem outOfReach_of_holds (hd : s.decPkt = some h) (hne : k ≠ h) : OutOfReach k s :=
  ⟨fun e => hne (Option.some.inj (e.symm.trans hd)), fun e => by simp [hd] at e⟩

theorem outOfReach_enterDiscard (k : Handle) (s : State) : OutOfReach k (enterDiscard s) :=
  ⟨fun e => by simp [enterDiscard, discardPacket_decPkt] at e, nofun⟩

theorem andThen_eq_consumed {g : State → DecStep} :
    d.andThen g = .consumed t ↔ ∃ u, d = .consumed u ∧ g u = .consumed t := by
  cases d <;> simp [DecStep.andThen]

/-- Getting a packet to assemble: it is there, or it is made at the next handle. -/
theorem decPacket_consumed (hc : decPacket s = .consumed t) :
    (∃ h, s.decPkt = some h ∧ t = s) ∨
    (s.decPkt = none ∧ t.decPkt = some s.nextHandle ∧ ∀ k, k ≠ s.nextHandle → t.packet k = s.packet k) := by
  rcases hd : s.decPkt with _ | h
  · rcases ha : allocate s s.params.decInitCap with ⟨r, k, u⟩
    cases r with
    | good =>
      obtain ⟨rfl, hp⟩ := allocate_packet ha
      simp only [decPacket, hd, ha, hp] at hc
      split at hc
      · cases hc
      · cases hc
        refine .inr ⟨rfl, rfl, fun k hne => (setPacket_packet_other u _ hne).trans ?_⟩
        rcases allocate_cases s s.params.decInitCap with ⟨_, e⟩ | ⟨_, _, ⟨_, _, e⟩ | ⟨_, _, _, e⟩ | ⟨v, hv, _, e⟩⟩
        all_goals rw [e] at ha; cases ha
        rw [drawAlloc_undoTo hv]
        exact setPacket_packet_other s _ hne
    | busy => simp only [decPacket, hd, ha] at hc; cases hc
    | bad => simp only [decPacket, hd, ha] at hc; cases hc
  · simp only [decPacket, hd] at hc
    cases hc
    exact .inl ⟨h, rfl, rfl⟩

theorem decPacket_of_held (hd : s.decPkt = some h) : decPacket s = .consumed s := by
  simp only [decPacket, hd]

theorem decPacket_spares (hk : OutOfReach k s) (hdisc : s.decDiscard = false) (hc : decPacket s = .consumed t) :
    t.packet k = s.packet k ∧ ∃ h, t.decPkt = some h ∧ k ≠ h := by
  rcases decPacket_consumed hc with ⟨h, hd, rfl⟩ | ⟨hd, ht, hother⟩
  · exact ⟨rfl, h, hd, fun e => hk.1 (e ▸ hd)⟩
  · have hne := hk.2 hd hdisc
    exact ⟨hother k hne, _, ht, hne⟩

theorem appendAssembled_spares {s0 : State} {v : Byte} (hd : s.decPkt = some h) (hne : k ≠ h)
    (hc : appendAssembled s0 s v = .consumed t) : t.packet k = s.packet k ∧ OutOfReach k t := by
  rcases hp : s.packet h with _ | p
  · simp only [appendAssembled, hd, hp] at hc; cases hc
  obtain ⟨r, p', u, he, hcases⟩ := appendAssembled_cases s0 v hd hp
  have hu := (ensureRoom_frame he).1
  have hdu : u.decPkt = some h := by rw [hu]; exact hd
  have hpu : u.packet k = s.packet k := by rw [hu]; rfl
  rcases hcases with ⟨_, e⟩ | ⟨_, e⟩ | ⟨_, _, e⟩ | ⟨_, _, e⟩
  all_goals rw [e] at hc; cases hc
  · exact ⟨(setPacket_packet_other u _ hne).trans hpu, outOfReach_of_holds (h := h) hdu hne⟩
  · exact ⟨(discardPacket_packet_other (outOfReach_of_holds hdu hne).1).trans hpu, outOfReach_enterDiscard k u⟩

/-- An append leaves a packet out of reach as it is, and out of reach. -/
theorem decAppend_spares {v : Byte} (hk : OutOfReach k s) (hc : decAppend s v = .consumed t) :
    t.packet k = s.packet k ∧ OutOfReach k t := by
  cases hdisc : s.decDiscard with
  | true =>
    rw [decAppend_of_discard hdisc] at hc
    cases hc
    exact ⟨rfl, hk⟩
  | false =>
    rw [decAppend_of_assembling hdisc] at hc
    obtain ⟨u, hu, hc⟩ := andThen_eq_consumed.mp hc
    obtain ⟨hpu, h, hd, hne⟩ := decPacket_spares hk hdisc hu
    obtain ⟨hpt, ht⟩ := appendAssembled_spares hd hne hc
    exact ⟨hpt.trans hpu, ht⟩

theorem decEscaped_spares (hk : OutOfReach k s) (hc : decEscaped s = .consumed t) : t.packet k = s.packet k := by
  rw [decEscaped_eq] at hc
  obtain ⟨u, hu, hc⟩ := andThen_eq_consumed.mp hc
  cases hc
  exact (decAppend_spares hk hu).1

theorem decLiteralPair_spares {b : Byte} (hk : OutOfReach k s) (hc : decLiteralPair s b = .consumed t) :
    t.packet k = s.packet k := by
  rw [decLiteralPair_eq] at hc
  obtain ⟨u, hu, hc⟩ := andThen_eq_consumed.mp hc
  obtain ⟨hpu, hku⟩ := decAppend_spares hk hu
  exact (decAppend_spares (s := { u with decState := .data }) hku hc).1.trans hpu

theorem deliver_spares {s0 : State} (hd : s.decPkt = some h) (hne : k ≠ h) (hc : deliver s0 s = .consumed t) :
    t.packet k = s.packet k := by
  rcases hp : s.packet h with _ | p
  · simp only [deliver, hd, hp] at hc; cases hc
  obtain ⟨a, u, hask, hcases⟩ := deliver_cases s0 hd hp
  have hpu : u.packet k = s.packet k := by rw [drawSink_undoTo hask]; rfl
  rcases hcases with ⟨_, e⟩ | ⟨_, e⟩ | ⟨n, _, e⟩
  all_goals rw [e] at hc; cases hc
  · exact (dereference_packet_other u hne).trans hpu
  · exact (dereference_packet_other _ hne).trans ((setPacket_packet_other u _ hne).trans hpu)

theorem decComplete_spares (hk : OutOfReach k s) (hc : decComplete s = .consumed t) : t.packet k = s.packet k := by
  cases hdisc : s.decDiscard with
  | true =>
    rw [decComplete_of_discard hdisc] at hc
    cases hc
    rfl
  | false =>
    by_cases he : s.decPkt = none ∧ s.params.emptyFramePolicy = .drop
    · rw [decComplete_of_dropped hdisc he] at hc
      cases hc
      rfl
    · rw [decComplete_of_offered hdisc he] at hc
      obtain ⟨u, hu, hc⟩ := andThen_eq_consumed.mp hc
      obtain ⟨hpu, h, hd, hne⟩ := decPacket_spares hk hdisc hu
      exact (deliver_spares hd hne hc).trans hpu

theorem wireUnit_spares (hw : i.isCommand = false) (hk : OutOfReach k s) (hc : unitStep i s = .consumed t) :
    t.packet k = s.packet k := by
  cases i with
  | wireData b => exact (decAppend_spares hk hc).1
  | wireCtrl => cases hc; rfl
  | wireIdle => cases hc; rfl
  | wireEsc => exact decEscaped_spares hk hc
  | wireEnd => exact decComplete_spares hk hc
  | wireAbort => cases hc; exact discardPacket_packet_other hk.1
  | wireLiteral b => exact decLiteralPair_spares hk hc
  | _ => cases hw

/-- A received byte leaves every packet alone that is out of the decoder's reach (44_frame_decoder.md R230). -/
theorem unitStep_finish_spares (hi : isReceive i = true) (hk : OutOfReach k s) :
    ((unitStep i s).finish s).packet k = s.packet k := by
  obtain ⟨e, hw⟩ := unitStep_wireUnit s hi
  cases hc : unitStep i s with
  | consumed t =>
    rw [e] at hc
    exact wireUnit_spares (t := t) hw hk hc
  | busy t =>
    rcases unitStep_busy hi hc with ht | ⟨_, u, hu, ht⟩
    · rw [ht]; rfl
    · rw [ht]; exact decEscaped_spares (t := u) hk hu
  | faulted c t => rfl

/-! ### The packet being assembled -/

/-- The record `q` is `p` with bytes added at its end, its capacity grown only where they did not fit. -/
structure Extends (p : Packet) (added : List Byte) (q : Packet) : Prop where
  data : q.data = p.data ++ added
  cap : p.len + added.length ≤ p.cap → q.cap = p.cap

theorem extends_nil (hdata : q.data = p.data) (hcap : q.cap = p.cap) : Extends p [] q :=
  ⟨by simp [hdata], fun _ => hcap⟩

theorem Extends.trans {a b : List Byte} (hpq : Extends p a q) (hqr : Extends q b r) : Extends p (a ++ b) r where
  data := by rw [hqr.data, hpq.data, List.append_assoc]
  cap hfit := by
    have hlen : q.len = p.len + a.length := by simp [Packet.len, hpq.data]
    rw [List.length_append] at hfit
    have hcap : q.cap = p.cap := hpq.cap (by omega)
    rw [hqr.cap (by omega), hcap]

/-- Where a case leaves the packet `h`, its record extends `p` by one of the byte lists. -/
def DecStep.ExtendsBy (h : Handle) (p : Packet) (adds : List (List Byte)) : DecStep → Prop
  | .consumed t => ∀ q, t.packet h = some q → ∃ added ∈ adds, Extends p added q
  | .busy t => ∀ q, t.packet h = some q → ∃ added ∈ adds, Extends p added q
  | .faulted _ _ => True

/-- A packet that keeps its contents is extended by nothing. -/
theorem extendsBy_of_contents (hnil : [] ∈ adds) (hp : s.packet h = some p)
    (ht : ∀ q, t.packet h = some q → ∃ p', s.packet h = some p' ∧ q.data = p'.data ∧ q.cap = p'.cap) (q : Packet)
    (hq : t.packet h = some q) : ∃ added ∈ adds, Extends p added q := by
  obtain ⟨p', hp', hdata, hcap⟩ := ht q hq
  rw [hp] at hp'
  cases hp'
  exact ⟨[], hnil, extends_nil hdata hcap⟩

theorem extendsBy_of_packet (ha : added ∈ adds) (he : Extends p added r) (ht : t.packet h = some r) (q : Packet)
    (hq : t.packet h = some q) : ∃ added ∈ adds, Extends p added q := by
  rw [ht] at hq
  cases hq
  exact ⟨added, ha, he⟩

/-- All that an append to the packet being assembled can do (44_frame_decoder.md R233). -/
theorem decAppend_assembled (hd : s.decPkt = some h) (hdisc : s.decDiscard = false) (hp : s.packet h = some p)
    (v : Byte) :
    (∃ u q, Extends p [v] q ∧ decAppend s v = .consumed ((s.undoTo u).setPacket h q)) ∨
    (∃ u, decAppend s v = .busy (s.undoTo u)) ∨
    (∃ u, decAppend s v = .consumed (enterDiscard (s.undoTo u))) := by
  rw [decAppend_of_assembling hdisc, decPacket_of_held hd]
  change (∃ u q, _ ∧ appendAssembled s s v = _) ∨ (∃ u, appendAssembled s s v = _) ∨ (∃ u, appendAssembled s s v = _)
  obtain ⟨r, p', u, he, hcases⟩ := appendAssembled_cases s v hd hp
  obtain ⟨hu, hp', _⟩ := ensureRoom_frame he
  rcases hcases with ⟨_, e⟩ | ⟨_, e⟩ | ⟨_, _, e⟩ | ⟨_, _, e⟩
  · refine .inl ⟨u, p'.append [v], ⟨by rw [hp']; rfl, fun hfit => ?_⟩, by rw [e, ← hu]⟩
    rw [ensureRoom_room (need := p.len + 1) hfit] at he
    cases he
    rfl
  · exact .inr (.inl ⟨u, e⟩)
  · exact .inr (.inl ⟨u, e⟩)
  · exact .inr (.inr ⟨u, by rw [e, ← hu]⟩)

theorem decAppend_extendsBy (hd : s.decPkt = some h) (hdisc : s.decDiscard = false) (hp : s.packet h = some p)
    (v : Byte) : (decAppend s v).ExtendsBy h p [[], [v]] := by
  rcases decAppend_assembled hd hdisc hp v with ⟨u, q, hq, e⟩ | ⟨u, e⟩ | ⟨u, e⟩ <;> rw [e]
  · exact extendsBy_of_packet (by simp) hq (setPacket_packet_self _ h q)
  · exact extendsBy_of_contents (by simp) hp fun q hq => ⟨q, hq, rfl, rfl⟩
  · exact extendsBy_of_contents (by simp) hp fun q hq => discardPacket_contents (s := s.undoTo u) hq

theorem decEscaped_extendsBy (hd : s.decPkt = some h) (hdisc : s.decDiscard = false) (hp : s.packet h = some p) :
    (decEscaped s).ExtendsBy h p [[], [s.cp]] := by
  have hfirst := decAppend_extendsBy hd hdisc hp s.cp
  rw [decEscaped_eq]
  cases e : decAppend s s.cp with rw [e] at hfirst
  | consumed t => exact hfirst
  | busy t => exact hfirst
  | faulted c t => trivial

/-- The literal pair appends its two bytes one after the other, or the first alone (44_frame_decoder.md R237). -/
theorem decLiteralPair_extendsBy (hd : s.decPkt = some h) (hdisc : s.decDiscard = false) (hp : s.packet h = some p)
    (b : Byte) : (decLiteralPair s b).ExtendsBy h p [[], [s.cp], [s.cp, b]] := by
  rw [decLiteralPair_eq]
  rcases decAppend_assembled hd hdisc hp s.cp with ⟨u, q, hq, e⟩ | ⟨u, e⟩ | ⟨u, e⟩ <;> rw [e]
  · change (decAppend { (s.undoTo u).setPacket h q with decState := .data } b).ExtendsBy h p _
    have hself := setPacket_packet_self (s.undoTo u) h q
    rcases decAppend_assembled (s := { (s.undoTo u).setPacket h q with decState := .data }) hd hdisc hself b with
      ⟨v, r, hr, e⟩ | ⟨v, e⟩ | ⟨v, e⟩ <;> rw [e]
    · exact extendsBy_of_packet (by simp) (hq.trans hr) (setPacket_packet_self _ h r)
    · exact extendsBy_of_packet (by simp) hq hself
    · intro r hr
      obtain ⟨q', hq', hdata, hcap⟩ := discardPacket_contents (s := State.undoTo _ v) hr
      obtain rfl : q = q' := Option.some.inj (hself.symm.trans hq')
      exact ⟨[s.cp], by simp, hq.trans (extends_nil hdata hcap)⟩
  · exact extendsBy_of_contents (by simp) hp fun q hq => ⟨q, hq, rfl, rfl⟩
  · change (decAppend { enterDiscard (s.undoTo u) with decState := .data } b).ExtendsBy h p _
    rw [decAppend_of_discard rfl]
    exact extendsBy_of_contents (by simp) hp fun q hq => discardPacket_contents (s := s.undoTo u) hq

/-- An offered packet keeps its bytes, whatever references the sink keeps (44_frame_decoder.md R239). -/
theorem decComplete_extendsBy (hd : s.decPkt = some h) (hdisc : s.decDiscard = false) (hp : s.packet h = some p) :
    (decComplete s).ExtendsBy h p [[]] := by
  rw [decComplete_of_offered hdisc (by simp [hd]), decPacket_of_held hd]
  change (deliver s s).ExtendsBy h p _
  obtain ⟨a, u, hask, hcases⟩ := deliver_cases s hd hp
  have hpu : u.packet h = some p := by rw [drawSink_undoTo hask]; exact hp
  rcases hcases with ⟨_, e⟩ | ⟨_, e⟩ | ⟨n, _, e⟩ <;> rw [e]
  · exact extendsBy_of_contents (by simp) hp fun q hq => ⟨q, hq, rfl, rfl⟩
  · exact extendsBy_of_contents (by simp) hpu fun q hq => dereference_contents hq
  · intro q hq
    obtain ⟨p', hp', hdata, hcap⟩ := dereference_contents hq
    rw [setPacket_packet_self] at hp'
    cases hp'
    exact ⟨[], by simp, extends_nil hdata hcap⟩

theorem wireUnit_extendsBy (hw : i.isCommand = false) (hd : s.decPkt = some h) (hdisc : s.decDiscard = false)
    (hp : s.packet h = some p) : (unitStep i s).ExtendsBy h p (unitAppends s.cp i) := by
  cases i with
  | wireData b => exact decAppend_extendsBy hd hdisc hp b
  | wireCtrl => exact extendsBy_of_contents (by simp [unitAppends]) hp fun q hq => ⟨q, hq, rfl, rfl⟩
  | wireIdle => exact extendsBy_of_contents (by simp [unitAppends]) hp fun q hq => ⟨q, hq, rfl, rfl⟩
  | wireEsc => exact decEscaped_extendsBy hd hdisc hp
  | wireEnd => exact decComplete_extendsBy hd hdisc hp
  | wireAbort => exact extendsBy_of_contents (by simp [unitAppends]) hp fun q hq => discardPacket_contents hq
  | wireLiteral b => exact decLiteralPair_extendsBy hd hdisc hp b
  | _ => cases hw

theorem nil_mem_unitAppends (cp : Byte) (i : Instr) : [] ∈ unitAppends cp i := by
  unfold unitAppends
  split <;> simp

/-- A receiving instruction extends the packet being assembled by what its wire unit may append (20_memory.md R74). -/
theorem unitStep_finish_extends (hi : isReceive i = true) (hd : s.decPkt = some h) (hdisc : s.decDiscard = false)
    (hp : s.packet h = some p) (hq : ((unitStep i s).finish s).packet h = some q) :
    ∃ added ∈ unitAppends s.cp (wireUnit i s), Extends p added q := by
  obtain ⟨e, hw⟩ := unitStep_wireUnit s hi
  have hunit := wireUnit_extendsBy hw hd hdisc hp
  rw [e] at hq
  cases hc : unitStep (wireUnit i s) s with rw [hc] at hq hunit
  | consumed t => exact hunit q hq
  | busy t => exact hunit q hq
  | faulted c t => exact extendsBy_of_packet (nil_mem_unitAppends _ _) (extends_nil rfl rfl) hp q hq

end

end Sys2Proof.Machine
end

section
/-! PROOFS. The statements about which packets, and which bytes of them, an instruction changes. -/

namespace Sys2Proof.Machine

section

variable {s t : State} {h k : Handle} {p q : Packet} {i : Instr}

/-- A receiving instruction, run or refused in the Faulted state. -/
theorem exec_receive_packet (hi : isReceive i = true) (ht : exec i s = .next t) (k : Handle) :
    t.packet k = ((unitStep i s).finish s).packet k ∨ t.packet k = s.packet k := by
  rw [exec_receive hi, runCommand_next] at ht
  cases ht
  split
  · exact .inl rfl
  · exact .inr rfl

theorem handleOf_receive (hi : isReceive i = true) : handleOf i = none := by
  cases i with
  | decRx | wireData | wireCtrl | wireIdle | wireEsc | wireEnd | wireAbort | wireLiteral => rfl
  | _ => cases hi

theorem MemoryEffect.untouched (he : MemoryEffect i s t) (hk : ¬ touches i s k) : t.packet k = s.packet k := by
  cases he with
  | kept hpm => exact packet_congr hpm k
  | rewrote h hi p q hp hq hpm =>
    have hne : k ≠ h := by rintro rfl; exact hk (.inl hi)
    rw [packet_congr (s := s.setPacket h q) hpm, setPacket_packet_other s q hne]
  | released h hi hpm =>
    have hne : k ≠ h := by rintro rfl; exact hk (.inl hi)
    rw [packet_congr hpm, dereference_packet_other s hne]
  | allocated cap hi p hpm =>
    have hne : k ≠ s.nextHandle := fun e => hk (.inr (.inl ⟨⟨cap, hi⟩, e⟩))
    rw [packet_congr (s := s.setPacket s.nextHandle p) hpm, setPacket_packet_other s p hne]
  | finished hi h p he hp hpm =>
    have hne : k ≠ h := by rintro rfl; exact hk (.inr (.inr (.inl ⟨hi, he⟩)))
    rw [packet_congr hpm, finishFrame_packet_other p s hne]

theorem exec_untouched (ht : exec i s = .next t) (hk : ¬ touches i s k) : t.packet k = s.packet k := by
  cases hi : isReceive i with
  | false => exact (exec_memoryEffect hi ht).untouched hk
  | true =>
    have hreach : OutOfReach k s :=
      ⟨fun e => hk (.inr (.inr (.inr ⟨hi, .inl e⟩))), fun _ _ e => hk (.inr (.inr (.inr ⟨hi, .inr e⟩)))⟩
    rcases exec_receive_packet hi ht k with e | e
    · exact e.trans (unitStep_finish_spares hi hreach)
    · exact e

/-- A live packet of a good state is not at the next handle. -/
theorem State.Good.ne_nextHandle (hs : s.Good) (hp : s.packet h = some p) : h ≠ s.nextHandle :=
  fun e => BitVec.lt_irrefl _ (e ▸ (hs.inBounds hp).handedOut)

/-- A live packet's record after a command of the host: only the bytes that the command stores to have changed, and neither
bytes nor capacity of a held packet (20_memory.md R73, R74). -/
theorem MemoryEffect.storesWithin (he : MemoryEffect i s t) (hs : s.Good) (hp : s.packet h = some p)
    (hq : t.packet h = some q) : StoresWithin i s h p q := by
  cases he with
  | kept hpm =>
    rw [packet_congr hpm, hp] at hq
    cases hq
    exact storesWithin_of_same rfl rfl
  | rewrote k hi p' q' hp' hq' hpm =>
    rw [packet_congr (s := s.setPacket k q') hpm, setPacket_packet] at hq
    split at hq
    · next e =>
      subst e
      rw [hp] at hp'
      cases hp'
      cases hq
      exact hq'
    · rw [hp] at hq
      cases hq
      exact storesWithin_of_same rfl rfl
  | released k hi hpm =>
    rw [packet_congr hpm] at hq
    obtain ⟨p', hp', hdata, hcap⟩ := dereference_contents hq
    rw [hp] at hp'
    cases hp'
    exact storesWithin_of_same hdata hcap
  | allocated cap hi p' hpm =>
    rw [packet_congr (s := s.setPacket s.nextHandle p') hpm, setPacket_packet_other s p' (hs.ne_nextHandle hp), hp] at hq
    cases hq
    exact storesWithin_of_same rfl rfl
  | finished hi k p' he hp' hpm =>
    rw [packet_congr hpm] at hq
    by_cases hk : h = k
    · subst hk
      rw [hp] at hp'
      cases hp'
      obtain ⟨hdata, hcap⟩ := finishFrame_contents hq
      exact storesWithin_of_same hdata hcap
    · rw [finishFrame_packet_other p' s hk, hp] at hq
      cases hq
      exact storesWithin_of_same rfl rfl

/-- The encoder's packet is out of a receiving instruction's reach. -/
theorem exec_receive_encPkt (hs : s.Good) (hi : isReceive i = true) (ht : exec i s = .next t) (he : s.encPkt = some h)
    (hp : s.packet h = some p) : t.packet h = some p := by
  rw [exec_untouched ht, hp]
  rintro (e | ⟨⟨cap, rfl⟩, _⟩ | ⟨rfl, _⟩ | ⟨_, hd | e⟩)
  · simp [handleOf_receive hi] at e
  · cases hi
  · cases hi
  · exact hs.apart h hd he
  · exact hs.ne_nextHandle hp e

theorem exec_receive_extends (hs : s.Good) (hi : isReceive i = true) (ht : exec i s = .next t) (hd : s.decPkt = some h)
    (hp : s.packet h = some p) (hq : t.packet h = some q) :
    ∃ added ∈ unitAppends s.cp (wireUnit i s), Extends p added q := by
  have hdisc : s.decDiscard = false := by
    cases e : s.decDiscard with
    | true => simp [hs.discard e] at hd
    | false => rfl
  rcases exec_receive_packet hi ht h with e | e
  · exact unitStep_finish_extends hi hd hdisc hp (e ▸ hq)
  · exact extendsBy_of_packet (nil_mem_unitAppends _ _) (extends_nil rfl rfl) (e.trans hp) q hq

end

/-! ### The obligations -/

/-- Settles O17, by the records that the commands of the host write, and the decoder's reach. -/
theorem otherPacketsAreUntouched : Obligations.OtherPacketsAreUntouched := fun _ _ _ _ => exec_untouched

/-- Settles O16, by the bytes that the commands of the host store. -/
theorem hostCommandsStoreOnlyWhereTheySay : Obligations.HostCommandsStoreOnlyWhereTheySay := by
  intro i s t h p q a hs hi ht hp hq ha
  have hbyte := ((exec_memoryEffect hi ht).storesWithin hs hp hq).bytes a ha
  simpa [State.readByte, hp, hq] using hbyte

/-- Settles O15: the commands of the host write no held packet's data or capacity, and the decoder extends its own alone. -/
theorem heldPacketsKeepTheirData : Obligations.HeldPacketsKeepTheirData := by
  intro i s t h p q hs ht hp hq
  refine ⟨fun he => ?_, fun hd hi => ?_, fun hd hi => ?_⟩
  · cases hi : isReceive i with
    | false => exact ((exec_memoryEffect hi ht).storesWithin hs hp hq).held (held_of_encPkt he)
    | true =>
      rw [exec_receive_encPkt hs hi ht he hp] at hq
      cases hq
      exact ⟨rfl, rfl⟩
  · exact ((exec_memoryEffect hi ht).storesWithin hs hp hq).held (held_of_decPkt hd)
  · obtain ⟨added, hadded, hdata, hcap⟩ := exec_receive_extends hs hi ht hd hp hq
    have hlen : p.len ≤ p.cap := (hs.inBounds hp).len_le
    exact ⟨added, hadded, hdata, fun e => hcap (by simpa [e] using hlen), hcap⟩

end Sys2Proof.Machine
end

section
/-! SUPPORT. Commands run to their end: what the checks, an allocation, a growth and the decoder's case of the complete opcode
come to where their conditions are known. -/

namespace Sys2Proof.Machine

section

variable {s s1 : State} {h : Handle} {p : Packet} {i : Instr}

/-! ### The checks passed -/

/-- A command of a live packet runs its code on the packet's record (20_memory.md R63). -/
theorem runCommand_ifLive (hok : s.fault = 0#8) (hp : s.packet h = some p) (f : State → Packet → State) :
    runCommand s (fun s => s.ifLive h (f s)) = .next (f s p) := by
  rw [runCommand_of_ok s _ hok, ifLive_of_live hp]

/-- A mutating command of a live packet that no unit holds runs its code on the packet's record (20_memory.md R73). -/
theorem runCommand_ifMutable (hok : s.fault = 0#8) (hp : s.packet h = some p) (hh : s.held h = false)
    (f : State → Packet → State) : runCommand s (fun s => s.ifMutable h (f s)) = .next (f s p) := by
  rw [runCommand_of_ok s _ hok, ifMutable_of_free hp hh]

/-- Every mutating command checks, after its flag operands and that the packet is live, that no unit holds the packet
(20_memory.md R73; 60_exceptions.md R284). -/
theorem exec_checks_held (hi : handleOf i = some h) (hm : mutates i = true) (s : State) :
    ∃ k : State → Packet → State, exec i s = runCommand s (fun s => s.ifLegal i.wellFormed
      (s.ifLive h (fun p => if s.held h then s.raise .packetHeld else k s p))) := by
  cases i
  case mapValidate h' off req rem =>
    cases hi
    obtain rfl : rem = 1#8 := by simpa [mutates] using hm
    simp only [exec, execMapValidate, Instr.wellFormed, true_and]
    exact ⟨_, rfl⟩
  case c78EncU | c78EncS | pbSetCapacity | pbAppend | pbWrite | mapSetCk | mapSetNp | mapSetDa | mapSetSa | mapSetAtype
    | mapAppendChecksum =>
    cases hi
    simp only [exec, Instr.wellFormed, ifLegal_true]
    exact ⟨_, rfl⟩
  all_goals cases hm

/-! ### Allocation and growth -/

theorem allocate_of_refused {cap : Nat} {a : Bool} (hpos : cap ≠ 0) (hcap : cap ≤ s.params.lenMax)
    (hd : drawAlloc s cap = (a, s1)) (ha : a = false ∨ s.nextHandle = 0xFFFFFFFF#32) :
    allocate s cap = (.busy, 0#32, s1) := by
  have hc : ¬ (cap = 0 ∨ s.params.lenMax < cap) := by omega
  cases a with
  | false => simp [allocate, hc, hd]
  | true =>
    have hn : s.nextHandle = 0xFFFFFFFF#32 := by simpa using ha
    simp [allocate, hc, hd, hn]

theorem allocate_of_granted {cap : Nat} (hpos : cap ≠ 0) (hcap : cap ≤ s.params.lenMax)
    (hd : drawAlloc s cap = (true, s1)) (hn : s.nextHandle ≠ 0xFFFFFFFF#32) :
    allocate s cap = (.good, s.nextHandle,
      { s1.setPacket s.nextHandle { data := [], cap := cap, status := .busy, ref := 0 } with
        nextHandle := s.nextHandle + 1#32 }) := by
  have hc : ¬ (cap = 0 ∨ s.params.lenMax < cap) := by omega
  simp [allocate, hc, hd, hn, State.setPacket]

/-- The fewest whole increments that hold the bytes (20_memory.md R70). -/
theorem grownCap_eq {cap need inc k : Nat} (lim2 : Nat) (hlo : cap + inc * k < need) (hhi : need ≤ cap + inc * (k + 1)) :
    grownCap cap need inc lim2 = min lim2 (cap + inc * (k + 1)) := by
  have hsteps : (need - cap + inc - 1) / inc = k + 1 := by
    rw [Nat.mul_succ] at hhi
    apply Nat.div_eq_of_lt_le
    · rw [Nat.mul_comm, Nat.mul_succ]; omega
    · rw [Nat.mul_comm, Nat.mul_succ, Nat.mul_succ]; omega
  rw [grownCap, hsteps]

/-- Where no growth can help nobody is asked (20_memory.md R70). -/
theorem ensureRoom_of_hopeless {need inc lim : Nat} (hneed : p.cap < need)
    (hbad : inc = 0 ∨ min lim s.params.lenMax ≤ p.cap ∨ min lim s.params.lenMax < need) :
    ensureRoom s h p need inc lim = (.bad, p, s) := by
  have hgrown := grownCap_le p.cap need inc (min lim s.params.lenMax)
  rcases ensureRoom_cases s h p need inc lim with ⟨hroom, _⟩ | ⟨_, ⟨_, e⟩ | ⟨⟨hinc, hlim, hg⟩, _⟩⟩
  · omega
  · exact e
  · omega

/-- Where growth can help the allocator decides (20_memory.md R70). -/
theorem ensureRoom_of_asked {need inc lim newcap : Nat} {a : Bool} (hneed : p.cap < need) (hinc : inc ≠ 0)
    (hlim : p.cap < min lim s.params.lenMax) (hnew : grownCap p.cap need inc (min lim s.params.lenMax) = newcap)
    (hroom : need ≤ newcap) (hd : drawRealloc s h newcap = (a, s1)) :
    ensureRoom s h p need inc lim = if a then (.good, { p with cap := newcap }, s1) else (.busy, p, s1) := by
  subst hnew
  rcases ensureRoom_cases s h p need inc lim with ⟨hfit, _⟩ | ⟨_, ⟨hbad, _⟩ | ⟨_, ⟨u, hu, e⟩ | ⟨u, hu, e⟩⟩⟩
  · omega
  · omega
  · rw [hd] at hu; cases hu; exact e
  · rw [hd] at hu; cases hu; exact e

/-- The three appending commands, and the bytes that they append (42_packet_buffer.md R162; 41_code78.md R142, R144). -/
theorem exec_append {bytes : List Byte} {inc lim : Half} (hok : s.fault = 0#8) (hp : s.packet h = some p)
    (hh : s.held h = false)
    (hi : (∃ b, i = .pbAppend h b inc lim ∧ bytes = [b]) ∨ (∃ v, i = .c78EncU h v inc lim ∧ bytes = c78Encode v) ∨
      (∃ v, i = .c78EncS h v inc lim ∧ bytes = c78Encode (zigZag v))) :
    exec i s = .next (appendCommand s h p bytes inc.toNat lim.toNat) := by
  rcases hi with ⟨b, rfl, rfl⟩ | ⟨v, rfl, rfl⟩ | ⟨v, rfl, rfl⟩
  · rw [exec, execPbAppend, runCommand_ifMutable hok hp hh]
  · rw [exec, execC78EncU, runCommand_ifMutable hok hp hh]
  · rw [exec, execC78EncS, runCommand_ifMutable hok hp hh]

/-! ### Appending a checksum -/

/-- `MAP_APPEND_CHECKSUM` at a header without the bit is what `EnsureRoom` for four bytes makes of it (43_map.md R215). -/
theorem execMapAppendChecksum_of_clear {off : Byte} {hp : Nat} {r : Verdict} {p' : Packet} {t : State}
    (hok : s.fault = 0#8) (hlive : s.packet h = some p) (hh : s.held h = false)
    (hhp : headerAt s.params p.data off.toNat = some hp) (hck : ckAt p.data hp = false)
    (he : ensureRoom s h p (p.len + 4) 1 s.params.lenMax = (r, p', t)) :
    execMapAppendChecksum h off s =
      if r = .good then answers (t.setPacket h { p' with data := withChecksum p.data hp }) .good []
      else answers t r [] := by
  rw [execMapAppendChecksum, runCommand_ifMutable hok hlive hh]
  have hflag : hasFlag (headerByte p.data hp) maskCk = false := hck
  simp only [hhp, hflag, he]
  cases r <;> rfl

/-! ### The complete opcode -/

theorem decPacket_of_refused {a : Bool} (hw : s.params.wf) (hnone : s.decPkt = none)
    (hd : drawAlloc s s.params.decInitCap = (a, s1)) (ha : a = false ∨ s.nextHandle = 0xFFFFFFFF#32) :
    decPacket s = .busy s1 := by
  obtain ⟨_, _, _, hpos, hlim, hmax, _⟩ := hw
  have hask := allocate_of_refused (by omega) (by omega) hd ha
  simp only [decPacket, hnone, hask]
  rw [← drawAlloc_undoTo hd]

theorem decPacket_of_granted (hw : s.params.wf) (hnone : s.decPkt = none)
    (hd : drawAlloc s s.params.decInitCap = (true, s1)) (hn : s.nextHandle ≠ 0xFFFFFFFF#32) (href : 1 ≤ s.params.refMax) :
    decPacket s = .consumed
      { s1.setPacket s.nextHandle { data := [], cap := s.params.decInitCap, status := .busy, ref := 1 } with
        nextHandle := s.nextHandle + 1#32, decPkt := some s.nextHandle } := by
  obtain ⟨_, _, _, hpos, hlim, hmax, _⟩ := hw
  have hask := allocate_of_granted (by omega) (by omega) hd hn
  have hmax : ¬ 0 = s.params.refMax := by omega
  simp [decPacket, hnone, hask, State.packet, State.setPacket, Packet.addRef, hmax]

/-- The complete opcode, issued as its wire unit or as the `DEC_RX` of its byte (44_frame_decoder.md R232). -/
theorem exec_complete (hok : s.fault = 0#8) (hcp : legalControl s.cp = true)
    (hi : i = .wireEnd ∨ (i = .decRx (s.cp ||| 2#8) ∧ s.decState = .controlSeen)) :
    exec i s = .next ((decComplete s).finish s) := by
  have hunit : exec i s = exec .wireEnd s := by
    rcases hi with rfl | ⟨rfl, hd⟩
    · rfl
    · have hlow : s.cp &&& 3#8 = 0#8 := by simpa [legalControl] using hcp
      obtain ⟨hhigh, htwo⟩ := (opcodeByte_iff (b := s.cp ||| 2#8) (k := 2#8) (by decide) hlow).mp rfl
      have hwire : decodeWire .controlSeen s.cp (s.cp ||| 2#8) = .wireEnd := by simp [decodeWire, hhigh, htwo]
      rw [exec_decRx, hd, hwire]
  rw [hunit, exec, execWireEnd, runCommand_of_ok s _ hok]

/-- The offer in a command begun at `s0`, and the release after it, by the sink's answer (44_frame_decoder.md R239, R244). -/
theorem deliver_finish {s0 : State} (hd : s.decPkt = some h) (hp : s.packet h = some p) (hdisc : s.decDiscard = false) :
    (∀ u, drawSink s h p = (.busy, u) → (deliver s0 s).finish s0 = (s0.undoTo u).answer .busy []) ∧
    (∀ u, drawSink s h p = (.bad, u) → (deliver s0 s).finish s0 =
      ({ u.dereference h with decPkt := none, decState := .data }).answer .good []) ∧
    (∀ k u, drawSink s h p = (.good k, u) → (deliver s0 s).finish s0 =
      ({ (u.setPacket h { p with ref := p.ref + k }).dereference h with
        decPkt := none, decState := .data }).answer .good []) := by
  refine ⟨fun u hask => ?_, fun u hask => ?_, fun k u hask => ?_⟩
  · simp only [deliver, hd, hp, hask]
    rfl
  · simp only [deliver, hd, hp, hask, dereference_eq_memory]
    have hu : u.decDiscard = false := by rw [drawSink_undoTo hask]; exact hdisc
    rw [← hu]
    rfl
  · simp only [deliver, hd, hp, hask, dereference_eq_memory]
    have hu : u.decDiscard = false := by rw [drawSink_undoTo hask]; exact hdisc
    rw [← hu]
    rfl

end

end Sys2Proof.Machine
end

section
/-! PROOFS. The statements about single commands of the packet buffer, the appends, and the complete opcode. -/

namespace Sys2Proof.Machine

/-- Settles O27: the appends are one, the fewest increments are the grown capacity, and `EnsureRoom` does the rest. -/
theorem appendsGrowOrRefuse : Obligations.AppendsGrowOrRefuse := by
  intro s h p i bytes inc lim lim2 hok hp hh hi hlim hneed
  subst hlim
  rw [exec_append hok hp hh hi]
  refine ⟨fun hbad => ?_, fun k newcap hinc hcap hfit hlo hhi hnew => ?_⟩
  · rw [appendCommand, ensureRoom_of_hopeless hneed hbad]
    rfl
  · have hgrown := (grownCap_eq (min lim.toNat s.params.lenMax) hlo hhi).trans hnew.symm
    have hroom : p.len + bytes.length ≤ newcap := by omega
    refine ⟨fun s1 hd => ?_, fun s1 hd => ?_⟩
    all_goals
      rw [appendCommand, ensureRoom_of_asked hneed hinc hcap hgrown hroom hd]
      rfl

/-- Settles O35: the held-packet check comes right after the liveness check; `ENC_SUBMIT` has its own. -/
theorem heldPacketsRefuseMutation : Obligations.HeldPacketsRefuseMutation := by
  refine ⟨fun i s h p hok hi hm hwf hp hh => ?_, fun s h p off hok hp hd => ?_⟩
  · obtain ⟨k, hexec⟩ := exec_checks_held hi hm s
    rw [hexec, runCommand_of_ok s _ hok, hwf, ifLegal_true, ifLive_of_live hp, if_pos hh]
    rfl
  · rw [exec, execEncSubmit, runCommand_ifLive hok hp, if_pos hd]
    rfl

/-- Settles O49, by the cases of getting the packet and the sink's answers to its offer. -/
theorem completedFramesAreOffered : Obligations.CompletedFramesAreOffered := by
  intro s i hok hw hcp hi
  rw [exec_complete hok hcp hi]
  refine ⟨fun hdisc => ?_, fun hdisc => ⟨fun h p hd hp => ?_, fun hd hpol => ?_, fun hd hpol => ?_⟩⟩
  · rw [decComplete_of_discard hdisc]
    rfl
  · rw [decComplete_of_offered hdisc (by simp [hd]), decPacket_of_held hd]
    obtain ⟨hbusy, hbad, hgood⟩ := deliver_finish (s0 := s) hd hp hdisc
    refine ⟨fun s1 hask => ?_, fun s1 hask => congrArg _ (hbad s1 hask), fun k s1 hask => congrArg _ (hgood k s1 hask)⟩
    have hs1 := hbusy s1 hask
    rw [← drawSink_undoTo hask] at hs1
    exact congrArg _ hs1
  · rw [decComplete_of_dropped hdisc ⟨hd, hpol⟩]
    rfl
  · rw [decComplete_of_offered hdisc (by simp [hpol])]
    refine ⟨fun s1 ha => ?_, fun s1 ha hn => ?_, fun s1 s2 p ha hn href hp hs2 => ?_⟩
    · rw [decPacket_of_refused hw hd ha (.inl rfl)]
      rfl
    · rw [decPacket_of_refused hw hd ha (.inr hn)]
      rfl
    · subst hp
      rw [decPacket_of_granted hw hd ha hn href, ← hs2]
      have hd2 : s2.decPkt = some s.nextHandle := by rw [hs2]
      have hp2 : s2.packet s.nextHandle = some { data := [], cap := s.params.decInitCap, status := .busy, ref := 1 } := by
        rw [hs2]; exact setPacket_packet_self s1 _ _
      have hdisc2 : s2.decDiscard = false := by rw [hs2, drawAlloc_undoTo ha]; exact hdisc
      obtain ⟨hbusy, hbad, hgood⟩ := deliver_finish (s0 := s) hd2 hp2 hdisc2
      exact ⟨fun s3 hask => congrArg _ (hbusy s3 hask), fun s3 hask => congrArg _ (hbad s3 hask),
        fun k s3 hask => congrArg _ (hgood k s3 hask)⟩

/-- Settles O28, by the cases of `Allocate`. -/
theorem allocationMakesAnEmptyPacket : Obligations.AllocationMakesAnEmptyPacket := by
  intro s cap hok
  have hexec : exec (.pbAlloc cap) s = .next ((allocate s cap.toNat).2.2.answer (allocate s cap.toNat).1
      [.word (allocate s cap.toNat).2.1]) := by rw [exec, execPbAlloc, runCommand_of_ok s _ hok]
  have hzero : cap = 0#16 ↔ cap.toNat = 0 := by simp [BitVec.toNat_eq]
  rw [hexec, hzero, ne_eq, hzero]
  refine ⟨fun hbad => ?_, fun s1 hpos hcap hd => ?_, fun s1 hpos hcap hd => ⟨fun hn => ?_, fun hn => ?_⟩⟩
  · simp [allocate, hbad, State.answer]
  · rw [allocate_of_refused hpos hcap hd (.inl rfl)]
    rfl
  · rw [allocate_of_refused hpos hcap hd (.inr hn)]
    rfl
  · rw [allocate_of_granted hpos hcap hd hn]
    rfl

/-- Settles O29, by the command's own checks and the allocator's answer. -/
theorem setCapacityResizes : Obligations.SetCapacityResizes := by
  intro s h p cap hok hp hh
  have hzero : cap = 0#16 ↔ cap.toNat = 0 := by simp [BitVec.toNat_eq]
  rw [hzero, ne_eq, hzero, exec, execPbSetCapacity, runCommand_ifMutable hok hp hh]
  refine ⟨fun hbad => ?_, fun hlen hpos hmax hsame => ?_, fun hlen hpos hmax hdiff => ?_⟩
  · rw [if_pos hbad]
    rfl
  · rw [if_neg (by omega), if_pos hsame]
    rfl
  · rw [if_neg (by omega), if_neg hdiff]
    refine ⟨fun s1 hd => ?_, fun s1 hd => ?_⟩
    all_goals
      rw [hd]
      rfl

/-- Settles O30, by the count's cases. -/
theorem referencesCount : Obligations.ReferencesCount := by
  intro s h hok
  refine ⟨fun p hp hne => ?_, fun p hp hmax => ?_, execPbDereference_of_dead hok, fun p hp hh hown => ?_,
    fun p hp hfree => ?_⟩
  · have hadd : p.addRef s.params.refMax = some { p with ref := p.ref + 1 } := addRef_eq_some.mpr ⟨hne, rfl⟩
    rw [exec, execPbReference, runCommand_ifLive hok hp, hadd]
    rfl
  · have hadd : p.addRef s.params.refMax = none := by simp [Packet.addRef, hmax]
    rw [exec, execPbReference, runCommand_ifLive hok hp, hadd]
    rfl
  · rw [exec, execPbDereference, runCommand_of_ok s _ hok, hp]
    simp only [hh, hown, and_self, if_true]
    rfl
  · have hexec : exec (.pbDereference h) s = answers (s.dereference h) .good [] := by
      have hnot : ¬ (s.held h = true ∧ p.ref ≤ s.heldRefs h) := by
        rintro ⟨hh, hown⟩
        rcases hfree with hf | hf
        · simp [hf] at hh
        · omega
      rw [exec, execPbDereference, runCommand_of_ok s _ hok, hp]
      simp only [if_neg hnot]
      rfl
    rw [hexec]
    refine ⟨fun hzero => ?_, fun hone => ?_, fun hmore => ?_⟩
    · rw [dereference_of_zero hp hzero]
    · rw [dereference_of_one hp hone]
    · rw [dereference_of_more hp hmore]

/-- Settles O33, by the index check. -/
theorem bytesAreReadAndWritten : Obligations.BytesAreReadAndWritten := by
  intro s h p idx b hok hp
  refine ⟨fun x hx => ?_, fun hend => ?_, fun hh hlt => ?_, fun hh hend => ?_⟩
  · rw [exec, execPbRead, runCommand_ifLive hok hp, hx]
    rfl
  · rw [exec, execPbRead, runCommand_ifLive hok hp, List.getElem?_eq_none hend]
    rfl
  · rw [exec, execPbWrite, runCommand_ifMutable hok hp hh, ifIndex_of_lt hlt]
    rfl
  · rw [exec, execPbWrite, runCommand_ifMutable hok hp hh, ifIndex_of_ge hend]
    rfl

/-- Settles O43: growing by one byte at a time the packet grows by what is missing. -/
theorem appendChecksumComplete : Obligations.AppendChecksumComplete := by
  intro s h p off hok hp hh
  refine ⟨fun hnone => ?_, fun pos hpos => ⟨fun hck => ?_, fun marked c data' hck hmarked hc hdata => ?_⟩⟩
  · rw [exec, execMapAppendChecksum, runCommand_ifMutable hok hp hh, hnone]
    rfl
  · rw [exec, execMapAppendChecksum, runCommand_ifMutable hok hp hh]
    have hflag : hasFlag (headerByte p.data pos) maskCk = true := hck
    simp only [hpos, hflag, if_true]
    rfl
  · have hexec {r : Verdict} {q : Packet} {t : State} :=
      execMapAppendChecksum_of_clear (r := r) (p' := q) (t := t) hok hp hh hpos hck
    have hnew : withChecksum p.data pos = data' := by subst hmarked hc hdata; rfl
    rw [hnew] at hexec
    refine ⟨fun hroom => ?_, fun hneed hmax => ?_, fun hneed hmax => ?_⟩
    · exact hexec (ensureRoom_room hroom)
    · exact hexec (ensureRoom_of_hopeless hneed (.inr (.inr ((Nat.min_le_left _ _).trans_lt hmax))))
    · have hcap : p.cap < min s.params.lenMax s.params.lenMax := by rw [Nat.min_self]; omega
      have hgrown : grownCap p.cap (p.len + 4) 1 (min s.params.lenMax s.params.lenMax) = p.data.length + 4 := by
        have hlen : p.len = p.data.length := rfl
        rw [grownCap_eq (k := p.len + 4 - p.cap - 1) _ (by omega) (by omega), Nat.min_self]
        omega
      refine ⟨fun s1 hd => ?_, fun s1 hd => ?_⟩
      · exact hexec (ensureRoom_of_asked hneed (by omega) hcap hgrown (Nat.le_refl _) hd)
      · exact hexec (ensureRoom_of_asked hneed (by omega) hcap hgrown (Nat.le_refl _) hd)

end Sys2Proof.Machine
end

section
/-! SUPPORT. The encoding: fields, operand forms, opcodes and wire units, each read back from the bytes it is written as,
and written back as the bytes it was read from. -/

namespace Sys2Proof.Machine

section

variable {cp op : Byte} {ops : List Byte} {i : Instr}

/-! ### Fields (30_encoding.md R90) -/

/-- A low byte behind a more significant part. -/
theorem toNat_append_byte {n : Nat} (x : BitVec n) (b : Byte) : (x ++ b).toNat = 256 * x.toNat + b.toNat := by
  rw [BitVec.toNat_append, ← Nat.shiftLeft_add_eq_or_of_lt b.isLt, Nat.shiftLeft_eq]
  omega

theorem toNat_half (b0 b1 : Byte) : (half b0 b1).toNat = 256 * b1.toNat + b0.toNat := toNat_append_byte b1 b0

theorem toNat_word (b0 b1 b2 b3 : Byte) :
    (word b0 b1 b2 b3).toNat = 256 * (256 * (256 * b3.toNat + b2.toNat) + b1.toNat) + b0.toNat := by
  rw [← toNat_append_byte b3 b2, ← toNat_append_byte _ b1]
  exact toNat_append_byte _ b0

theorem toNat_wordByte (v : Word) (k : Nat) : (wordByte v k).toNat = v.toNat / 2 ^ (8 * k) % 256 := by
  simp [wordByte, Nat.shiftRight_eq_div_pow]

theorem half_halfBytes (v : Half) : half (v.setWidth 8) ((v >>> 8).setWidth 8) = v := by
  apply BitVec.eq_of_toNat_eq
  simp only [toNat_half, BitVec.toNat_setWidth, BitVec.toNat_ushiftRight, Nat.shiftRight_eq_div_pow]
  omega

theorem halfBytes_half (b0 b1 : Byte) : halfBytes (half b0 b1) = [b0, b1] := by
  have hlow : (half b0 b1).setWidth 8 = b0 := by
    apply BitVec.eq_of_toNat_eq
    simp only [toNat_half, BitVec.toNat_setWidth]
    omega
  have hhigh : (half b0 b1 >>> 8).setWidth 8 = b1 := by
    apply BitVec.eq_of_toNat_eq
    simp only [toNat_half, BitVec.toNat_setWidth, BitVec.toNat_ushiftRight, Nat.shiftRight_eq_div_pow]
    omega
  rw [halfBytes, hlow, hhigh]

theorem word_wordBytes (v : Word) : word (wordByte v 0) (wordByte v 1) (wordByte v 2) (wordByte v 3) = v := by
  apply BitVec.eq_of_toNat_eq
  simp only [toNat_word, toNat_wordByte]
  omega

theorem wordBytes_word (b0 b1 b2 b3 : Byte) : wordBytes (word b0 b1 b2 b3) = [b0, b1, b2, b3] := by
  have hbyte {k : Nat} {b : Byte} (hb : (word b0 b1 b2 b3).toNat / 2 ^ (8 * k) % 256 = b.toNat) :
      wordByte (word b0 b1 b2 b3) k = b :=
    BitVec.eq_of_toNat_eq ((toNat_wordByte _ _).trans hb)
  have h0 : wordByte (word b0 b1 b2 b3) 0 = b0 := hbyte (by rw [toNat_word]; omega)
  have h1 : wordByte (word b0 b1 b2 b3) 1 = b1 := hbyte (by rw [toNat_word]; omega)
  have h2 : wordByte (word b0 b1 b2 b3) 2 = b2 := hbyte (by rw [toNat_word]; omega)
  have h3 : wordByte (word b0 b1 b2 b3) 3 = b3 := hbyte (by rw [toNat_word]; omega)
  rw [wordBytes, h0, h1, h2, h3]

/-! ### Operand forms: what each reads, and from which bytes alone (30_encoding.md R90, R91) -/

theorem formNone_eq_ok {j : Instr} : formNone op j ops = .ok i ↔ ops = [] ∧ j = i := by
  cases ops <;> simp [formNone]

theorem formB_eq_ok {k : Byte → Instr} : formB op k ops = .ok i ↔ ∃ b, ops = [b] ∧ k b = i := by
  constructor
  · intro hf
    unfold formB at hf
    split at hf
    · exact ⟨_, rfl, Except.ok.inj hf⟩
    · cases hf
  · rintro ⟨b, rfl, rfl⟩
    rfl

theorem formI_eq_ok {k : Half → Instr} : formI op k ops = .ok i ↔ ∃ v, ops = halfBytes v ∧ k v = i := by
  constructor
  · intro hf
    unfold formI at hf
    split at hf
    · exact ⟨_, (halfBytes_half _ _).symm, Except.ok.inj hf⟩
    · cases hf
  · rintro ⟨v, rfl, rfl⟩
    simp [formI, halfBytes, half_halfBytes]

theorem formH_eq_ok {k : Handle → Instr} : formH op k ops = .ok i ↔ ∃ h, ops = wordBytes h ∧ k h = i := by
  constructor
  · intro hf
    unfold formH at hf
    split at hf
    · exact ⟨_, (wordBytes_word _ _ _ _).symm, Except.ok.inj hf⟩
    · cases hf
  · rintro ⟨h, rfl, rfl⟩
    simp [formH, wordBytes, word_wordBytes]

theorem formHB_eq_ok {k : Handle → Byte → Instr} :
    formHB op k ops = .ok i ↔ ∃ h b, ops = wordBytes h ++ [b] ∧ k h b = i := by
  constructor
  · intro hf
    unfold formHB at hf
    split at hf
    · exact ⟨_, _, by rw [wordBytes_word]; rfl, Except.ok.inj hf⟩
    · cases hf
  · rintro ⟨h, b, rfl, rfl⟩
    simp [formHB, wordBytes, word_wordBytes]

theorem formHI_eq_ok {k : Handle → Half → Instr} :
    formHI op k ops = .ok i ↔ ∃ h v, ops = wordBytes h ++ halfBytes v ∧ k h v = i := by
  constructor
  · intro hf
    unfold formHI at hf
    split at hf
    · exact ⟨_, _, by rw [wordBytes_word, halfBytes_half]; rfl, Except.ok.inj hf⟩
    · cases hf
  · rintro ⟨h, v, rfl, rfl⟩
    simp [formHI, wordBytes, halfBytes, word_wordBytes, half_halfBytes]

theorem formHIB_eq_ok {k : Handle → Half → Byte → Instr} :
    formHIB op k ops = .ok i ↔ ∃ h v b, ops = wordBytes h ++ halfBytes v ++ [b] ∧ k h v b = i := by
  constructor
  · intro hf
    unfold formHIB at hf
    split at hf
    · exact ⟨_, _, _, by rw [wordBytes_word, halfBytes_half]; rfl, Except.ok.inj hf⟩
    · cases hf
  · rintro ⟨h, v, b, rfl, rfl⟩
    simp [formHIB, wordBytes, halfBytes, word_wordBytes, half_halfBytes]

theorem formHBBB_eq_ok {k : Handle → Byte → Byte → Byte → Instr} :
    formHBBB op k ops = .ok i ↔ ∃ h b c d, ops = wordBytes h ++ [b, c, d] ∧ k h b c d = i := by
  constructor
  · intro hf
    unfold formHBBB at hf
    split at hf
    · exact ⟨_, _, _, _, by rw [wordBytes_word]; rfl, Except.ok.inj hf⟩
    · cases hf
  · rintro ⟨h, b, c, d, rfl, rfl⟩
    simp [formHBBB, wordBytes, word_wordBytes]

theorem formHBNN_eq_ok {k : Handle → Byte → Half → Half → Instr} :
    formHBNN op k ops = .ok i ↔
      ∃ h b n m, ops = wordBytes h ++ [b] ++ halfBytes n ++ halfBytes m ∧ k h b n m = i := by
  constructor
  · intro hf
    unfold formHBNN at hf
    split at hf
    · exact ⟨_, _, _, _, by rw [wordBytes_word, halfBytes_half, halfBytes_half]; rfl, Except.ok.inj hf⟩
    · cases hf
  · rintro ⟨h, b, n, m, rfl, rfl⟩
    simp [formHBNN, wordBytes, halfBytes, word_wordBytes, half_halfBytes]

theorem formHWNN_eq_ok {k : Handle → Word → Half → Half → Instr} :
    formHWNN op k ops = .ok i ↔
      ∃ h v n m, ops = wordBytes h ++ wordBytes v ++ halfBytes n ++ halfBytes m ∧ k h v n m = i := by
  constructor
  · intro hf
    unfold formHWNN at hf
    split at hf
    · exact ⟨_, _, _, _, by rw [wordBytes_word, wordBytes_word, halfBytes_half, halfBytes_half]; rfl,
        Except.ok.inj hf⟩
    · cases hf
  · rintro ⟨h, v, n, m, rfl, rfl⟩
    simp [formHWNN, wordBytes, halfBytes, word_wordBytes, half_halfBytes]

/-! ### Commands -/

/-- A command's bytes decode to it: its opcode selects its form, which reads its operands (30_encoding.md R91). -/
theorem decode_encode_command (hi : i.isCommand = true) (d : DecState) (cp : Byte) :
    decode d cp (encode cp i) = .ok i := by
  cases i
  case crcReset | crcGet | encProcess | cfgGetPrefix | sysGetFault | crcSink | decRx | cfgSetPrefix => rfl
  case pbAlloc => simp [decode, encode, decodeCommand, decodeOp, formI_eq_ok]
  case pbReference | pbDereference | pbGetStatus | pbGetLength | pbGetCapacity | pbGetRefcount =>
    simp [decode, encode, decodeCommand, decodeOp, formH_eq_ok]
  case pbSetStatus | mapHeader | mapData | mapAppendChecksum | encSubmit =>
    simp [decode, encode, decodeCommand, decodeOp, formHB_eq_ok]
  case c78DecU | c78DecS | pbSetCapacity | pbRead | mapGetCk | mapGetNp | mapGetDa | mapGetSa | mapGetAtype
    | mapNextprotoPos | mapDestPos | mapSrcPos | mapContentsPos | mapNextHeader =>
    simp [decode, encode, decodeCommand, decodeOp, formHI_eq_ok]
  case pbWrite | mapSetCk | mapSetNp | mapSetDa | mapSetSa | mapSetAtype =>
    simp [decode, encode, decodeCommand, decodeOp, formHIB_eq_ok]
  case mapValidate => simp [decode, encode, decodeCommand, decodeOp, formHBBB_eq_ok]
  case pbAppend => simp [decode, encode, decodeCommand, decodeOp, formHBNN_eq_ok]
  case c78EncU | c78EncS => simp [decode, encode, decodeCommand, decodeOp, formHWNN_eq_ok]
  all_goals cases hi

/-! ### Opcodes (30_encoding.md R92) -/

theorem decodeOp_of_undefined (hu : undefinedOpcode op) (ops : List Byte) :
    decodeOp op ops = .error (.undefinedOpcode op) := by
  unfold undefinedOpcode at hu
  unfold decodeOp
  split
  case h_45 => rfl
  all_goals omega

/-- The opcodes by the forms of their operands, in the order of the forms' definitions. -/
theorem opcode_cases : ∀ op : Byte, undefinedOpcode op ∨
    op ∈ [0x01#8, 0x03#8, 0x61#8, 0x71#8, 0x72#8] ∨
    op ∈ [0x02#8, 0x50#8, 0x70#8] ∨
    op ∈ [0x20#8] ∨
    op ∈ [0x23#8, 0x24#8, 0x26#8, 0x27#8, 0x28#8, 0x29#8] ∨
    op ∈ [0x25#8, 0x45#8, 0x46#8, 0x49#8, 0x60#8] ∨
    op ∈ [0x11#8, 0x13#8, 0x21#8, 0x2A#8, 0x30#8, 0x32#8, 0x34#8, 0x36#8, 0x38#8, 0x40#8, 0x41#8, 0x42#8, 0x43#8,
      0x44#8] ∨
    op ∈ [0x2B#8, 0x31#8, 0x33#8, 0x35#8, 0x37#8, 0x39#8] ∨
    op ∈ [0x48#8] ∨
    op ∈ [0x22#8] ∨
    op ∈ [0x10#8, 0x12#8] := by
  unfold undefinedOpcode
  decide

/-- The bytes that decode to a command are its encoding: the opcode is its own, and its form keeps every operand byte
(30_encoding.md R90, R91). -/
theorem encode_of_decodeOp (hx : decodeOp op ops = .ok i) (cp : Byte) :
    encode cp i = .command (op :: ops) ∧ i.isCommand = true := by
  rcases opcode_cases op with hu | hop | hop | hop | hop | hop | hop | hop | hop | hop | hop
  · rw [decodeOp_of_undefined hu] at hx
    cases hx
  · fin_cases hop
    all_goals
      obtain ⟨rfl, rfl⟩ := formNone_eq_ok.mp hx
      exact ⟨rfl, rfl⟩
  · fin_cases hop
    all_goals
      obtain ⟨b, rfl, rfl⟩ := formB_eq_ok.mp hx
      exact ⟨rfl, rfl⟩
  · fin_cases hop
    obtain ⟨v, rfl, rfl⟩ := formI_eq_ok.mp hx
    exact ⟨rfl, rfl⟩
  · fin_cases hop
    all_goals
      obtain ⟨h, rfl, rfl⟩ := formH_eq_ok.mp hx
      exact ⟨rfl, rfl⟩
  · fin_cases hop
    all_goals
      obtain ⟨h, b, rfl, rfl⟩ := formHB_eq_ok.mp hx
      exact ⟨rfl, rfl⟩
  · fin_cases hop
    all_goals
      obtain ⟨h, v, rfl, rfl⟩ := formHI_eq_ok.mp hx
      exact ⟨rfl, rfl⟩
  · fin_cases hop
    all_goals
      obtain ⟨h, v, b, rfl, rfl⟩ := formHIB_eq_ok.mp hx
      exact ⟨rfl, rfl⟩
  · fin_cases hop
    obtain ⟨h, b, c, d, rfl, rfl⟩ := formHBBB_eq_ok.mp hx
    exact ⟨rfl, rfl⟩
  · fin_cases hop
    obtain ⟨h, b, n, m, rfl, rfl⟩ := formHBNN_eq_ok.mp hx
    exact ⟨rfl, rfl⟩
  · fin_cases hop
    all_goals
      obtain ⟨h, v, n, m, rfl, rfl⟩ := formHWNN_eq_ok.mp hx
      exact ⟨rfl, rfl⟩

/-- With zero bytes as its operands a defined opcode is a command. -/
theorem decodeOp_zeros : ∀ op : Byte, ¬ undefinedOpcode op →
    (decodeOp op (List.replicate ((operandCount op.toNat).getD 0) 0#8)).isOk = true := by
  unfold undefinedOpcode
  decide

/-! ### Wire units (44_frame_decoder.md R232) -/

/-- A command fits anywhere. -/
theorem fitsWire_of_isCommand (hi : i.isCommand = true) (d : DecState) (cp : Byte) :
    i.fitsWire d cp = true := by
  cases i
  case wireData | wireCtrl | wireIdle | wireEsc | wireEnd | wireAbort | wireLiteral => cases hi
  all_goals rfl

/-- The byte of a wire unit that fits decodes to it. -/
theorem decode_encode_wire {d : DecState} (hcp : cp &&& 3#8 = 0#8) (hi : i.isCommand = false)
    (hfit : i.fitsWire d cp = true) : decode d cp (encode cp i) = .ok i := by
  obtain ⟨hhigh, _⟩ := (opcodeByte_iff (b := cp) (k := 0#8) (by decide) hcp).mp (by simp)
  obtain ⟨hesc, hesc1⟩ := (opcodeByte_iff (b := cp ||| 1#8) (k := 1#8) (by decide) hcp).mp rfl
  obtain ⟨hend, hend2⟩ := (opcodeByte_iff (b := cp ||| 2#8) (k := 2#8) (by decide) hcp).mp rfl
  obtain ⟨habort, habort3⟩ := (opcodeByte_iff (b := cp ||| 3#8) (k := 3#8) (by decide) hcp).mp rfl
  cases i
  case wireData b =>
    obtain ⟨rfl, hb⟩ : d = .data ∧ b ≠ cp := by simpa [Instr.fitsWire] using hfit
    simp [decode, encode, decodeWire, hb]
  case wireCtrl =>
    obtain rfl : d = .data := by simpa [Instr.fitsWire] using hfit
    simp [decode, encode, decodeWire]
  case wireLiteral b =>
    obtain ⟨rfl, hb⟩ : d = .controlSeen ∧ b &&& 0xFC#8 ≠ cp := by simpa [Instr.fitsWire] using hfit
    simp [decode, encode, decodeWire, hb]
  case wireIdle | wireEsc | wireEnd | wireAbort =>
    obtain rfl : d = .controlSeen := by simpa [Instr.fitsWire] using hfit
    simp [decode, encode, decodeWire, hhigh, hcp, hesc, hesc1, hend, hend2, habort, habort3]
  all_goals cases hi

/-- Every received byte is the byte of the unit it decodes to, and that unit fits (30_encoding.md R99). -/
theorem encode_decodeWire (hcp : cp &&& 3#8 = 0#8) (d : DecState) (b : Byte) :
    encode cp (decodeWire d cp b) = .wire b ∧ (decodeWire d cp b).fitsWire d cp = true := by
  cases d with
  | data => by_cases hb : b = cp <;> simp [decodeWire, encode, Instr.fitsWire, hb]
  | controlSeen =>
    by_cases hb : b &&& 0xFC#8 = cp
    · have hbyte {k : Byte} (hk : k &&& 0xFC#8 = 0#8 ∧ k &&& 3#8 = k) (e : b &&& 3#8 = k) : cp ||| k = b :=
        ((opcodeByte_iff hk hcp).mpr ⟨hb, e⟩).symm
      rcases lowBits_cases b with e | e | e | e
      · simpa [decodeWire, encode, Instr.fitsWire, hb, e] using hbyte (by decide) e
      · simpa [decodeWire, encode, Instr.fitsWire, hb, e] using hbyte (by decide) e
      · simpa [decodeWire, encode, Instr.fitsWire, hb, e] using hbyte (by decide) e
      · simpa [decodeWire, encode, Instr.fitsWire, hb, e] using hbyte (by decide) e
    · simp [decodeWire, encode, Instr.fitsWire, hb]

end

end Sys2Proof.Machine
end

section
/-! PROOFS. The statements about the encoding and the decoder of inputs. -/

namespace Sys2Proof.Machine

/-- Settles O1: a command by its opcode's form, a wire unit by its byte. -/
theorem encodedInstructionsDecodeBack : Obligations.EncodedInstructionsDecodeBack := by
  intro i d cp hcp hfit
  cases hi : i.isCommand with
  | true => exact decode_encode_command hi d cp
  | false => exact decode_encode_wire (by simpa [legalControl] using hcp) hi hfit

/-- Settles O2: a command by the decoder's table, a received byte by the cases of the wire decoder. -/
theorem decodedInputsEncodeBack : Obligations.DecodedInputsEncodeBack := by
  intro x i d cp hcp hx
  cases x with
  | command bytes =>
    cases bytes with
    | nil => cases hx
    | cons op ops =>
      obtain ⟨henc, hi⟩ := encode_of_decodeOp hx cp
      exact ⟨henc, fitsWire_of_isCommand hi d cp⟩
  | wire b =>
    obtain rfl : decodeWire d cp b = i := Except.ok.inj hx
    exact encode_decodeWire (by simpa [legalControl] using hcp) d b
  | reset => cases hx

/-- Settles O4: the table has no row for an undefined opcode, and a row for every other. -/
theorem undefinedOpcodesRaiseBadOpcode : Obligations.UndefinedOpcodesRaiseBadOpcode := by
  refine ⟨fun s op ops rest hok hu hin => ?_, fun op hd => ?_⟩
  · rw [step_of_error hin (decodeOp_of_undefined hu ops)]
    exact congrArg Host.Outcome.next (if_pos hok)
  · have hzeros := decodeOp_zeros op hd
    rcases hx : decodeOp op (List.replicate ((operandCount op.toNat).getD 0) 0#8) with e | i
    · rw [hx] at hzeros
      cases hzeros
    · exact ⟨_, i, hx⟩

/-- Settles O3: closed strings, which the decoders evaluate. -/
theorem specByteStringsDecode : Obligations.SpecByteStringsDecode := by
  unfold Obligations.SpecByteStringsDecode
  decide

end Sys2Proof.Machine
end

section
/-! SUPPORT. Code78 integers: what a byte sequence reads as, by its layout, and the minimal form of a value. -/

namespace Sys2Proof.Machine

section

variable {l field after rest : List Byte} {b : Byte} {v : Word} {k n : Nat}

/-! ### Fields (30_encoding.md R103) -/

theorem isLastByte_iff : isLastByte b = true ↔ b &&& 0x80#8 = 0#8 := by simp [isLastByte]

theorem isC78Field_single (hb : b &&& 0x80#8 = 0#8) : isC78Field [b] := ⟨[], b, rfl, nofun, hb⟩

theorem isC78Field_cons (hb : b &&& 0x80#8 ≠ 0#8) (hl : isC78Field l) : isC78Field (b :: l) := by
  obtain ⟨cs, last, rfl, hcs, hlast⟩ := hl
  exact ⟨b :: cs, last, rfl, List.forall_mem_cons.mpr ⟨hb, hcs⟩, hlast⟩

/-- A byte sequence begins with a field, or never ends one. -/
theorem allContinue_or_field (l : List Byte) :
    allContinue l ∨ ∃ field after, isC78Field field ∧ l = field ++ after := by
  induction l with
  | nil => exact .inl nofun
  | cons b l ih =>
    by_cases hb : b &&& 0x80#8 = 0#8
    · exact .inr ⟨[b], l, isC78Field_single hb, rfl⟩
    · rcases ih with hl | ⟨field, after, hfield, rfl⟩
      · exact .inl (List.forall_mem_cons.mpr ⟨hb, hl⟩)
      · exact .inr ⟨b :: field, after, isC78Field_cons hb hfield, rfl⟩

/-- Fields are taken apart from their first byte on, as the loops that read them go. -/
theorem isC78Field_induction {motive : (l : List Byte) → isC78Field l → Prop}
    (single : ∀ b hb, motive [b] (isC78Field_single hb))
    (cons : ∀ b l hb hl, motive l hl → motive (b :: l) (isC78Field_cons hb hl))
    {l : List Byte} (hl : isC78Field l) : motive l hl := by
  obtain ⟨cs, last, rfl, hcs, hlast⟩ := id hl
  induction cs with
  | nil => exact single last hlast
  | cons c cs ih =>
    obtain ⟨hc, hcs⟩ := List.forall_mem_cons.mp hcs
    exact cons c _ hc _ (ih ⟨cs, last, rfl, hcs, hlast⟩ hcs)

/-! ### Values (30_encoding.md R104) -/

theorem c78Value_concat (l : List Byte) (b : Byte) : c78Value (l ++ [b]) = 128 * c78Value l + (b &&& 0x7F#8).toNat := by
  simp [c78Value]

theorem c78Value_append (l m : List Byte) : c78Value (l ++ m) = c78Value l * 128 ^ m.length + c78Value m := by
  induction m using List.reverseRecOn with
  | nil => simp [c78Value]
  | append_singleton m b ih =>
    rw [← List.append_assoc, c78Value_concat, ih, c78Value_concat, List.length_append, List.length_singleton]
    ring

theorem c78Value_cons (b : Byte) (l : List Byte) :
    c78Value (b :: l) = (b &&& 0x7F#8).toNat * 128 ^ l.length + c78Value l := by
  rw [← List.singleton_append, c78Value_append]
  simp [c78Value]

/-- The seven value bits of a byte. -/
theorem toNat_and_low7 (b : Byte) : (b &&& 0x7F#8).toNat = b.toNat % 128 := by
  rw [BitVec.toNat_and]
  exact Nat.and_two_pow_sub_one_eq_mod b.toNat 7

theorem c78Value_lt (l : List Byte) : c78Value l < 128 ^ l.length := by
  induction l with
  | nil => exact Nat.one_pos
  | cons b l ih =>
    have hb : (b &&& 0x7F#8).toNat ≤ 127 := by rw [toNat_and_low7]; omega
    calc c78Value (b :: l) = (b &&& 0x7F#8).toNat * 128 ^ l.length + c78Value l := c78Value_cons b l
      _ < 127 * 128 ^ l.length + 128 ^ l.length := Nat.add_lt_add_of_le_of_lt (Nat.mul_le_mul_right _ hb) ih
      _ = 128 ^ (b :: l).length := by rw [List.length_cons, pow_succ]; ring

/-! ### Reading (41_code78.md R141) -/

/-- One turn of the reading loop on numbers. -/
theorem shift_or_group (n : Nat) (b : Byte) :
    (BitVec.ofNat 32 n <<< 7) ||| (b &&& 0x7F#8).setWidth 32 = BitVec.ofNat 32 (128 * n + (b &&& 0x7F#8).toNat) := by
  have hdisjoint : (BitVec.ofNat 32 n <<< 7) &&& (b &&& 0x7F#8).setWidth 32 = 0#32 := by
    ext j hj
    by_cases hlow : j < 7
    · simp [hlow]
    · have hgroup : (b &&& 0x7F#8).toNat < 2 ^ j := by
        have hpow : 2 ^ 7 ≤ 2 ^ j := Nat.pow_le_pow_right (by decide) (by omega)
        rw [toNat_and_low7]
        omega
      have hbit : (b &&& 0x7F#8).getLsbD j = false := Nat.testBit_lt_two_pow hgroup
      rw [BitVec.getElem_and, BitVec.getElem_setWidth, hbit, Bool.and_false, BitVec.getElem_zero]
  rw [← BitVec.add_eq_or_of_and_eq_zero _ _ hdisjoint]
  apply BitVec.eq_of_toNat_eq
  simp only [BitVec.toNat_add, BitVec.toNat_shiftLeft, BitVec.toNat_ofNat, BitVec.toNat_setWidth, toNat_and_low7,
    Nat.shiftLeft_eq]
  omega

theorem c78Loop_field (hfield : isC78Field field) (after : List Byte) (pos n : Nat) :
    c78Loop (field ++ after) pos (BitVec.ofNat 32 n) =
      some (BitVec.ofNat 32 (n * 128 ^ field.length + c78Value field), pos + field.length) := by
  induction hfield using isC78Field_induction generalizing pos n with
  | single b hb =>
    rw [List.singleton_append, c78Loop, shift_or_group, if_pos (isLastByte_iff.mpr hb), c78Value_cons]
    simp [c78Value, Nat.mul_comm]
  | cons b l hb _ ih =>
    have hvalue : (128 * n + (b &&& 0x7F#8).toNat) * 128 ^ l.length + c78Value l =
        n * 128 ^ (b :: l).length + c78Value (b :: l) := by
      rw [c78Value_cons, List.length_cons]
      ring
    have hpos : pos + 1 + l.length = pos + (b :: l).length := by rw [List.length_cons]; omega
    rw [List.cons_append, c78Loop, shift_or_group, if_neg (mt isLastByte_iff.mp hb), ih, hvalue, hpos]

theorem c78Loop_allContinue (hl : allContinue l) (pos : Nat) (v : Word) : c78Loop l pos v = none := by
  induction l generalizing pos v with
  | nil => rfl
  | cons b l ih =>
    obtain ⟨hb, hl⟩ := List.forall_mem_cons.mp hl
    rw [c78Loop, if_neg (mt isLastByte_iff.mp hb), ih hl]

/-- A field reads as its value, and the position after it. -/
theorem c78Decode_field (width : Nat) (before after : List Byte) (hfield : isC78Field field) :
    c78Decode width (before ++ field ++ after) before.length =
      some (c78Wrap width (BitVec.ofNat 32 (c78Value field)), before.length + field.length) := by
  rw [c78Decode, List.append_assoc, List.drop_left, c78Loop_field hfield]
  simp

/-- Where no field ends there is nothing to read. -/
theorem c78Decode_allContinue (width : Nat) (before : List Byte) (hrest : allContinue rest) :
    c78Decode width (before ++ rest) before.length = none := by
  rw [c78Decode, List.drop_left, c78Loop_allContinue hrest]
  rfl

theorem c78Wrap_ofNat (width n : Nat) :
    c78Wrap width (BitVec.ofNat 32 n) = BitVec.ofNat 32 (n % 2 ^ width % 2 ^ 32) := by
  have hcomm : n % 2 ^ 32 % 2 ^ width = n % 2 ^ width % 2 ^ 32 := by
    rcases Nat.le_total width 32 with hle | hle
    · have hlt : n % 2 ^ width < 2 ^ 32 :=
        (Nat.mod_lt n (Nat.two_pow_pos width)).trans_le (Nat.pow_le_pow_right (by decide) hle)
      rw [Nat.mod_mod_of_dvd n (pow_dvd_pow 2 hle), Nat.mod_eq_of_lt hlt]
    · have hlt : n % 2 ^ 32 < 2 ^ width :=
        (Nat.mod_lt n (Nat.two_pow_pos 32)).trans_le (Nat.pow_le_pow_right (by decide) hle)
      rw [Nat.mod_mod_of_dvd n (pow_dvd_pow 2 hle), Nat.mod_eq_of_lt hlt]
  rw [c78Wrap, BitVec.toNat_ofNat, hcomm]

/-- A value that fits the width is read as it is. -/
theorem c78Wrap_of_fits {width : Nat} (hv : width = 32 ∨ v.toNat < 2 ^ width) : c78Wrap width v = v := by
  have hlt : v.toNat < 2 ^ width := by
    rcases hv with rfl | hv
    · exact v.isLt
    · exact hv
  rw [c78Wrap, Nat.mod_eq_of_lt hlt, BitVec.ofNat_toNat, BitVec.setWidth_eq]

theorem toNat_c78Wrap_le (width : Nat) (v : Word) : (c78Wrap width v).toNat ≤ v.toNat := by
  rw [c78Wrap, BitVec.toNat_ofNat]
  exact (Nat.mod_le _ _).trans (Nat.mod_le _ _)

/-! ### Skipping (43_map.md R202) -/

theorem skipLoop_field (hfield : isC78Field field) (after : List Byte) (pos : Nat) :
    skipLoop (field ++ after) pos = some (pos + field.length) := by
  induction hfield using isC78Field_induction generalizing pos with
  | single b hb => rw [List.singleton_append, skipLoop, if_pos (isLastByte_iff.mpr hb), List.length_singleton]
  | cons b l hb _ ih =>
    rw [List.cons_append, skipLoop, if_neg (mt isLastByte_iff.mp hb), ih, List.length_cons]
    congr 1
    omega

theorem skipLoop_allContinue (hl : allContinue l) (pos : Nat) : skipLoop l pos = none := by
  induction l generalizing pos with
  | nil => rfl
  | cons b l ih =>
    obtain ⟨hb, hl⟩ := List.forall_mem_cons.mp hl
    rw [skipLoop, if_neg (mt isLastByte_iff.mp hb), ih hl]

theorem skipC78_field (before after : List Byte) (hfield : isC78Field field) :
    skipC78 (before ++ field ++ after) before.length = some (before.length + field.length) := by
  rw [skipC78, List.append_assoc, List.drop_left, skipLoop_field hfield]

theorem skipC78_allContinue (before : List Byte) (hrest : allContinue rest) :
    skipC78 (before ++ rest) before.length = none := by
  rw [skipC78, List.drop_left, skipLoop_allContinue hrest]

/-! ### The minimal form (41_code78.md R140, R147) -/

theorem toNat_c78Group (v : Word) (k : Nat) : (c78Group v k).toNat = v.toNat / 128 ^ k % 128 := by
  rw [c78Group, toNat_and_low7]
  simp only [BitVec.toNat_setWidth, BitVec.toNat_ushiftRight, Nat.shiftRight_eq_div_pow, pow_mul]
  norm_num

theorem c78Group_last (v : Word) (k : Nat) : c78Group v k &&& 0x80#8 = 0#8 := by
  rw [c78Group, BitVec.and_assoc]
  simp

theorem isC78Field_emit (v : Word) (hn : n ≠ 0) : isC78Field (c78Emit v n) := by
  induction n using c78Emit.induct with
  | case1 => exact absurd rfl hn
  | case2 => exact isC78Field_single (c78Group_last v 0)
  | case3 n ih =>
    refine isC78Field_cons ?_ (ih n.succ_ne_zero)
    rw [BitVec.and_or_distrib_right, c78Group_last]
    decide

theorem c78Value_emit (v : Word) (n : Nat) : c78Value (c78Emit v n) = v.toNat % 128 ^ n := by
  induction n using c78Emit.induct with
  | case1 => simp [c78Emit, c78Value, Nat.mod_one]
  | case2 =>
    rw [c78Emit, c78Value_cons, toNat_and_low7, toNat_c78Group]
    simp [c78Value]
  | case3 n ih =>
    have hgroup : ((c78Group v (n + 1) ||| 0x80#8) &&& 0x7F#8).toNat = v.toNat / 128 ^ (n + 1) % 128 := by
      rw [BitVec.and_or_distrib_right, show (0x80#8 &&& 0x7F#8 : Byte) = 0#8 from rfl, BitVec.or_zero, toNat_and_low7,
        toNat_c78Group, Nat.mod_mod]
    rw [c78Emit, c78Value_cons, length_c78Emit, hgroup, ih, Nat.mod_pow_succ (k := n + 1)]
    ring

theorem c78Groups_pos (v : Word) : c78Groups v ≠ 0 := by
  unfold c78Groups
  split_ifs <;> decide

theorem toNat_lt_c78Groups (v : Word) : v.toNat < 128 ^ c78Groups v := by
  have hv := v.isLt
  unfold c78Groups
  split_ifs <;> omega

/-- Every value below 128 to the `k` has at most `k` groups (41_code78.md R147). -/
theorem c78Groups_le (hk : k ≠ 0) (hv : v.toNat < 128 ^ k) : c78Groups v ≤ k := by
  have hshort {m : Nat} (hkm : k ≤ m) : v.toNat < 128 ^ m := hv.trans_le (Nat.pow_le_pow_right (by decide) hkm)
  have h1 : k ≤ 1 → v.toNat < 128 ^ 1 := hshort
  have h2 : k ≤ 2 → v.toNat < 128 ^ 2 := hshort
  have h3 : k ≤ 3 → v.toNat < 128 ^ 3 := hshort
  have h4 : k ≤ 4 → v.toNat < 128 ^ 4 := hshort
  unfold c78Groups
  split_ifs <;> omega

theorem isC78Field_encode (v : Word) : isC78Field (c78Encode v) := isC78Field_emit v (c78Groups_pos v)

theorem c78Value_encode (v : Word) : c78Value (c78Encode v) = v.toNat :=
  (c78Value_emit v _).trans (Nat.mod_eq_of_lt (toNat_lt_c78Groups v))

/-! ### The zig-zag form (30_encoding.md R105) -/

theorem toNat_zigZag (v : Word) : ((zigZag v).toNat : Int) = if 0 ≤ v.toInt then 2 * v.toInt else -2 * v.toInt - 1 := by
  have hlo := v.le_toInt
  have hhi := v.toInt_lt
  unfold zigZag
  split_ifs
  · rw [BitVec.toNat_ofInt]
    omega
  · rw [BitVec.toNat_ofInt]
    omega

/-- The two values that a zig-zag stands for, by its lowest bit. -/
theorem unZigZag_eq (u : Word) :
    unZigZag u =
      BitVec.ofInt 32 (if u.toNat % 2 = 0 then ((u.toNat / 2 : Nat) : Int) else -((u.toNat / 2 : Nat) : Int) - 1) := by
  have heven : u &&& 1#32 = 0#32 ↔ u.toNat % 2 = 0 := by
    rw [← BitVec.toNat_inj, BitVec.toNat_and]
    exact Eq.congr_left (Nat.and_one_is_mod _)
  have hhalf : (u >>> 1).toNat = u.toNat / 2 := by simp [Nat.shiftRight_eq_div_pow]
  simp only [unZigZag, heven, hhalf]
  split_ifs <;> rfl

theorem unZigZag_zigZag (v : Word) : unZigZag (zigZag v) = v := by
  have hzig := toNat_zigZag v
  have hint : (if (zigZag v).toNat % 2 = 0 then (((zigZag v).toNat / 2 : Nat) : Int)
      else -(((zigZag v).toNat / 2 : Nat) : Int) - 1) = v.toInt := by
    split_ifs at hzig ⊢ <;> omega
  rw [unZigZag_eq, hint, BitVec.ofInt_toInt]

/-! ### The commands -/

variable {s t : State} {h : Handle} {p : Packet} {i : Instr}

/-- A field at the position is answered with its value, seen through `f`, and the position after it (41_code78.md
R143). -/
theorem readC78_field (hp : s.packet h = some p) {cur : Half} {before : List Byte}
    (hdata : p.data = before ++ field ++ after) (hcur : before.length = cur.toNat) (hfield : isC78Field field)
    (f : Word → Word) :
    readC78 h cur f s = s.answer .good
      [.word (f (c78Wrap s.params.c78Width (BitVec.ofNat 32 (c78Value field)))),
        indexField (cur.toNat + field.length)] := by
  have hlen : ¬ p.len < cur.toNat := by simp [Packet.len, hdata, hcur]
  have hread := c78Decode_field s.params.c78Width before after hfield
  rw [← hdata, hcur] at hread
  simp only [readC78, ifLive_of_live hp, if_neg hlen, hread]

/-- No field at the position is answered `Bad` (41_code78.md R143). -/
theorem readC78_allContinue (hp : s.packet h = some p) {cur : Half} {before : List Byte}
    (hdata : p.data = before ++ rest) (hcur : before.length = cur.toNat) (hrest : allContinue rest) (f : Word → Word) :
    readC78 h cur f s = s.answer .bad [.word 0#32, .index 0#16] := by
  have hlen : ¬ p.len < cur.toNat := by simp [Packet.len, hdata, hcur]
  have hread := c78Decode_allContinue s.params.c78Width before hrest
  rw [← hdata, hcur] at hread
  simp only [readC78, ifLive_of_live hp, if_neg hlen, hread]

theorem readC78_beyond (hp : s.packet h = some p) {cur : Half} (hcur : p.len < cur.toNat) (f : Word → Word) :
    readC78 h cur f s = s.raise .index := by
  rw [readC78, ifLive_of_live hp, if_pos hcur]

/-- An append answered `Good` has added all its bytes to a packet that no unit holds, and changed no parameter
(20_memory.md R68). -/
theorem exec_append_good {bytes : List Byte} {inc lim : Half} (hok : s.fault = 0#8) (hp : s.packet h = some p)
    (hi : (∃ b, i = .pbAppend h b inc lim ∧ bytes = [b]) ∨ (∃ v, i = .c78EncU h v inc lim ∧ bytes = c78Encode v) ∨
      (∃ v, i = .c78EncS h v inc lim ∧ bytes = c78Encode (zigZag v)))
    (ht : exec i s = .next t) (hgood : t.result = some ⟨.good, []⟩) :
    t.fault = 0#8 ∧ t.params = s.params ∧ ∃ q, t.packet h = some q ∧ q.data = p.data ++ bytes := by
  cases hh : s.held h with
  | true =>
    obtain ⟨hhandle, hm, hwf⟩ : handleOf i = some h ∧ mutates i = true ∧ i.wellFormed = true := by
      rcases hi with ⟨b, rfl, _⟩ | ⟨v, rfl, _⟩ | ⟨v, rfl, _⟩ <;> exact ⟨rfl, rfl, rfl⟩
    obtain ⟨hrefuse, _⟩ := heldPacketsRefuseMutation
    rw [hrefuse i s h p hok hhandle hm hwf hp hh] at ht
    cases ht
    cases hgood
  | false =>
    rw [exec_append hok hp hh hi] at ht
    obtain ⟨r, p', u, he, hr⟩ := appendCommand_cases s h p bytes inc.toNat lim.toNat
    obtain ⟨hu, hp', _⟩ := ensureRoom_frame he
    cases ht
    rw [hr] at hgood ⊢
    by_cases hrg : r = .good
    · rw [if_pos hrg, hu]
      refine ⟨hok, rfl, _, setPacket_packet_self _ h _, ?_⟩
      rw [hp']
      rfl
    · rw [if_neg hrg] at hgood
      cases hgood
      exact absurd rfl hrg

end

end Sys2Proof.Machine
end

section
/-! PROOFS. The statements about Code78 integers and the commands that append and read them. -/

namespace Sys2Proof.Machine

/-- Appended bytes are read back as the value that they hold. -/
theorem c78Decode_encode {width : Nat} {v : Word} (hv : width = 32 ∨ v.toNat < 2 ^ width) (data : List Byte) :
    c78Decode width (data ++ c78Encode v) data.length = some (v, data.length + c78Groups v) := by
  have hread := c78Decode_field width data [] (isC78Field_encode v)
  rw [List.append_nil, c78Value_encode, BitVec.ofNat_toNat, BitVec.setWidth_eq, c78Wrap_of_fits hv,
    length_c78Encode] at hread
  exact hread

/-- The read at the old end of a packet that a value was appended to. -/
theorem readC78_encode {t : State} {h : Handle} {p q : Packet} {v : Word} {cur : Half}
    (hv : t.params.c78Width = 32 ∨ v.toNat < 2 ^ t.params.c78Width) (hq : t.packet h = some q)
    (hdata : q.data = p.data ++ c78Encode v) (hcur : cur.toNat = p.len) (f : Word → Word) :
    readC78 h cur f t = t.answer .good [.word (f v), .index (cur + BitVec.ofNat 16 (c78Groups v))] := by
  have hend : indexField (cur.toNat + c78Groups v) = .index (cur + BitVec.ofNat 16 (c78Groups v)) := by
    rw [indexField, BitVec.ofNat_add, BitVec.ofNat_toNat, BitVec.setWidth_eq]
  rw [readC78_field (after := []) hq (by rw [hdata, List.append_nil]) hcur.symm (isC78Field_encode v), c78Value_encode,
    BitVec.ofNat_toNat, BitVec.setWidth_eq, c78Wrap_of_fits hv, length_c78Encode, hend]

/-- Settles O23: the appended bytes are a field of the value, which the read takes whole. -/
theorem code78RoundTrip : Obligations.Code78RoundTrip := by
  refine ⟨fun width data v => ⟨(c78Decode_encode · data), (c78Decode_encode · data), unZigZag_zigZag v⟩,
    fun s t h p v inc lim cur _ hok hp hcur hgood => ⟨fun hv ht => ?_, fun hv ht => ?_⟩⟩
  · obtain ⟨hok', hparams, q, hq, hdata⟩ := exec_append_good hok hp (.inr (.inl ⟨v, rfl, rfl⟩)) ht hgood
    rw [exec, execC78DecU, runCommand_of_ok t _ hok', readC78_encode (hparams ▸ hv) hq hdata hcur]
    rfl
  · obtain ⟨hok', hparams, q, hq, hdata⟩ := exec_append_good hok hp (.inr (.inr ⟨v, rfl, rfl⟩)) ht hgood
    rw [exec, execC78DecS, runCommand_of_ok t _ hok', readC78_encode (hparams ▸ hv) hq hdata hcur, unZigZag_zigZag]
    rfl

/-- Settles O24: a sequence that reads as the value begins with a field, whose groups bound the value. -/
theorem code78FormIsMinimal : Obligations.Code78FormIsMinimal := by
  intro v
  refine ⟨isC78Field_encode v, ?_, fun width data cur next hread => ?_⟩
  · rw [length_c78Encode, c78Groups]
    split_ifs <;> omega
  · rw [length_c78Encode]
    obtain ⟨⟨w, pos⟩, hloop, hwrap⟩ := Option.map_eq_some_iff.mp hread
    obtain ⟨rfl, rfl⟩ := Prod.mk.inj hwrap
    rcases allContinue_or_field (data.drop cur) with hrest | ⟨field, after, hfield, hdata⟩
    · rw [c78Loop_allContinue hrest] at hloop
      cases hloop
    · rw [hdata, c78Loop_field hfield] at hloop
      obtain ⟨rfl, rfl⟩ := Prod.mk.inj (Option.some.inj hloop)
      refine Nat.add_le_add_left (c78Groups_le ?_ ?_) cur
      · obtain ⟨cs, b, rfl, _⟩ := hfield
        simp
      · have hmod : (BitVec.ofNat 32 (0 * 128 ^ field.length + c78Value field)).toNat ≤ c78Value field := by
          rw [Nat.zero_mul, Nat.zero_add, BitVec.toNat_ofNat]
          exact Nat.mod_le _ _
        exact ((toNat_c78Wrap_le _ _).trans hmod).trans_lt (c78Value_lt field)

/-- Settles O25: a field is read as its value, a run that ends no field as `Bad`. -/
theorem code78ReadsFollowTheLayout : Obligations.Code78ReadsFollowTheLayout := by
  intro s h p cur hok hp
  have hunsigned : exec (.c78DecU h cur) s = .next (readC78 h cur id s) := runCommand_of_ok s _ hok
  have hsigned : exec (.c78DecS h cur) s = .next (readC78 h cur unZigZag s) := runCommand_of_ok s _ hok
  rw [hunsigned, hsigned]
  refine ⟨fun before field after u hdata hcur hfield hu => ?_, fun before rest hdata hcur hrest => ?_, fun hend => ?_⟩
  · have hword : c78Wrap s.params.c78Width (BitVec.ofNat 32 (c78Value field)) = BitVec.ofNat 32 u := by
      rw [c78Wrap_ofNat, hu]
    have hlt : u < 2 ^ 32 := hu ▸ Nat.mod_lt _ (Nat.two_pow_pos 32)
    have hnat : (BitVec.ofNat 32 u).toNat = u := by rw [BitVec.toNat_ofNat, Nat.mod_eq_of_lt hlt]
    rw [readC78_field hp hdata hcur hfield, readC78_field hp hdata hcur hfield, hword, unZigZag_eq, hnat]
    exact ⟨rfl, rfl⟩
  · rw [readC78_allContinue hp hdata hcur hrest, readC78_allContinue hp hdata hcur hrest]
    exact ⟨rfl, rfl⟩
  · rw [readC78_beyond hp hend, readC78_beyond hp hend]
    exact ⟨rfl, rfl⟩

/-- Settles O26: with room nobody is asked. -/
theorem appendsWithRoomComplete : Obligations.AppendsWithRoomComplete := by
  refine ⟨fun s h p i bytes inc lim hok hp hh hi hroom => ?_, toNat_zigZag⟩
  rw [exec_append hok hp hh hi, appendCommand, ensureRoom_room hroom]
  rfl

end Sys2Proof.Machine
end

section
/-! PROOFS. The statements about header bytes, the positions of a header's fields, and the reads of a record. -/

namespace Sys2Proof.Machine

section

variable {s : State} {h : Handle} {p : Packet} {data front field after rest : List Byte} {x : Byte} {pos : Nat}

/-! ### Header bytes (30_encoding.md R100) -/

/-- The presence flags are bits 7 to 4. -/
theorem hasFlag_eq_bit : ∀ x : Byte, hasFlag x maskCk = x.getLsbD 7 ∧ hasFlag x maskNp = x.getLsbD 6 ∧
    hasFlag x maskDa = x.getLsbD 5 ∧ hasFlag x maskSa = x.getLsbD 4 := by
  decide

/-- The address type is the low nibble. -/
theorem addrType_eq (x : Byte) : addrType x = BitVec.ofNat 8 (x.toNat % 16) := by
  have hnibble : (addrType x).toNat = x.toNat % 16 := by
    rw [addrType, BitVec.toNat_and]
    exact Nat.and_two_pow_sub_one_eq_mod x.toNat 4
  rw [← hnibble, BitVec.ofNat_toNat, BitVec.setWidth_eq]

theorem headerByte_of_getElem? (hx : data[pos]? = some x) : headerByte data pos = x := by
  simp [headerByte, List.getD, hx]

theorem headerByte_append (before rest : List Byte) (x : Byte) :
    headerByte (before ++ x :: rest) before.length = x := by
  simp [headerByte]

/-! ### Commands at a header position (43_map.md R191) -/

theorem runCommand_atHeader (hok : s.fault = 0#8) (hp : s.packet h = some p) {hpos : Half}
    (hlt : hpos.toNat < p.data.length) (k : State → Packet → State) :
    runCommand s (atHeader h hpos k) = .next (k s p) := by
  rw [runCommand_of_ok s _ hok, atHeader, ifLive_of_live hp, ifIndex_of_lt hlt]

theorem runCommand_atHeader_beyond (hok : s.fault = 0#8) (hp : s.packet h = some p) {hpos : Half}
    (hge : p.data.length ≤ hpos.toNat) (k : State → Packet → State) :
    runCommand s (atHeader h hpos k) = faultsWith s 2#8 := by
  rw [runCommand_of_ok s _ hok, atHeader, ifLive_of_live hp, ifIndex_of_ge hge]
  rfl

/-- A flag read inside the packet. -/
theorem runCommand_getFlag (hok : s.fault = 0#8) (hp : s.packet h = some p) {hpos : Half}
    (hx : p.data[hpos.toNat]? = some x) (m : Byte) :
    runCommand s (getFlag m h hpos) = answers s .good [.byte (flagByte (hasFlag x m))] := by
  obtain ⟨hlt, _⟩ := List.getElem?_eq_some_iff.mp hx
  have hread := runCommand_atHeader hok hp hlt
    (fun s p => s.answer .good [.byte (flagByte (hasFlag (headerByte p.data hpos.toNat) m))])
  rw [headerByte_of_getElem? hx] at hread
  exact hread

theorem next_answerPos (s : State) (o : Option Nat) : .next (s.answerPos o) = answersPos s o := by
  cases o <;> rfl

/-! ### Field positions (43_map.md R202, R203) -/

/-- A field that is there is skipped, and one that is not takes no bytes. -/
theorem skipField_eq {present : Bool} (hdata : data = front ++ field ++ after) (hpos : pos = front.length)
    (hfield : if present then isC78Field field else field = []) :
    skipField data present pos = some (pos + field.length) := by
  subst hdata hpos
  cases present with
  | true => exact skipC78_field front after hfield
  | false =>
    obtain rfl : field = [] := hfield
    rfl

/-- A field that is there and runs off the end of the packet has no position after it. -/
theorem skipField_runsOff {present : Bool} (hdata : data = front ++ rest) (hpos : pos = front.length)
    (hrest : allContinue rest) (hpresent : present = true) : skipField data present pos = none := by
  subst hdata hpos hpresent
  exact skipC78_allContinue front hrest

/-- The chain of the field positions, by the presence bits of the header byte. -/
theorem fields_of_headerByte (hx : headerByte data pos = x) :
    fields data pos =
      { np := pos + 1,
        da := skipField data (x.getLsbD 6) (pos + 1),
        sa := (skipField data (x.getLsbD 6) (pos + 1)).bind (skipField data (x.getLsbD 5)),
        ct := ((skipField data (x.getLsbD 6) (pos + 1)).bind (skipField data (x.getLsbD 5))).bind
          (skipField data (x.getLsbD 4)) } := by
  obtain ⟨_, hnp, hda, hsa⟩ := hasFlag_eq_bit x
  rw [fields, hx, hnp, hda, hsa]

end

/-- Settles O39: each field's bytes lie between the position before it and the position after it. -/
theorem fieldPositionsFollowTheLayout : Obligations.FieldPositionsFollowTheLayout := by
  intro before np da sa rest x
  have hstart : before.length + 1 = (before ++ [x]).length := by simp
  have hafterNp : before.length + 1 + np.length = (before ++ x :: np).length := by simp; omega
  have hafterDa : before.length + 1 + np.length + da.length = (before ++ x :: np ++ da).length := by simp; omega
  refine ⟨fun data hdata hnp hda hsa => ?_, fun hrest => ⟨fun h6 => ?_, fun hnp => ⟨fun h5 => ?_, fun hda h4 => ?_⟩⟩⟩
  · have hx : headerByte data before.length = x := by
      rw [hdata]
      simpa using headerByte_append before (np ++ (da ++ (sa ++ rest))) x
    have hskipNp := skipField_eq (data := data) (after := da ++ sa ++ rest) (by simp [hdata]) hstart hnp
    have hskipDa := skipField_eq (data := data) (after := sa ++ rest) (by simp [hdata]) hafterNp hda
    have hskipSa := skipField_eq (data := data) (after := rest) (by simp [hdata]) hafterDa hsa
    rw [fields_of_headerByte hx, hskipNp, Option.bind_some, hskipDa, Option.bind_some, hskipSa]
  · have hskipNp := skipField_runsOff (data := before ++ x :: rest) (by simp) hstart hrest h6
    rw [fields_of_headerByte (headerByte_append before rest x), hskipNp]
    rfl
  · have hx : headerByte (before ++ x :: np ++ rest) before.length = x := by
      simpa using headerByte_append before (np ++ rest) x
    have hskipNp := skipField_eq (data := before ++ x :: np ++ rest) (after := rest) (by simp) hstart hnp
    have hskipDa := skipField_runsOff (data := before ++ x :: np ++ rest) rfl hafterNp hrest h5
    rw [fields_of_headerByte hx, hskipNp, Option.bind_some, hskipDa]
    rfl
  · have hx : headerByte (before ++ x :: np ++ da ++ rest) before.length = x := by
      simpa using headerByte_append before (np ++ (da ++ rest)) x
    have hskipNp := skipField_eq (data := before ++ x :: np ++ da ++ rest) (after := da ++ rest) (by simp) hstart hnp
    have hskipDa := skipField_eq (data := before ++ x :: np ++ da ++ rest) (after := rest) (by simp) hafterNp hda
    have hskipSa := skipField_runsOff (data := before ++ x :: np ++ da ++ rest) rfl hafterDa hrest h4
    rw [fields_of_headerByte hx, hskipNp, Option.bind_some, hskipDa, Option.bind_some, hskipSa]

/-- Settles O36: the five reads check the index, and answer from the byte. -/
theorem headerByteReads : Obligations.HeaderByteReads := by
  intro s h p hp hok hlive
  refine ⟨fun x hx => ?_, fun i hend hi => ?_⟩
  · obtain ⟨hck, hnp, hda, hsa⟩ := hasFlag_eq_bit x
    obtain ⟨hlt, _⟩ := List.getElem?_eq_some_iff.mp hx
    have hread := runCommand_getFlag hok hlive hx
    rw [← hck, ← hnp, ← hda, ← hsa]
    refine ⟨hread maskCk, hread maskNp, hread maskDa, hread maskSa, ?_⟩
    rw [exec, execMapGetAtype, runCommand_atHeader hok hlive hlt, headerByte_of_getElem? hx, addrType_eq]
    rfl
  · have hfault := runCommand_atHeader_beyond hok hlive hend
    simp only [List.mem_cons, List.not_mem_nil, or_false] at hi
    rcases hi with rfl | rfl | rfl | rfl | rfl <;> exact hfault _

/-- Settles O38: the five at a header position check the index, and the seven answer their function's position. -/
theorem navigationCommandsAnswerPositions : Obligations.NavigationCommandsAnswerPositions := by
  intro s h p hp off hok hlive
  refine ⟨fun hlt => ?_, ?_, ?_, fun i hend hi => ?_⟩
  · simp only [← next_answerPos]
    have hrun := runCommand_atHeader hok hlive hlt
    exact ⟨hrun _, hrun _, hrun _, hrun _, hrun _⟩
  · rw [exec, execMapHeader, runCommand_ifLive hok hlive, next_answerPos]
  · rw [exec, execMapData, runCommand_ifLive hok hlive, next_answerPos]
  · have hfault := runCommand_atHeader_beyond hok hlive hend
    simp only [List.mem_cons, List.not_mem_nil, or_false] at hi
    rcases hi with rfl | rfl | rfl | rfl | rfl <;> exact hfault _

/-- Settles O32: each of the commands runs its code on the live packet's record. -/
theorem statusAndSizeCommands : Obligations.StatusAndSizeCommands := by
  intro s h p hok hp
  have hset {st : Byte} (hst : legalStatus st = true) :
      exec (.pbSetStatus h st) s = answers (s.setPacket h { p with status := statusOfCode st }) .good [] := by
    rw [exec, execPbSetStatus, runCommand_of_ok s _ hok, hst, ifLegal_true, ifLive_of_live hp]
    rfl
  have hcount : exec (.pbGetRefcount h) s =
      .next ((s.byteField Config.freeCount p.ref).2.answer .good [(s.byteField Config.freeCount p.ref).1]) := by
    rw [exec, execPbGetRefcount, runCommand_ifLive hok hp]
  refine ⟨hset rfl, hset rfl, hset rfl, hset rfl, ?_, ?_, ?_, fun hfits => ?_, fun hwide => ?_⟩
  · rw [exec, execPbGetStatus, runCommand_ifLive hok hp]
    cases p.status <;> rfl
  · rw [exec, execPbGetLength, runCommand_ifLive hok hp]
    rfl
  · rw [exec, execPbGetCapacity, runCommand_ifLive hok hp]
    rfl
  · rw [hcount, byteField_of_fits s _ hfits]
    rfl
  · rw [hcount, byteField_of_wide s _ hwide]
    exact ⟨_, rfl⟩

end Sys2Proof.Machine
end

section
/-! PROOFS. Every received byte is answered: from a good state no case of the decoder faults. -/

namespace Sys2Proof.Machine

section

variable {s t : State} {h : Handle} {p : Packet} {i : Instr} {d : DecStep}

/-! ### Which faults a case may end in -/

theorem DecoderOnly.fault_eq (hst : DecoderOnly s t) : t.fault = s.fault := by
  rw [hst]
  rfl

theorem DecoderOnly.params_eq (hst : DecoderOnly s t) : t.params = s.params := by
  rw [hst]
  rfl

/-- A case of the decoder that answers, or faults with one of the codes of `P`. -/
def DecStep.FaultsWithin (P : FaultCode → Prop) : DecStep → Prop
  | .consumed _ => True
  | .busy _ => True
  | .faulted c _ => P c

/-- A case of the decoder that answers. -/
abbrev DecStep.Answers (d : DecStep) : Prop := d.FaultsWithin fun _ => False

theorem andThen_faultsWithin {P : FaultCode → Prop} {g : State → DecStep} (hd : d.FaultsWithin P)
    (hg : ∀ t, d = .consumed t → (g t).FaultsWithin P) : (d.andThen g).FaultsWithin P := by
  cases d with
  | consumed t => exact hg t rfl
  | busy t => trivial
  | faulted c t => exact hd

theorem DecStep.Answers.faultsWithin (hd : d.Answers) (P : FaultCode → Prop) : d.FaultsWithin P := by
  cases d with
  | consumed t => trivial
  | busy t => trivial
  | faulted c t => exact absurd hd id

/-- What `DEC_RX` leaves, where its case writes the decoder's registers alone. -/
theorem DecStep.FaultsWithin.finish {P : FaultCode → Prop} (hd : d.FaultsWithin P) (hwithin : d.Within s) :
    ((d.finish s).fault = s.fault ∧
      ((d.finish s).result = some ⟨.good, []⟩ ∨ (d.finish s).result = some ⟨.busy, []⟩)) ∨
    ∃ c, P c ∧ (d.finish s).fault = faultCode c := by
  cases d with
  | consumed t => exact .inl ⟨DecoderOnly.fault_eq (t := t) hwithin, .inl rfl⟩
  | busy t => exact .inl ⟨DecoderOnly.fault_eq (t := t) hwithin, .inr rfl⟩
  | faulted c t => exact .inr ⟨c, hd, rfl⟩

/-! ### From a good state no case faults (44_frame_decoder.md R241) -/

/-- With a `REF_MAX` of at least 1 a new packet takes the decoder's reference. -/
theorem decPacket_answers (hw : s.params.wf) (href : 1 ≤ s.params.refMax) : (decPacket s).Answers := by
  rcases decPacket_cases s hw with ⟨_, _, e⟩ | ⟨_, ⟨_, _, _, _, e⟩ | ⟨_, hzero, _⟩ | ⟨_, _, _, _, e⟩⟩
  · rw [e]; trivial
  · rw [e]; trivial
  · omega
  · rw [e]; trivial

/-- The packet to assemble, where there is one then, is live. -/
theorem decPacket_live (hs : s.Good) (hdisc : s.decDiscard = false) (hc : decPacket s = .consumed t) :
    ∃ h p, t.decPkt = some h ∧ t.packet h = some p := by
  have ht : t.Good := by
    have hgood := decPacket_endsGood hs hdisc
    rw [hc] at hgood
    exact hgood
  have hheld : ∃ h, t.decPkt = some h := by
    rcases decPacket_consumed hc with ⟨h, hd, rfl⟩ | ⟨_, hd, _⟩
    · exact ⟨h, hd⟩
    · exact ⟨_, hd⟩
  obtain ⟨h, hd⟩ := hheld
  obtain ⟨p, hp, _⟩ := ht.live_of_held (held_of_decPkt hd)
  exact ⟨h, p, hd, hp⟩

theorem appendAssembled_answers (s0 : State) (v : Byte) (hd : s.decPkt = some h) (hp : s.packet h = some p) :
    (appendAssembled s0 s v).Answers := by
  obtain ⟨_, _, _, _, hcases⟩ := appendAssembled_cases s0 v hd hp
  rcases hcases with ⟨_, e⟩ | ⟨_, e⟩ | ⟨_, _, e⟩ | ⟨_, _, e⟩
  all_goals
    rw [e]
    trivial

theorem deliver_answers (s0 : State) (hd : s.decPkt = some h) (hp : s.packet h = some p) : (deliver s0 s).Answers := by
  obtain ⟨_, _, _, hcases⟩ := deliver_cases s0 hd hp
  rcases hcases with ⟨_, e⟩ | ⟨_, e⟩ | ⟨_, _, e⟩
  all_goals
    rw [e]
    trivial

theorem decAppend_answers (hs : s.Good) (href : 1 ≤ s.params.refMax) (v : Byte) : (decAppend s v).Answers := by
  cases hdisc : s.decDiscard with
  | true => rw [decAppend_of_discard hdisc]; trivial
  | false =>
    rw [decAppend_of_assembling hdisc]
    refine andThen_faultsWithin (decPacket_answers hs.params href) fun t ht => ?_
    obtain ⟨h, p, hd, hp⟩ := decPacket_live hs hdisc ht
    exact appendAssembled_answers s v hd hp

theorem decEscaped_answers (hs : s.Good) (href : 1 ≤ s.params.refMax) : (decEscaped s).Answers := by
  rw [decEscaped_eq]
  exact andThen_faultsWithin (decAppend_answers hs href _) fun _ _ => trivial

/-- The second append of a literal pair begins in a good state, with the parameters as they were. -/
theorem decLiteralPair_answers (hs : s.Good) (href : 1 ≤ s.params.refMax) (b : Byte) :
    (decLiteralPair s b).Answers := by
  rw [decLiteralPair_eq]
  refine andThen_faultsWithin (decAppend_answers hs href _) fun t ht => ?_
  have hgood := decAppend_endsGood hs s.cp
  have hconfined := decAppend_confined s s.cp
  rw [ht] at hgood hconfined
  have href' : 1 ≤ t.params.refMax := by rwa [DecoderOnly.params_eq hconfined]
  exact decAppend_answers (State.Good.withDecState hgood .data) href' b

theorem decComplete_answers (hs : s.Good) (href : 1 ≤ s.params.refMax) : (decComplete s).Answers := by
  cases hdisc : s.decDiscard with
  | true => rw [decComplete_of_discard hdisc]; trivial
  | false =>
    by_cases he : s.decPkt = none ∧ s.params.emptyFramePolicy = .drop
    · rw [decComplete_of_dropped hdisc he]; trivial
    · rw [decComplete_of_offered hdisc he]
      refine andThen_faultsWithin (decPacket_answers hs.params href) fun t ht => ?_
      obtain ⟨h, p, hd, hp⟩ := decPacket_live hs hdisc ht
      exact deliver_answers s hd hp

theorem wireUnit_answers (hs : s.Good) (href : 1 ≤ s.params.refMax) (hw : i.isCommand = false) :
    (unitStep i s).Answers := by
  cases i with
  | wireData b => exact decAppend_answers hs href b
  | wireCtrl => trivial
  | wireIdle => trivial
  | wireEsc => exact decEscaped_answers hs href
  | wireEnd => exact decComplete_answers hs href
  | wireAbort => trivial
  | wireLiteral b => exact decLiteralPair_answers hs href b
  | _ => cases hw

end

/-- Settles O51: the byte's wire unit answers, and writes the decoder's registers alone. -/
theorem everyReceivedByteIsGoodOrBusy : Obligations.EveryReceivedByteIsGoodOrBusy := by
  intro i s hs hok href hi
  have hanswers : (unitStep i s).Answers := by
    obtain ⟨e, hw⟩ := unitStep_wireUnit s hi
    rw [e]
    exact wireUnit_answers hs href hw
  refine ⟨_, by rw [exec_receive hi, runCommand_of_ok s _ hok], ?_⟩
  rcases hanswers.finish (unitStep_within s hi) with ⟨hfault, hresult⟩ | ⟨_, hnone, _⟩
  · exact ⟨hfault.trans hok, hresult⟩
  · exact absurd hnone id

end Sys2Proof.Machine
end

section
/-! SUPPORT. Which faults a command raises once its flag and status operands are legal: none of them is `F_BAD_ARG`
(spec/30_encoding.md R94; spec/60_exceptions.md R283). -/

namespace Sys2Proof.Machine

section

variable {s t u : State} {h : Handle} {p : Packet} {i : Instr}

/-- From `s` to `t` the fault register was left alone, or a code other than `F_BAD_ARG` was latched. -/
def SparesBadArg (s t : State) : Prop := t.fault = s.fault ∨ ∃ c, c ≠ .badArg ∧ t.fault = faultCode c

theorem SparesBadArg.fault_ne (hst : SparesBadArg s t) (hok : s.fault = 0#8) : t.fault ≠ 8#8 := by
  rcases hst with e | ⟨c, hc, e⟩
  · rw [e, hok]
    decide
  · rw [e]
    cases c with
    | badArg => exact absurd rfl hc
    | _ => decide

/-! ### The checks and the shared operations -/

theorem sparesBadArg_of_undoTo (hu : u = s.undoTo u) (st : Verdict) (fs : List Field) :
    SparesBadArg s (u.answer st fs) := by
  rw [hu]
  exact .inl rfl

theorem runCommand_spares_badArg {f : State → State} (ht : runCommand s f = .next t) (hf : SparesBadArg s (f s)) :
    SparesBadArg s t := by
  rw [runCommand_next] at ht
  cases ht
  split
  · exact hf
  · exact .inl rfl

theorem ifLive_spares_badArg {k : Packet → State} (hk : ∀ p, s.packet h = some p → SparesBadArg s (k p)) :
    SparesBadArg s (s.ifLive h k) := by
  rcases hp : s.packet h with _ | p
  · rw [ifLive_of_dead hp]
    exact .inr ⟨.staleHandle, nofun, rfl⟩
  · rw [ifLive_of_live hp]
    exact hk p hp

theorem ifMutable_spares_badArg {k : Packet → State} (hk : ∀ p, s.packet h = some p → SparesBadArg s (k p)) :
    SparesBadArg s (s.ifMutable h k) := by
  refine ifLive_spares_badArg fun p hp => ?_
  split
  · exact .inr ⟨.packetHeld, nofun, rfl⟩
  · exact hk p hp

theorem ifIndex_spares_badArg (p : Packet) (n : Nat) (hu : SparesBadArg s u) : SparesBadArg s (s.ifIndex p n u) := by
  unfold State.ifIndex
  split
  · exact hu
  · exact .inr ⟨.index, nofun, rfl⟩

theorem atHeader_spares_badArg {hp : Half} {k : State → Packet → State} (hk : ∀ p, SparesBadArg s (k s p)) :
    SparesBadArg s (atHeader h hp k s) :=
  ifLive_spares_badArg fun p _ => ifIndex_spares_badArg p _ (hk p)

theorem atMutableHeader_spares_badArg {hp : Half} {k : State → Packet → State} (hk : ∀ p, SparesBadArg s (k s p)) :
    SparesBadArg s (atMutableHeader h hp k s) :=
  ifMutable_spares_badArg fun p _ => ifIndex_spares_badArg p _ (hk p)

theorem getFlag_spares_badArg (m : Byte) (h : Handle) (hp : Half) : SparesBadArg s (getFlag m h hp s) :=
  atHeader_spares_badArg fun _ => .inl rfl

/-- A flag write whose operand is legal. -/
theorem setFlag_spares_badArg (m : Byte) (h : Handle) (hp : Half) {f : Byte} (hf : legalFlag f = true) :
    SparesBadArg s (setFlag m h hp f s) := by
  rw [setFlag, hf, ifLegal_true]
  exact atMutableHeader_spares_badArg fun _ => .inl rfl

theorem answerPos_spares_badArg (s : State) (o : Option Nat) : SparesBadArg s (s.answerPos o) := by
  cases o <;> exact .inl rfl

theorem readC78_spares_badArg (h : Handle) (cur : Half) (f : Word → Word) : SparesBadArg s (readC78 h cur f s) := by
  refine ifLive_spares_badArg fun p _ => ?_
  split
  · exact .inr ⟨.index, nofun, rfl⟩
  · split <;> exact .inl rfl

theorem appendCommand_spares_badArg (h : Handle) (p : Packet) (bytes : List Byte) (inc lim : Nat) :
    SparesBadArg s (appendCommand s h p bytes inc lim) := by
  obtain ⟨r, p', u, he, e⟩ := appendCommand_cases s h p bytes inc lim
  obtain ⟨hu, _⟩ := ensureRoom_frame he
  rw [e, hu]
  split <;> exact .inl rfl

theorem validatePacket_spares_badArg (h : Handle) (p : Packet) (off req rem : Byte) :
    SparesBadArg s (validatePacket s h p off req rem) := by
  have hlevel (r : CkReason) (j : Nat) : SparesBadArg s (answerLevel s r j) :=
    sparesBadArg_of_undoTo (byteField_frame s _ j) _ _
  unfold validatePacket
  split
  · exact .inl rfl
  · split
    · exact .inl rfl
    · split
      · exact .inl rfl
      · split
        · exact hlevel _ _
        · exact hlevel _ _
        · split <;> exact .inl rfl

/-! ### The encoder -/

theorem offerByte_ne_faulted (s : State) (v : Byte) (f : State → State) (c : FaultCode) (u : State) :
    offerByte s v f ≠ .faulted c u := by
  obtain ⟨w, e | e⟩ := offerByte_eq s v f
  · rw [e]
    exact nofun
  · rw [e]
    exact nofun

/-- A micro-step faults by its reads alone (45_frame_encoder.md R263, R264). -/
theorem encStep_faulted {c : FaultCode} (hf : encStep s = .faulted c u) : c ≠ .badArg := by
  rcases he : s.encPkt with _ | h
  · simp only [encStep, he] at hf
    cases hf
    exact nofun
  rcases hp : s.packet h with _ | p
  · simp only [encStep, he, hp] at hf
    cases hf
    exact nofun
  rw [encStep_of_live he hp] at hf
  split at hf
  · cases hf
  · unfold stepTransmitting at hf
    split at hf
    · cases hf
    · split at hf
      · cases hf
        exact nofun
      · split at hf <;> exact absurd hf (offerByte_ne_faulted _ _ _ _ _)
  · unfold stepFlush at hf
    split at hf
    · exact absurd hf (offerByte_ne_faulted _ _ _ _ _)
    · cases hf
  · exact absurd hf (offerByte_ne_faulted _ _ _ _ _)
  · exact absurd hf (offerByte_ne_faulted _ _ _ _ _)

theorem EncoderOnly.fault_eq (hst : EncoderOnly s t) : t.fault = s.fault := by
  rw [hst]
  rfl

theorem encLoop_spares_badArg (n : Nat) (progressed : Bool) (hst : EncoderOnly s t) :
    SparesBadArg s (encLoop s n progressed t) := by
  induction n generalizing progressed t with
  | zero => exact .inl hst.fault_eq
  | succ n ih =>
    have hstep := encStep_confined t
    rw [encLoop_succ]
    cases e : encStep t with
    | faulted c u => exact .inr ⟨c, encStep_faulted e, rfl⟩
    | refused u =>
      rw [e] at hstep
      have hu : u.fault = t.fault := by rw [show u = t.undoTo u from hstep]; rfl
      exact .inl (hu.trans hst.fault_eq)
    | progress u =>
      rw [e] at hstep
      have hu : EncoderOnly s u := hst.trans hstep
      by_cases hm : u.encMode = .idle
      · simp only [if_pos hm]
        exact .inl hu.fault_eq
      · simp only [if_neg hm]
        exact ih true hu

/-! ### The decoder -/

theorem decPacket_spares_badArg (s : State) : (decPacket s).FaultsWithin (· ≠ .badArg) := by
  unfold decPacket
  split
  · trivial
  · split
    · split
      · exact nofun
      · split
        · exact nofun
        · trivial
    · trivial

theorem appendAssembled_spares_badArg (s0 s : State) (v : Byte) :
    (appendAssembled s0 s v).FaultsWithin (· ≠ .badArg) := by
  rcases hd : s.decPkt with _ | h
  · simp only [appendAssembled, hd]
    exact nofun
  rcases hp : s.packet h with _ | p
  · simp only [appendAssembled, hd, hp]
    exact nofun
  exact (appendAssembled_answers s0 v hd hp).faultsWithin _

theorem deliver_spares_badArg (s0 s : State) : (deliver s0 s).FaultsWithin (· ≠ .badArg) := by
  rcases hd : s.decPkt with _ | h
  · simp only [deliver, hd]
    exact nofun
  rcases hp : s.packet h with _ | p
  · simp only [deliver, hd, hp]
    exact nofun
  exact (deliver_answers s0 hd hp).faultsWithin _

theorem decAppend_spares_badArg (s : State) (v : Byte) : (decAppend s v).FaultsWithin (· ≠ .badArg) := by
  cases hdisc : s.decDiscard with
  | true => rw [decAppend_of_discard hdisc]; trivial
  | false =>
    rw [decAppend_of_assembling hdisc]
    exact andThen_faultsWithin (decPacket_spares_badArg s) fun t _ => appendAssembled_spares_badArg s t v

theorem decComplete_spares_badArg (s : State) : (decComplete s).FaultsWithin (· ≠ .badArg) := by
  cases hdisc : s.decDiscard with
  | true => rw [decComplete_of_discard hdisc]; trivial
  | false =>
    by_cases he : s.decPkt = none ∧ s.params.emptyFramePolicy = .drop
    · rw [decComplete_of_dropped hdisc he]; trivial
    · rw [decComplete_of_offered hdisc he]
      exact andThen_faultsWithin (decPacket_spares_badArg s) fun t _ => deliver_spares_badArg s t

theorem wireUnit_spares_badArg (s : State) (hw : i.isCommand = false) : (unitStep i s).FaultsWithin (· ≠ .badArg) := by
  cases i with
  | wireData b => exact decAppend_spares_badArg s b
  | wireCtrl => trivial
  | wireIdle => trivial
  | wireEsc =>
    rw [unitStep, decEscaped_eq]
    exact andThen_faultsWithin (decAppend_spares_badArg s _) fun _ _ => trivial
  | wireEnd => exact decComplete_spares_badArg s
  | wireAbort => trivial
  | wireLiteral b =>
    rw [unitStep, decLiteralPair_eq]
    exact andThen_faultsWithin (decAppend_spares_badArg s _) fun _ _ => decAppend_spares_badArg _ b
  | _ => cases hw

/-! ### Single commands -/

theorem execPbAlloc_spares_badArg {cap : Half} (ht : execPbAlloc cap s = .next t) : SparesBadArg s t := by
  refine runCommand_spares_badArg ht ?_
  rcases ha : allocate s cap.toNat with ⟨r, k, u⟩
  obtain ⟨hu, _⟩ := allocate_frame ha
  have hfault : u.fault = s.fault := by rw [hu]; rfl
  exact .inl hfault

theorem execPbSetCapacity_spares_badArg {cap : Half} (ht : execPbSetCapacity h cap s = .next t) : SparesBadArg s t := by
  refine runCommand_spares_badArg ht (ifMutable_spares_badArg fun p _ => ?_)
  split
  · exact .inl rfl
  · split
    · exact .inl rfl
    · split
      · next u hd => exact sparesBadArg_of_undoTo (drawRealloc_undoTo hd) _ _
      · next u hd =>
        rw [drawRealloc_undoTo hd]
        exact .inl rfl

theorem execPbReference_spares_badArg (ht : execPbReference h s = .next t) : SparesBadArg s t := by
  refine runCommand_spares_badArg ht (ifLive_spares_badArg fun p _ => ?_)
  split
  · exact .inr ⟨.refcount, nofun, rfl⟩
  · exact .inl rfl

theorem execPbDereference_spares_badArg (ht : execPbDereference h s = .next t) : SparesBadArg s t := by
  refine runCommand_spares_badArg ht ?_
  split
  · exact .inl rfl
  · split
    · exact .inr ⟨.packetHeld, nofun, rfl⟩
    · rw [dereference_eq]
      exact .inl rfl

theorem execPbSetStatus_spares_badArg {st : Byte} (hst : legalStatus st = true)
    (ht : execPbSetStatus h st s = .next t) : SparesBadArg s t := by
  refine runCommand_spares_badArg ht ?_
  rw [hst, ifLegal_true]
  exact ifLive_spares_badArg fun _ _ => .inl rfl

theorem execPbRead_spares_badArg {idx : Half} (ht : execPbRead h idx s = .next t) : SparesBadArg s t := by
  refine runCommand_spares_badArg ht (ifLive_spares_badArg fun p _ => ?_)
  split
  · exact .inr ⟨.index, nofun, rfl⟩
  · exact .inl rfl

theorem execMapSetAtype_spares_badArg {hp : Half} {a : Byte} (ht : execMapSetAtype h hp a s = .next t) :
    SparesBadArg s t := by
  refine runCommand_spares_badArg ht (atMutableHeader_spares_badArg fun p => ?_)
  split
  · exact .inr ⟨.addrType, nofun, rfl⟩
  · exact .inl rfl

theorem execMapValidate_spares_badArg {off req rem : Byte} (hwf : (legalFlag req && legalFlag rem) = true)
    (ht : execMapValidate h off req rem s = .next t) : SparesBadArg s t := by
  refine runCommand_spares_badArg ht ?_
  rw [hwf, ifLegal_true]
  refine ifLive_spares_badArg fun p _ => ?_
  split
  · exact .inr ⟨.packetHeld, nofun, rfl⟩
  · exact validatePacket_spares_badArg h p off req rem

theorem execMapAppendChecksum_spares_badArg {off : Byte} (ht : execMapAppendChecksum h off s = .next t) :
    SparesBadArg s t := by
  refine runCommand_spares_badArg ht (ifMutable_spares_badArg fun p _ => ?_)
  split
  · exact .inl rfl
  · split
    · exact .inl rfl
    · rcases he : ensureRoom s h p (p.len + 4) 1 s.params.lenMax with ⟨r, p', u⟩
      obtain ⟨hu, _⟩ := ensureRoom_frame he
      rw [hu]
      cases r <;> exact .inl rfl

theorem execEncSubmit_spares_badArg {off : Byte} (ht : execEncSubmit h off s = .next t) : SparesBadArg s t := by
  refine runCommand_spares_badArg ht (ifLive_spares_badArg fun p _ => ?_)
  split
  · exact .inr ⟨.packetHeld, nofun, rfl⟩
  · split
    · exact .inl rfl
    · split
      · exact .inl rfl
      · split
        · exact .inr ⟨.refcount, nofun, rfl⟩
        · exact .inl rfl

theorem execEncProcess_spares_badArg (ht : execEncProcess s = .next t) : SparesBadArg s t := by
  refine runCommand_spares_badArg ht ?_
  split
  · exact .inl rfl
  · exact encLoop_spares_badArg _ _ rfl

theorem execCfgSetPrefix_spares_badArg {v : Byte} (ht : execCfgSetPrefix v s = .next t) : SparesBadArg s t := by
  refine runCommand_spares_badArg ht ?_
  split
  · exact .inr ⟨.badPrefix, nofun, rfl⟩
  · split <;> exact .inl rfl

/-! ### Every instruction -/

theorem exec_receive_spares_badArg (hi : isReceive i = true) (ht : exec i s = .next t) : SparesBadArg s t := by
  rw [exec_receive hi] at ht
  refine runCommand_spares_badArg ht ?_
  obtain ⟨e, hw⟩ := unitStep_wireUnit s hi
  rw [e]
  rcases (wireUnit_spares_badArg s hw).finish (wireUnit_within s hw) with ⟨hsame, _⟩ | hcode
  · exact .inl hsame
  · exact .inr hcode

/-- An instruction whose flag and status operands are legal. -/
theorem exec_spares_badArg (hwf : i.wellFormed = true) (ht : exec i s = .next t) : SparesBadArg s t := by
  cases i
  case decRx | wireData | wireCtrl | wireIdle | wireEsc | wireEnd | wireAbort | wireLiteral =>
    exact exec_receive_spares_badArg rfl ht
  all_goals dsimp only [exec] at ht
  case crcReset | crcSink | crcGet | cfgGetPrefix => exact runCommand_spares_badArg ht (.inl rfl)
  case sysGetFault =>
    cases ht
    exact .inl rfl
  case c78EncU | c78EncS | pbAppend =>
    exact runCommand_spares_badArg ht (ifMutable_spares_badArg fun _ _ => appendCommand_spares_badArg _ _ _ _ _)
  case c78DecU | c78DecS => exact runCommand_spares_badArg ht (readC78_spares_badArg _ _ _)
  case pbAlloc => exact execPbAlloc_spares_badArg ht
  case pbSetCapacity => exact execPbSetCapacity_spares_badArg ht
  case pbReference => exact execPbReference_spares_badArg ht
  case pbDereference => exact execPbDereference_spares_badArg ht
  case pbSetStatus => exact execPbSetStatus_spares_badArg hwf ht
  case pbGetStatus | pbGetLength | pbGetCapacity =>
    exact runCommand_spares_badArg ht (ifLive_spares_badArg fun _ _ => .inl rfl)
  case pbGetRefcount =>
    refine runCommand_spares_badArg ht (ifLive_spares_badArg fun p _ => ?_)
    exact sparesBadArg_of_undoTo (byteField_frame s Config.freeCount p.ref) _ _
  case pbRead => exact execPbRead_spares_badArg ht
  case pbWrite =>
    exact runCommand_spares_badArg ht (ifMutable_spares_badArg fun _ _ => ifIndex_spares_badArg _ _ (.inl rfl))
  case mapGetCk | mapGetNp | mapGetDa | mapGetSa => exact runCommand_spares_badArg ht (getFlag_spares_badArg _ _ _)
  case mapSetCk | mapSetNp | mapSetDa | mapSetSa => exact runCommand_spares_badArg ht (setFlag_spares_badArg _ _ _ hwf)
  case mapGetAtype => exact runCommand_spares_badArg ht (atHeader_spares_badArg fun _ => .inl rfl)
  case mapSetAtype => exact execMapSetAtype_spares_badArg ht
  case mapNextprotoPos | mapDestPos | mapSrcPos | mapContentsPos | mapNextHeader =>
    exact runCommand_spares_badArg ht (atHeader_spares_badArg fun _ => answerPos_spares_badArg s _)
  case mapHeader | mapData =>
    exact runCommand_spares_badArg ht (ifLive_spares_badArg fun _ _ => answerPos_spares_badArg s _)
  case mapValidate => exact execMapValidate_spares_badArg hwf ht
  case mapAppendChecksum => exact execMapAppendChecksum_spares_badArg ht
  case encSubmit => exact execEncSubmit_spares_badArg ht
  case encProcess => exact execEncProcess_spares_badArg ht
  case cfgSetPrefix => exact execCfgSetPrefix_spares_badArg ht

end

end Sys2Proof.Machine
end

section
/-! PROOFS. The statement about illegal flag and status operands. -/

namespace Sys2Proof.Machine

/-- Only commands with a handle have a flag or status operand (30_encoding.md R91). -/
theorem handleOf_of_illFormed {i : Instr} (hwf : i.wellFormed = false) :
    ∃ h, handleOf i = some h ∧ i ≠ .pbDereference h := by
  cases i with
  | pbSetStatus h st => exact ⟨h, rfl, nofun⟩
  | mapSetCk h hp f => exact ⟨h, rfl, nofun⟩
  | mapSetNp h hp f => exact ⟨h, rfl, nofun⟩
  | mapSetDa h hp f => exact ⟨h, rfl, nofun⟩
  | mapSetSa h hp f => exact ⟨h, rfl, nofun⟩
  | mapValidate h off req rem => exact ⟨h, rfl, nofun⟩
  | _ => cases hwf

/-- Settles O5: the check of the flag and status operands comes first, and nothing else raises its code. -/
theorem illegalFlagOperandsRaiseBadArg : Obligations.IllegalFlagOperandsRaiseBadArg := by
  refine ⟨fun i s hok hwf => ?_, fun i s t hok hwf ht => (exec_spares_badArg hwf ht).fault_ne hok⟩
  obtain ⟨h, hi, hne⟩ := handleOf_of_illFormed hwf
  obtain ⟨k, hexec⟩ := exec_checks_handle hi hne s
  rw [hexec, runCommand_of_ok s _ hok, hwf, ifLegal_false]
  rfl

end Sys2Proof.Machine
end

section
/-! SUPPORT. The CRC register's update as eight rounds of the table's generator on the register with the byte folded in
(40_crc32.md R121, R123): a round is injective, and so the update is, in the register and in the byte. -/

namespace Sys2Proof.Machine

/-! ### One round of the generator -/

theorem and_one_eq_one_iff (c : Word) : c &&& 1#32 = 1#32 ↔ c.getLsbD 0 = true := by
  rw [BitVec.and_one_eq_setWidth_ofBool_getLsbD]
  cases c.getLsbD 0 <;> decide

theorem crcShift_of_odd {c : Word} (hc : c.getLsbD 0 = true) : crcShift c = (c >>> 1) ^^^ 0xEDB88320#32 :=
  if_pos ((and_one_eq_one_iff c).mpr hc)

theorem crcShift_of_even {c : Word} (hc : c.getLsbD 0 = false) : crcShift c = c >>> 1 :=
  if_neg (by rw [and_one_eq_one_iff, hc]; decide)

/-- The polynomial has its top bit set, so the bit that a round shifts out at the bottom stands at the top. -/
theorem crcShift_getLsbD_top (c : Word) : (crcShift c).getLsbD 31 = c.getLsbD 0 := by
  cases hc : c.getLsbD 0 with
  | false => simp [crcShift_of_even hc]
  | true => simp [crcShift_of_odd hc]

/-- A word is its bottom bit and the bits above it. -/
theorem eq_of_bottom_of_shifted {c d : Word} (h0 : c.getLsbD 0 = d.getLsbD 0) (h1 : c >>> 1 = d >>> 1) : c = d := by
  refine BitVec.eq_of_getLsbD_eq fun i _ => ?_
  cases i with
  | zero => exact h0
  | succ j =>
    have hj := congrArg (fun x : Word => x.getLsbD j) h1
    simpa [Nat.add_comm 1 j] using hj

theorem crcShift_injective : Function.Injective crcShift := by
  intro c d h
  have h0 : c.getLsbD 0 = d.getLsbD 0 := by
    rw [← crcShift_getLsbD_top c, h, crcShift_getLsbD_top d]
  refine eq_of_bottom_of_shifted h0 ?_
  cases hd : d.getLsbD 0 with
  | false => rwa [crcShift_of_even (h0.trans hd), crcShift_of_even hd] at h
  | true =>
    rw [crcShift_of_odd (h0.trans hd), crcShift_of_odd hd] at h
    exact (BitVec.xor_left_inj _).mp h

/-- A round only shifts the part of its word whose bottom bit is clear. -/
theorem crcShift_xor_of_even (c : Word) {z : Word} (hz : z.getLsbD 0 = false) :
    crcShift (c ^^^ z) = crcShift c ^^^ (z >>> 1) := by
  have hbit : (c ^^^ z).getLsbD 0 = c.getLsbD 0 := by rw [BitVec.getLsbD_xor, hz, Bool.xor_false]
  cases hc : c.getLsbD 0 with
  | false => rw [crcShift_of_even (hbit.trans hc), crcShift_of_even hc, BitVec.ushiftRight_xor_distrib]
  | true =>
    rw [crcShift_of_odd (hbit.trans hc), crcShift_of_odd hc, BitVec.ushiftRight_xor_distrib, BitVec.xor_assoc,
      BitVec.xor_comm (z >>> 1), BitVec.xor_assoc]

/-! ### The rounds of one byte -/

/-- `n` rounds only shift the part of their word whose bottom `n` bits are clear. -/
theorem crcShift_iterate_xor (n : Nat) (c : Word) {z : Word} (hz : ∀ i < n, z.getLsbD i = false) :
    crcShift^[n] (c ^^^ z) = crcShift^[n] c ^^^ (z >>> n) := by
  induction n generalizing c z with
  | zero => simp
  | succ n ih =>
    have hz' : ∀ i < n, (z >>> 1).getLsbD i = false := fun i hi => by
      rw [BitVec.getLsbD_ushiftRight]
      exact hz _ (by omega)
    rw [Function.iterate_succ_apply, Function.iterate_succ_apply, crcShift_xor_of_even c (hz 0 n.succ_pos), ih _ hz',
      ← BitVec.shiftRight_add, Nat.add_comm 1 n]

theorem crcTable_eq_iterate (i : Byte) : crcTable i = crcShift^[8] (i.setWidth 32) := rfl

/-- A register with a byte folded in: the table's index in the low byte, the rest of the register above it. -/
theorem xor_setWidth_eq (c : Word) (b : Byte) :
    c ^^^ b.setWidth 32 = (c.setWidth 8 ^^^ b).setWidth 32 ^^^ ((c >>> 8) <<< 8) := by
  refine BitVec.eq_of_getLsbD_eq fun i hi => ?_
  by_cases hlow : i < 8
  · simp [hi, hlow]
  · have hadd : 8 + (i - 8) = i := by omega
    simp [hi, hlow, hadd, Bool.xor_comm]

/-- The update by the table is the eight rounds of the generator, on the register with the byte folded in. -/
theorem crcUpdate_eq_iterate (c : Word) (b : Byte) : crcUpdate c b = crcShift^[8] (c ^^^ b.setWidth 32) := by
  have hclear : ∀ i < 8, ((c >>> 8) <<< 8).getLsbD i = false := fun i hi => by simp [hi]
  have hback : ((c >>> 8) <<< 8) >>> 8 = c >>> 8 := by
    refine BitVec.eq_of_getLsbD_eq fun i hi => ?_
    by_cases hin : 8 + i < 32
    · simp [hin]
    · simp [hin, BitVec.getLsbD_of_ge c (8 + i) (by omega)]
  rw [xor_setWidth_eq, crcShift_iterate_xor 8 _ hclear, hback, ← crcTable_eq_iterate, crcUpdate]

theorem crcUpdate_injective (b : Byte) : Function.Injective (fun c => crcUpdate c b) := by
  intro c d h
  simp only [crcUpdate_eq_iterate] at h
  exact (BitVec.xor_left_inj _).mp (crcShift_injective.iterate 8 h)

theorem crcUpdate_injective_byte (c : Word) : Function.Injective (crcUpdate c) := by
  intro b b' h
  simp only [crcUpdate_eq_iterate] at h
  have hwide : b.setWidth 32 = b'.setWidth 32 := (BitVec.xor_right_inj _).mp (crcShift_injective.iterate 8 h)
  simpa using congrArg (BitVec.setWidth 8) hwide

/-! ### Lists of bytes -/

/-- Registers that differ stay different whatever is sunk. -/
theorem foldl_crcUpdate_injective (bytes : List Byte) : Function.Injective (fun c => bytes.foldl crcUpdate c) := by
  induction bytes with
  | nil => exact Function.injective_id
  | cons b bytes ih => exact ih.comp (crcUpdate_injective b)

/-- The final inversion taken back gives the register. -/
theorem crc32_xor_ones (bytes : List Byte) :
    crc32 bytes ^^^ 0xFFFFFFFF#32 = bytes.foldl crcUpdate 0xFFFFFFFF#32 := by
  rw [crc32, BitVec.xor_assoc, BitVec.xor_self, BitVec.xor_zero]

/-! ### The commands -/

section

variable {s : State}

theorem exec_crcReset (hok : s.fault = 0#8) : exec .crcReset s = answers { s with crc := 0xFFFFFFFF#32 } .good [] := by
  rw [exec, execCrcReset, runCommand_of_ok s _ hok, answer_eq]

theorem exec_crcSink (hok : s.fault = 0#8) (b : Byte) :
    exec (.crcSink b) s = answers { s with crc := crcUpdate s.crc b } .good [] := by
  rw [exec, execCrcSink, runCommand_of_ok s _ hok, answer_eq]

theorem exec_crcGet (hok : s.fault = 0#8) :
    exec .crcGet s = answers s .good [.word (s.crc ^^^ 0xFFFFFFFF#32)] := by
  rw [exec, execCrcGet, runCommand_of_ok s _ hok, answer_eq]

theorem execAll_cons_of_next {i : Instr} {t : State} (ht : exec i s = .next t) (is : List Instr) :
    execAll (i :: is) s = execAll is t := by
  rw [execAll, ht]

/-- Sinking a list and reading, from whatever the register holds. -/
theorem execAll_crcSink_crcGet (s : State) (hok : s.fault = 0#8) (bytes : List Byte) :
    execAll (bytes.map .crcSink ++ [.crcGet]) s =
      answers { s with crc := bytes.foldl crcUpdate s.crc } .good
        [.word (bytes.foldl crcUpdate s.crc ^^^ 0xFFFFFFFF#32)] := by
  induction bytes generalizing s with
  | nil => exact execAll_cons_of_next (exec_crcGet hok) []
  | cons b bytes ih =>
    rw [List.map_cons, List.cons_append, execAll_cons_of_next (exec_crcSink hok b)]
    exact ih _ hok

end

end Sys2Proof.Machine
end

section
/-! PROOFS. The statements about the CRC-32 engine (40_crc32.md). -/

namespace Sys2Proof.Machine

/-- Settles O20: the masked low byte of the command's rule is the truncation that the model's update takes. -/
theorem crcCommandsComplete : Obligations.CrcCommandsComplete := by
  refine ⟨fun s hok => ⟨exec_crcReset hok, fun b => ?_, exec_crcGet hok⟩, by decide⟩
  have hlow : (s.crc &&& 0xFF#32).setWidth 8 = s.crc.setWidth 8 := by
    rw [BitVec.setWidth_and]
    exact BitVec.and_allOnes
  rw [exec_crcSink hok, hlow, crcUpdate]

/-- Settles O21, by induction on the bytes from whatever the register holds. -/
theorem sunkBytesGiveTheirCrc : Obligations.SunkBytesGiveTheirCrc := by
  refine ⟨fun s bytes hok => ?_, rfl⟩
  rw [List.cons_append, execAll_cons_of_next (exec_crcReset hok), crc32_xor_ones]
  refine (execAll_crcSink_crcGet _ ?_ bytes).trans rfl
  exact hok

/-- Settles O22: the changed byte gives another register, and the bytes after it keep the registers apart. -/
theorem oneChangedByteChangesTheCrc : Obligations.OneChangedByteChangesTheCrc := by
  refine ⟨fun b => Finite.injective_iff_bijective.mp (crcUpdate_injective b), fun before after b b' hne h => hne ?_⟩
  have hsunk : (before ++ b :: after).foldl crcUpdate 0xFFFFFFFF#32 =
      (before ++ b' :: after).foldl crcUpdate 0xFFFFFFFF#32 := (BitVec.xor_left_inj _).mp h
  simp only [List.foldl_append, List.foldl_cons] at hsunk
  exact crcUpdate_injective_byte _ (foldl_crcUpdate_injective after hsunk)

end Sys2Proof.Machine
end

section
/-! SUPPORT. Runs of one command on one packet: what stays while the packet's record is replaced again and again, and the
record after a number of dereferences. -/

namespace Sys2Proof.Machine

section

variable {s t : State} {h : Handle} {p : Packet} {o : Option Packet} {m n : Nat}

/-! ### Runs -/

/-- A run of two lists is a run of the second from where the first ends. -/
theorem execAll_append_of_next {is : List Instr} (ht : execAll is s = .next t) (js : List Instr) :
    execAll (is ++ js) s = execAll js t := by
  induction is generalizing s with
  | nil =>
    cases ht
    rfl
  | cons i is ih =>
    simp only [List.cons_append, execAll] at ht ⊢
    split at ht
    · exact ih ht
    · cases ht
    · cases ht

/-- One instruction run `n` times, where each time goes from what holds after `j` of them to what holds after one more. -/
theorem execAll_replicate_of_step {i : Instr} {After : Nat → State → Prop} (h0 : After 0 s)
    (hstep : ∀ j < n, ∀ t, After j t → ∃ u, exec i t = .next u ∧ After (j + 1) u) :
    ∃ t, execAll (List.replicate n i) s = .next t ∧ After n t := by
  induction n with
  | zero => exact ⟨s, rfl, h0⟩
  | succ n ih =>
    obtain ⟨t, ht, hn⟩ := ih fun j hj => hstep j (by omega)
    obtain ⟨u, hu, hn'⟩ := hstep n (by omega) t hn
    refine ⟨u, ?_, hn'⟩
    rw [List.replicate_succ', execAll_append_of_next ht, execAll_cons_of_next hu, execAll]

/-! ### One record replaced -/

/-- From `s` to `t` the record of `h` has become `o`; no other packet has changed, nor have the fault register, the
parameters and whether `h` is held, on which the next reference or dereference turns. -/
structure RecordReplaced (s : State) (h : Handle) (o : Option Packet) (t : State) : Prop where
  fault : t.fault = s.fault
  params : t.params = s.params
  held : t.held h = s.held h
  record : t.packet h = o
  others : ∀ k, k ≠ h → t.packet k = s.packet k

theorem RecordReplaced.refl (s : State) (h : Handle) : RecordReplaced s h (s.packet h) s :=
  ⟨rfl, rfl, rfl, rfl, fun _ _ => rfl⟩

/-- `PB_REFERENCE` below `REF_MAX` counts one more (42_packet_buffer.md R163). -/
theorem RecordReplaced.exec_pbReference (hr : RecordReplaced s h (some p) t) (hok : s.fault = 0#8)
    (hlt : p.ref < s.params.refMax) :
    ∃ u, exec (.pbReference h) t = .next u ∧ RecordReplaced s h (some { p with ref := p.ref + 1 }) u := by
  obtain ⟨hcount, -⟩ := referencesCount t h (hr.fault.trans hok)
  refine ⟨_, hcount p hr.record (by rw [hr.params]; omega), hr.fault, hr.params, hr.held, ?_, fun k hk => ?_⟩
  · exact setPacket_packet_self t h _
  · exact (setPacket_packet_other t _ hk).trans (hr.others k hk)

/-! ### Dereferences -/

/-- The record of a packet that nobody holds after `m` dereferences: freed at the last reference, and left as it is where
there never was one (20_memory.md R72). -/
def Packet.afterDereferences (p : Packet) (m : Nat) : Option Packet :=
  if p.ref = 0 ∨ m < p.ref then some { p with ref := p.ref - m } else none

theorem afterDereferences_of_unreferenced (hzero : p.ref = 0) (m : Nat) : p.afterDereferences m = some p := by
  rw [Packet.afterDereferences, if_pos (.inl hzero), Nat.sub_eq_zero_of_le (by omega), ← hzero]

theorem afterDereferences_of_lt (hlt : m < p.ref) : p.afterDereferences m = some { p with ref := p.ref - m } :=
  if_pos (.inr hlt)

theorem afterDereferences_of_ge (hpos : 1 ≤ p.ref) (hge : p.ref ≤ m) : p.afterDereferences m = none :=
  if_neg (by omega)

/-- `Dereference(h)` takes the record from one dereference to the next. -/
theorem dereference_afterDereferences (hp : s.packet h = p.afterDereferences m) :
    (s.dereference h).packet h = p.afterDereferences (m + 1) := by
  by_cases hzero : p.ref = 0
  · rw [afterDereferences_of_unreferenced hzero] at hp ⊢
    rw [dereference_of_zero hp hzero, hp]
  by_cases hlt : m < p.ref
  · rw [afterDereferences_of_lt hlt] at hp
    by_cases hlast : p.ref = m + 1
    · rw [afterDereferences_of_ge (by omega) (by omega), dereference_of_one hp (by simp only; omega)]
      exact lookup_erase_self s.pm h
    · rw [afterDereferences_of_lt (by omega), dereference_of_more hp (by simp only; omega), setPacket_packet_self,
        Nat.sub_sub]
  · rw [afterDereferences_of_ge (by omega) (by omega)] at hp ⊢
    rw [dereference_of_dead hp, hp]

/-- `PB_DEREFERENCE` on a packet that nobody holds is `Dereference`, whatever its count (42_packet_buffer.md R164). -/
theorem exec_pbDereference_of_free (hok : s.fault = 0#8) (hfree : s.held h = false) :
    exec (.pbDereference h) s = answers (s.dereference h) .good [] := by
  rw [exec, execPbDereference, runCommand_of_ok s _ hok]
  cases hp : s.packet h with
  | none =>
    rw [dereference_of_dead hp]
    rfl
  | some p =>
    simp only [hfree, Bool.false_eq_true, false_and, if_false]
    rfl

theorem RecordReplaced.exec_pbDereference (hr : RecordReplaced s h (p.afterDereferences m) t) (hok : s.fault = 0#8)
    (hfree : s.held h = false) :
    ∃ u, exec (.pbDereference h) t = .next u ∧ RecordReplaced s h (p.afterDereferences (m + 1)) u := by
  refine ⟨_, exec_pbDereference_of_free (hr.fault.trans hok) (hr.held.trans hfree), ?_⟩
  rw [dereference_eq]
  refine ⟨hr.fault, hr.params, hr.held, dereference_afterDereferences hr.record, fun k hk => ?_⟩
  exact (dereference_packet_other t hk).trans (hr.others k hk)

end

end Sys2Proof.Machine
end

section
/-! PROOFS. The statement about a packet's references over a run of commands (42_packet_buffer.md R172). -/

namespace Sys2Proof.Machine

/-- Settles O31: the count after `j` references is `j`, and the record after `m` dereferences from there is
`Packet.afterDereferences`. -/
theorem theLastDereferenceFrees : Obligations.TheLastDereferenceFrees := by
  intro s h p n m hok hp hzero hfree hmax
  have hstart : RecordReplaced s h (some { p with ref := 0 }) s := by
    rw [← hzero, ← hp]
    exact .refl s h
  obtain ⟨u, hu, hcounted⟩ := execAll_replicate_of_step (n := n) (i := .pbReference h)
    (After := fun j => RecordReplaced s h (some { p with ref := j })) hstart
    fun j hj _ hr => hr.exec_pbReference hok (show j < s.params.refMax by omega)
  have hall : RecordReplaced s h (Packet.afterDereferences { p with ref := n } 0) u := by
    rw [Packet.afterDereferences, if_pos (by simp only; omega)]
    exact hcounted
  obtain ⟨t, ht, hr⟩ := execAll_replicate_of_step (n := m) (i := .pbDereference h)
    (After := fun j => RecordReplaced s h (Packet.afterDereferences { p with ref := n } j)) hall
    fun j _ _ hr => hr.exec_pbDereference hok hfree
  refine ⟨t, (execAll_append_of_next hu _).trans ht, hr.fault.trans hok, fun hlt => ?_, fun hpos hge => ?_,
    fun hn => ?_, hr.others⟩
  · exact hr.record.trans (afterDereferences_of_lt hlt)
  · exact hr.record.trans (afterDereferences_of_ge hpos hge)
  · subst hn
    rw [hr.record, afterDereferences_of_unreferenced rfl, ← hzero]

end Sys2Proof.Machine
end

section
/-! PROOFS. The chain of nested headers: the positions of a header lie forward in the packet, the walk inward is as long as
the repeated `NextHeader` steps find a header, and it ends at the innermost one (43_map.md R202, R203, R208 to R210). -/

namespace Sys2Proof.Machine

section

variable {prm : Params} {data : List Byte} {hp p q n : Nat}

/-! ### Positions lie forward (43_map.md R202, R203, R208) -/

theorem skipLoop_gt {l : List Byte} {pos : Nat} (hq : skipLoop l pos = some q) : pos < q := by
  induction l generalizing pos with
  | nil => cases hq
  | cons b l ih =>
    rw [skipLoop] at hq
    split at hq
    · cases hq; omega
    · have := ih hq; omega

theorem skipField_ge {present : Bool} {pos : Nat} (hq : skipField data present pos = some q) : pos ≤ q := by
  cases present with
  | true => exact (skipLoop_gt hq).le
  | false => cases hq; exact Nat.le_refl _

theorem fields_ct_gt (hq : (fields data hp).ct = some q) : hp < q := by
  simp only [fields] at hq
  obtain ⟨sa, hsa, hct⟩ := Option.bind_eq_some_iff.mp hq
  obtain ⟨da, hda, hsa⟩ := Option.bind_eq_some_iff.mp hsa
  have h1 := skipField_ge hda
  have h2 := skipField_ge hsa
  have h3 := skipField_ge hct
  omega

/-- A header holds a nested one where its next-protocol field is there and names MAP, and its contents have a byte. -/
theorem nextHeader_eq_some_iff : nextHeader prm data hp = some q ↔
    hasFlag (headerByte data hp) maskNp = true ∧ (fields data hp).ct = some q ∧ q < data.length ∧
      ∃ n, c78Decode prm.c78Width data (hp + 1) = some (prm.mapProtocolId, n) := by
  constructor
  · intro hq
    rw [nextHeader] at hq
    split at hq
    · next hflag =>
      split at hq
      · next ct v n hct hdec =>
        split at hq
        · next hin =>
          obtain ⟨rfl, hlt⟩ := hin
          cases hq
          exact ⟨hflag, hct, hlt, n, hdec⟩
        · cases hq
      · cases hq
    · cases hq
  · rintro ⟨hflag, hct, hlt, n, hdec⟩
    have hnp : (fields data hp).np = hp + 1 := rfl
    simp [nextHeader, hnp, hflag, hct, hlt, hdec]

theorem nextHeader_gt (hq : nextHeader prm data hp = some q) : hp < q := by
  obtain ⟨_, hct, _⟩ := nextHeader_eq_some_iff.mp hq
  exact fields_ct_gt hct

/-- From past the end of the packet there is no nested header, which would lie forward and inside. -/
theorem nextHeader_of_ge (hend : data.length ≤ hp) : nextHeader prm data hp = none := by
  refine Option.eq_none_iff_forall_ne_some.mpr fun q hq => ?_
  have := nextHeader_gt hq
  have := nextHeader_lt hq
  omega

/-! ### The walk inward (43_map.md R209 to R211) -/

/-- One step more at the inner end of the walk. -/
theorem walkHeaders_succ (n p : Nat) :
    walkHeaders prm data (n + 1) p = (walkHeaders prm data n p).bind (nextHeader prm data) := by
  induction n generalizing p with
  | zero => cases h : nextHeader prm data p <;> simp [walkHeaders, h]
  | succ n ih =>
    rw [walkHeaders, walkHeaders, Option.bind_assoc]
    exact congrArg _ (funext ih)

theorem headerChain_of_last (n : Nat) (hlast : nextHeader prm data p = none) : headerChain prm data n p = [p] := by
  cases n <;> simp [headerChain, hlast]

/-- A chain with a bound that no walk reaches lists the headers that repeated `NextHeader` steps find. -/
theorem headerChain_getElem? (hn : data.length ≤ p + n) (j : Nat) :
    (headerChain prm data n p)[j]? = walkHeaders prm data j p := by
  induction n generalizing p j with
  | zero =>
    have hlast := nextHeader_of_ge (prm := prm) (data := data) (hp := p) (by omega)
    cases j <;> simp [headerChain, walkHeaders, hlast]
  | succ n ih =>
    cases hnext : nextHeader prm data p with
    | none =>
      rw [headerChain_of_last _ hnext]
      cases j <;> simp [walkHeaders, hnext]
    | some q =>
      have hlt := nextHeader_gt hnext
      simp only [headerChain, hnext]
      cases j with
      | zero => rfl
      | succ j => simpa [walkHeaders, hnext] using ih (by omega) j

theorem headerWalk_getElem? (prm : Params) (data : List Byte) (p j : Nat) :
    (headerWalk prm data p)[j]? = walkHeaders prm data j p :=
  headerChain_getElem? (by omega) j

/-- The walk begins at its header. -/
theorem headerWalk_eq_cons (prm : Params) (data : List Byte) (p : Nat) :
    headerWalk prm data p = p :: (headerWalk prm data p).tail := by
  have hhead := headerWalk_getElem? prm data p 0
  rw [walkHeaders] at hhead
  cases hw : headerWalk prm data p with
  | nil => simp [hw] at hhead
  | cons a l => simpa [hw] using hhead

/-- The last header of the walk is reached by `NextHeader` steps and holds no other. -/
theorem headerWalk_last (prm : Params) (data : List Byte) (p : Nat) :
    ∃ n, walkHeaders prm data n p = some ((headerWalk prm data p).getLastD p) ∧
      nextHeader prm data ((headerWalk prm data p).getLastD p) = none := by
  obtain ⟨l, hl⟩ : ∃ l, headerWalk prm data p = p :: l := ⟨_, headerWalk_eq_cons prm data p⟩
  have hreach : walkHeaders prm data l.length p = some ((headerWalk prm data p).getLastD p) := by
    rw [← headerWalk_getElem?, hl]
    simp [List.getLastD, List.getLast_eq_getElem]
  refine ⟨l.length, hreach, ?_⟩
  have hend : walkHeaders prm data (l.length + 1) p = none := by
    rw [← headerWalk_getElem?, hl]
    simp
  rwa [walkHeaders_succ, hreach, Option.bind_some] at hend

theorem headerAt_zero (hdata : data ≠ []) : headerAt prm data 0 = some 0 := by
  simp [headerAt, walkHeaders, hdata]

theorem headerAt_succ (prm : Params) (data : List Byte) (n : Nat) :
    headerAt prm data (n + 1) = (headerAt prm data n).bind (nextHeader prm data) := by
  unfold headerAt
  split
  · rfl
  · exact walkHeaders_succ n 0

end

/-- Settles O40: the nested header is the contents position, which lies forward, and the last header of the walk is the one
from which a further step finds none. -/
theorem headerChainEndsAtTheInnermost : Obligations.HeaderChainEndsAtTheInnermost := by
  refine ⟨fun prm data => headerAt_zero, headerAt_succ, fun prm data hp q => nextHeader_eq_some_iff,
    fun prm data hp q hq => ⟨nextHeader_gt hq, nextHeader_lt hq⟩, fun prm data off =>
      ⟨fun hdata => by simp [headerAt, hdata], fun hnone => by simp [getData, hnone], fun p hp => ?_⟩⟩
  obtain ⟨n, hreach, hlast⟩ := headerWalk_last prm data p
  refine ⟨headerAt_lt hp, n, _, hreach, hlast, ?_⟩
  rw [getData, hp]

end Sys2Proof.Machine
end

section
/-! PROOFS. The writes of a header byte (43_map.md R190 to R201). -/

namespace Sys2Proof.Machine

section

variable {s : State} {h : Handle} {p : Packet} {x m f t : Byte} {bit : Nat}

/-- The masks of the presence flags are single bits (30_encoding.md R100). -/
theorem mask_bits : (∀ k < 8, maskCk.getLsbD k = decide (k = 7)) ∧ (∀ k < 8, maskNp.getLsbD k = decide (k = 6)) ∧
    (∀ k < 8, maskDa.getLsbD k = decide (k = 5)) ∧ (∀ k < 8, maskSa.getLsbD k = decide (k = 4)) := by
  decide

/-- A write under a mask of one bit sets or clears that bit and keeps the others (43_map.md R190). -/
theorem withFlag_getLsbD (hm : ∀ k < 8, m.getLsbD k = decide (k = bit)) (x f : Byte) {k : Nat} (hk : k < 8) :
    (withFlag x m f).getLsbD k = if k = bit then decide (f = 1#8) else x.getLsbD k := by
  have hset : (if f = 1#8 then m else 0#8).getLsbD k = (decide (f = 1#8) && decide (k = bit)) := by
    split
    · next hf => rw [hm k hk, decide_eq_true hf, Bool.true_and]
    · next hf => rw [BitVec.getLsbD_zero, decide_eq_false hf, Bool.false_and]
  rw [withFlag, BitVec.getLsbD_or, BitVec.getLsbD_and, BitVec.getLsbD_not, hm k hk, hset]
  by_cases hbit : k = bit
  · simp [hbit]
  · simp [hbit, hk]

/-- The high nibble is kept, and the address type put under it (43_map.md R201). -/
theorem withAddrType_eq (x : Byte) (ht : t.toNat < 15) :
    withAddrType x t = BitVec.ofNat 8 (x.toNat / 16 * 16 + t.toNat) := by
  have hhigh : ∀ y : Byte, y &&& 0xF0#8 = (y >>> 4) <<< 4 := by decide
  have hx := x.isLt
  have hmul : x.toNat / 16 * 16 = (x.toNat / 16) <<< 4 := by rw [Nat.shiftLeft_eq]
  apply BitVec.eq_of_toNat_eq
  rw [withAddrType, hhigh, hmul, Nat.shiftLeft_add_eq_or_of_lt (by omega)]
  simp [Nat.shiftRight_eq_div_pow]

theorem legalFlag_of_bit (hf : f = 0#8 ∨ f = 1#8) : legalFlag f = true := by
  rcases hf with rfl | rfl <;> rfl

theorem runCommand_atMutableHeader (hok : s.fault = 0#8) (hp : s.packet h = some p) (hh : s.held h = false) {hpos : Half}
    (hlt : hpos.toNat < p.data.length) (k : State → Packet → State) :
    runCommand s (atMutableHeader h hpos k) = .next (k s p) := by
  rw [runCommand_of_ok s _ hok, atMutableHeader, ifMutable_of_free hp hh, ifIndex_of_lt hlt]

theorem runCommand_atMutableHeader_beyond (hok : s.fault = 0#8) (hp : s.packet h = some p) (hh : s.held h = false)
    {hpos : Half} (hge : p.data.length ≤ hpos.toNat) (k : State → Packet → State) :
    runCommand s (atMutableHeader h hpos k) = faultsWith s 2#8 := by
  rw [runCommand_of_ok s _ hok, atMutableHeader, ifMutable_of_free hp hh, ifIndex_of_ge hge]
  rfl

/-- A legal flag write is its checks at the header position and then the write. -/
theorem setFlag_of_legal (m : Byte) (h : Handle) (hpos : Half) (hf : f = 0#8 ∨ f = 1#8) :
    setFlag m h hpos f = atMutableHeader h hpos (fun s p =>
      (putHeader s h p hpos.toNat (withFlag (headerByte p.data hpos.toNat) m f)).answer .good []) := by
  funext s
  rw [setFlag, legalFlag_of_bit hf, ifLegal_true]

/-- A flag write inside the packet sets or clears the flag's bit of that byte alone. -/
theorem runCommand_setFlag (hok : s.fault = 0#8) (hp : s.packet h = some p) (hh : s.held h = false) {hpos : Half}
    (hx : p.data[hpos.toNat]? = some x) (hf : f = 0#8 ∨ f = 1#8) (hm : ∀ k < 8, m.getLsbD k = decide (k = bit)) :
    ∃ y : Byte, runCommand s (setFlag m h hpos f) =
        answers (s.setPacket h { p with data := p.data.set hpos.toNat y }) .good [] ∧
      ∀ k, k < 8 → y.getLsbD k = if k = bit then decide (f = 1#8) else x.getLsbD k := by
  obtain ⟨hlt, _⟩ := List.getElem?_eq_some_iff.mp hx
  refine ⟨withFlag x m f, ?_, fun k hk => withFlag_getLsbD hm x f hk⟩
  rw [setFlag_of_legal m h hpos hf, runCommand_atMutableHeader hok hp hh hlt, headerByte_of_getElem? hx]
  rfl

end

/-- Settles O37: the five writes check the index, and replace the byte by one that differs in the flag's bit or in the low
nibble. -/
theorem headerByteWrites : Obligations.HeaderByteWrites := by
  intro s h p hp f t hok hlive hh
  refine ⟨fun x i bit hx hf hi => ?_, fun x hx ht => ?_, fun hlt ht => ?_, fun i hend hf hi => ?_⟩
  · obtain ⟨hck, hnp, hda, hsa⟩ := mask_bits
    have hwrite {m : Byte} {bit : Nat} := runCommand_setFlag (m := m) (bit := bit) hok hlive hh hx hf
    simp only [List.mem_cons, List.not_mem_nil, or_false, Prod.mk.injEq] at hi
    rcases hi with ⟨rfl, rfl⟩ | ⟨rfl, rfl⟩ | ⟨rfl, rfl⟩ | ⟨rfl, rfl⟩
    · exact hwrite hck
    · exact hwrite hnp
    · exact hwrite hda
    · exact hwrite hsa
  · obtain ⟨hlt, _⟩ := List.getElem?_eq_some_iff.mp hx
    rw [exec, execMapSetAtype, runCommand_atMutableHeader hok hlive hh hlt, if_neg (by omega),
      headerByte_of_getElem? hx, withAddrType_eq x ht]
    rfl
  · rw [exec, execMapSetAtype, runCommand_atMutableHeader hok hlive hh hlt, if_pos ht]
    rfl
  · have hfault := runCommand_atMutableHeader_beyond hok hlive hh hend
    have hset (m : Byte) : runCommand s (setFlag m h hp f) = faultsWith s 2#8 := by
      rw [setFlag_of_legal m h hp hf]
      exact hfault _
    simp only [List.mem_cons, List.not_mem_nil, or_false] at hi
    rcases hi with rfl | rfl | rfl | rfl | rfl
    · exact hset maskCk
    · exact hset maskNp
    · exact hset maskDa
    · exact hset maskSa
    · exact hfault _

end Sys2Proof.Machine
end

section
/-! PROOFS. The walk of `MAP_VALIDATE` over the levels of a packet: how it ends, and what the command answers by it
(43_map.md R211 to R214). -/

namespace Sys2Proof.Machine

section

variable {s : State} {h : Handle} {p : Packet} {data : List Byte} {ps rest : List Nat} {pos j : Nat}
  {w : CkWalk} {off req rem : Byte}

/-! ### Levels (43_map.md R211, R212) -/

/-- Level `j` has room for its trailer, and the trailer of its scope; a level without the checksum bit has nothing to show. -/
def LevelHolds (data : List Byte) (ps : List Nat) (j : Nat) : Prop := levelFits data ps j ∧ levelMatches data ps j

theorem levelFits_iff (hj : ps[j]? = some pos) (hck : ckAt data pos = true) :
    levelFits data ps j ↔ pos + 4 ≤ levelStop data ps j := by
  simp [levelFits, hj, hck]

theorem levelMatches_iff (hj : ps[j]? = some pos) (hck : ckAt data pos = true) :
    levelMatches data ps j ↔ (data.take (levelStop data ps j)).drop (levelStop data ps j - 4) =
      crcTrailer (crc32 ((data.take (levelStop data ps j - 4)).drop pos)) := by
  simp [levelMatches, hj, hck]

/-- Where there is room, the trailer is the four bytes before the stop position. -/
theorem levelMatches_iff_of_room (hj : ps[j]? = some pos) (hck : ckAt data pos = true)
    (hroom : pos + 4 ≤ levelStop data ps j) :
    levelMatches data ps j ↔ (data.drop (levelStop data ps j - 4)).take 4 =
      crcTrailer (crc32 ((data.take (levelStop data ps j - 4)).drop pos)) := by
  have hfour : levelStop data ps j - (levelStop data ps j - 4) = 4 := by omega
  rw [levelMatches_iff hj hck, List.drop_take, hfour]

theorem levelHolds_of_clear (hj : ps[j]? = some pos) (hck : ckAt data pos = false) : LevelHolds data ps j := by
  simp [LevelHolds, levelFits, levelMatches, hj, hck]

/-- Inside a checksummed level the stop position is four bytes further back. -/
theorem levelStop_succ_of_checked (hj : ps[j]? = some pos) (hck : ckAt data pos = true) :
    levelStop data ps (j + 1) = levelStop data ps j - 4 := by
  rw [levelStop, levelStop, List.take_add_one, hj, List.filter_append, Option.toList_some,
    List.filter_cons_of_pos hck, List.filter_nil, List.length_append, List.length_singleton]
  omega

theorem levelStop_succ_of_clear (hj : ps[j]? = some pos) (hck : ckAt data pos = false) :
    levelStop data ps (j + 1) = levelStop data ps j := by
  rw [levelStop, levelStop, List.take_add_one, hj, List.filter_append]
  simp [hck]

/-! ### How the walk ends -/

/-- What the walk over the levels `ps` has found where it ends so: all levels hold, or this is the first that does not. -/
def WalkEnds (data : List Byte) (ps : List Nat) : CkWalk → Prop
  | .passed stop removed => (∀ j, j < ps.length → LevelHolds data ps j) ∧
      stop = levelStop data ps ps.length ∧ removed = ps.filter (ckAt data)
  | .short j => j < ps.length ∧ ¬ levelFits data ps j ∧ ∀ k, k < j → LevelHolds data ps k
  | .mismatch j => j < ps.length ∧ levelFits data ps j ∧ ¬ levelMatches data ps j ∧ ∀ k, k < j → LevelHolds data ps k

/-- From level `j` on, with the levels outside it holding, the loop ends where it should. -/
theorem checkLevels_drop_walkEnds (hrest : ps.drop j = rest) (hj : j ≤ ps.length) (hout : ∀ k < j, LevelHolds data ps k) :
    WalkEnds data ps (checkLevels data rest (levelStop data ps j) j ((ps.take j).filter (ckAt data))) := by
  induction rest generalizing j with
  | nil =>
    obtain rfl : j = ps.length := Nat.le_antisymm hj (List.drop_eq_nil_iff.mp hrest)
    exact ⟨hout, rfl, by rw [List.take_length]⟩
  | cons pos rest ih =>
    have hpos : ps[j]? = some pos := by rw [← List.head?_drop, hrest, List.head?_cons]
    obtain ⟨hlt, _⟩ := List.getElem?_eq_some_iff.mp hpos
    have hinner : ps.drop (j + 1) = rest := by rw [← List.tail_drop, hrest, List.tail_cons]
    have hnext (hholds : LevelHolds data ps j) := ih hinner hlt fun k hk =>
      (Nat.lt_succ_iff_lt_or_eq.mp hk).elim (hout k) (fun e => e ▸ hholds)
    rw [List.take_add_one, hpos, List.filter_append] at hnext
    cases hck : ckAt data pos with
    | false =>
      have hflag : hasFlag (headerByte data pos) maskCk = false := hck
      have hinside := hnext (levelHolds_of_clear hpos hck)
      rw [levelStop_succ_of_clear hpos hck] at hinside
      simpa [checkLevels, hflag, hck] using hinside
    | true =>
      have hflag : hasFlag (headerByte data pos) maskCk = true := hck
      rw [checkLevels, if_pos hflag]
      split
      · next hshort => exact ⟨hlt, by rw [levelFits_iff hpos hck]; omega, hout⟩
      · next hroom =>
        have hfits : levelFits data ps j := (levelFits_iff hpos hck).mpr (by omega)
        have hmatches := levelMatches_iff_of_room hpos hck (by omega)
        split
        · next hbad => exact ⟨hlt, hfits, mt hmatches.mp hbad, hout⟩
        · next hgood =>
          have hinside := hnext ⟨hfits, hmatches.mpr (not_not.mp hgood)⟩
          rw [levelStop_succ_of_checked hpos hck] at hinside
          simpa [hck] using hinside

theorem checkLevels_walkEnds (data : List Byte) (ps : List Nat) :
    WalkEnds data ps (checkLevels data ps data.length 0 []) := by
  have hwalk := checkLevels_drop_walkEnds (data := data) (ps := ps) (j := 0) rfl (Nat.zero_le _) nofun
  simpa [levelStop] using hwalk

/-- The first level that does not hold is one. -/
theorem first_failing_level_unique {k : Nat} (hj : ¬ LevelHolds data ps j) (hk : ¬ LevelHolds data ps k)
    (hbefore : ∀ i < j, LevelHolds data ps i) (hbefore' : ∀ i < k, LevelHolds data ps i) : j = k :=
  Nat.le_antisymm (Nat.le_of_not_lt fun hlt => hk (hbefore k hlt)) (Nat.le_of_not_lt fun hlt => hj (hbefore' j hlt))

/-- The levels tell how the walk ends: whether all hold, and of the first that does not, whether it has room. -/
theorem WalkEnds.unique : ∀ {w w' : CkWalk}, WalkEnds data ps w → WalkEnds data ps w' → w = w'
  | .passed _ _, .passed _ _, ⟨_, hstop, hremoved⟩, ⟨_, hstop', hremoved'⟩ => by rw [hstop, hremoved, hstop', hremoved']
  | .passed _ _, .short j, ⟨hall, _⟩, ⟨hj, hnoRoom, _⟩ => absurd (hall j hj).1 hnoRoom
  | .passed _ _, .mismatch j, ⟨hall, _⟩, ⟨hj, _, hbad, _⟩ => absurd (hall j hj).2 hbad
  | .short j, .passed _ _, ⟨hj, hnoRoom, _⟩, ⟨hall, _⟩ => absurd (hall j hj).1 hnoRoom
  | .mismatch j, .passed _ _, ⟨hj, _, hbad, _⟩, ⟨hall, _⟩ => absurd (hall j hj).2 hbad
  | .short _, .short _, ⟨_, hnoRoom, hout⟩, ⟨_, hnoRoom', hout'⟩ =>
    congrArg _ (first_failing_level_unique (mt And.left hnoRoom) (mt And.left hnoRoom') hout hout')
  | .mismatch _, .mismatch _, ⟨_, _, hbad, hout⟩, ⟨_, _, hbad', hout'⟩ =>
    congrArg _ (first_failing_level_unique (mt And.right hbad) (mt And.right hbad') hout hout')
  | .short _, .mismatch _, ⟨_, hnoRoom, hout⟩, ⟨_, hroom, hbad, hout'⟩ =>
    absurd hroom (first_failing_level_unique (mt And.left hnoRoom) (mt And.right hbad) hout hout' ▸ hnoRoom)
  | .mismatch _, .short _, ⟨_, hroom, hbad, hout⟩, ⟨_, hnoRoom, hout'⟩ =>
    absurd hroom (first_failing_level_unique (mt And.left hnoRoom) (mt And.right hbad) hout' hout ▸ hnoRoom)

theorem checkLevels_eq_iff : checkLevels data ps data.length 0 [] = w ↔ WalkEnds data ps w :=
  ⟨fun hw => hw ▸ checkLevels_walkEnds data ps, fun hw => (checkLevels_walkEnds data ps).unique hw⟩

/-! ### What `MAP_VALIDATE` answers (43_map.md R212 to R214) -/

/-- The answer by the walk's end (43_map.md R212, R213). -/
def walkAnswer (s : State) (h : Handle) (p : Packet) (rem : Byte) : CkWalk → State
  | .short j => answerLevel s .short j
  | .mismatch j => answerLevel s .mismatch j
  | .passed stop removed =>
    (if rem = 1#8
      then s.setPacket h { p with data := removeTrailers s.params.clearCkBitsOnRemove p.data stop removed }
      else s).answer .good [.byte (reasonCode .ok), .byte 0#8]

/-- The command's checks passed: its flag operands, that the packet is live, and for a removal that no unit holds it. -/
theorem exec_mapValidate (hok : s.fault = 0#8) (hp : s.packet h = some p) (off : Byte) (hreq : req = 0#8 ∨ req = 1#8)
    (hrem : rem = 0#8 ∨ (rem = 1#8 ∧ s.held h = false)) :
    exec (.mapValidate h off req rem) s = .next (validatePacket s h p off req rem) := by
  have hlegal : (legalFlag req && legalFlag rem) = true := by
    rw [legalFlag_of_bit hreq, legalFlag_of_bit (hrem.imp_right And.left), Bool.and_self]
  have hfree : ¬ (rem = 1#8 ∧ s.held h = true) := by
    rintro ⟨rfl, hheld⟩
    simp [hheld] at hrem
  rw [exec, execMapValidate, runCommand_of_ok s _ hok, hlegal, ifLegal_true, ifLive_of_live hp, if_neg hfree]

theorem validatePacket_of_empty (hdata : p.data = []) :
    validatePacket s h p off req rem = s.answer .bad [.byte 1#8, .byte 0#8] := by
  have hlen : p.len = 0 := by simp [Packet.len, hdata]
  rw [validatePacket, if_pos hlen]
  rfl

theorem len_ne_zero (hdata : p.data ≠ []) : p.len ≠ 0 := mt List.length_eq_zero_iff.mp hdata

theorem validatePacket_of_noHeader (hdata : p.data ≠ []) (hnone : headerAt s.params p.data off.toNat = none) :
    validatePacket s h p off req rem = s.answer .bad [.byte 2#8, .byte 0#8] := by
  rw [validatePacket, if_neg (len_ne_zero hdata), hnone]
  rfl

theorem data_ne_nil_of_headerAt {prm : Params} {n : Nat} (hpos : headerAt prm data n = some pos) : data ≠ [] :=
  List.ne_nil_of_length_pos (Nat.zero_lt_of_lt (headerAt_lt hpos))

theorem validatePacket_of_missing (hpos : headerAt s.params p.data off.toNat = some pos) (hreq : req = 1#8)
    (hck : ckAt p.data pos = false) :
    validatePacket s h p off req rem = s.answer .bad [.byte 3#8, .byte 0#8] := by
  have hmissing : req = 1#8 ∧ ¬ hasFlag (headerByte p.data pos) maskCk = true := ⟨hreq, Bool.eq_false_iff.mp hck⟩
  simp only [validatePacket, if_neg (len_ne_zero (data_ne_nil_of_headerAt hpos)), hpos, if_pos hmissing]
  rfl

/-- With a header, and its checksum there where it is required, the walk decides. -/
theorem validatePacket_of_walk (hpos : headerAt s.params p.data off.toNat = some pos)
    (hreq : req = 0#8 ∨ ckAt p.data pos = true)
    (hwalk : checkLevels p.data (headerWalk s.params p.data pos) p.data.length 0 [] = w) :
    validatePacket s h p off req rem = walkAnswer s h p rem w := by
  have hthere : ¬ (req = 1#8 ∧ ¬ hasFlag (headerByte p.data pos) maskCk = true) := by
    rintro ⟨rfl, hno⟩
    exact hreq.elim nofun hno
  have hwalk' : checkLevels p.data (headerWalk s.params p.data pos) p.len 0 [] = w := hwalk
  simp only [validatePacket, if_neg (len_ne_zero (data_ne_nil_of_headerAt hpos)), hpos, if_neg hthere, hwalk']
  cases w <;> rfl

/-- A failure at a level, as the command answers it. -/
theorem answerLevel_answers (s : State) (r : CkReason) (j : Nat) :
    (j ≤ 255 → Host.Outcome.next (answerLevel s r j) =
      answers s .bad [.byte (reasonCode r), .byte (BitVec.ofNat 8 j)]) ∧
    (255 < j → ∃ v, Host.Outcome.next (answerLevel s r j) =
      answers { s with draws := { s.draws with free := s.draws.free + 1 } } .bad [.byte (reasonCode r), .byte v]) := by
  refine ⟨fun hj => ?_, fun hj => ?_⟩
  · rw [answerLevel, byteField_of_fits s _ hj]
    rfl
  · rw [answerLevel, byteField_of_wide s _ hj]
    exact ⟨_, rfl⟩

end

/-- Settles O42: the walk's loop is followed level by level, and the levels tell how it ends. -/
theorem checksumScopesFollowTheWalk : Obligations.ChecksumScopesFollowTheWalk :=
  ⟨headerWalk_getElem?, fun _ _ => ⟨fun _ _ => checkLevels_eq_iff, fun _ => checkLevels_eq_iff,
    fun _ => checkLevels_eq_iff⟩⟩

/-- Settles O41: the checks in their order, and then the answer by the walk's end. -/
theorem validateAnswersByTheWalk : Obligations.ValidateAnswersByTheWalk := by
  intro s h p off req rem hok hp hreq hrem
  rw [exec_mapValidate hok hp off hreq hrem]
  refine ⟨fun hdata => ?_, fun hdata hnone => ?_, fun pos hpos => ⟨fun hreq1 hck => ?_, fun hthere =>
    ⟨fun j hwalk => ?_, fun j hwalk => ?_, fun stop removed hwalk => ?_⟩⟩⟩
  · rw [validatePacket_of_empty hdata, answer_eq]
  · rw [validatePacket_of_noHeader hdata hnone, answer_eq]
  · rw [validatePacket_of_missing hpos hreq1 hck, answer_eq]
  · rw [validatePacket_of_walk hpos hthere hwalk]
    exact answerLevel_answers s .short j
  · rw [validatePacket_of_walk hpos hthere hwalk]
    exact answerLevel_answers s .mismatch j
  · rw [validatePacket_of_walk hpos hthere hwalk]
    refine ⟨?_, ?_⟩
    all_goals
      rintro rfl
      rfl

end Sys2Proof.Machine
end

section
/-! PROOFS. The statement about an appended checksum, which validates and guards every byte of its scope (43_map.md R213,
R215, R217). -/

namespace Sys2Proof.Machine

section

variable {s t : State} {h : Handle} {p : Packet} {data scope : List Byte} {ps : List Nat} {pos a : Nat} {b : Byte}
  {c : Word} {off rem : Byte} {w : CkWalk}

/-! ### Trailers (30_encoding.md R106) -/

theorem crcTrailer_eq_wordBytes (c : Word) : crcTrailer c = wordBytes c := by simp [crcTrailer, wordBytes, wordByte]

/-- A trailer tells its checksum. -/
theorem crcTrailer_injective : Function.Injective crcTrailer := by
  intro c d hcd
  rw [crcTrailer_eq_wordBytes, crcTrailer_eq_wordBytes, wordBytes, wordBytes] at hcd
  injection hcd with h0 hcd
  injection hcd with h1 hcd
  injection hcd with h2 hcd
  injection hcd with h3 hcd
  rw [← word_wordBytes c, h0, h1, h2, h3, word_wordBytes]

/-- A change of one byte changes the checksum (40_crc32.md R123). -/
theorem crc32_set_ne (ha : a < scope.length) (hne : scope[a]? ≠ some b) : crc32 (scope.set a b) ≠ crc32 scope := by
  have hold : scope[a] ≠ b := by simpa [ha] using hne
  have hsplit : scope = scope.take a ++ scope[a] :: scope.drop (a + 1) := by
    rw [List.getElem_cons_drop, List.take_append_drop]
  obtain ⟨_, hbyte⟩ := oneChangedByteChangesTheCrc
  rw [List.set_eq_take_append_cons_drop, if_pos ha]
  conv => rhs; rw [hsplit]
  exact hbyte _ _ _ _ hold.symm

/-! ### The outermost level of a packet that ends in a trailer (43_map.md R211) -/

theorem levelStop_zero (data : List Byte) (ps : List Nat) : levelStop data ps 0 = data.length := by simp [levelStop]

/-- The scope of a checksummed header at the packet's front is all but the trailer, for which there is room. -/
theorem outermost_level_of_trailer (hps : ps[0]? = some 0) (hck : ckAt (scope ++ crcTrailer c) 0 = true) :
    levelFits (scope ++ crcTrailer c) ps 0 ∧
      (levelMatches (scope ++ crcTrailer c) ps 0 ↔ c = crc32 scope) := by
  have hlen : (scope ++ crcTrailer c).length = scope.length + 4 := by simp [crcTrailer]
  refine ⟨?_, ?_⟩
  · rw [levelFits_iff hps hck, levelStop_zero, hlen]
    omega
  · rw [levelMatches_iff hps hck, levelStop_zero, List.take_length, hlen, Nat.add_sub_cancel, List.drop_left,
      List.take_left, List.drop_zero, crcTrailer_injective.eq_iff]

/-- With the checksum of the bytes before it as the trailer, and no bit at the inner headers, the walk passes and the
outermost trailer is the one to remove. -/
theorem checkLevels_of_appended (hck : ckAt (scope ++ crcTrailer (crc32 scope)) 0 = true)
    (hinner : ∀ pos ∈ ps, ckAt (scope ++ crcTrailer (crc32 scope)) pos = false) :
    checkLevels (scope ++ crcTrailer (crc32 scope)) (0 :: ps) (scope ++ crcTrailer (crc32 scope)).length 0 [] =
      .passed scope.length [0] := by
  have hbits : (0 :: ps).filter (ckAt (scope ++ crcTrailer (crc32 scope))) = [0] := by
    rw [List.filter_cons_of_pos hck, List.filter_eq_nil_iff.mpr (by simpa using hinner)]
  refine checkLevels_eq_iff.mpr ⟨fun j hj => ?_, ?_, hbits.symm⟩
  · cases j with
    | zero =>
      obtain ⟨hfits, hmatches⟩ := outermost_level_of_trailer (ps := 0 :: ps) rfl hck
      exact ⟨hfits, hmatches.mpr rfl⟩
    | succ j =>
      exact levelHolds_of_clear (List.getElem?_eq_getElem hj) (hinner _ (by simp))
  · rw [levelStop, List.take_length, hbits]
    simp [crcTrailer]

/-- With another trailer it fails at the outermost level. -/
theorem checkLevels_of_wrong_trailer (hck : ckAt (scope ++ crcTrailer c) 0 = true) (hc : c ≠ crc32 scope) :
    checkLevels (scope ++ crcTrailer c) (0 :: ps) (scope ++ crcTrailer c).length 0 [] = .mismatch 0 := by
  obtain ⟨hfits, hmatches⟩ := outermost_level_of_trailer (ps := 0 :: ps) rfl hck
  exact checkLevels_eq_iff.mpr ⟨by simp, hfits, mt hmatches.mp hc, nofun⟩

/-! ### The packet after an append (43_map.md R215) -/

/-- The packet's bytes with the checksum bit of the outermost header set: the scope of the appended checksum. -/
def markedBytes (data : List Byte) : List Byte := data.set 0 (headerByte data 0 ||| 0x80#8)

theorem withChecksum_zero (data : List Byte) :
    withChecksum data 0 = markedBytes data ++ crcTrailer (crc32 (markedBytes data)) := rfl

theorem length_markedBytes (data : List Byte) : (markedBytes data).length = data.length := List.length_set

theorem headerByte_set_append (hpos : pos < data.length) (x : Byte) (rest : List Byte) :
    headerByte (data.set pos x ++ rest) pos = x :=
  headerByte_of_getElem? (by
    rw [List.getElem?_append_left (by rwa [List.length_set]), List.getElem?_set_self hpos])

theorem hasFlag_or_maskCk : ∀ x : Byte, hasFlag (x ||| 0x80#8) maskCk = true := by decide

theorem ckAt_markedBytes_append (hdata : data ≠ []) (rest : List Byte) : ckAt (markedBytes data ++ rest) 0 = true := by
  rw [ckAt, markedBytes, headerByte_set_append (List.length_pos_iff.mpr hdata)]
  exact hasFlag_or_maskCk _

theorem or_and_maskCk : ∀ x : Byte, hasFlag x maskCk = false → (x ||| 0x80#8) &&& 0x7F#8 = x := by decide

/-- The clearing parameter takes the set bit away again (43_map.md R213). -/
theorem clearCkAt_markedBytes (hck : ckAt data 0 = false) : clearCkAt (markedBytes data) 0 = data := by
  cases data with
  | nil => rfl
  | cons x rest =>
    have hx : (x ||| 0x80#8) &&& 0x7F#8 = x := or_and_maskCk x hck
    simp [clearCkAt, markedBytes, headerByte, hx]

/-- An append that answers `Good` at a header without the bit leaves the packet, which no unit holds, with its checksum. -/
theorem appended_of_good (hok : s.fault = 0#8) (hp : s.packet h = some p)
    (hpos : headerAt s.params p.data off.toNat = some pos) (hck : ckAt p.data pos = false)
    (ht : exec (.mapAppendChecksum h off) s = .next t) (hresult : t.result = some ⟨.good, []⟩) :
    t.fault = 0#8 ∧ t.params = s.params ∧ t.held h = false ∧
      ∃ cap, t.packet h = some { p with data := withChecksum p.data pos, cap := cap } := by
  cases hh : s.held h with
  | true =>
    rw [exec, execMapAppendChecksum, runCommand_of_ok s _ hok, ifMutable_of_held hp hh] at ht
    cases ht
    cases hresult
  | false =>
    rcases he : ensureRoom s h p (p.len + 4) 1 s.params.lenMax with ⟨r, p', u⟩
    obtain ⟨hu, hp', _⟩ := ensureRoom_frame he
    rw [exec, execMapAppendChecksum_of_clear hok hp hh hpos hck he] at ht
    split at ht
    · cases ht
      rw [hu, hp']
      exact ⟨hok, rfl, hh, p'.cap, setPacket_packet_self _ _ _⟩
    · next hr =>
      cases ht
      cases hresult
      exact absurd rfl hr

/-- A removal takes the appended trailer off, and by the parameter the bit too. -/
theorem removeTrailers_appended (clear : Bool) (hck : ckAt data 0 = false) (rest : List Byte) :
    removeTrailers clear (markedBytes data ++ rest) (markedBytes data).length [0] =
      if clear then data else markedBytes data := by
  rw [removeTrailers, List.take_left, List.foldl_cons, List.foldl_nil, clearCkAt_markedBytes hck]

/-! ### Validations at the outermost header (43_map.md R212) -/

/-- A required validation at offset 0, where the packet has a byte and its bit is set, answers by the walk. -/
theorem exec_mapValidate_of_walk (hok : s.fault = 0#8) (hp : s.packet h = some p) (hdata : p.data ≠ [])
    (hck : ckAt p.data 0 = true) (hrem : rem = 0#8 ∨ (rem = 1#8 ∧ s.held h = false))
    (hwalk : checkLevels p.data (headerWalk s.params p.data 0) p.data.length 0 [] = w) :
    exec (.mapValidate h 0#8 1#8 rem) s = .next (walkAnswer s h p rem w) := by
  rw [exec_mapValidate hok hp 0#8 (.inr rfl) hrem, validatePacket_of_walk (headerAt_zero hdata) (.inr hck) hwalk]

/-- A packet that ends in another trailer than its checksum does not validate. -/
theorem exec_mapValidate_of_wrong_trailer (hok : s.fault = 0#8) (hp : s.packet h = some p)
    (hdata : p.data = scope ++ crcTrailer c) (hc : c ≠ crc32 scope)
    (hrem : rem = 0#8 ∨ (rem = 1#8 ∧ s.held h = false)) :
    ∃ reason, exec (.mapValidate h 0#8 1#8 rem) s = answers s .bad [.byte reason, .byte 0#8] ∧
      (reason = 3#8 ∨ reason = 5#8) := by
  have hne : p.data ≠ [] := by simp [hdata, crcTrailer]
  cases hck : ckAt p.data 0 with
  | false =>
    refine ⟨3#8, ?_, .inl rfl⟩
    rw [exec_mapValidate hok hp 0#8 (.inr rfl) hrem, validatePacket_of_missing (headerAt_zero hne) rfl hck, answer_eq]
  | true =>
    have hwalk : checkLevels p.data (headerWalk s.params p.data 0) p.data.length 0 [] = .mismatch 0 := by
      rw [headerWalk_eq_cons, hdata]
      exact checkLevels_of_wrong_trailer (hdata ▸ hck) hc
    refine ⟨5#8, ?_, .inr rfl⟩
    rw [exec_mapValidate_of_walk hok hp hne hck hrem hwalk]
    rfl

end

/-- Settles O44: the appended trailer is the checksum of all before it, so the walk passes with it alone removed; a changed
byte changes that checksum, or takes the required bit away. -/
theorem appendedChecksumsValidate : Obligations.AppendedChecksumsValidate := by
  intro s t h p q _ hok hp hdata hck ht hresult hq
  obtain ⟨htok, hparams, hheld, cap, hq'⟩ := appended_of_good hok hp (headerAt_zero hdata) hck ht hresult
  obtain rfl : q = { p with data := withChecksum p.data 0, cap := cap } := Option.some.inj (hq.symm.trans hq')
  simp only [withChecksum_zero] at hq ⊢
  rw [← hparams]
  refine ⟨fun hinner => ?_, fun a b rem ha hb hrem => ?_⟩
  · have hset := ckAt_markedBytes_append hdata (crcTrailer (crc32 (markedBytes p.data)))
    have hwalk := checkLevels_of_appended hset hinner
    rw [← headerWalk_eq_cons] at hwalk
    have hvalidate {rem : Byte} (hrem) :=
      exec_mapValidate_of_walk (rem := rem) htok hq (by simp [crcTrailer]) hset hrem hwalk
    refine ⟨hvalidate (.inl rfl), ?_⟩
    rw [hvalidate (.inr ⟨rfl, hheld⟩), walkAnswer, if_pos rfl, removeTrailers_appended _ hck]
    rfl
  · have ha' : a < (markedBytes p.data).length := by rwa [length_markedBytes]
    have hchanged : crc32 ((markedBytes p.data).set a b) ≠ crc32 (markedBytes p.data) :=
      crc32_set_ne ha' (by rwa [List.getElem?_append_left ha'] at hb)
    rw [List.set_append_left _ _ ha']
    exact exec_mapValidate_of_wrong_trailer htok (setPacket_packet_self _ _ _) rfl hchanged.symm
      (hrem.imp_right fun hrem => ⟨hrem, hheld⟩)

end Sys2Proof.Machine
end

section
/-! SUPPORT. Received bytes run to their end: the wire unit that an instruction is, what the append of one byte comes to where
its conditions are known, and that no append looks at the last result. -/

namespace Sys2Proof.Machine

section

variable {s s1 t : State} {h : Handle} {p : Packet} {i u : Instr} {b cp : Byte}

/-! ### The unit that an instruction is (44_frame_decoder.md R231, R232) -/

theorem decodeWire_of_data (hb : b ≠ cp) : decodeWire .data cp b = .wireData b := if_pos hb

theorem decodeWire_of_literal (hb : b &&& 0xFC#8 ≠ cp) : decodeWire .controlSeen cp b = .wireLiteral b := if_pos hb

/-- An opcode byte is the unit of its two low bits, whatever the control byte is. -/
theorem decodeWire_opcodeByte {k : Byte} (hk : k &&& 0xFC#8 = 0#8 ∧ k &&& 3#8 = k) (hcp : legalControl cp = true) :
    decodeWire .controlSeen cp (cp ||| k) = decodeWire .controlSeen 0#8 k := by
  have hlow : cp &&& 3#8 = 0#8 := by simpa [legalControl] using hcp
  obtain ⟨hhigh, hbits⟩ := (opcodeByte_iff hk hlow).mp rfl
  simp only [decodeWire, hhigh, hbits, hk.1, hk.2, ne_eq, not_true_eq_false, if_false]

theorem decodeWire_escape (hcp : legalControl cp = true) : decodeWire .controlSeen cp (cp ||| 1#8) = .wireEsc :=
  decodeWire_opcodeByte (by decide) hcp

theorem decodeWire_complete (hcp : legalControl cp = true) : decodeWire .controlSeen cp (cp ||| 2#8) = .wireEnd :=
  decodeWire_opcodeByte (by decide) hcp

theorem decodeWire_abort (hcp : legalControl cp = true) : decodeWire .controlSeen cp (cp ||| 3#8) = .wireAbort :=
  decodeWire_opcodeByte (by decide) hcp

theorem decodeWire_idle (hcp : legalControl cp = true) : decodeWire .controlSeen cp cp = .wireIdle := by
  have hunit := decodeWire_opcodeByte (k := 0#8) (by decide) hcp
  rwa [BitVec.or_zero] at hunit

/-- Only the two opcodes that end a frame are read as the units that end one. -/
theorem endOpcode_of_decodeWire {d : DecState} (hu : decodeWire d cp b = .wireEnd ∨ decodeWire d cp b = .wireAbort) :
    d = .controlSeen ∧ b &&& 0xFC#8 = cp ∧ (b &&& 3#8 = 2#8 ∨ b &&& 3#8 = 3#8) := by
  cases d with
  | data => by_cases hb : b = cp <;> simp [decodeWire, hb] at hu
  | controlSeen =>
    by_cases hb : b &&& 0xFC#8 = cp
    · rcases lowBits_cases b with e | e | e | e
      · simp [decodeWire, hb, e] at hu
      · simp [decodeWire, hb, e] at hu
      · exact ⟨rfl, hb, .inl e⟩
      · exact ⟨rfl, hb, .inr e⟩
    · simp [decodeWire, hb] at hu

/-- A unit, issued as itself or as the `DEC_RX` of a byte that is read as it, runs its case of the decoder. -/
theorem exec_unit (hok : s.fault = 0#8) (hu : isReceive u = true)
    (hi : i = u ∨ ∃ b, i = .decRx b ∧ decodeWire s.decState s.cp b = u) :
    exec i s = .next ((unitStep u s).finish s) := by
  have hexec : exec i s = exec u s := by
    rcases hi with rfl | ⟨b, rfl, rfl⟩
    · rfl
    · exact exec_decRx s b
  rw [hexec, exec_receive hu, runCommand_of_ok s _ hok]

theorem exec_dataByte (hok : s.fault = 0#8) (hi : i = .wireData b ∨ (i = .decRx b ∧ s.decState = .data ∧ b ≠ s.cp)) :
    exec i s = .next ((decAppend s b).finish s) :=
  exec_unit hok (u := .wireData b) rfl
    (hi.imp_right fun ⟨hrx, hd, hb⟩ => ⟨b, hrx, by rw [hd, decodeWire_of_data hb]⟩)

theorem exec_escape (hok : s.fault = 0#8) (hcp : legalControl s.cp = true)
    (hi : i = .wireEsc ∨ (i = .decRx (s.cp ||| 1#8) ∧ s.decState = .controlSeen)) :
    exec i s = .next ((decEscaped s).finish s) :=
  exec_unit hok (u := .wireEsc) rfl (hi.imp_right fun ⟨hrx, hd⟩ => ⟨_, hrx, by rw [hd, decodeWire_escape hcp]⟩)

theorem exec_literal (hok : s.fault = 0#8)
    (hi : i = .wireLiteral b ∨ (i = .decRx b ∧ s.decState = .controlSeen ∧ b &&& 0xFC#8 ≠ s.cp)) :
    exec i s = .next ((decLiteralPair s b).finish s) :=
  exec_unit hok (u := .wireLiteral b) rfl
    (hi.imp_right fun ⟨hrx, hd, hb⟩ => ⟨b, hrx, by rw [hd, decodeWire_of_literal hb]⟩)

theorem exec_abort (hok : s.fault = 0#8) (hcp : legalControl s.cp = true)
    (hi : i = .wireAbort ∨ (i = .decRx (s.cp ||| 3#8) ∧ s.decState = .controlSeen)) :
    exec i s = .next ((decAbort s).finish s) :=
  exec_unit hok (u := .wireAbort) rfl (hi.imp_right fun ⟨hrx, hd⟩ => ⟨_, hrx, by rw [hd, decodeWire_abort hcp]⟩)

/-! ### Dropping the packet (44_frame_decoder.md R240, R245) -/

theorem discardPacket_of_none (hd : s.decPkt = none) : discardPacket s = s := by
  simp only [discardPacket, hd]

theorem discardPacket_of_held (hd : s.decPkt = some h) :
    discardPacket s = { s.dereference h with decPkt := none } := by
  simp only [discardPacket, hd]

/-! ### The append of one byte (44_frame_decoder.md R233) -/

theorem decAppend_of_held (hdisc : s.decDiscard = false) (hd : s.decPkt = some h) (v : Byte) :
    decAppend s v = appendAssembled s s v := by
  rw [decAppend_of_assembling hdisc, decPacket_of_held hd]
  rfl

theorem appendAssembled_of_room (hd : s.decPkt = some h) (hp : s.packet h = some p) (hroom : p.len < p.cap) (s0 : State)
    (v : Byte) : appendAssembled s0 s v = .consumed (s.setPacket h (p.append [v])) := by
  simp only [appendAssembled, hd, hp, ensureRoom_room (need := p.len + 1) hroom]

theorem decAppend_of_room (hdisc : s.decDiscard = false) (hd : s.decPkt = some h) (hp : s.packet h = some p)
    (hroom : p.len < p.cap) (v : Byte) : decAppend s v = .consumed (s.setPacket h (p.append [v])) := by
  rw [decAppend_of_held hdisc hd, appendAssembled_of_room hd hp hroom]

/-- A full packet below the decoder's limit is one increment short, and the allocator is asked for it. -/
theorem ensureRoom_of_full {a : Bool} (hw : s.params.wf) (hfull : p.len = p.cap) (hlim : p.cap < s.params.decLimit)
    (hask : drawRealloc s h (min s.params.decLimit (p.cap + s.params.decIncrement)) = (a, s1)) :
    ensureRoom s h p (p.len + 1) s.params.decIncrement s.params.decLimit =
      if a then (.good, { p with cap := min s.params.decLimit (p.cap + s.params.decIncrement) }, s1)
      else (.busy, p, s1) := by
  obtain ⟨_, _, _, _, _, hmax, hinc⟩ := hw
  have hgrown : grownCap p.cap (p.len + 1) s.params.decIncrement (min s.params.decLimit s.params.lenMax) =
      min s.params.decLimit (p.cap + s.params.decIncrement) := by
    rw [grownCap_eq (k := 0) _ (by omega) (by omega), Nat.min_eq_left hmax, Nat.zero_add, Nat.mul_one]
  exact ensureRoom_of_asked (by omega) (by omega) (by omega) hgrown (by omega) hask

theorem decAppend_of_full {a : Bool} (hw : s.params.wf) (hdisc : s.decDiscard = false) (hd : s.decPkt = some h)
    (hp : s.packet h = some p) (hfull : p.len = p.cap) (hlim : p.cap < s.params.decLimit)
    (hask : drawRealloc s h (min s.params.decLimit (p.cap + s.params.decIncrement)) = (a, s1)) (v : Byte) :
    decAppend s v = if a then .consumed (s1.setPacket h { p with
        data := p.data ++ [v], cap := min s.params.decLimit (p.cap + s.params.decIncrement) })
      else .busy s1 := by
  rw [decAppend_of_held hdisc hd]
  simp only [appendAssembled, hd, hp, ensureRoom_of_full hw hfull hlim hask]
  cases a with
  | false => rw [drawRealloc_undoTo hask]; rfl
  | true => rfl

/-- At the ceiling nobody is asked, and the policy decides. -/
theorem decAppend_of_ceiling (hdisc : s.decDiscard = false) (hd : s.decPkt = some h) (hp : s.packet h = some p)
    (hfull : p.len = p.cap) (hlim : s.params.decLimit ≤ p.cap) (v : Byte) :
    (s.params.decFailPolicy = .retryAll → decAppend s v = .busy s) ∧
    (s.params.decFailPolicy = .discardAtCeiling → decAppend s v = .consumed (enterDiscard s)) := by
  have hroom : ensureRoom s h p (p.len + 1) s.params.decIncrement s.params.decLimit = (.bad, p, s) :=
    ensureRoom_of_hopeless (by omega) (by omega)
  rw [decAppend_of_held hdisc hd]
  refine ⟨fun hpol => ?_, fun hpol => ?_⟩
  all_goals
    simp only [appendAssembled, hd, hp, hroom, hpol, undoTo_self]

theorem decAppend_of_refused {a : Bool} (hw : s.params.wf) (hdisc : s.decDiscard = false) (hnone : s.decPkt = none)
    (hask : drawAlloc s s.params.decInitCap = (a, s1)) (ha : a = false ∨ s.nextHandle = 0xFFFFFFFF#32) (v : Byte) :
    decAppend s v = .busy s1 := by
  rw [decAppend_of_assembling hdisc, decPacket_of_refused hw hnone hask ha]
  rfl

/-- The first byte of a frame: its packet is made, with room for the byte (44_frame_decoder.md R233). -/
theorem decAppend_of_granted (hw : s.params.wf) (hdisc : s.decDiscard = false) (hnone : s.decPkt = none)
    (hask : drawAlloc s s.params.decInitCap = (true, s1)) (hn : s.nextHandle ≠ 0xFFFFFFFF#32)
    (href : 1 ≤ s.params.refMax) (v : Byte) :
    decAppend s v = .consumed
      { s1.setPacket s.nextHandle { data := [v], cap := s.params.decInitCap, status := .busy, ref := 1 } with
        nextHandle := s.nextHandle + 1#32, decPkt := some s.nextHandle } := by
  have hpos : 1 ≤ s.params.decInitCap := by
    obtain ⟨_, _, _, hpos, _⟩ := hw
    exact hpos
  rw [decAppend_of_assembling hdisc, decPacket_of_granted hw hnone hask hn href, DecStep.andThen,
    appendAssembled_of_room (h := s.nextHandle)
      (p := { data := [], cap := s.params.decInitCap, status := .busy, ref := 1 })]
  · simp [State.setPacket, Packet.append]
  · rfl
  · exact setPacket_packet_self s1 _ _
  · exact hpos

/-! ### The last result is not looked at -/

/-- The state with another last result. -/
def State.withResult (s : State) (r : Option Result) : State := { s with result := r }

@[simp] theorem withResult_decPkt (s : State) (r : Option Result) : (s.withResult r).decPkt = s.decPkt := rfl
@[simp] theorem withResult_params (s : State) (r : Option Result) : (s.withResult r).params = s.params := rfl
@[simp] theorem withResult_packet (s : State) (r : Option Result) (h : Handle) :
    (s.withResult r).packet h = s.packet h := rfl
@[simp] theorem withResult_answer (s : State) (r : Option Result) (st : Verdict) (fs : List Field) :
    (s.withResult r).answer st fs = s.answer st fs := rfl

theorem drawRealloc_withResult (s : State) (r : Option Result) (h : Handle) (cap : Nat) :
    drawRealloc (s.withResult r) h cap = ((drawRealloc s h cap).1, (drawRealloc s h cap).2.withResult r) := by
  rcases hl : s.draws.realloc with _ | ⟨a, rest⟩ <;> simp [drawRealloc, State.withResult, hl]

theorem ensureRoom_withResult (s : State) (r : Option Result) (h : Handle) (p : Packet) (need inc lim : Nat) :
    ensureRoom (s.withResult r) h p need inc lim =
      ((ensureRoom s h p need inc lim).1, (ensureRoom s h p need inc lim).2.1,
        (ensureRoom s h p need inc lim).2.2.withResult r) := by
  unfold ensureRoom
  simp only [drawRealloc_withResult, withResult_params]
  split
  · rfl
  · split
    · rfl
    · split
      · rfl
      · rcases drawRealloc s h _ with ⟨_ | _, _⟩ <;> rfl

theorem enterDiscard_withResult (s : State) (r : Option Result) :
    enterDiscard (s.withResult r) = (enterDiscard s).withResult r := by
  rcases hd : s.decPkt with _ | k
  · simp only [enterDiscard, discardPacket, withResult_decPkt, hd]
    rfl
  · simp only [enterDiscard, discardPacket, withResult_decPkt, hd, dereference_eq_memory]
    rfl

/-- The decoder can take a byte without a new packet: it discards, or the packet being assembled is live. -/
def State.TakesBytes (s : State) : Prop :=
  s.decDiscard = true ∨ ∃ h p, s.decPkt = some h ∧ s.packet h = some p

/-- Such an append answers, and its answer takes the place of the result that was there. -/
theorem decAppend_finish_withResult (hs : s.TakesBytes) (r : Option Result) (v : Byte) (s0 s0' : State) :
    (decAppend (s.withResult r) v).finish s0 = (decAppend s v).finish s0' := by
  by_cases hdisc : s.decDiscard = true
  · rw [decAppend_of_discard (s := s.withResult r) hdisc, decAppend_of_discard hdisc]
    rfl
  · obtain ⟨h, p, hd, hp⟩ := hs.resolve_left hdisc
    have hdisc := eq_false_of_ne_true hdisc
    rw [decAppend_of_held (s := s.withResult r) hdisc hd, decAppend_of_held hdisc hd]
    rcases e : ensureRoom s h p (p.len + 1) s.params.decIncrement s.params.decLimit with ⟨a, p', w⟩
    simp only [appendAssembled, withResult_decPkt, withResult_packet, withResult_params, hd, hp, ensureRoom_withResult, e]
    cases a with
    | good => rfl
    | busy => rfl
    | bad =>
      cases s.params.decFailPolicy with
      | retryAll => rfl
      | discardAtCeiling => simp only [DecStep.finish, enterDiscard_withResult, withResult_answer]

/-- After an append that consumed its byte the decoder discards, or assembles a live packet. -/
theorem decAppend_takesBytes (hs : s.Good) {v : Byte} (hc : decAppend s v = .consumed t) : t.TakesBytes := by
  cases hdisc : s.decDiscard with
  | true =>
    rw [decAppend_of_discard hdisc] at hc
    cases hc
    exact .inl hdisc
  | false =>
    rw [decAppend_of_assembling hdisc, andThen_eq_consumed] at hc
    obtain ⟨w, hw, happ⟩ := hc
    obtain ⟨h, p, hd, hp⟩ := decPacket_live hs hdisc hw
    obtain ⟨_, p', w', hroom, hcases⟩ := appendAssembled_cases s v hd hp
    rcases hcases with ⟨_, e⟩ | ⟨_, e⟩ | ⟨_, _, e⟩ | ⟨_, _, e⟩ <;> rw [e] at happ <;> cases happ
    · refine .inr ⟨h, _, ?_, setPacket_packet_self w' h _⟩
      rw [(ensureRoom_frame hroom).1]
      exact hd
    · exact .inl rfl

end

end Sys2Proof.Machine
end

section
/-! PROOFS. The statements about the single cases of the frame decoder but the complete opcode. -/

namespace Sys2Proof.Machine

section

variable {s t : State} {h : Handle} {p : Packet} {i : Instr} {b : Byte}

/-- While the decoder discards, a unit that ends no frame moves the decoder's position at most (44_frame_decoder.md R246). -/
theorem unitStep_of_discard (hdisc : s.decDiscard = true) (hw : i.isCommand = false) (hend : i ≠ .wireEnd)
    (habort : i ≠ .wireAbort) : ∃ d, unitStep i s = .consumed { s with decState := d } := by
  cases i with
  | wireData b => exact ⟨s.decState, decAppend_of_discard hdisc b⟩
  | wireCtrl => exact ⟨.controlSeen, rfl⟩
  | wireIdle => exact ⟨s.decState, rfl⟩
  | wireEsc => exact ⟨.data, by rw [unitStep, decEscaped_eq, decAppend_of_discard hdisc]; rfl⟩
  | wireEnd => exact absurd rfl hend
  | wireAbort => exact absurd rfl habort
  | wireLiteral b =>
    refine ⟨.data, ?_⟩
    rw [unitStep, decLiteralPair_eq, decAppend_of_discard hdisc]
    exact decAppend_of_discard (s := { s with decState := .data }) hdisc b
  | _ => cases hw

/-- A data byte after a command that was answered, which changes nothing in what becomes of the byte. -/
theorem exec_wireData_withResult (hok : s.fault = 0#8) (hs : s.TakesBytes) (r : Option Result) (b : Byte) (s0 : State) :
    exec (.wireData b) (s.withResult r) = .next ((decAppend s b).finish s0) := by
  rw [exec_dataByte (s := s.withResult r) hok (.inl rfl), decAppend_finish_withResult hs r b _ s0]

/-- The two units that append the control byte, where that append is refused (44_frame_decoder.md R237, R238). -/
theorem controlUnits_of_busy (hc : decAppend s s.cp = .busy t) (b : Byte) :
    decEscaped s = .busy t ∧ decLiteralPair s b = .busy t := by
  rw [decEscaped_eq, decLiteralPair_eq, hc]
  exact ⟨rfl, rfl⟩

/-- The two units that append the control byte, where that append is done (44_frame_decoder.md R237, R238). -/
theorem controlUnits_of_consumed (hc : decAppend s s.cp = .consumed t) (b : Byte) :
    decEscaped s = .consumed { t with decState := .data } ∧
      decLiteralPair s b = decAppend { t with decState := .data } b := by
  rw [decEscaped_eq, decLiteralPair_eq, hc]
  exact ⟨rfl, rfl⟩

end

/-- Settles O47: both bytes are units that ask and append nothing. -/
theorem controlBytesAndIdles : Obligations.ControlBytesAndIdles := by
  refine ⟨fun s i hok hd hi => ?_, fun s i hok hd hcp hi => ?_⟩
  · have hunit : decodeWire s.decState s.cp s.cp = .wireCtrl := by simp [decodeWire, hd]
    exact exec_unit hok (u := .wireCtrl) rfl (hi.imp_right fun hrx => ⟨_, hrx, hunit⟩)
  · have hunit : decodeWire s.decState s.cp s.cp = .wireIdle := by rw [hd, decodeWire_idle hcp]
    exact exec_unit hok (u := .wireIdle) rfl (hi.imp_right fun hrx => ⟨_, hrx, hunit⟩)

/-- Settles O50, by what `Dereference` does to the packet being assembled. -/
theorem abortedFramesAreDropped : Obligations.AbortedFramesAreDropped := by
  intro s i hok hcp hi
  rw [exec_abort hok hcp hi, decAbort]
  refine ⟨fun hd => ?_, fun h p hd hp => ⟨fun hone => ?_, fun hmore => ?_⟩⟩
  · rw [discardPacket_of_none hd]
    rfl
  · rw [discardPacket_of_held hd, dereference_of_one hp hone]
    rfl
  · rw [discardPacket_of_held hd, dereference_of_more hp hmore]
    rfl

/-- Settles O52: the received byte's unit ends no frame, and every other unit is consumed without a packet. -/
theorem discardedBytesChangeNoPacket : Obligations.DiscardedBytesChangeNoPacket := by
  intro i s hok hdisc _ hi hend habort hbyte
  obtain ⟨hunit, hw⟩ := unitStep_wireUnit s hi
  have hends : ¬ (wireUnit i s = .wireEnd ∨ wireUnit i s = .wireAbort) := by
    by_cases hrx : ∃ b, i = .decRx b
    · obtain ⟨b, rfl⟩ := hrx
      exact fun hu => hbyte b rfl (endOpcode_of_decodeWire hu)
    · have hself : wireUnit i s = i := by
        cases i with
        | decRx b => exact absurd ⟨b, rfl⟩ hrx
        | _ => rfl
      rw [hself]
      exact not_or.mpr ⟨hend, habort⟩
  obtain ⟨hne, hna⟩ := not_or.mp hends
  obtain ⟨d, hstep⟩ := unitStep_of_discard hdisc hw hne hna
  refine ⟨d, ?_⟩
  rw [exec_receive hi, runCommand_of_ok s _ hok, hunit, hstep]
  rfl

/-- Settles O46, by the cases of the append: room, a full packet below and at the limit, and no packet yet. -/
theorem dataBytesAreAssembled : Obligations.DataBytesAreAssembled := by
  intro s b i hok hw hdisc hi
  rw [exec_dataByte hok hi]
  refine ⟨fun h p hd hp hroom => ?_, fun h p hd hp hfull => ⟨fun hlim => ⟨fun s1 hask => ?_, fun s1 hask => ?_⟩,
    fun hlim hpol => ?_, fun hlim hpol => ?_⟩, fun hd => ⟨fun s1 hask => ?_, fun s1 hask hn href => ?_,
    fun s1 hask hn => ?_⟩⟩
  · rw [decAppend_of_room hdisc hd hp hroom]
    rfl
  · rw [decAppend_of_full hw hdisc hd hp hfull hlim hask]
    rfl
  · rw [decAppend_of_full hw hdisc hd hp hfull hlim hask]
    rfl
  · rw [(decAppend_of_ceiling hdisc hd hp hfull hlim b).2 hpol, enterDiscard, discardPacket_of_held hd]
    rfl
  · rw [(decAppend_of_ceiling hdisc hd hp hfull hlim b).1 hpol]
    rfl
  · rw [decAppend_of_refused hw hdisc hd hask (.inl rfl)]
    rfl
  · rw [decAppend_of_granted hw hdisc hd hask hn href]
    rfl
  · rw [decAppend_of_refused hw hdisc hd hask (.inr hn)]
    rfl

/-- Settles O48: with room both appends are done, while discarding both are consumed, and else the second append begins where
the first one ended, in a state in which no append faults. -/
theorem controlBytesAsData : Obligations.ControlBytesAsData := by
  intro s i j b hok hcp hi hj
  rw [exec_escape hok hcp hi, exec_literal hok hj]
  refine ⟨fun h p hdisc hd hp hroom => ?_, fun h p hdisc hd hp hroom => ?_, fun hdisc => ?_, fun u hs hu => ?_⟩
  · rw [(controlUnits_of_consumed (decAppend_of_room hdisc hd hp hroom s.cp) b).1]
    rfl
  · have hfirst := decAppend_of_room hdisc hd hp (by omega) s.cp
    have hlen : (p.append [s.cp]).len < (p.append [s.cp]).cap := by
      simp only [Packet.append, Packet.len, List.length_append, List.length_singleton] at hroom ⊢
      omega
    have hsecond := decAppend_of_room (s := { s.setPacket h (p.append [s.cp]) with decState := .data }) hdisc hd
      (setPacket_packet_self s h _) hlen b
    rw [(controlUnits_of_consumed hfirst b).2, hsecond]
    simp [DecStep.finish, State.answer, State.setPacket, Packet.append]
  · obtain ⟨hesc, hlit⟩ := controlUnits_of_consumed (decAppend_of_discard hdisc s.cp) b
    rw [hesc, hlit, decAppend_of_discard (s := { s with decState := .data }) hdisc]
    exact ⟨rfl, rfl⟩
  · rw [exec_dataByte hok (.inl rfl)] at hu
    cases hc : decAppend s s.cp with rw [hc] at hu
    | faulted c t =>
      cases hu
      exact ⟨nofun, nofun⟩
    | busy t =>
      cases hu
      obtain ⟨hesc, hlit⟩ := controlUnits_of_busy hc b
      rw [hesc, hlit]
      exact ⟨fun _ => ⟨rfl, rfl⟩, nofun⟩
    | consumed t =>
      cases hu
      obtain ⟨hesc, hlit⟩ := controlUnits_of_consumed hc b
      have hconfined := decAppend_confined s s.cp
      rw [hc] at hconfined
      have hok' : t.fault = 0#8 := (DecoderOnly.fault_eq hconfined).trans hok
      refine ⟨nofun, fun _ => ⟨by rw [hesc]; rfl, ?_⟩⟩
      rw [hlit]
      have htakes := decAppend_takesBytes hs hc
      exact (exec_wireData_withResult (s := { t with decState := .data }) hok' htakes (some ⟨.good, []⟩) b s).symm

end Sys2Proof.Machine
end

section
/-! PROOFS. With willing agents the decoder consumes a whole frame: what it needs for each byte still to come is an invariant
along the wire image (45_frame_encoder.md R268, R269). -/

namespace Sys2Proof.Machine

section

variable {s t u : State} {h : Handle} {p : Packet} {b cp : Byte} {d : DecState} {n : Nat}

/-! ### Bytes consumed without a retry (00_scope.md R4) -/

/-- Fed these bytes at `s` the receiver needs one command for each, and is then at `t`. -/
def Consumes (s : State) (bs : List Byte) (t : State) : Prop :=
  ∀ n rest, receive (bs.length + n) (bs ++ rest) s = receive n rest t

theorem Consumes.nil (s : State) : Consumes s [] s := fun n rest => by
  rw [List.length_nil, Nat.zero_add, List.nil_append]

theorem Consumes.trans {as bs : List Byte} (hst : Consumes s as t) (htu : Consumes t bs u) : Consumes s (as ++ bs) u :=
  fun n rest => by rw [List.length_append, Nat.add_assoc, List.append_assoc, hst, htu]

/-- A byte whose unit consumes it. -/
theorem consumes_of_unit (hok : s.fault = 0#8) (hstep : unitStep (decodeWire s.decState s.cp b) s = .consumed t) :
    Consumes s [b] (t.answer .good []) := fun n rest => by
  have hexec := exec_unit (i := .decRx b) hok (isReceive_of_wireUnit (decodeWire_isWireUnit _ _ _)) (.inr ⟨b, rfl, rfl⟩)
  rw [hstep] at hexec
  rw [List.length_singleton, Nat.add_comm, List.singleton_append, receive, hexec]
  rfl

theorem Consumes.receive_eq {bs : List Byte} (hst : Consumes s bs t) {n : Nat} (hn : bs.length ≤ n) :
    receive n bs s = some t := by
  obtain ⟨m, rfl⟩ := Nat.exists_eq_add_of_le hn
  have hall := hst m []
  rwa [List.append_nil, receive] at hall

/-! ### Listed answers -/

theorem drawAlloc_of_listed {a : Bool} {rest : List Bool} (hl : s.draws.alloc = a :: rest) (cap : Nat) :
    drawAlloc s cap = (a, { s with draws := { s.draws with alloc := rest }, log := s.log ++ [.alloc cap a] }) := by
  simp only [drawAlloc, hl]

theorem drawRealloc_of_listed {a : Bool} {rest : List Bool} (hl : s.draws.realloc = a :: rest) (h : Handle) (cap : Nat) :
    drawRealloc s h cap =
      (a, { s with draws := { s.draws with realloc := rest }, log := s.log ++ [.realloc h cap a] }) := by
  simp only [drawRealloc, hl]

/-- An answer other than `Busy` is not made `Busy` (44_frame_decoder.md R244). -/
theorem drawSink_ne_busy {a : SinkAnswer} {rest : List SinkAnswer} (hl : s.draws.sink = a :: rest) (ha : a ≠ .busy)
    (h : Handle) (p : Packet) : (drawSink s h p).1 ≠ .busy := by
  simp only [drawSink, hl]
  cases a with
  | busy => exact absurd rfl ha
  | good k => exact nofun
  | bad => exact nofun

/-! ### The invariant -/

/-- The packet being assembled can take `n` bytes more without passing the decoder's limit, or it is still to be made, of a
handle that is there and by an allocator that grants. -/
def State.HasRoom (s : State) (n : Nat) : Prop :=
  (s.decPkt = none ∧ s.nextHandle ≠ 0xFFFFFFFF#32 ∧ n ≤ s.params.decLimit ∧ ∃ rest, s.draws.alloc = true :: rest) ∨
  ∃ h p, s.decPkt = some h ∧ s.packet h = some p ∧ p.len + n ≤ s.params.decLimit

/-- The decoder, at the position `d`, with the control byte `cp`, is sure to take `n` bytes more into its packet and then to
deliver it. -/
structure Awaits (cp : Byte) (d : DecState) (n : Nat) (s : State) : Prop where
  good : s.Good
  ok : s.fault = 0#8
  control : s.cp = cp
  position : s.decState = d
  assembling : s.decDiscard = false
  ref : 1 ≤ s.params.refMax
  room : s.HasRoom n
  growths : ∃ k, n ≤ k ∧ s.draws.realloc = List.replicate k true
  sink : ∃ a rest, s.draws.sink = a :: rest ∧ a ≠ .busy

theorem Awaits.answer (hs : Awaits cp d n s) (st : Verdict) (fs : List Field) : Awaits cp d n (s.answer st fs) :=
  { hs with good := hs.good.answer st fs }

theorem Awaits.withDecState (hs : Awaits cp d n s) (d' : DecState) : Awaits cp d' n { s with decState := d' } :=
  { hs with good := hs.good.withDecState d', position := rfl }

theorem Awaits.control_legal (hs : Awaits cp d n s) : legalControl cp = true := by
  have hlow := hs.good.control
  rw [hs.control] at hlow
  simp [Sys2Proof.legalControl, hlow]

/-- What an append keeps of the invariant, whatever it asked. -/
theorem Awaits.of_append {v : Byte} (hs : Awaits cp d (n + 1) s) (hc : decAppend s v = .consumed t)
    (hposition : t.decState = s.decState) (hdisc : t.decDiscard = s.decDiscard) (hroom : t.HasRoom n)
    (hgrowths : ∃ k, n ≤ k ∧ t.draws.realloc = List.replicate k true) (hsink : t.draws.sink = s.draws.sink) :
    Awaits cp d n t := by
  have hgood := decAppend_endsGood hs.good v
  have hconfined := decAppend_confined s v
  rw [hc] at hgood hconfined
  have hcp : t.cp = s.cp := by
    rw [show t = s.withDecoder t from hconfined]
    rfl
  exact {
    good := hgood
    ok := (DecoderOnly.fault_eq hconfined).trans hs.ok
    control := hcp.trans hs.control
    position := hposition.trans hs.position
    assembling := hdisc.trans hs.assembling
    ref := by rw [DecoderOnly.params_eq hconfined]; exact hs.ref
    room := hroom
    growths := hgrowths
    sink := by rw [hsink]; exact hs.sink }

/-- The append of a byte that the decoder is sure to take (44_frame_decoder.md R233). -/
theorem Awaits.append (hs : Awaits cp d (n + 1) s) (v : Byte) : ∃ t, decAppend s v = .consumed t ∧ Awaits cp d n t := by
  obtain ⟨k, hk, hgrow⟩ := hs.growths
  have hw := hs.good.params
  rcases hs.room with ⟨hnone, hn, hlim, rest, halloc⟩ | ⟨h, p, hd, hp, hlim⟩
  · have hc := decAppend_of_granted hw hs.assembling hnone (drawAlloc_of_listed halloc _) hn hs.ref v
    refine ⟨_, hc, hs.of_append hc rfl rfl (.inr ⟨_, _, rfl, setPacket_packet_self _ _ _, ?_⟩) ⟨k, by omega, hgrow⟩ rfl⟩
    exact (Nat.add_comm 1 n).trans_le hlim
  · obtain ⟨_, _, hcap, _⟩ := hs.good.records h p hp
    by_cases hroom : p.len < p.cap
    · have hc := decAppend_of_room hs.assembling hd hp hroom v
      refine ⟨_, hc, hs.of_append hc rfl rfl (.inr ⟨h, _, hd, setPacket_packet_self _ _ _, ?_⟩) ⟨k, by omega, hgrow⟩ rfl⟩
      have hlen : (p.append [v]).len = p.len + 1 := by simp [Packet.append, Packet.len]
      simp only [setPacket_params]
      omega
    · obtain ⟨m, rfl⟩ : ∃ m, k = m + 1 := ⟨k - 1, by omega⟩
      have hask := drawRealloc_of_listed (rest := List.replicate m true) hgrow h
        (min s.params.decLimit (p.cap + s.params.decIncrement))
      have hc := decAppend_of_full hw hs.assembling hd hp (by omega) (by omega) hask v
      refine ⟨_, hc, hs.of_append hc rfl rfl (.inr ⟨h, _, hd, setPacket_packet_self _ _ _, ?_⟩) ⟨m, by omega, rfl⟩ rfl⟩
      simp only [Packet.len, List.length_append, List.length_singleton, setPacket_params] at hlim ⊢
      omega

/-! ### The bytes of a wire image, one by one -/

/-- A control byte, which is still to be told apart (44_frame_decoder.md R235). -/
theorem Awaits.consumes_control (hs : Awaits cp .data n s) : ∃ t, Consumes s [cp] t ∧ Awaits cp .controlSeen n t := by
  have hstep : unitStep (decodeWire s.decState s.cp cp) s = .consumed { s with decState := .controlSeen } := by
    have hunit : decodeWire s.decState s.cp cp = .wireCtrl := by simp [decodeWire, hs.position, hs.control]
    rw [hunit]
    rfl
  exact ⟨_, consumes_of_unit hs.ok hstep, (hs.withDecState .controlSeen).answer .good []⟩

/-- Any other byte in Data (44_frame_decoder.md R234). -/
theorem Awaits.consumes_data (hs : Awaits cp .data (n + 1) s) (hb : b ≠ cp) :
    ∃ t, Consumes s [b] t ∧ Awaits cp .data n t := by
  obtain ⟨t, hc, ht⟩ := hs.append b
  have hstep : unitStep (decodeWire s.decState s.cp b) s = .consumed t := by
    rw [hs.position, hs.control, decodeWire_of_data hb]
    exact hc
  exact ⟨_, consumes_of_unit hs.ok hstep, ht.answer .good []⟩

/-- The escape opcode, which tells that the control byte before it was data (44_frame_decoder.md R238). -/
theorem Awaits.consumes_escape (hs : Awaits cp .controlSeen (n + 1) s) :
    ∃ t, Consumes s [cp ||| 1#8] t ∧ Awaits cp .data n t := by
  obtain ⟨t, hc, ht⟩ := hs.append s.cp
  have hstep : unitStep (decodeWire s.decState s.cp (cp ||| 1#8)) s = .consumed { t with decState := .data } := by
    rw [hs.position, hs.control, decodeWire_escape hs.control_legal]
    exact (controlUnits_of_consumed hc cp).1
  exact ⟨_, consumes_of_unit hs.ok hstep, (ht.withDecState .data).answer .good []⟩

/-- A byte that is no opcode byte, with the control byte before it (44_frame_decoder.md R237). -/
theorem Awaits.consumes_literal (hs : Awaits cp .controlSeen (n + 2) s) (hb : b &&& 0xFC#8 ≠ cp) :
    ∃ t, Consumes s [b] t ∧ Awaits cp .data n t := by
  obtain ⟨t, hfirst, ht⟩ := hs.append s.cp
  obtain ⟨u, hsecond, hu⟩ := (ht.withDecState .data).append b
  have hstep : unitStep (decodeWire s.decState s.cp b) s = .consumed u := by
    rw [hs.position, hs.control, decodeWire_of_literal hb]
    exact (controlUnits_of_consumed hfirst b).2.trans hsecond
  exact ⟨_, consumes_of_unit hs.ok hstep, hu.answer .good []⟩

/-- The decoder's packet is there or is made, and the sink's answer is still to come. -/
theorem Awaits.packet_ready (hs : Awaits cp d n s) :
    ∃ t h p, decPacket s = .consumed t ∧ t.decPkt = some h ∧ t.packet h = some p ∧ t.draws.sink = s.draws.sink := by
  rcases hs.room with ⟨hnone, hn, _, rest, halloc⟩ | ⟨h, p, hd, hp, _⟩
  · exact ⟨_, _, _, decPacket_of_granted hs.good.params hnone (drawAlloc_of_listed halloc _) hn hs.ref, rfl,
      setPacket_packet_self _ _ _, rfl⟩
  · exact ⟨s, h, p, decPacket_of_held hd, hd, hp, rfl⟩

/-- The complete opcode: the sink takes or rejects the packet (44_frame_decoder.md R239). -/
theorem Awaits.consumes_complete (hs : Awaits cp .controlSeen n s) : ∃ t, Consumes s [cp ||| 2#8] t := by
  have hcomplete : ∃ t, decComplete s = .consumed t := by
    by_cases hdrop : s.decPkt = none ∧ s.params.emptyFramePolicy = .drop
    · exact ⟨_, decComplete_of_dropped hs.assembling hdrop⟩
    · obtain ⟨t, h, p, hget, hd, hp, hsink⟩ := hs.packet_ready
      obtain ⟨a, rest, hl, ha⟩ := hs.sink
      rw [decComplete_of_offered hs.assembling hdrop, hget]
      have hne := drawSink_ne_busy (hsink.trans hl) ha h p
      obtain ⟨r, w, hask, hcases⟩ := deliver_cases s hd hp
      rw [hask] at hne
      rcases hcases with ⟨hbusy, _⟩ | ⟨_, e⟩ | ⟨_, _, e⟩
      · exact absurd hbusy hne
      · exact ⟨_, e⟩
      · exact ⟨_, e⟩
  obtain ⟨t, ht⟩ := hcomplete
  have hstep : unitStep (decodeWire s.decState s.cp (cp ||| 2#8)) s = .consumed t := by
    rw [hs.position, hs.control, decodeWire_complete hs.control_legal]
    exact ht
  exact ⟨_, consumes_of_unit hs.ok hstep⟩

/-! ### The wire image (45_frame_encoder.md R268) -/

/-- Where the decoder stands when the encoder's collision flag is this: the flag says that the last byte sent was a control
byte, which the decoder has not appended yet. -/
def positionAfter (collision : Bool) : DecState := if collision then .controlSeen else .data

/-- A byte of the packet in Data: a control byte is still to be appended, any other one is. -/
theorem Awaits.consumes_byte (hs : Awaits cp .data (n + 1) s) (b : Byte) :
    ∃ t, Consumes s [b] t ∧ Awaits cp (positionAfter (b = cp)) (n + (decide (b = cp)).toNat) t := by
  by_cases hb : b = cp
  · subst hb
    simpa [positionAfter] using hs.consumes_control
  · simpa [positionAfter, hb] using hs.consumes_data hb

/-- The encoder's loop, by the three ways in which it sends a byte: plain, after an escape, or as the second byte of a literal
pair. -/
theorem consumes_encodeLoop (bytes : List Byte) (collision : Bool) (s : State)
    (hs : Awaits cp (positionAfter collision) (bytes.length + collision.toNat) s) :
    ∃ t, Consumes s (encodeLoop cp bytes collision) t ∧ Awaits cp .data 0 t := by
  induction bytes generalizing collision s with
  | nil =>
    cases collision with
    | false => exact ⟨s, .nil s, hs⟩
    | true => exact Awaits.consumes_escape hs
  | cons b bs ih =>
    have hplain : ∀ u, Awaits cp .data (bs.length + 1) u →
        ∃ t, Consumes u (b :: encodeLoop cp bs (b = cp)) t ∧ Awaits cp .data 0 t := by
      intro u hu
      obtain ⟨v, hbyte, hv⟩ := hu.consumes_byte b
      obtain ⟨t, hrest, ht⟩ := ih _ v hv
      exact ⟨t, hbyte.trans hrest, ht⟩
    cases collision with
    | false => simpa [encodeLoop] using hplain s hs
    | true =>
      by_cases hb : b &&& 0xFC#8 = cp
      · obtain ⟨u, hesc, hu⟩ := Awaits.consumes_escape hs
        obtain ⟨t, hrest, ht⟩ := hplain u hu
        rw [encodeLoop, if_pos ⟨rfl, hb⟩]
        exact ⟨t, hesc.trans hrest, ht⟩
      · have hne : b ≠ cp := by
          rintro rfl
          have hlow : b &&& 3#8 = 0#8 := by simpa [legalControl] using hs.control_legal
          exact hb ((opcodeByte_iff (k := 0#8) (by decide) hlow).mp BitVec.or_zero.symm).1
        obtain ⟨u, hlit, hu⟩ := Awaits.consumes_literal hs hb
        obtain ⟨t, hrest, ht⟩ := ih false u hu
        rw [encodeLoop, if_neg (fun hcoll => hb hcoll.2), decide_eq_false hne]
        exact ⟨t, hlit.trans hrest, ht⟩

/-- A whole frame. -/
theorem consumes_encodeFrame {bytes : List Byte} (hs : Awaits cp .data bytes.length s) :
    ∃ t, Consumes s (encodeFrame cp bytes) t := by
  obtain ⟨t, hbytes, ht⟩ := consumes_encodeLoop bytes false s hs
  obtain ⟨u, hcontrol, hu⟩ := ht.consumes_control
  obtain ⟨v, hend⟩ := hu.consumes_complete
  exact ⟨v, hbytes.trans (hcontrol.trans hend)⟩

end

/-- Settles O54: the agents' answers make the decoder sure to take every byte of the list. -/
theorem framesAreConsumed : Obligations.FramesAreConsumed := by
  intro s bytes n k a allocs sinks hs hok hdata hnone hdisc hhandle href hlim halloc hrealloc hk hsink ha hn
  have hawaits : Awaits s.cp .data bytes.length s := {
    good := hs
    ok := hok
    control := rfl
    position := hdata
    assembling := hdisc
    ref := href
    room := .inl ⟨hnone, hhandle, hlim, allocs, halloc⟩
    growths := ⟨k, hk, hrealloc⟩
    sink := ⟨a, sinks, hsink, ha⟩ }
  obtain ⟨t, ht⟩ := consumes_encodeFrame hawaits
  exact ⟨t, ht.receive_eq hn⟩

end Sys2Proof.Machine
end

section
/-! SUPPORT. A frame in flight, micro-step by micro-step: from a good state a micro-step changes the mode alone or offers the
first byte of what is left on the wire, and the micro-steps left get fewer with each (45_frame_encoder.md R262 to R268). -/

namespace Sys2Proof.Machine

section

variable {s t : State} {h : Handle} {p : Packet}

/-! ### What is left of a frame -/

/-- Where the encoder's end is the packet's, all the bytes from the cursor on are still to be read. -/
theorem wireRemainder_of_transmitting (he : s.encPkt = some h) (hp : s.packet h = some p) (hm : s.encMode = .transmitting)
    (hend : s.encEnd.toNat = p.len) :
    s.wireRemainder = encodeLoop s.cp (p.data.drop s.encCursor.toNat) s.encCollision ++ [s.cp, s.cp ||| 2#8] := by
  simp only [State.wireRemainder, he, Option.bind_some, hp, hm, hend, Packet.len, List.take_length]

theorem wireRemainder_of_flush (he : s.encPkt = some h) (hp : s.packet h = some p) (hm : s.encMode = .flushCollision) :
    s.wireRemainder = (if s.encCollision then [s.cp ||| 1#8] else []) ++ [s.cp, s.cp ||| 2#8] := by
  simp only [State.wireRemainder, he, Option.bind_some, hp, hm]

theorem wireRemainder_of_control (he : s.encPkt = some h) (hp : s.packet h = some p) (hm : s.encMode = .sendControl) :
    s.wireRemainder = [s.cp, s.cp ||| 2#8] := by
  simp only [State.wireRemainder, he, Option.bind_some, hp, hm]

theorem wireRemainder_of_end (he : s.encPkt = some h) (hp : s.packet h = some p) (hm : s.encMode = .sendEndOpcode) :
    s.wireRemainder = [s.cp ||| 2#8] := by
  simp only [State.wireRemainder, he, Option.bind_some, hp, hm]

theorem wireRemainder_of_idle (hm : s.encMode = .idle) : s.wireRemainder = [] := by
  unfold State.wireRemainder
  split
  · rfl
  · simp only [hm]

/-- An encoder that is not idle holds a live packet (10_state.md R40). -/
theorem State.Good.inFlight (hs : s.Good) (hbusy : s.encMode ≠ .idle) :
    ∃ h p, s.encPkt = some h ∧ s.packet h = some p := by
  obtain ⟨h, he⟩ := Option.ne_none_iff_exists'.mp (mt hs.idle.mpr hbusy)
  obtain ⟨p, hp, _⟩ := hs.live_of_held (held_of_encPkt he)
  exact ⟨h, p, he, hp⟩

/-! ### Micro-steps -/

/-- The encoder moved on within its frame. -/
def State.movedTo (s : State) (m : EncMode) (collision : Bool) (cursor : Half) : State :=
  { s with encMode := m, encCollision := collision, encCursor := cursor }

/-- How many micro-steps the frame in flight still takes at most: two for each byte still to read, an escape and the byte, but
one for the next byte where no collision is pending; and one for each mode (45_frame_encoder.md R267). -/
def State.stepsLeft (s : State) : Nat :=
  match s.encMode with
  | .idle => 0
  | .transmitting =>
    if s.encCursor = s.encEnd then 4 else 2 * (s.encEnd.toNat - s.encCursor.toNat) + 3 + s.encCollision.toNat
  | .flushCollision => 3
  | .sendControl => 2
  | .sendEndOpcode => 1

theorem stepsLeft_pos (hbusy : s.encMode ≠ .idle) : 0 < s.stepsLeft := by
  unfold State.stepsLeft
  split
  · next hidle => exact absurd hidle hbusy
  · split <;> omega
  all_goals decide

/-- All that a micro-step can do for a frame in flight: go over to the next mode; offer a byte that is not the frame's last;
offer the last one. Each byte offered is the first of what is left. -/
inductive EncStep.Sends (s : State) (h : Handle) (p : Packet) : EncStep → Prop
  | silent (m : EncMode) (hm : m ≠ .idle)
      (hrest : (s.movedTo m s.encCollision s.encCursor).wireRemainder = s.wireRemainder)
      (hless : (s.movedTo m s.encCollision s.encCursor).stepsLeft < s.stepsLeft) :
      Sends s h p (.progress (s.movedTo m s.encCollision s.encCursor))
  | byte (v : Byte) (f : State → State) (m : EncMode) (c : Bool) (cur : Half) (hm : m ≠ .idle)
      (hf : ∀ u, f (s.undoTo u) = (s.undoTo u).movedTo m c cur)
      (hrest : s.wireRemainder = v :: (s.movedTo m c cur).wireRemainder)
      (hless : (s.movedTo m c cur).stepsLeft < s.stepsLeft) :
      Sends s h p (offerByte s v f)
  | last (v : Byte) (hrest : s.wireRemainder = [v]) : Sends s h p (offerByte s v (finishFrame h p))

theorem stepTransmitting_sends (hs : s.Good) (he : s.encPkt = some h) (hp : s.packet h = some p)
    (hm : s.encMode = .transmitting) : (stepTransmitting s p).Sends s h p := by
  obtain ⟨hcur, hend⟩ := hs.cursor h p he hp
  have hrem := wireRemainder_of_transmitting he hp hm hend
  have hmoved (c : Bool) (cur : Half) : (s.movedTo .transmitting c cur).wireRemainder =
      encodeLoop s.cp (p.data.drop cur.toNat) c ++ [s.cp, s.cp ||| 2#8] :=
    wireRemainder_of_transmitting (s := s.movedTo .transmitting c cur) he hp rfl hend
  have hsteps : s.stepsLeft = if s.encCursor = s.encEnd then 4
      else 2 * (s.encEnd.toNat - s.encCursor.toNat) + 3 + s.encCollision.toNat := by
    simp only [State.stepsLeft, hm]
  unfold stepTransmitting
  split
  · next hlast =>
    refine .silent .flushCollision nofun ?_ ?_
    · rw [hrem, hlast, hend, Packet.len, List.drop_length, encodeLoop]
      exact wireRemainder_of_flush (s := s.movedTo .flushCollision s.encCollision s.encCursor) he hp rfl
    · rw [hsteps, if_pos hlast]
      exact Nat.lt_succ_self 3
  · next hmore =>
    rw [if_neg hmore] at hsteps
    have hleft : s.encCursor.toNat < s.encEnd.toNat := hcur.lt_of_ne (mt BitVec.eq_of_toNat_eq hmore)
    have hlt : s.encCursor.toNat < p.data.length := hleft.trans_eq hend
    have hnext : (s.encCursor + 1#16).toNat = s.encCursor.toNat + 1 := by bv_omega
    have hread := List.drop_eq_getElem_cons hlt
    rw [hread] at hrem
    rw [List.getElem?_eq_getElem hlt]
    generalize p.data[s.encCursor.toNat] = b at *
    split
    · next e => cases e
    · next e =>
      cases e
      split
      · next hesc =>
        obtain ⟨hcoll, hop⟩ := hesc
        rw [encodeLoop, if_pos ⟨hcoll, hop⟩] at hrem
        refine .byte _ _ .transmitting false s.encCursor nofun (fun _ => by rw [← hm]; rfl) ?_ ?_
        · rw [hrem, hmoved, hread, encodeLoop, if_neg (by simp)]
          rfl
        · rw [hsteps, hcoll]
          simp [State.stepsLeft, State.movedTo, hmore]
      · next hplain =>
        rw [encodeLoop, if_neg hplain] at hrem
        refine .byte _ _ .transmitting (decide (b = s.cp)) (s.encCursor + 1#16) nofun (fun _ => by rw [← hm]; rfl) ?_ ?_
        · rw [hrem, hmoved, hnext]
          rfl
        · rw [hsteps]
          have hbit := Bool.toNat_le (decide (b = s.cp))
          simp only [State.stepsLeft, State.movedTo, hnext]
          split <;> omega

/-- A micro-step for a frame in flight (45_frame_encoder.md R264 to R266). -/
theorem encStep_sends (hs : s.Good) (he : s.encPkt = some h) (hp : s.packet h = some p) (hbusy : s.encMode ≠ .idle) :
    (encStep s).Sends s h p := by
  rw [encStep_of_live he hp]
  cases hm : s.encMode with
  | idle => exact absurd hm hbusy
  | transmitting => exact stepTransmitting_sends hs he hp hm
  | flushCollision =>
    have hrem := wireRemainder_of_flush he hp hm
    have hsteps : s.stepsLeft = 3 := by simp only [State.stepsLeft, hm]
    have hcontrol (c : Bool) : (s.movedTo .sendControl c s.encCursor).wireRemainder = [s.cp, s.cp ||| 2#8] :=
      wireRemainder_of_control (s := s.movedTo .sendControl c s.encCursor) he hp rfl
    simp only [stepFlush]
    split
    · next hcoll =>
      refine .byte _ _ .sendControl false s.encCursor nofun (fun _ => rfl) ?_ (hsteps.symm ▸ Nat.lt_succ_self 2)
      rw [hrem, hcontrol, if_pos hcoll]
      rfl
    · next hcoll =>
      refine .silent .sendControl nofun ?_ (hsteps.symm ▸ Nat.lt_succ_self 2)
      rw [hrem, hcontrol, if_neg hcoll]
      rfl
  | sendControl =>
    have hsteps : s.stepsLeft = 2 := by simp only [State.stepsLeft, hm]
    refine .byte _ _ .sendEndOpcode s.encCollision s.encCursor nofun (fun _ => rfl) ?_ (hsteps.symm ▸ Nat.lt_succ_self 1)
    rw [wireRemainder_of_control he hp hm, wireRemainder_of_end (s := s.movedTo .sendEndOpcode _ _) he hp rfl]
    rfl
  | sendEndOpcode => exact .last _ (wireRemainder_of_end he hp hm)

/-! ### What the TX sink takes (45_frame_encoder.md R268) -/

/-- What the TX sink has taken, and after it what is left for it. -/
def State.wireBytes (s : State) : List Byte := acceptedBytes s.log ++ s.wireRemainder

theorem acceptedBytes_append (l m : List Event) : acceptedBytes (l ++ m) = acceptedBytes l ++ acceptedBytes m :=
  List.filterMap_append

theorem drawTx_accepted {v : Byte} (hd : drawTx s v = (.good, t)) : acceptedBytes t.log = acceptedBytes s.log ++ [v] := by
  have hlog := drawTx_log s v
  rw [hd] at hlog
  rw [hlog, acceptedBytes_append]
  rfl

theorem drawTx_refused {v : Byte} {a : Verdict} (hd : drawTx s v = (a, t)) (ha : a ≠ .good) :
    acceptedBytes t.log = acceptedBytes s.log := by
  have hlog := drawTx_log s v
  rw [hd] at hlog
  rw [hlog, acceptedBytes_append]
  cases a with
  | good => exact absurd rfl ha
  | busy => exact List.append_nil _
  | bad => exact List.append_nil _

theorem finishFrame_idle (h : Handle) (p : Packet) (s : State) :
    (finishFrame h p s).encMode = .idle ∧ (finishFrame h p s).log = s.log := by
  rw [finishFrame, dereference_eq]
  exact ⟨rfl, rfl⟩

/-- A micro-step goes on, with fewer steps left, or the TX sink refuses; in both cases what it has taken and what is left make
up the same bytes. -/
theorem encStep_outcome (hs : s.Good) (hbusy : s.encMode ≠ .idle) :
    (∃ t, encStep s = .progress t ∧ t.wireBytes = s.wireBytes ∧ (t.encMode = .idle ∨ t.stepsLeft < s.stepsLeft)) ∨
    (∃ t, encStep s = .refused t ∧ t.wireBytes = s.wireBytes) := by
  obtain ⟨h, p, he, hp⟩ := hs.inFlight hbusy
  have hrefused {v : Byte} {a : Verdict} {u : State} (hask : drawTx s v = (a, u)) (ha : a ≠ .good) :
      u.wireBytes = s.wireBytes := by
    rw [State.wireBytes, drawTx_refused hask ha, drawTx_undoTo hask]
    rfl
  have hsends := encStep_sends hs he hp hbusy
  generalize encStep s = d at hsends ⊢
  cases hsends with
  | silent m hm hrest hless => exact .inl ⟨_, rfl, congrArg (acceptedBytes s.log ++ ·) hrest, .inr hless⟩
  | byte v f m c cur hm hf hrest hless =>
    rcases offerByte_cases s v f with ⟨u, hask, e⟩ | ⟨a, u, hask, ha, e⟩
    · have hu := drawTx_undoTo hask
      have hfu : f u = u.movedTo m c cur := by rw [hu, hf]
      refine .inl ⟨_, e, ?_, .inr ?_⟩
      · calc (f u).wireBytes = acceptedBytes u.log ++ (s.movedTo m c cur).wireRemainder := by rw [hfu, hu]; rfl
          _ = s.wireBytes := by rw [drawTx_accepted hask, State.wireBytes, hrest, List.append_assoc]; rfl
      · rw [hfu, hu]
        exact hless
    · exact .inr ⟨u, e, hrefused hask ha⟩
  | last v hrest =>
    rcases offerByte_cases s v (finishFrame h p) with ⟨u, hask, e⟩ | ⟨a, u, hask, ha, e⟩
    · obtain ⟨hidle, hlog⟩ := finishFrame_idle h p u
      refine .inl ⟨_, e, ?_, .inl hidle⟩
      rw [State.wireBytes, State.wireBytes, hlog, wireRemainder_of_idle hidle, drawTx_accepted hask, hrest, List.append_nil]
    · exact .inr ⟨u, e, hrefused hask ha⟩

/-! ### The loop of `ENC_PROCESS` (45_frame_encoder.md R263) -/

theorem encLoop_of_progress {t : State} (e : encStep s = .progress t) (hbusy : t.encMode ≠ .idle) (s0 : State) (n : Nat)
    (progressed : Bool) : encLoop s0 (n + 1) progressed s = encLoop s0 n true t := by
  simp only [encLoop_succ, e, if_neg hbusy]

theorem encLoop_of_ended {t : State} (e : encStep s = .progress t) (hidle : t.encMode = .idle) (s0 : State) (n : Nat)
    (progressed : Bool) : encLoop s0 (n + 1) progressed s = t.answer .good [] := by
  simp only [encLoop_succ, e, if_pos hidle]

theorem encLoop_of_refused {t : State} (e : encStep s = .refused t) (s0 : State) (n : Nat) (progressed : Bool) :
    encLoop s0 (n + 1) progressed s = t.answer (if progressed then .good else .busy) [] := by
  rw [encLoop_succ, e]

theorem encStep_progress_good {t : State} (hs : s.Good) (e : encStep s = .progress t) : t.Good := by
  have hgood := encStep_endsGood hs
  rwa [e] at hgood

/-- The loop keeps what the TX sink has taken and what is left together the same bytes. -/
theorem encLoop_wireBytes (s0 : State) (n : Nat) (progressed : Bool) (hs : s.Good) (hbusy : s.encMode ≠ .idle) :
    (encLoop s0 n progressed s).wireBytes = s.wireBytes := by
  induction n generalizing progressed s with
  | zero => rfl
  | succ n ih =>
    rcases encStep_outcome hs hbusy with ⟨t, e, hbytes, _⟩ | ⟨t, e, hbytes⟩
    · by_cases hidle : t.encMode = .idle
      · rw [encLoop_of_ended e hidle]
        exact hbytes
      · rw [encLoop_of_progress e hidle, ih true (encStep_progress_good hs e) hidle, hbytes]
    · rw [encLoop_of_refused e]
      exact hbytes

/-- A bound that the micro-steps left do not pass may be larger. -/
theorem encLoop_of_stepsLeft_le (s0 : State) (n k : Nat) (progressed : Bool) (hs : s.Good) (hbusy : s.encMode ≠ .idle)
    (hn : s.stepsLeft ≤ n) : encLoop s0 (n + k) progressed s = encLoop s0 n progressed s := by
  induction n generalizing progressed s with
  | zero => exact absurd (stepsLeft_pos hbusy) (Nat.not_lt.mpr hn)
  | succ n ih =>
    rw [Nat.succ_add]
    rcases encStep_outcome hs hbusy with ⟨t, e, _, hless⟩ | ⟨t, e, _⟩
    · by_cases hidle : t.encMode = .idle
      · rw [encLoop_of_ended e hidle, encLoop_of_ended e hidle]
      · have hfewer : t.stepsLeft ≤ n := Nat.le_of_lt_succ ((hless.resolve_left hidle).trans_le hn)
        rw [encLoop_of_progress e hidle, encLoop_of_progress e hidle, ih true (encStep_progress_good hs e) hidle hfewer]
    · rw [encLoop_of_refused e, encLoop_of_refused e]

/-- The bound of the loop is enough (45_frame_encoder.md R267; log entry 16). -/
theorem stepsLeft_le_encBound (hs : s.Good) (hbusy : s.encMode ≠ .idle) : s.stepsLeft ≤ encBound s := by
  obtain ⟨h, p, he, hp⟩ := hs.inFlight hbusy
  obtain ⟨hcur, _⟩ := hs.cursor h p he hp
  have hleft : (s.encEnd - s.encCursor).toNat = s.encEnd.toNat - s.encCursor.toNat := BitVec.toNat_sub_of_le hcur
  have hbit := Bool.toNat_le s.encCollision
  unfold State.stepsLeft encBound
  rw [hleft]
  split
  · omega
  · split <;> omega
  all_goals omega

/-- Offers taken one after the other: the bytes `bs`, after which the TX sink's answers to come are `rest`. -/
def State.afterSending (s : State) (bs : List Byte) (rest : List Verdict) : State :=
  { s with draws := { s.draws with tx := rest }, log := s.log ++ bs.map (fun v => .tx v .good) }

theorem drawTx_of_willing {v : Byte} {rest : List Verdict} (hl : s.draws.tx = .good :: rest) :
    drawTx s v = (.good, s.afterSending [v] rest) := by
  simp only [drawTx, hl]
  rfl

theorem afterSending_append (s : State) (as bs : List Byte) (later rest : List Verdict) :
    (s.afterSending as later).afterSending bs rest = s.afterSending (as ++ bs) rest := by
  simp [State.afterSending]

/-- The end of a frame writes every register in which the encoder moves. -/
theorem finishFrame_movedTo (h : Handle) (p : Packet) (s : State) (m : EncMode) (c : Bool) (cur : Half) :
    finishFrame h p (s.movedTo m c cur) = finishFrame h p s := by
  simp only [finishFrame, dereference_eq_memory]
  rfl

/-- With a TX sink that takes all that is left the loop ends the frame. -/
theorem encLoop_of_willing (s0 : State) (n : Nat) (progressed : Bool) {rest : List Verdict} (hs : s.Good)
    (he : s.encPkt = some h) (hp : s.packet h = some p) (hbusy : s.encMode ≠ .idle) (hn : s.stepsLeft ≤ n)
    (htx : s.draws.tx = List.replicate s.wireRemainder.length .good ++ rest) :
    encLoop s0 n progressed s = (finishFrame h p (s.afterSending s.wireRemainder rest)).answer .good [] := by
  induction n generalizing progressed s with
  | zero => exact absurd (stepsLeft_pos hbusy) (Nat.not_lt.mpr hn)
  | succ n ih =>
    have hsends := encStep_sends hs he hp hbusy
    generalize e : encStep s = d at hsends
    cases hsends with
    | silent m hm hrest hless =>
      have hfewer := Nat.le_of_lt_succ (hless.trans_le hn)
      rw [encLoop_of_progress e hm, ih true (encStep_progress_good hs e) he hp hm hfewer (by rw [hrest]; exact htx), hrest]
      exact congrArg (State.answer · .good []) (finishFrame_movedTo h p (s.afterSending s.wireRemainder rest) _ _ _)
    | byte v f m c cur hm hf hrest hless =>
      obtain ⟨later, hlater⟩ : ∃ later, later = List.replicate (s.movedTo m c cur).wireRemainder.length .good ++ rest :=
        ⟨_, rfl⟩
      have hask := drawTx_of_willing (s := s) (v := v) (rest := later) (by rw [htx, hrest, hlater]; rfl)
      have hnext : encStep s = .progress ((s.afterSending [v] later).movedTo m c cur) := by
        simp only [e, offerByte, hask]
        exact congrArg EncStep.progress (hf (s.afterSending [v] later))
      have hfewer : ((s.afterSending [v] later).movedTo m c cur).stepsLeft ≤ n := Nat.le_of_lt_succ (hless.trans_le hn)
      rw [encLoop_of_progress hnext hm, ih true (encStep_progress_good hs hnext) he hp hm hfewer hlater, hrest]
      refine congrArg (State.answer · .good []) ?_
      calc finishFrame h p (((s.afterSending [v] later).movedTo m c cur).afterSending _ rest)
        _ = finishFrame h p ((s.afterSending [v] later).afterSending (s.movedTo m c cur).wireRemainder rest) :=
          finishFrame_movedTo h p ((s.afterSending [v] later).afterSending (s.movedTo m c cur).wireRemainder rest) m c cur
        _ = finishFrame h p (s.afterSending (v :: (s.movedTo m c cur).wireRemainder) rest) := by
          rw [afterSending_append]
          rfl
    | last v hrest =>
      have hask := drawTx_of_willing (v := v) (s := s) (rest := rest) (by rw [htx, hrest]; rfl)
      rw [offerByte, hask] at e
      rw [encLoop_of_ended e (finishFrame_idle h p _).1, hrest]

end

end Sys2Proof.Machine
end

section
/-! PROOFS. The statements about a submission and the loop of `ENC_PROCESS`. -/

namespace Sys2Proof.Machine

section

variable {s : State} {h : Handle} {p : Packet}

/-! ### The two commands of the encoder -/

/-- A submission that finds the encoder idle, by the position it starts from (45_frame_encoder.md R260). -/
theorem exec_encSubmit (hok : s.fault = 0#8) (hp : s.packet h = some p) (hd : s.decPkt ≠ some h) (hidle : s.encMode = .idle)
    (off : Byte) : exec (.encSubmit h off) s =
      match startPos s.params p.data off.toNat with
      | none => answers s .bad []
      | some start =>
        if p.ref = s.params.refMax then faultsWith s 6#8
        else answers { s.setPacket h { p with ref := p.ref + 1 } with
          encPkt := some h, encCursor := BitVec.ofNat 16 start, encEnd := BitVec.ofNat 16 p.len,
          encCollision := false, encMode := .transmitting } .good [] := by
  simp only [exec, execEncSubmit, runCommand_ifLive hok hp, if_neg hd, hidle, ne_eq, not_true_eq_false, if_false,
    Packet.addRef]
  cases startPos s.params p.data off.toNat with
  | none => rfl
  | some start => by_cases hfull : p.ref = s.params.refMax <;> simp only [hfull, if_true, if_false] <;> rfl

theorem exec_encSubmit_of_busy (hok : s.fault = 0#8) (hp : s.packet h = some p) (hd : s.decPkt ≠ some h)
    (hbusy : s.encMode ≠ .idle) (off : Byte) : exec (.encSubmit h off) s = answers s .busy [] := by
  simp only [exec, execEncSubmit, runCommand_ifLive hok hp, if_neg hd, if_pos hbusy, answer_eq]

theorem toNat_eq_zero_iff {off : Byte} : off.toNat = 0 ↔ off = 0#8 := BitVec.toNat_inj (y := 0#8)

/-- Where a submission starts (45_frame_encoder.md R261). -/
theorem startPos_eq_some_iff {prm : Params} {data : List Byte} {off : Byte} {start : Nat} :
    startPos prm data off.toNat = some start ↔
      (off = 0#8 ∧ start = 0) ∨ (off ≠ 0#8 ∧ headerAt prm data off.toNat = some start) := by
  by_cases hoff : off = 0#8
  · simp [startPos, hoff, eq_comm]
  · simp [startPos, hoff, mt toNat_eq_zero_iff.mp hoff]

theorem exec_encProcess_of_idle (hok : s.fault = 0#8) (hidle : s.encMode = .idle) :
    exec .encProcess s = answers s .good [] := by
  rw [exec, execEncProcess, runCommand_of_ok s _ hok, if_pos hidle, answer_eq]

theorem exec_encProcess_of_busy (hok : s.fault = 0#8) (hbusy : s.encMode ≠ .idle) :
    exec .encProcess s = .next (encLoop s (encBound s) false s) := by
  rw [exec, execEncProcess, runCommand_of_ok s _ hok, if_neg hbusy]

end

/-! ### The obligations -/

/-- Settles O55: the submission's checks, in their order. -/
theorem submittedPacketsAreTaken : Obligations.SubmittedPacketsAreTaken := by
  intro s h p off hok hp hd
  refine ⟨fun hbusy => exec_encSubmit_of_busy hok hp hd hbusy off, fun hidle hoff hnone => ?_, fun start hidle hstart => ?_⟩
  · have hstart : startPos s.params p.data off.toNat = none := by
      rwa [startPos, if_neg (mt toNat_eq_zero_iff.mp hoff)]
    rw [exec_encSubmit hok hp hd hidle, hstart]
  · rw [exec_encSubmit hok hp hd hidle, startPos_eq_some_iff.mpr hstart]
    exact ⟨fun hfull => if_pos hfull, fun hroom => if_neg hroom⟩

/-- Settles O59: the micro-steps left do not pass the bound. -/
theorem theEncoderLoopEndsBeforeItsBound : Obligations.TheEncoderLoopEndsBeforeItsBound :=
  fun s k hs hbusy => encLoop_of_stepsLeft_le s (encBound s) k false hs hbusy (stepsLeft_le_encBound hs hbusy)

/-- Settles O56: the bound of the loop lets every byte be taken. -/
theorem processSendsTheFrame : Obligations.ProcessSendsTheFrame := by
  refine ⟨fun s hok hidle => exec_encProcess_of_idle hok hidle, fun s h p rest hs hok he hp htx => ?_⟩
  have hbusy : s.encMode ≠ .idle := fun hidle => by simp [hs.idle.mp hidle] at he
  rw [exec_encProcess_of_busy hok hbusy, encLoop_of_willing s _ false hs he hp hbusy (stepsLeft_le_encBound hs hbusy) htx]
  simp only [finishFrame, dereference_eq_memory]
  rfl

end Sys2Proof.Machine
end

section
/-! PROOFS. The statement about the form of a wire image (45_frame_encoder.md R268, R270). -/

namespace Sys2Proof.Machine

section

variable {cp : Byte}

/-- The opcode bytes of 44_frame_decoder.md R232 are distinct, and the abort opcode is opcode-like. -/
theorem opcodeBytes_ne : ∀ cp : Byte, legalControl cp = true →
    cp ||| 1#8 ≠ cp ∧ cp ≠ cp ||| 3#8 ∧ cp ||| 1#8 ≠ cp ||| 3#8 ∧ cp ||| 2#8 ≠ cp ||| 3#8 ∧
      (cp ||| 3#8) &&& 0xFC#8 = cp := by decide

/-- Two neighbours on the wire that are not a control byte and the abort opcode. -/
def NoAbortPair (cp a b : Byte) : Prop := a = cp → b ≠ cp ||| 3#8

/-- The end sequence holds no abort, whatever byte is before it. -/
theorem endSequence_noAbort (hcp : legalControl cp = true) (prev : Byte) :
    List.IsChain (NoAbortPair cp) [prev, cp, cp ||| 2#8] := by
  obtain ⟨_, hcontrol, _, hend, _⟩ := opcodeBytes_ne cp hcp
  simp [NoAbortPair, hcontrol, hend]

/-- The encoder's loop after the byte `prev`, whose being a control byte is what its collision flag says: an opcode-like byte
after a control byte is kept apart from it by the escape. -/
theorem encodeLoop_noAbort (hcp : legalControl cp = true) (bytes : List Byte) (prev : Byte) :
    List.IsChain (NoAbortPair cp) (prev :: (encodeLoop cp bytes (decide (prev = cp)) ++ [cp, cp ||| 2#8])) := by
  obtain ⟨hesc, _, habort, _, hhigh⟩ := opcodeBytes_ne cp hcp
  induction bytes generalizing prev with
  | nil =>
    by_cases hprev : prev = cp
    · have hend := endSequence_noAbort hcp (cp ||| 1#8)
      simpa [encodeLoop, hprev, NoAbortPair, habort] using hend
    · simpa [encodeLoop, hprev] using endSequence_noAbort hcp prev
  | cons b bs ih =>
    by_cases hcoll : prev = cp ∧ b &&& 0xFC#8 = cp
    · rw [encodeLoop, if_pos (by simpa using hcoll), List.cons_append, List.cons_append, List.isChain_cons_cons,
        List.isChain_cons_cons]
      exact ⟨fun _ => habort, fun h => absurd h hesc, ih b⟩
    · rw [encodeLoop, if_neg (by simpa using hcoll), List.cons_append, List.isChain_cons_cons]
      refine ⟨fun hprev hb => hcoll ⟨hprev, ?_⟩, ih b⟩
      rw [hb, hhigh]

end

/-- Settles O58: before its first byte the encoder has no collision pending, as after the escape opcode. -/
theorem noImageHoldsAnAbort : Obligations.NoImageHoldsAnAbort := by
  intro cp bytes hcp
  refine ⟨fun before after himage => ?_, _, rfl⟩
  have hchain := encodeLoop_noAbort hcp bytes (cp ||| 1#8)
  rw [decide_eq_false (opcodeBytes_ne cp hcp).1] at hchain
  exact List.isChain_iff_forall_rel_of_append_cons_cons.mp hchain.tail himage rfl rfl

end Sys2Proof.Machine
end

section
/-! SUPPORT. Only `ENC_PROCESS` puts bytes on the wire: every other instruction leaves what the TX sink has taken as it is
(45_frame_encoder.md R262, R263). -/

namespace Sys2Proof.Machine

section

variable {s t u : State} {h : Handle} {p : Packet} {i : Instr} {d : DecStep}

/-- From `s` to `t` the TX sink took nothing. -/
abbrev SendsNothing (s t : State) : Prop := acceptedBytes t.log = acceptedBytes s.log

/-! ### The questions and the operations that ask them -/

theorem drawAlloc_sendsNothing {cap : Nat} {a : Bool} (hd : drawAlloc s cap = (a, t)) : SendsNothing s t := by
  have hlog := drawAlloc_log s cap
  rw [hd] at hlog
  rw [SendsNothing, hlog, acceptedBytes_append]
  exact List.append_nil _

theorem drawRealloc_sendsNothing {cap : Nat} {a : Bool} (hd : drawRealloc s h cap = (a, t)) : SendsNothing s t := by
  have hlog := drawRealloc_log s h cap
  rw [hd] at hlog
  rw [SendsNothing, hlog, acceptedBytes_append]
  exact List.append_nil _

theorem drawSink_sendsNothing {a : SinkAnswer} (hd : drawSink s h p = (a, t)) : SendsNothing s t := by
  have hlog := drawSink_log s h p
  rw [hd] at hlog
  rw [SendsNothing, hlog, acceptedBytes_append]
  exact List.append_nil _

theorem allocate_sendsNothing {cap : Nat} {r : Verdict} {k : Handle} (ha : allocate s cap = (r, k, t)) :
    SendsNothing s t := by
  rcases allocate_cases s cap with ⟨_, e⟩ | ⟨_, _, ⟨s1, hd, e⟩ | ⟨s1, hd, _, e⟩ | ⟨s1, hd, _, e⟩⟩
  all_goals rw [e] at ha; cases ha
  · rfl
  · exact drawAlloc_sendsNothing hd
  · exact drawAlloc_sendsNothing hd
  · have hs1 := drawAlloc_sendsNothing hd
    exact hs1

theorem ensureRoom_sendsNothing {need inc lim : Nat} {r : Verdict} {p' : Packet}
    (he : ensureRoom s h p need inc lim = (r, p', t)) : SendsNothing s t := by
  rcases ensureRoom_cases s h p need inc lim with ⟨_, e⟩ | ⟨_, ⟨_, e⟩ | ⟨_, ⟨s1, hd, e⟩ | ⟨s1, hd, e⟩⟩⟩
  all_goals rw [e] at he; cases he
  · rfl
  · rfl
  · exact drawRealloc_sendsNothing hd
  · exact drawRealloc_sendsNothing hd

theorem dereference_log (s : State) (h : Handle) : (s.dereference h).log = s.log := by rw [dereference_eq]

theorem byteField_log (s : State) (free : Nat → Byte) (n : Nat) : (s.byteField free n).2.log = s.log := by
  unfold State.byteField
  split <;> rfl

/-! ### The decoder -/

/-- A case of the decoder in which the TX sink takes nothing, however it ends. -/
def DecStep.SendsNothing (s : State) : DecStep → Prop
  | .consumed t => Machine.SendsNothing s t
  | .busy t => Machine.SendsNothing s t
  | .faulted _ t => Machine.SendsNothing s t

theorem DecStep.SendsNothing.finish (hd : d.SendsNothing s) (s0 : State) : Machine.SendsNothing s (d.finish s0) := by
  cases d with
  | consumed t => exact hd
  | busy t => exact hd
  | faulted c t => exact hd

theorem DecStep.SendsNothing.of_trans (hst : Machine.SendsNothing s t) (hd : d.SendsNothing t) : d.SendsNothing s := by
  cases d with
  | consumed u => exact Eq.trans hd hst
  | busy u => exact Eq.trans hd hst
  | faulted c u => exact Eq.trans hd hst

theorem andThen_sendsNothing {g : State → DecStep} (hd : d.SendsNothing s) (hg : ∀ t, (g t).SendsNothing t) :
    (d.andThen g).SendsNothing s := by
  cases d with
  | consumed t => exact .of_trans hd (hg t)
  | busy t => exact hd
  | faulted c t => exact hd

theorem decPacket_sendsNothing (s : State) : (decPacket s).SendsNothing s := by
  unfold decPacket
  split
  · exact rfl
  · split
    · next k u ha =>
      have hu := allocate_sendsNothing ha
      split
      · exact hu
      · split
        · exact hu
        · exact hu
    · next ha =>
      have hu := allocate_sendsNothing ha
      exact hu

theorem discardPacket_log (s : State) : (discardPacket s).log = s.log := by
  unfold discardPacket
  split
  · rfl
  · exact dereference_log s _

theorem appendAssembled_sendsNothing (s0 s : State) (v : Byte) : (appendAssembled s0 s v).SendsNothing s := by
  rcases hd : s.decPkt with _ | h
  · simp only [appendAssembled, hd]
    exact rfl
  rcases hp : s.packet h with _ | p
  · simp only [appendAssembled, hd, hp]
    exact rfl
  obtain ⟨r, p', u, he, hcases⟩ := appendAssembled_cases s0 v hd hp
  have hu := ensureRoom_sendsNothing he
  rcases hcases with ⟨_, e⟩ | ⟨_, e⟩ | ⟨_, _, e⟩ | ⟨_, _, e⟩ <;> rw [e]
  · exact hu
  · exact hu
  · exact hu
  · exact (congrArg acceptedBytes (discardPacket_log u)).trans hu

theorem decAppend_sendsNothing (s : State) (v : Byte) : (decAppend s v).SendsNothing s := by
  cases hdisc : s.decDiscard with
  | true =>
    rw [decAppend_of_discard hdisc]
    exact rfl
  | false =>
    rw [decAppend_of_assembling hdisc]
    exact andThen_sendsNothing (decPacket_sendsNothing s) fun t => appendAssembled_sendsNothing s t v

theorem deliver_sendsNothing (s0 s : State) : (deliver s0 s).SendsNothing s := by
  rcases hd : s.decPkt with _ | h
  · simp only [deliver, hd]
    exact rfl
  rcases hp : s.packet h with _ | p
  · simp only [deliver, hd, hp]
    exact rfl
  obtain ⟨a, u, hask, hcases⟩ := deliver_cases s0 hd hp
  have hu := drawSink_sendsNothing hask
  rcases hcases with ⟨_, e⟩ | ⟨_, e⟩ | ⟨k, _, e⟩ <;> rw [e]
  · exact hu
  · exact (congrArg acceptedBytes (dereference_log u h)).trans hu
  · exact (congrArg acceptedBytes (dereference_log (u.setPacket h _) h)).trans hu

theorem decComplete_sendsNothing (s : State) : (decComplete s).SendsNothing s := by
  cases hdisc : s.decDiscard with
  | true =>
    rw [decComplete_of_discard hdisc]
    exact rfl
  | false =>
    by_cases he : s.decPkt = none ∧ s.params.emptyFramePolicy = .drop
    · rw [decComplete_of_dropped hdisc he]
      exact rfl
    · rw [decComplete_of_offered hdisc he]
      exact andThen_sendsNothing (decPacket_sendsNothing s) (deliver_sendsNothing s)

theorem wireUnit_sendsNothing (s : State) (hw : i.isCommand = false) : (unitStep i s).SendsNothing s := by
  cases i with
  | wireData b => exact decAppend_sendsNothing s b
  | wireCtrl => exact rfl
  | wireIdle => exact rfl
  | wireEsc =>
    rw [unitStep, decEscaped_eq]
    exact andThen_sendsNothing (decAppend_sendsNothing s _) fun _ => rfl
  | wireEnd => exact decComplete_sendsNothing s
  | wireAbort => exact congrArg acceptedBytes (discardPacket_log s)
  | wireLiteral b =>
    rw [unitStep, decLiteralPair_eq]
    exact andThen_sendsNothing (decAppend_sendsNothing s _) fun t => decAppend_sendsNothing { t with decState := .data } b
  | _ => cases hw

/-! ### The checks and the shared operations of the host's commands -/

theorem runCommand_sendsNothing {f : State → State} (ht : runCommand s f = .next t) (hf : SendsNothing s (f s)) :
    SendsNothing s t := by
  rw [runCommand_next] at ht
  cases ht
  split
  · exact hf
  · rfl

theorem ifLegal_sendsNothing (legal : Bool) (hu : SendsNothing s u) : SendsNothing s (s.ifLegal legal u) := by
  cases legal
  · rfl
  · exact hu

theorem ifLive_sendsNothing {k : Packet → State} (hk : ∀ p, SendsNothing s (k p)) : SendsNothing s (s.ifLive h k) := by
  unfold State.ifLive
  split
  · rfl
  · exact hk _

theorem ifMutable_sendsNothing {k : Packet → State} (hk : ∀ p, SendsNothing s (k p)) :
    SendsNothing s (s.ifMutable h k) :=
  ifLive_sendsNothing fun p => by
    split
    · rfl
    · exact hk p

theorem ifIndex_sendsNothing (p : Packet) (n : Nat) (hu : SendsNothing s u) : SendsNothing s (s.ifIndex p n u) := by
  unfold State.ifIndex
  split
  · exact hu
  · rfl

theorem atHeader_sendsNothing {hp : Half} {k : State → Packet → State} (hk : ∀ p, SendsNothing s (k s p)) :
    SendsNothing s (atHeader h hp k s) :=
  ifLive_sendsNothing fun p => ifIndex_sendsNothing p _ (hk p)

theorem atMutableHeader_sendsNothing {hp : Half} {k : State → Packet → State} (hk : ∀ p, SendsNothing s (k s p)) :
    SendsNothing s (atMutableHeader h hp k s) :=
  ifMutable_sendsNothing fun p => ifIndex_sendsNothing p _ (hk p)

theorem answerPos_sendsNothing (s : State) (o : Option Nat) : SendsNothing s (s.answerPos o) := by
  cases o <;> rfl

theorem readC78_sendsNothing (h : Handle) (cur : Half) (f : Word → Word) : SendsNothing s (readC78 h cur f s) := by
  refine ifLive_sendsNothing fun p => ?_
  split
  · rfl
  · split <;> rfl

theorem appendCommand_sendsNothing (h : Handle) (p : Packet) (bytes : List Byte) (inc lim : Nat) :
    SendsNothing s (appendCommand s h p bytes inc lim) := by
  obtain ⟨r, p', u, he, e⟩ := appendCommand_cases s h p bytes inc lim
  have hu := ensureRoom_sendsNothing he
  rw [e]
  split
  · exact hu
  · exact hu

theorem validatePacket_sendsNothing (h : Handle) (p : Packet) (off req rem : Byte) :
    SendsNothing s (validatePacket s h p off req rem) := by
  have hlevel (r : CkReason) (j : Nat) : SendsNothing s (answerLevel s r j) :=
    congrArg acceptedBytes (byteField_log s Config.freeLevel j)
  unfold validatePacket
  split
  · rfl
  · split
    · rfl
    · split
      · rfl
      · split
        · exact hlevel _ _
        · exact hlevel _ _
        · split <;> rfl

/-! ### Single commands -/

theorem execPbAlloc_sendsNothing {cap : Half} (ht : execPbAlloc cap s = .next t) : SendsNothing s t := by
  refine runCommand_sendsNothing ht ?_
  rcases ha : allocate s cap.toNat with ⟨r, k, u⟩
  have hu := allocate_sendsNothing ha
  exact hu

theorem execPbSetCapacity_sendsNothing {cap : Half} (ht : execPbSetCapacity h cap s = .next t) : SendsNothing s t := by
  refine runCommand_sendsNothing ht (ifMutable_sendsNothing fun p => ?_)
  split
  · rfl
  · split
    · rfl
    · split
      · next hd =>
        have hu := drawRealloc_sendsNothing hd
        exact hu
      · next hd =>
        have hu := drawRealloc_sendsNothing hd
        exact hu

theorem execPbReference_sendsNothing (ht : execPbReference h s = .next t) : SendsNothing s t := by
  refine runCommand_sendsNothing ht (ifLive_sendsNothing fun p => ?_)
  split <;> rfl

theorem execPbDereference_sendsNothing (ht : execPbDereference h s = .next t) : SendsNothing s t := by
  refine runCommand_sendsNothing ht ?_
  split
  · rfl
  · split
    · rfl
    · exact congrArg acceptedBytes (dereference_log s h)

theorem execPbRead_sendsNothing {idx : Half} (ht : execPbRead h idx s = .next t) : SendsNothing s t := by
  refine runCommand_sendsNothing ht (ifLive_sendsNothing fun p => ?_)
  split <;> rfl

theorem execMapSetAtype_sendsNothing {hp : Half} {a : Byte} (ht : execMapSetAtype h hp a s = .next t) :
    SendsNothing s t := by
  refine runCommand_sendsNothing ht (atMutableHeader_sendsNothing fun p => ?_)
  split <;> rfl

theorem execMapValidate_sendsNothing {off req rem : Byte} (ht : execMapValidate h off req rem s = .next t) :
    SendsNothing s t := by
  refine runCommand_sendsNothing ht (ifLegal_sendsNothing _ (ifLive_sendsNothing fun p => ?_))
  split
  · rfl
  · exact validatePacket_sendsNothing h p off req rem

theorem execMapAppendChecksum_sendsNothing {off : Byte} (ht : execMapAppendChecksum h off s = .next t) :
    SendsNothing s t := by
  refine runCommand_sendsNothing ht (ifMutable_sendsNothing fun p => ?_)
  split
  · rfl
  · split
    · rfl
    · split
      · next he =>
        have hu := ensureRoom_sendsNothing he
        exact hu
      · next he =>
        have hu := ensureRoom_sendsNothing he
        exact hu
      · next he =>
        have hu := ensureRoom_sendsNothing he
        exact hu

theorem execEncSubmit_sendsNothing {off : Byte} (ht : execEncSubmit h off s = .next t) : SendsNothing s t := by
  refine runCommand_sendsNothing ht (ifLive_sendsNothing fun p => ?_)
  split
  · rfl
  · split
    · rfl
    · split
      · rfl
      · split <;> rfl

theorem execCfgSetPrefix_sendsNothing {v : Byte} (ht : execCfgSetPrefix v s = .next t) : SendsNothing s t := by
  refine runCommand_sendsNothing ht ?_
  split
  · rfl
  · split <;> rfl

/-! ### Every instruction -/

theorem exec_receive_sendsNothing (hi : isReceive i = true) (ht : exec i s = .next t) : SendsNothing s t := by
  rw [exec_receive hi] at ht
  obtain ⟨e, hw⟩ := unitStep_wireUnit s hi
  refine runCommand_sendsNothing ht ?_
  rw [e]
  exact (wireUnit_sendsNothing s hw).finish s

theorem exec_sendsNothing (hi : i ≠ .encProcess) (ht : exec i s = .next t) : SendsNothing s t := by
  cases i
  case decRx | wireData | wireCtrl | wireIdle | wireEsc | wireEnd | wireAbort | wireLiteral =>
    exact exec_receive_sendsNothing rfl ht
  all_goals dsimp only [exec] at ht
  case crcReset | crcSink | crcGet | cfgGetPrefix => exact runCommand_sendsNothing ht rfl
  case sysGetFault =>
    cases ht
    rfl
  case c78EncU | c78EncS | pbAppend =>
    exact runCommand_sendsNothing ht (ifMutable_sendsNothing fun _ => appendCommand_sendsNothing _ _ _ _ _)
  case c78DecU | c78DecS => exact runCommand_sendsNothing ht (readC78_sendsNothing _ _ _)
  case pbAlloc => exact execPbAlloc_sendsNothing ht
  case pbSetCapacity => exact execPbSetCapacity_sendsNothing ht
  case pbReference => exact execPbReference_sendsNothing ht
  case pbDereference => exact execPbDereference_sendsNothing ht
  case pbSetStatus => exact runCommand_sendsNothing ht (ifLegal_sendsNothing _ (ifLive_sendsNothing fun _ => rfl))
  case pbGetStatus | pbGetLength | pbGetCapacity => exact runCommand_sendsNothing ht (ifLive_sendsNothing fun _ => rfl)
  case pbGetRefcount =>
    refine runCommand_sendsNothing ht (ifLive_sendsNothing fun p => ?_)
    exact congrArg acceptedBytes (byteField_log s Config.freeCount p.ref)
  case pbRead => exact execPbRead_sendsNothing ht
  case pbWrite => exact runCommand_sendsNothing ht (ifMutable_sendsNothing fun _ => ifIndex_sendsNothing _ _ rfl)
  case mapGetCk | mapGetNp | mapGetDa | mapGetSa | mapGetAtype =>
    exact runCommand_sendsNothing ht (atHeader_sendsNothing fun _ => rfl)
  case mapSetCk | mapSetNp | mapSetDa | mapSetSa =>
    exact runCommand_sendsNothing ht (ifLegal_sendsNothing _ (atMutableHeader_sendsNothing fun _ => rfl))
  case mapSetAtype => exact execMapSetAtype_sendsNothing ht
  case mapNextprotoPos | mapDestPos | mapSrcPos | mapContentsPos | mapNextHeader =>
    exact runCommand_sendsNothing ht (atHeader_sendsNothing fun _ => answerPos_sendsNothing s _)
  case mapHeader | mapData => exact runCommand_sendsNothing ht (ifLive_sendsNothing fun _ => answerPos_sendsNothing s _)
  case mapValidate => exact execMapValidate_sendsNothing ht
  case mapAppendChecksum => exact execMapAppendChecksum_sendsNothing ht
  case encSubmit => exact execEncSubmit_sendsNothing ht
  case encProcess => exact absurd rfl hi
  case cfgSetPrefix => exact execCfgSetPrefix_sendsNothing ht

end

end Sys2Proof.Machine
end

section
/-! PROOFS. The wire image: what is left of a frame changes only by `ENC_PROCESS` and by a submission that is taken, so that the
TX sink takes the image of the packet submitted (45_frame_encoder.md R268). -/

namespace Sys2Proof.Machine

section

variable {s t : State} {h : Handle} {p : Packet} {i : Instr}

/-! ### Submissions (45_frame_encoder.md R260, R261) -/

/-- The state in which a submission leaves the block that takes the packet `p` at `h`. -/
def State.submitted (s : State) (h : Handle) (p : Packet) (start : Nat) : State :=
  { s.setPacket h { p with ref := p.ref + 1 } with
    encPkt := some h, encCursor := BitVec.ofNat 16 start, encEnd := BitVec.ofNat 16 p.len,
    encCollision := false, encMode := .transmitting, result := some ⟨.good, []⟩ }

/-- A submission is taken, or changes the fault register and the result alone. -/
theorem exec_encSubmit_cases {off : Byte} (ht : exec (.encSubmit h off) s = .next t) :
    (t.result ≠ some ⟨.good, []⟩ ∧ t = { s with fault := t.fault, result := t.result }) ∨
    (∃ p start, s.packet h = some p ∧ startPos s.params p.data off.toNat = some start ∧ t = s.submitted h p start) := by
  by_cases hok : s.fault = 0#8
  · rcases hp : s.packet h with _ | p
    · rw [exec, execEncSubmit, runCommand_of_ok s _ hok, ifLive_of_dead hp] at ht
      cases ht
      exact .inl ⟨nofun, rfl⟩
    · by_cases hd : s.decPkt = some h
      · rw [exec, execEncSubmit, runCommand_ifLive hok hp, if_pos hd] at ht
        cases ht
        exact .inl ⟨nofun, rfl⟩
      · by_cases hidle : s.encMode = .idle
        · rw [exec_encSubmit hok hp hd hidle] at ht
          split at ht
          · cases ht
            exact .inl ⟨nofun, rfl⟩
          · next start hstart =>
            split at ht
            · cases ht
              exact .inl ⟨nofun, rfl⟩
            · cases ht
              exact .inr ⟨p, start, rfl, hstart, rfl⟩
        · rw [exec_encSubmit_of_busy hok hp hd hidle] at ht
          cases ht
          exact .inl ⟨nofun, rfl⟩
  · rw [exec, execEncSubmit, runCommand_of_faulted s _ hok] at ht
    cases ht
    exact .inl ⟨nofun, rfl⟩

/-- No packet of a good state is longer than a position register can say (10_state.md R42). -/
theorem State.Good.len_lt (hs : s.Good) (hp : s.packet h = some p) : p.len < 2 ^ 16 := by
  obtain ⟨_, hcap, hlen, _⟩ := hs.inBounds hp
  obtain ⟨_, _, hmax, _⟩ := hs.params
  omega

/-- A packet just submitted has the wire image of its bytes from the start position still to send. -/
theorem wireRemainder_submitted (hs : s.Good) (hp : s.packet h = some p) {off start : Nat}
    (hstart : startPos s.params p.data off = some start) :
    (s.submitted h p start).wireRemainder = encodeFrame s.cp (p.data.drop start) := by
  have hlen := hs.len_lt hp
  have hend : (BitVec.ofNat 16 p.len).toNat = p.len := by
    rw [BitVec.toNat_ofNat, Nat.mod_eq_of_lt hlen]
  have hcur : (BitVec.ofNat 16 start).toNat = start := by
    rw [BitVec.toNat_ofNat, Nat.mod_eq_of_lt ((startPos_le hstart).trans_lt hlen)]
  have hrem := wireRemainder_of_transmitting (s := s.submitted h p start) rfl (setPacket_packet_self s h _) rfl hend
  rw [hrem, show (s.submitted h p start).encCursor = BitVec.ofNat 16 start from rfl, hcur]
  rfl

/-! ### What other commands leave of a frame -/

/-- What is left depends on the encoder's registers, the control byte and the bytes of the packet being sent alone. -/
theorem wireRemainder_congr (hpkt : t.encPkt = s.encPkt) (hmode : t.encMode = s.encMode)
    (hcoll : t.encCollision = s.encCollision) (hcur : t.encCursor = s.encCursor) (hend : t.encEnd = s.encEnd)
    (hcp : t.cp = s.cp)
    (hdata : ∀ h, s.encPkt = some h → ∃ p q, s.packet h = some p ∧ t.packet h = some q ∧ q.data = p.data) :
    t.wireRemainder = s.wireRemainder := by
  unfold State.wireRemainder
  rw [hpkt, hmode, hcoll, hcur, hend, hcp]
  rcases he : s.encPkt with _ | h
  · rfl
  · obtain ⟨p, q, hp, hq, hbytes⟩ := hdata h he
    simp only [Option.bind_some, hp, hq, hbytes]

/-- The control byte changes only where no frame is in flight (46_system.md R275). -/
theorem exec_cfgSetPrefix_control {v : Byte} (ht : exec (.cfgSetPrefix v) s = .next t) (hne : t.cp ≠ s.cp) :
    s.encMode = .idle := by
  rw [exec, execCfgSetPrefix, runCommand_next] at ht
  cases ht
  split at hne
  · split at hne
    · exact absurd rfl hne
    · split at hne
      · next hquiet =>
        simp only [State.quiescent, Bool.and_eq_true, decide_eq_true_eq] at hquiet
        exact hquiet.2
      · exact absurd rfl hne
  · exact absurd rfl hne

/-- A command that is neither the encoder's nor changes the control byte. -/
theorem exec_wireRemainder (hs : s.Good) (ht : exec i s = .next t) (hproc : i ≠ .encProcess)
    (hsub : ∀ h off, i ≠ .encSubmit h off) : t.wireRemainder = s.wireRemainder := by
  have hgood := (exec_effect ht).good hs
  obtain ⟨hcontrol, _, _, henc, _⟩ := registersAreWrittenOnlyByTheirCommands i s t ht
  have hsame := mt henc (not_or.mpr ⟨hproc, fun ⟨h, off, e⟩ => hsub h off e⟩)
  simp only [not_or, not_not, ne_eq] at hsame
  obtain ⟨hmode, hcoll, hpkt, hcur, hend⟩ := hsame
  by_cases hcp : t.cp = s.cp
  · refine wireRemainder_congr hpkt hmode hcoll hcur hend hcp fun h he => ?_
    obtain ⟨p, hp, _⟩ := hs.live_of_held (held_of_encPkt he)
    obtain ⟨q, hq, _⟩ := hgood.live_of_held (held_of_encPkt (hpkt.trans he))
    obtain ⟨hsent, _, _⟩ := heldPacketsKeepTheirData i s t h p q hs ht hp hq
    exact ⟨p, q, hp, hq, (hsent he).1⟩
  · obtain ⟨v, rfl⟩ := hcontrol hcp
    have hidle := exec_cfgSetPrefix_control ht hcp
    rw [wireRemainder_of_idle hidle, wireRemainder_of_idle (hmode.trans hidle)]

/-! ### What the TX sink has taken and what is left for it -/

theorem exec_encProcess_wireBytes (hs : s.Good) (ht : exec .encProcess s = .next t) : t.wireBytes = s.wireBytes := by
  by_cases hok : s.fault = 0#8
  · by_cases hidle : s.encMode = .idle
    · rw [exec_encProcess_of_idle hok hidle] at ht
      cases ht
      rfl
    · rw [exec_encProcess_of_busy hok hidle] at ht
      cases ht
      exact encLoop_wireBytes s _ false hs hidle
  · rw [exec, execEncProcess, runCommand_of_faulted s _ hok] at ht
    cases ht
    rfl

/-- Every instruction but a submission that is taken keeps them together the same bytes. -/
theorem exec_wireBytes (hs : s.Good) (ht : exec i s = .next t)
    (hsub : ¬ ((∃ h off, i = .encSubmit h off) ∧ t.result = some ⟨.good, []⟩)) : t.wireBytes = s.wireBytes := by
  by_cases hproc : i = .encProcess
  · subst hproc
    exact exec_encProcess_wireBytes hs ht
  · have hrem : t.wireRemainder = s.wireRemainder := by
      by_cases hi : ∃ h off, i = .encSubmit h off
      · obtain ⟨h, off, rfl⟩ := hi
        rcases exec_encSubmit_cases ht with ⟨_, e⟩ | ⟨p, start, _, _, e⟩
        · rw [e]
          rfl
        · exact absurd ⟨⟨h, off, rfl⟩, by rw [e]; rfl⟩ hsub
      · exact exec_wireRemainder hs ht hproc fun h off e => hi ⟨h, off, e⟩
    rw [State.wireBytes, State.wireBytes, exec_sendsNothing hproc ht, hrem]

/-- A run of commands that submit nothing. -/
theorem execAll_wireBytes {is : List Instr} (hs : s.Good) (hsub : ∀ i ∈ is, ∀ h off, i ≠ .encSubmit h off)
    (ht : execAll is s = .next t) : t.wireBytes = s.wireBytes := by
  induction is generalizing s with
  | nil =>
    cases ht
    rfl
  | cons i is ih =>
    rw [execAll] at ht
    split at ht
    · next u hu =>
      obtain ⟨hi, hrest⟩ := List.forall_mem_cons.mp hsub
      rw [ih ((exec_effect hu).good hs) hrest ht]
      exact exec_wireBytes hs hu fun ⟨⟨h, off, e⟩, _⟩ => hi h off e
    · cases ht
    · cases ht

/-- A refused `ENC_PROCESS` has sent nothing, since it has changed nothing of what is left (60_exceptions.md R285). -/
theorem exec_encProcess_busy (hs : s.Good) (ht : exec .encProcess s = .next t) (hbusy : t.result = some ⟨.busy, []⟩) :
    acceptedBytes t.log = acceptedBytes s.log := by
  have hrem : t.wireRemainder = s.wireRemainder := by
    rcases refusedCommandsChangeNothing _ s t _ ht hbusy nofun with e | ⟨_, ⟨b, e | ⟨e, _⟩⟩, _⟩
    · rw [e]
      rfl
    · cases e
    · cases e
  have hbytes := exec_encProcess_wireBytes hs ht
  rw [State.wireBytes, State.wireBytes, hrem] at hbytes
  exact List.append_cancel_right hbytes

/-- A submission that is taken. -/
theorem submitted_of_good {off : Byte} (hp : s.packet h = some p) (ht : exec (.encSubmit h off) s = .next t)
    (hgood : t.result = some ⟨.good, []⟩) :
    ∃ start, startPos s.params p.data off.toNat = some start ∧ t = s.submitted h p start := by
  rcases exec_encSubmit_cases ht with ⟨hne, _⟩ | ⟨q, start, hq, hstart, e⟩
  · exact absurd hgood hne
  · rw [hp] at hq
    cases hq
    exact ⟨start, hstart, e⟩

end

/-- Settles O57, by the bytes taken and left, which only a submission that is taken changes. -/
theorem encoderSendsTheWireImage : Obligations.EncoderSendsTheWireImage := by
  refine ⟨fun s t h p off hs hok hp ht hgood => ?_, fun i s t hs ht => ⟨exec_wireBytes hs ht, ?_, wireRemainder_of_idle⟩,
    fun s t u h p off is hs hok hp ht hgood his hu hidle => ?_⟩
  · obtain ⟨start, hstart, rfl⟩ := submitted_of_good hp ht hgood
    exact ⟨start, startPos_eq_some_iff.mp hstart, wireRemainder_submitted hs hp hstart⟩
  · rintro rfl
    exact exec_encProcess_busy hs ht
  · have htgood := (exec_effect ht).good hs
    have hsent := exec_sendsNothing (i := .encSubmit h off) nofun ht
    obtain ⟨start, hstart, rfl⟩ := submitted_of_good hp ht hgood
    refine ⟨start, startPos_eq_some_iff.mp hstart, ?_⟩
    have hbytes := execAll_wireBytes htgood his hu
    rwa [State.wireBytes, State.wireBytes, wireRemainder_of_idle hidle, List.append_nil, hsent,
      wireRemainder_submitted hs hp hstart] at hbytes

end Sys2Proof.Machine
end

section
/-! PROOFS. The frame round trip: where the decoder stands in the wire image of a byte list, what it has assembled and what it
has still to read make up the list, whatever the agents answer (45_frame_encoder.md R269). -/

namespace Sys2Proof.Machine

section

variable {s0 s t u : State} {h : Handle} {p : Packet} {bytes done todo wire : List Byte} {b v : Byte} {d : DecStep}
  {P Q R : State → Prop}

/-! ### How a case ends -/

/-- A case of the decoder that ends in `P` where it consumes the byte and in `Q` where it answers `Busy`. -/
def DecStep.Leads (P Q : State → Prop) : DecStep → Prop
  | .consumed t => P t
  | .busy t => Q t
  | .faulted _ _ => True

theorem DecStep.Leads.imp {P' Q' : State → Prop} (hd : d.Leads P Q) (hP : ∀ t, P t → P' t) (hQ : ∀ t, Q t → Q' t) :
    d.Leads P' Q' := by
  cases d with
  | consumed t => exact hP t hd
  | busy t => exact hQ t hd
  | faulted c t => trivial

theorem andThen_leads {g : State → DecStep} (hd : d.Leads P Q) (hg : ∀ t, P t → (g t).Leads R Q) :
    (d.andThen g).Leads R Q := by
  cases d with
  | consumed t => exact hg t hd
  | busy t => exact hd
  | faulted c t => trivial

/-- A receiver whose every byte is read in `P` of what it has still to read: where it ends it has read all. -/
theorem receive_invariant {P : List Byte → State → Prop}
    (hstep : ∀ b wire s, P (b :: wire) s → s.fault = 0#8 ∧
      (unitStep (decodeWire s.decState s.cp b) s).Leads (fun t => P wire (t.answer .good []))
        (fun t => P (b :: wire) (t.answer .busy [])))
    (n : Nat) (hs : P wire s) (ht : receive n wire s = some t) : P [] t := by
  induction n generalizing wire s with
  | zero =>
    cases wire with
    | nil =>
      cases ht
      exact hs
    | cons b wire => cases ht
  | succ n ih =>
    cases wire with
    | nil =>
      cases ht
      exact hs
    | cons b wire =>
      obtain ⟨hok, hlead⟩ := hstep b wire s hs
      have hexec := exec_unit (i := .decRx b) hok (isReceive_of_wireUnit (decodeWire_isWireUnit _ _ _))
        (.inr ⟨b, rfl, rfl⟩)
      rw [receive, hexec] at ht
      generalize unitStep (decodeWire s.decState s.cp b) s = d at hlead ht
      cases d with
      | consumed u => exact ih hlead ht
      | busy u => exact ih hlead ht
      | faulted c u => cases ht

/-! ### Deliveries (44_frame_decoder.md R244) -/

theorem deliveredPackets_append (l m : List Event) :
    deliveredPackets (l ++ m) = deliveredPackets l ++ deliveredPackets m := List.filterMap_append

/-- From `s` to `t` agents were asked, and nothing was delivered. -/
def OnlyAsked (s t : State) : Prop := t = s.undoTo t ∧ deliveredPackets t.log = deliveredPackets s.log

theorem drawAlloc_delivers {cap : Nat} {a : Bool} (hask : drawAlloc s cap = (a, t)) :
    deliveredPackets t.log = deliveredPackets s.log := by
  have hlog := drawAlloc_log s cap
  rw [hask] at hlog
  rw [hlog, deliveredPackets_append]
  exact List.append_nil _

theorem drawRealloc_delivers {cap : Nat} {a : Bool} (hask : drawRealloc s h cap = (a, t)) :
    deliveredPackets t.log = deliveredPackets s.log := by
  have hlog := drawRealloc_log s h cap
  rw [hask] at hlog
  rw [hlog, deliveredPackets_append]
  exact List.append_nil _

/-- An offer that the sink does not put off delivers the packet. -/
theorem drawSink_delivers {a : SinkAnswer} (hask : drawSink s h p = (a, t)) :
    deliveredPackets t.log = deliveredPackets s.log ++ if a = .busy then [] else [p.data] := by
  have hlog := drawSink_log s h p
  rw [hask] at hlog
  rw [hlog, deliveredPackets_append]
  cases a <;> rfl

/-! ### What the decoder has assembled -/

/-- The packet being assembled has these bytes. -/
def State.Holds (s : State) (done : List Byte) : Prop :=
  ∃ h p, s.decPkt = some h ∧ s.packet h = some p ∧ p.data = done

/-- Since `s0` the decoder has assembled these bytes of a frame, and has delivered nothing. -/
structure Assembles (s0 : State) (done : List Byte) (s : State) : Prop where
  good : s.Good
  ok : s.fault = 0#8
  control : s.cp = s0.cp
  params : s.params = s0.params
  assembling : s.decDiscard = false
  contents : (s.decPkt = none ∧ done = []) ∨ s.Holds done
  delivered : deliveredPackets s.log = deliveredPackets s0.log

theorem Assembles.answer (hs : Assembles s0 done s) (st : Verdict) (fs : List Field) :
    Assembles s0 done (s.answer st fs) :=
  { hs with good := hs.good.answer st fs }

theorem Assembles.withDecState (hs : Assembles s0 done s) (d : DecState) : Assembles s0 done { s with decState := d } :=
  { hs with good := hs.good.withDecState d }

theorem Assembles.control_legal (hs : Assembles s0 done s) : legalControl s0.cp = true := by
  have hlow := hs.good.control
  rw [hs.control] at hlow
  simp [legalControl, hlow]

/-- What a case keeps that assembles on. -/
theorem Assembles.of_decoderOnly {done' : List Byte} (hs : Assembles s0 done s) (ht : t.Good) (hst : DecoderOnly s t)
    (hdisc : t.decDiscard = false) (hcontents : t.Holds done')
    (hdelivered : deliveredPackets t.log = deliveredPackets s.log) : Assembles s0 done' t where
  good := ht
  ok := hst.fault_eq.trans hs.ok
  control := by
    rw [hst]
    exact hs.control
  params := hst.params_eq.trans hs.params
  assembling := hdisc
  contents := .inr hcontents
  delivered := hdelivered.trans hs.delivered

theorem Assembles.of_onlyAsked (hs : Assembles s0 done s) (hst : OnlyAsked s t) :
    Assembles s0 done t ∧ t.decState = s.decState := by
  obtain ⟨hframe, hdelivered⟩ := hst
  have hu : Assembles s0 done (s.undoTo t) :=
    { hs with good := hs.good.undoTo t, delivered := hdelivered.trans hs.delivered }
  rw [hframe]
  exact ⟨hu, rfl⟩

/-- Getting the packet to assemble (44_frame_decoder.md R233, R239). -/
theorem Assembles.decPacket_leads (hs : Assembles s0 done s) :
    (decPacket s).Leads (fun t => Assembles s0 done t ∧ t.Holds done ∧ t.decState = s.decState) (OnlyAsked s) := by
  have hgood := decPacket_endsGood hs.good hs.assembling
  have hconfined := decPacket_confined s
  rcases decPacket_cases s hs.good.params with
    ⟨k, hd, e⟩ | ⟨hnone, ⟨s1, hask, _, _, e⟩ | ⟨_, _, e⟩ | ⟨a, s1, hask, _, e⟩⟩ <;> rw [e] at hgood hconfined ⊢
  · have hheld : s.Holds done := hs.contents.resolve_left fun hc => by simp [hd] at hc
    exact ⟨hs, hheld, rfl⟩
  · have hframe := drawAlloc_undoTo hask
    have hdone : done = [] := hs.contents.elim And.right fun ⟨_, _, hd, _⟩ => by simp [hnone] at hd
    subst hdone
    have hself := setPacket_packet_self s1 s.nextHandle { data := [], cap := s.params.decInitCap, status := .busy, ref := 1 }
    have hdelivered := drawAlloc_delivers hask
    refine ⟨hs.of_decoderOnly hgood hconfined ?_ ⟨_, _, rfl, hself, rfl⟩ hdelivered, ⟨_, _, rfl, hself, rfl⟩, ?_⟩
    · rw [hframe]
      exact hs.assembling
    · rw [hframe]
      rfl
  · trivial
  · have hdelivered := drawAlloc_delivers hask
    exact ⟨rfl, hdelivered⟩

/-- The append of a byte below the decoder's limit, in a command begun at `s` (44_frame_decoder.md R233). -/
theorem Assembles.appendAssembled_leads (hs : Assembles s0 done s) (ht : Assembles s0 done t) (hheld : t.Holds done)
    (hlim : done.length < s0.params.decLimit) (v : Byte) :
    (appendAssembled s t v).Leads (fun u => Assembles s0 (done ++ [v]) u ∧ u.decState = t.decState) (OnlyAsked s) := by
  have hgood := appendAssembled_endsGood hs.good ht.good v
  obtain ⟨h, p, hd, hp, rfl⟩ := hheld
  obtain ⟨_, _, hcap, _⟩ := ht.good.records h p hp
  by_cases hroom : p.len < p.cap
  · rw [appendAssembled_of_room hd hp hroom] at hgood ⊢
    exact ⟨ht.of_decoderOnly hgood rfl ht.assembling ⟨h, _, hd, setPacket_packet_self t h _, rfl⟩ rfl, rfl⟩
  · have hfull : p.len = p.cap := hcap.antisymm (Nat.le_of_not_lt hroom)
    have hbelow : p.cap < t.params.decLimit := by rwa [← hfull, ht.params]
    rcases hask : drawRealloc t h (min t.params.decLimit (p.cap + t.params.decIncrement)) with ⟨a, w⟩
    have hw := drawRealloc_undoTo hask
    have hdelivered := drawRealloc_delivers hask
    have hgrown := ensureRoom_of_full ht.good.params hfull hbelow hask
    cases a with
    | false =>
      simp only [appendAssembled, hd, hp, hgrown]
      exact ⟨rfl, hdelivered.trans (ht.delivered.trans hs.delivered.symm)⟩
    | true =>
      simp only [appendAssembled, hd, hp, hgrown, if_true] at hgood ⊢
      refine ⟨ht.of_decoderOnly hgood ?_ ?_ ⟨h, _, ?_, setPacket_packet_self w h _, rfl⟩ hdelivered, ?_⟩
      all_goals rw [hw]
      · rfl
      · exact ht.assembling
      · exact hd
      · rfl

/-- `DecAppend` of a byte below the decoder's limit (44_frame_decoder.md R233). -/
theorem Assembles.decAppend_leads (hs : Assembles s0 done s) (hlim : done.length < s0.params.decLimit) (v : Byte) :
    (decAppend s v).Leads (fun t => Assembles s0 (done ++ [v]) t ∧ t.decState = s.decState) (OnlyAsked s) := by
  rw [decAppend_of_assembling hs.assembling]
  exact andThen_leads hs.decPacket_leads fun t ⟨ht, hheld, hpos⟩ =>
    (hs.appendAssembled_leads ht hheld hlim v).imp (fun u ⟨hu, hu'⟩ => ⟨hu, hu'.trans hpos⟩) fun _ hu => hu

/-- The decoder is between frames again, and has delivered these bytes since `s0`. -/
def Delivered (s0 : State) (bytes : List Byte) (t : State) : Prop :=
  deliveredPackets t.log = deliveredPackets s0.log ++ [bytes] ∧
    t.decState = .data ∧ t.decPkt = none ∧ t.decDiscard = false

/-- The offer of what was assembled, in a command begun at `s` (44_frame_decoder.md R239). -/
theorem Assembles.deliver_leads (hs : Assembles s0 done s) (ht : Assembles s0 done t) (hheld : t.Holds done) :
    (deliver s t).Leads (Delivered s0 done) (OnlyAsked s) := by
  obtain ⟨h, p, hd, hp, rfl⟩ := hheld
  obtain ⟨a, u, hask, hcases⟩ := deliver_cases s hd hp
  have hu := drawSink_delivers hask
  rw [ht.delivered] at hu
  rcases hcases with ⟨rfl, e⟩ | ⟨rfl, e⟩ | ⟨k, rfl, e⟩ <;> rw [e]
  · exact ⟨rfl, hu.trans ((List.append_nil _).trans hs.delivered.symm)⟩
  · exact ⟨(congrArg deliveredPackets (dereference_log u h)).trans hu, rfl, rfl, rfl⟩
  · exact ⟨(congrArg deliveredPackets (dereference_log (u.setPacket h _) h)).trans hu, rfl, rfl, rfl⟩

/-- The complete opcode, where an empty frame is not dropped (44_frame_decoder.md R239, R243). -/
theorem Assembles.decComplete_leads (hs : Assembles s0 bytes s)
    (hempty : bytes = [] → s0.params.emptyFramePolicy = .deliver) :
    (decComplete s).Leads (Delivered s0 bytes) (OnlyAsked s) := by
  have hoffered : ¬ (s.decPkt = none ∧ s.params.emptyFramePolicy = .drop) := by
    rintro ⟨hnone, hdrop⟩
    rcases hs.contents with ⟨_, hnil⟩ | ⟨_, _, hd, _⟩
    · rw [hs.params, hempty hnil] at hdrop
      cases hdrop
    · simp [hnone] at hd
  rw [decComplete_of_offered hs.assembling hoffered]
  exact andThen_leads hs.decPacket_leads fun t ⟨ht, hheld, _⟩ => hs.deliver_leads ht hheld

/-- An escaped control byte (44_frame_decoder.md R238). -/
theorem Assembles.decEscaped_leads (hs : Assembles s0 done s) (hlim : done.length < s0.params.decLimit) :
    (decEscaped s).Leads (fun t => Assembles s0 (done ++ [s0.cp]) t ∧ t.decState = .data) (OnlyAsked s) := by
  rw [decEscaped_eq, hs.control]
  exact andThen_leads (hs.decAppend_leads hlim s0.cp) fun t ⟨ht, _⟩ => ⟨ht.withDecState .data, rfl⟩

/-- A literal pair, whose second append may be put off with the first one done (44_frame_decoder.md R237). -/
theorem Assembles.decLiteralPair_leads (hs : Assembles s0 done s) (hlim : done.length + 1 < s0.params.decLimit)
    (b : Byte) :
    (decLiteralPair s b).Leads (fun t => Assembles s0 (done ++ [s0.cp] ++ [b]) t ∧ t.decState = .data)
      (fun t => OnlyAsked s t ∨ (Assembles s0 (done ++ [s0.cp]) t ∧ t.decState = .data)) := by
  rw [decLiteralPair_eq, hs.control]
  have hfirst := hs.decAppend_leads (Nat.lt_of_succ_lt hlim) s0.cp
  refine andThen_leads (hfirst.imp (fun _ ht => ht) fun _ hu => .inl hu) fun t ⟨ht, _⟩ => ?_
  have hlim' : (done ++ [s0.cp]).length < s0.params.decLimit := by
    rwa [List.length_append, List.length_singleton]
  have hdata := ht.withDecState .data
  exact (hdata.decAppend_leads hlim' b).imp (fun _ hu => hu) fun u hu => .inr (hdata.of_onlyAsked hu)

/-! ### The wire image, byte by byte (45_frame_encoder.md R268) -/

theorem encodeLoop_cons_false (cp b : Byte) (bs : List Byte) :
    encodeLoop cp (b :: bs) false = b :: encodeLoop cp bs (b = cp) := by simp [encodeLoop]

/-- With a collision pending the loop sends the escape and goes on as without, or the second byte of a literal pair. -/
theorem encodeLoop_true (cp : Byte) (bytes : List Byte) :
    encodeLoop cp bytes true = (cp ||| 1#8) :: encodeLoop cp bytes false ∨
    ∃ b bs, bytes = b :: bs ∧ b &&& 0xFC#8 ≠ cp ∧ encodeLoop cp bytes true = encodeLoop cp bytes false := by
  cases bytes with
  | nil => exact .inl rfl
  | cons b bs =>
    by_cases hb : b &&& 0xFC#8 = cp
    · refine .inl ?_
      rw [encodeLoop_cons_false, encodeLoop, if_pos ⟨rfl, hb⟩]
    · refine .inr ⟨b, bs, rfl, hb, ?_⟩
      rw [encodeLoop_cons_false, encodeLoop, if_neg fun hcoll => hb hcoll.2]

theorem ne_control_of_literal (hcp : legalControl s0.cp = true) (hb : b &&& 0xFC#8 ≠ s0.cp) : b ≠ s0.cp := by
  rintro rfl
  have hlow : s0.cp &&& 3#8 = 0#8 := by simpa [legalControl] using hcp
  exact hb ((opcodeByte_iff (k := 0#8) (by decide) hlow).mp BitVec.or_zero.symm).1

/-- Where the decoder stands in the wire image of a frame, with the bytes of the image that it has still to read: in Data
with no byte pending, after a control byte that is data, after the last control byte, and behind the image. -/
inductive FrameStage (s0 : State) (bytes : List Byte) : List Byte → State → Prop
  | data {done todo : List Byte} {s : State} (hs : Assembles s0 done s) (hpos : s.decState = .data)
      (hall : done ++ todo = bytes) :
      FrameStage s0 bytes (encodeLoop s0.cp todo false ++ [s0.cp, s0.cp ||| 2#8]) s
  | pending {done todo : List Byte} {s : State} (hs : Assembles s0 done s) (hpos : s.decState = .controlSeen)
      (hall : done ++ s0.cp :: todo = bytes) :
      FrameStage s0 bytes (encodeLoop s0.cp todo true ++ [s0.cp, s0.cp ||| 2#8]) s
  | closing {s : State} (hs : Assembles s0 bytes s) (hpos : s.decState = .controlSeen) :
      FrameStage s0 bytes [s0.cp ||| 2#8] s
  | delivered {s : State} (hs : Delivered s0 bytes s) : FrameStage s0 bytes [] s

/-- The case that the byte runs takes the decoder one byte on in the image, or leaves it where it can read the byte again. -/
def ReadsOn (s0 : State) (bytes : List Byte) (b : Byte) (wire : List Byte) (s : State) : Prop :=
  (unitStep (decodeWire s.decState s.cp b) s).Leads (fun t => FrameStage s0 bytes wire (t.answer .good []))
    (fun t => FrameStage s0 bytes (b :: wire) (t.answer .busy []))

/-- A control byte read in Data (44_frame_decoder.md R235). -/
theorem Assembles.enterControl (hs : Assembles s0 done s) (hpos : s.decState = .data) :
    unitStep (decodeWire s.decState s.cp s0.cp) s = .consumed { s with decState := .controlSeen } := by
  have hunit : decodeWire s.decState s.cp s0.cp = .wireCtrl := by simp [decodeWire, hpos, hs.control]
  rw [hunit]
  rfl

/-- A byte of the list read in Data. -/
theorem readsOn_byte (hs : Assembles s0 done s) (hpos : s.decState = .data) (hall : done ++ b :: todo = bytes)
    (hlim : bytes.length ≤ s0.params.decLimit) :
    ReadsOn s0 bytes b (encodeLoop s0.cp todo (b = s0.cp) ++ [s0.cp, s0.cp ||| 2#8]) s := by
  unfold ReadsOn
  by_cases hb : b = s0.cp
  · subst hb
    rw [hs.enterControl hpos, decide_eq_true rfl]
    exact .pending ((hs.withDecState .controlSeen).answer _ _) rfl hall
  · have hroom : done.length < s0.params.decLimit := by
      rw [← hall, List.length_append, List.length_cons] at hlim
      omega
    rw [hpos, hs.control, decodeWire_of_data hb, decide_eq_false hb]
    refine (hs.decAppend_leads hroom b).imp (fun t ⟨ht, hpost⟩ => ?_) fun t ht => ?_
    · exact .data (ht.answer _ _) (hpost.trans hpos) ((List.append_assoc _ _ _).trans hall)
    · obtain ⟨ht, hpost⟩ := hs.of_onlyAsked ht
      have hagain := FrameStage.data (todo := b :: todo) (ht.answer .busy []) (hpost.trans hpos) hall
      rwa [encodeLoop_cons_false, decide_eq_false hb] at hagain

/-- The escape, read after a control byte that is data. -/
theorem readsOn_escape (hs : Assembles s0 done s) (hpos : s.decState = .controlSeen)
    (hall : done ++ s0.cp :: todo = bytes) (hlim : bytes.length ≤ s0.params.decLimit)
    (hesc : encodeLoop s0.cp todo true = (s0.cp ||| 1#8) :: encodeLoop s0.cp todo false) :
    ReadsOn s0 bytes (s0.cp ||| 1#8) (encodeLoop s0.cp todo false ++ [s0.cp, s0.cp ||| 2#8]) s := by
  have hroom : done.length < s0.params.decLimit := by
    rw [← hall, List.length_append, List.length_cons] at hlim
    omega
  rw [ReadsOn, hpos, hs.control, decodeWire_escape hs.control_legal]
  refine (hs.decEscaped_leads hroom).imp (fun t ⟨ht, hpost⟩ => ?_) fun t ht => ?_
  · exact .data (ht.answer _ _) hpost ((List.append_assoc _ _ _).trans hall)
  · obtain ⟨ht, hpost⟩ := hs.of_onlyAsked ht
    have hagain := FrameStage.pending (ht.answer .busy []) (hpost.trans hpos) hall
    rwa [hesc] at hagain

/-- The second byte of a literal pair, read after the control byte; put off with the control byte appended, it is a byte of
the list still to be read in Data. -/
theorem readsOn_literal (hs : Assembles s0 done s) (hpos : s.decState = .controlSeen)
    (hall : done ++ s0.cp :: b :: todo = bytes) (hlim : bytes.length ≤ s0.params.decLimit) (hb : b &&& 0xFC#8 ≠ s0.cp)
    (hlit : encodeLoop s0.cp (b :: todo) true = encodeLoop s0.cp (b :: todo) false) :
    ReadsOn s0 bytes b (encodeLoop s0.cp todo (b = s0.cp) ++ [s0.cp, s0.cp ||| 2#8]) s := by
  have hroom : done.length + 1 < s0.params.decLimit := by
    rw [← hall, List.length_append, List.length_cons, List.length_cons] at hlim
    omega
  have hfirst : (done ++ [s0.cp]) ++ b :: todo = bytes := (List.append_assoc _ _ _).trans hall
  rw [ReadsOn, hpos, hs.control, decodeWire_of_literal hb]
  refine (hs.decLiteralPair_leads hroom b).imp (fun t ⟨ht, hpost⟩ => ?_) fun t ht => ?_
  · rw [decide_eq_false (ne_control_of_literal hs.control_legal hb)]
    exact .data (ht.answer _ _) hpost ((List.append_assoc _ _ _).trans hfirst)
  · rw [← List.cons_append, ← encodeLoop_cons_false]
    rcases ht with ht | ⟨ht, hpost⟩
    · obtain ⟨ht, hpost⟩ := hs.of_onlyAsked ht
      have hagain := FrameStage.pending (ht.answer .busy []) (hpost.trans hpos) hall
      rwa [hlit] at hagain
    · exact .data (ht.answer _ _) hpost hfirst

/-- The complete opcode at the end of the image. -/
theorem readsOn_complete (hs : Assembles s0 bytes s) (hpos : s.decState = .controlSeen)
    (hempty : bytes = [] → s0.params.emptyFramePolicy = .deliver) : ReadsOn s0 bytes (s0.cp ||| 2#8) [] s := by
  rw [ReadsOn, hpos, hs.control, decodeWire_complete hs.control_legal]
  refine (hs.decComplete_leads hempty).imp (fun t ht => .delivered ht) fun t ht => ?_
  obtain ⟨ht, hpost⟩ := hs.of_onlyAsked ht
  exact .closing (ht.answer _ _) (hpost.trans hpos)

/-- In every stage the next byte of the image is read. -/
theorem FrameStage.readsOn (hs : FrameStage s0 bytes (b :: wire) s) (hlim : bytes.length ≤ s0.params.decLimit)
    (hempty : bytes = [] → s0.params.emptyFramePolicy = .deliver) : s.fault = 0#8 ∧ ReadsOn s0 bytes b wire s := by
  generalize hw : b :: wire = w at hs
  cases hs with
  | @data done todo _ hs hpos hall =>
    refine ⟨hs.ok, ?_⟩
    cases todo with
    | nil =>
      cases hw
      rw [List.append_nil] at hall
      subst hall
      rw [ReadsOn, hs.enterControl hpos]
      exact .closing ((hs.withDecState .controlSeen).answer _ _) rfl
    | cons x xs =>
      rw [encodeLoop_cons_false] at hw
      cases hw
      exact readsOn_byte hs hpos hall hlim
  | @pending done todo _ hs hpos hall =>
    refine ⟨hs.ok, ?_⟩
    rcases encodeLoop_true s0.cp todo with hesc | ⟨x, xs, rfl, hx, hlit⟩
    · rw [hesc] at hw
      cases hw
      exact readsOn_escape hs hpos hall hlim hesc
    · rw [hlit, encodeLoop_cons_false] at hw
      cases hw
      exact readsOn_literal hs hpos hall hlim hx hlit
  | closing hs hpos =>
    cases hw
    exact ⟨hs.ok, readsOn_complete hs hpos hempty⟩
  | delivered hs => cases hw

end

/-- Settles O53: between frames the decoder is in the first stage of the image. -/
theorem frameRoundTrip : Obligations.FrameRoundTrip := by
  intro s t bytes n hs hok hdata hnone hdisc hlim hempty ht
  have hstart : Assembles s [] s := {
    good := hs
    ok := hok
    control := rfl
    params := rfl
    assembling := hdisc
    contents := .inl ⟨hnone, rfl⟩
    delivered := rfl }
  have hend : FrameStage s bytes [] t :=
    receive_invariant (fun _ _ _ hstage => hstage.readsOn hlim hempty) n (.data hstart hdata rfl) ht
  generalize hw : ([] : List Byte) = w at hend
  cases hend with
  | data _ _ _ => simp at hw
  | pending _ _ _ => simp at hw
  | closing _ _ => cases hw
  | delivered hdelivered => exact hdelivered

end Sys2Proof.Machine
end

section
/-! PROOFS. The statement about the configuration and system commands (46_system.md R275 to R277). -/

namespace Sys2Proof.Machine

section

variable {s : State} {v : Byte}

/-- What it takes that no frame is in progress (46_system.md R275). -/
theorem quiescent_iff :
    s.quiescent = true ↔ s.decState = .data ∧ s.decPkt = none ∧ s.decDiscard = false ∧ s.encMode = .idle := by
  simp [State.quiescent, and_assoc]

/-- A frame is in progress where one of the four registers says so. -/
theorem not_quiescent_iff :
    ¬ s.quiescent = true ↔ s.decState ≠ .data ∨ s.decPkt ≠ none ∨ s.decDiscard = true ∨ s.encMode ≠ .idle := by
  simp only [quiescent_iff, not_and_or, Bool.not_eq_false, ne_eq]

theorem exec_cfgSetPrefix_of_illegal (hok : s.fault = 0#8) (hv : v &&& 3#8 ≠ 0#8) :
    exec (.cfgSetPrefix v) s = faultsWith s 5#8 := by
  rw [exec, execCfgSetPrefix, runCommand_of_ok s _ hok, if_pos hv, raise_eq]
  rfl

theorem exec_cfgSetPrefix_of_busy (hok : s.fault = 0#8) (hv : v &&& 3#8 = 0#8) (hbusy : ¬ s.quiescent = true) :
    exec (.cfgSetPrefix v) s = answers s .busy [] := by
  rw [exec, execCfgSetPrefix, runCommand_of_ok s _ hok, if_neg (not_not.mpr hv), if_neg hbusy, answer_eq]

theorem exec_cfgSetPrefix_of_quiescent (hok : s.fault = 0#8) (hv : v &&& 3#8 = 0#8) (hquiet : s.quiescent = true) :
    exec (.cfgSetPrefix v) s = answers { s with cp := v } .good [] := by
  rw [exec, execCfgSetPrefix, runCommand_of_ok s _ hok, if_neg (not_not.mpr hv), if_pos hquiet, answer_eq]

theorem exec_cfgGetPrefix_of_ok (hok : s.fault = 0#8) : exec .cfgGetPrefix s = answers s .good [.byte s.cp] := by
  rw [exec, execCfgGetPrefix, runCommand_of_ok s _ hok, answer_eq]

/-- The fault register is read in the Faulted state too (60_exceptions.md R281). -/
theorem exec_sysGetFault (s : State) : exec .sysGetFault s = answers s .good [.byte s.fault] := by
  rw [exec, execSysGetFault, answer_eq]

end

/-- Settles O60: the check of the low bits comes first, and then whether a frame is in progress. -/
theorem systemCommandsComplete : Obligations.SystemCommandsComplete := by
  intro s
  refine ⟨fun v hok hv => exec_cfgSetPrefix_of_illegal hok hv, fun v hok hv hbusy => ?_,
    fun v hok hv hdata hnone hdisc hidle => ?_, exec_cfgGetPrefix_of_ok, exec_sysGetFault s⟩
  · exact exec_cfgSetPrefix_of_busy hok hv (not_quiescent_iff.mpr hbusy)
  · exact exec_cfgSetPrefix_of_quiescent hok hv (quiescent_iff.mpr ⟨hdata, hnone, hdisc, hidle⟩)

end Sys2Proof.Machine
end

section
/-! SUPPORT. The fault register: every instruction but `SYS_GET_FAULT` is refused in the Faulted state, and a command that
latches a code discards what it wrote (spec/60_exceptions.md R281, R282). -/

namespace Sys2Proof.Machine

section

variable {s t u : State} {h : Handle} {i : Instr}

/-! ### The Faulted state -/

/-- Every instruction but `SYS_GET_FAULT` is a command that the Faulted state refuses (60_exceptions.md R281). -/
theorem exec_eq_runCommand (hi : i ≠ .sysGetFault) : ∃ f, ∀ s, exec i s = runCommand s f := by
  cases i
  case sysGetFault => exact absurd rfl hi
  all_goals exact ⟨_, fun _ => rfl⟩

theorem exec_of_faulted (hi : i ≠ .sysGetFault) (hf : s.fault ≠ 0#8) : exec i s = .next { s with result := none } := by
  obtain ⟨f, hexec⟩ := exec_eq_runCommand hi
  rw [hexec, runCommand_of_faulted s f hf]

theorem execUndefinedOpcode_of_faulted (hf : s.fault ≠ 0#8) :
    execUndefinedOpcode s = .next { s with result := none } := runCommand_of_faulted s _ hf

/-- An instruction leaves the Faulted state's code as it is. -/
theorem exec_fault_of_faulted (hf : s.fault ≠ 0#8) (ht : exec i s = .next t) : t.fault = s.fault := by
  by_cases hi : i = .sysGetFault
  · subst hi
    rw [exec_sysGetFault] at ht
    cases ht
    rfl
  · rw [exec_of_faulted hi hf] at ht
    cases ht
    rfl

/-- Of the inputs that are no instruction, the reset event alone leaves the Faulted state. -/
theorem execUndecoded_fault_of_faulted {e : DecodeError} (hf : s.fault ≠ 0#8) (he : e ≠ .resetEvent)
    (ht : execUndecoded e s = .next t) : t.fault = s.fault := by
  cases e with
  | undefinedOpcode op =>
    rw [execUndecoded, execUndefinedOpcode_of_faulted hf] at ht
    cases ht
    rfl
  | wrongLength op => cases ht
  | noOpcode => cases ht
  | resetEvent => exact absurd rfl he

theorem step_fault_of_faulted (hf : s.fault ≠ 0#8) (hreset : s.inbox.head? ≠ some .reset) (ht : step s = .next t) :
    t.fault = s.fault := by
  rcases hin : s.inbox with _ | ⟨x, rest⟩
  · rw [step_of_empty hin] at ht
    cases ht
    rfl
  · have hx : x ≠ .reset := by simpa [hin] using hreset
    rcases he : decode s.decState s.cp x with e | i
    · rw [step_of_error hin he] at ht
      exact execUndecoded_fault_of_faulted (s := { s with inbox := rest }) hf
        (fun e' => decode_ne_resetEvent hx _ _ (e' ▸ he)) ht
    · rw [step_of_ok hin he] at ht
      exact exec_fault_of_faulted (s := { s with inbox := rest }) hf ht

/-! ### A code latched is a fault taken (60_exceptions.md R282) -/

/-- From `s` to `t` the fault register was left alone, or a fault was taken, which discarded every write since `s`. -/
def FaultsPrecisely (s t : State) : Prop := t.fault = s.fault ∨ ∃ u c, t = s.raiseFrom u c

theorem finish_faultsPrecisely {d : DecStep} (hd : d.Within s) : FaultsPrecisely s (d.finish s) := by
  cases d with
  | consumed t => exact .inl (DecoderOnly.fault_eq (t := t) hd)
  | busy t => exact .inl (DecoderOnly.fault_eq (t := t) hd)
  | faulted c t => exact .inr ⟨t, c, rfl⟩

theorem encLoop_faultsPrecisely (n : Nat) (progressed : Bool) (hst : EncoderOnly s t) :
    FaultsPrecisely s (encLoop s n progressed t) := by
  induction n generalizing progressed t with
  | zero => exact .inl hst.fault_eq
  | succ n ih =>
    have hstep := encStep_confined t
    rw [encLoop_succ]
    cases e : encStep t with
    | faulted c u => exact .inr ⟨u, c, rfl⟩
    | refused u =>
      rw [e] at hstep
      have hu : u.fault = t.fault := by rw [show u = t.undoTo u from hstep]; rfl
      exact .inl (hu.trans hst.fault_eq)
    | progress u =>
      rw [e] at hstep
      have hu : EncoderOnly s u := hst.trans hstep
      by_cases hm : u.encMode = .idle
      · simp only [if_pos hm]
        exact .inl hu.fault_eq
      · simp only [if_neg hm]
        exact ih true hu

/-- Every effect but a fault leaves the fault register alone. -/
theorem Effect.faultsPrecisely (he : Effect i s t) : FaultsPrecisely s t := by
  cases he with
  | refused => exact .inl rfl
  | raised u c => exact .inr ⟨u, c, rfl⟩
  | answered u st fs => exact .inl rfl
  | rewrote u h p q hp hq fs => exact .inl rfl
  | allocated cap hi k u ha fs =>
    have hfault : u.fault = s.fault := by rw [(allocate_frame ha).1]; rfl
    exact .inl hfault
  | released h p hp hfree fs =>
    rw [dereference_eq]
    exact .inl rfl
  | crcWritten hi c fs => exact .inl rfl
  | controlWritten v hi hv fs => exact .inl rfl
  | submitted h off hi p q hp hd hidle start hstart hq fs => exact .inl rfl
  | processed hi hbusy => exact encLoop_faultsPrecisely _ _ rfl
  | received hi hok => exact finish_faultsPrecisely (unitStep_within s hi)

end

end Sys2Proof.Machine
end

section
/-! SUPPORT. A command of the host makes its checks before it asks an agent, and from a good state the encoder and the
decoder do not fault: where a command asks, it answers (spec/60_exceptions.md R282, R284). -/

namespace Sys2Proof.Machine

section

variable {s t u : State} {h : Handle} {i : Instr}

/-- A command from `s` to `t` that has a result, or has asked the agents nothing. -/
def AnswersOrAsksNothing (s t : State) : Prop := t.result.isSome = true ∨ (t.draws = s.draws ∧ t.log = s.log)

theorem answersOrAsksNothing_answer (s u : State) (st : Verdict) (fs : List Field) :
    AnswersOrAsksNothing s (u.answer st fs) := .inl rfl

theorem answersOrAsksNothing_raise (s : State) (c : FaultCode) : AnswersOrAsksNothing s (s.raise c) := .inr ⟨rfl, rfl⟩

/-- A fault with nothing asked leaves the state exactly as it was, but for the code and the result. -/
theorem raiseFrom_eq_of_asksNothing {c : FaultCode} (hr : AnswersOrAsksNothing s (s.raiseFrom u c)) :
    s.raiseFrom u c = s.raise c := by
  rcases hr with hresult | ⟨hdraws, hlog⟩
  · cases hresult
  · have hd : u.draws = s.draws := hdraws
    have hl : u.log = s.log := hlog
    rw [State.raise, State.raiseFrom, State.raiseFrom, State.undoTo, State.undoTo, hd, hl]

/-! ### The checks and the shared operations -/

theorem runCommand_answersOrAsksNothing {f : State → State} (ht : runCommand s f = .next t)
    (hf : s.fault = 0#8 → AnswersOrAsksNothing s (f s)) : AnswersOrAsksNothing s t := by
  by_cases hok : s.fault = 0#8
  · rw [runCommand_of_ok s f hok] at ht
    cases ht
    exact hf hok
  · rw [runCommand_of_faulted s f hok] at ht
    cases ht
    exact .inr ⟨rfl, rfl⟩

theorem ifLegal_answersOrAsksNothing (legal : Bool) (hu : AnswersOrAsksNothing s u) :
    AnswersOrAsksNothing s (s.ifLegal legal u) := by
  cases legal
  · exact answersOrAsksNothing_raise s _
  · exact hu

theorem ifLive_answersOrAsksNothing {k : Packet → State} (hk : ∀ p, AnswersOrAsksNothing s (k p)) :
    AnswersOrAsksNothing s (s.ifLive h k) := by
  rcases hp : s.packet h with _ | p
  · rw [ifLive_of_dead hp]
    exact answersOrAsksNothing_raise s _
  · rw [ifLive_of_live hp]
    exact hk p

theorem ifMutable_answersOrAsksNothing {k : Packet → State} (hk : ∀ p, AnswersOrAsksNothing s (k p)) :
    AnswersOrAsksNothing s (s.ifMutable h k) := by
  refine ifLive_answersOrAsksNothing fun p => ?_
  split
  · exact answersOrAsksNothing_raise s _
  · exact hk p

theorem ifIndex_answersOrAsksNothing (p : Packet) (n : Nat) (hu : AnswersOrAsksNothing s u) :
    AnswersOrAsksNothing s (s.ifIndex p n u) := by
  unfold State.ifIndex
  split
  · exact hu
  · exact answersOrAsksNothing_raise s _

theorem atHeader_answersOrAsksNothing {hp : Half} {k : State → Packet → State}
    (hk : ∀ p, AnswersOrAsksNothing s (k s p)) : AnswersOrAsksNothing s (atHeader h hp k s) :=
  ifLive_answersOrAsksNothing fun p => ifIndex_answersOrAsksNothing p _ (hk p)

theorem atMutableHeader_answersOrAsksNothing {hp : Half} {k : State → Packet → State}
    (hk : ∀ p, AnswersOrAsksNothing s (k s p)) : AnswersOrAsksNothing s (atMutableHeader h hp k s) :=
  ifMutable_answersOrAsksNothing fun p => ifIndex_answersOrAsksNothing p _ (hk p)

theorem answerPos_answersOrAsksNothing (s : State) (o : Option Nat) : AnswersOrAsksNothing s (s.answerPos o) := by
  cases o <;> exact answersOrAsksNothing_answer s s _ _

theorem readC78_answersOrAsksNothing (h : Handle) (cur : Half) (f : Word → Word) :
    AnswersOrAsksNothing s (readC78 h cur f s) := by
  refine ifLive_answersOrAsksNothing fun p => ?_
  split
  · exact answersOrAsksNothing_raise s _
  · split <;> exact answersOrAsksNothing_answer s s _ _

/-- Once its checks are made, an append answers. -/
theorem appendCommand_answersOrAsksNothing (h : Handle) (p : Packet) (bytes : List Byte) (inc lim : Nat) :
    AnswersOrAsksNothing s (appendCommand s h p bytes inc lim) := by
  unfold appendCommand
  split <;> exact answersOrAsksNothing_answer s _ _ _

/-- Once its checks are made, `MAP_VALIDATE` answers. -/
theorem validatePacket_answersOrAsksNothing (h : Handle) (p : Packet) (off req rem : Byte) :
    AnswersOrAsksNothing s (validatePacket s h p off req rem) := by
  unfold validatePacket
  split
  · exact answersOrAsksNothing_answer s s _ _
  · split
    · exact answersOrAsksNothing_answer s s _ _
    · split
      · exact answersOrAsksNothing_answer s s _ _
      · split <;> exact answersOrAsksNothing_answer s _ _ _

/-! ### Single commands -/

theorem execPbSetCapacity_answersOrAsksNothing {cap : Half} (ht : execPbSetCapacity h cap s = .next t) :
    AnswersOrAsksNothing s t := by
  refine runCommand_answersOrAsksNothing ht fun _ => ifMutable_answersOrAsksNothing fun p => ?_
  split
  · exact answersOrAsksNothing_answer s s _ _
  · split
    · exact answersOrAsksNothing_answer s s _ _
    · split <;> exact answersOrAsksNothing_answer s _ _ _

theorem execPbReference_answersOrAsksNothing (ht : execPbReference h s = .next t) : AnswersOrAsksNothing s t := by
  refine runCommand_answersOrAsksNothing ht fun _ => ifLive_answersOrAsksNothing fun p => ?_
  split
  · exact answersOrAsksNothing_raise s _
  · exact answersOrAsksNothing_answer s _ _ _

theorem execPbDereference_answersOrAsksNothing (ht : execPbDereference h s = .next t) : AnswersOrAsksNothing s t := by
  refine runCommand_answersOrAsksNothing ht fun _ => ?_
  split
  · exact answersOrAsksNothing_answer s s _ _
  · split
    · exact answersOrAsksNothing_raise s _
    · exact answersOrAsksNothing_answer s _ _ _

theorem execPbRead_answersOrAsksNothing {idx : Half} (ht : execPbRead h idx s = .next t) :
    AnswersOrAsksNothing s t := by
  refine runCommand_answersOrAsksNothing ht fun _ => ifLive_answersOrAsksNothing fun p => ?_
  split
  · exact answersOrAsksNothing_raise s _
  · exact answersOrAsksNothing_answer s s _ _

theorem execMapSetAtype_answersOrAsksNothing {hp : Half} {a : Byte} (ht : execMapSetAtype h hp a s = .next t) :
    AnswersOrAsksNothing s t := by
  refine runCommand_answersOrAsksNothing ht fun _ => atMutableHeader_answersOrAsksNothing fun p => ?_
  split
  · exact answersOrAsksNothing_raise s _
  · exact answersOrAsksNothing_answer s _ _ _

theorem execMapValidate_answersOrAsksNothing {off req rem : Byte} (ht : execMapValidate h off req rem s = .next t) :
    AnswersOrAsksNothing s t := by
  refine runCommand_answersOrAsksNothing ht fun _ =>
    ifLegal_answersOrAsksNothing _ (ifLive_answersOrAsksNothing fun p => ?_)
  split
  · exact answersOrAsksNothing_raise s _
  · exact validatePacket_answersOrAsksNothing h p off req rem

theorem execMapAppendChecksum_answersOrAsksNothing {off : Byte} (ht : execMapAppendChecksum h off s = .next t) :
    AnswersOrAsksNothing s t := by
  refine runCommand_answersOrAsksNothing ht fun _ => ifMutable_answersOrAsksNothing fun p => ?_
  split
  · exact answersOrAsksNothing_answer s s _ _
  · split
    · exact answersOrAsksNothing_answer s s _ _
    · split <;> exact answersOrAsksNothing_answer s _ _ _

theorem execEncSubmit_answersOrAsksNothing {off : Byte} (ht : execEncSubmit h off s = .next t) :
    AnswersOrAsksNothing s t := by
  refine runCommand_answersOrAsksNothing ht fun _ => ifLive_answersOrAsksNothing fun p => ?_
  split
  · exact answersOrAsksNothing_raise s _
  · split
    · exact answersOrAsksNothing_answer s s _ _
    · split
      · exact answersOrAsksNothing_answer s s _ _
      · split
        · exact answersOrAsksNothing_raise s _
        · exact answersOrAsksNothing_answer s _ _ _

theorem execCfgSetPrefix_answersOrAsksNothing {v : Byte} (ht : execCfgSetPrefix v s = .next t) :
    AnswersOrAsksNothing s t := by
  refine runCommand_answersOrAsksNothing ht fun _ => ?_
  split
  · exact answersOrAsksNothing_raise s _
  · split <;> exact answersOrAsksNothing_answer s _ _ _

/-! ### The encoder and the decoder -/

/-- From a good state no micro-step faults, so that the loop of `ENC_PROCESS` ends in an answer (45_frame_encoder.md R263). -/
theorem encLoop_result_isSome (s0 : State) (n : Nat) (progressed : Bool) (hs : s.Good) (hbusy : s.encMode ≠ .idle) :
    (encLoop s0 n progressed s).result.isSome = true := by
  induction n generalizing progressed s with
  | zero => rfl
  | succ n ih =>
    rcases encStep_outcome hs hbusy with ⟨t, e, _⟩ | ⟨t, e, _⟩
    · by_cases hidle : t.encMode = .idle
      · rw [encLoop_of_ended e hidle]
        rfl
      · rw [encLoop_of_progress e hidle]
        exact ih true (encStep_progress_good hs e) hidle
    · rw [encLoop_of_refused e]
      rfl

theorem execEncProcess_answersOrAsksNothing (hs : s.Good) (ht : execEncProcess s = .next t) :
    AnswersOrAsksNothing s t := by
  refine runCommand_answersOrAsksNothing ht fun _ => ?_
  split
  · exact answersOrAsksNothing_answer s s _ _
  · next hbusy => exact .inl (encLoop_result_isSome s _ _ hs hbusy)

/-- From a good state every received byte is answered (44_frame_decoder.md R241). -/
theorem exec_receive_answersOrAsksNothing (hs : s.Good) (href : 1 ≤ s.params.refMax) (hi : isReceive i = true)
    (ht : exec i s = .next t) : AnswersOrAsksNothing s t := by
  by_cases hok : s.fault = 0#8
  · obtain ⟨t', ht', _, hresult⟩ := everyReceivedByteIsGoodOrBusy i s hs hok href hi
    obtain rfl : t' = t := by
      rw [ht'] at ht
      cases ht
      rfl
    rcases hresult with e | e <;> exact .inl (by rw [e]; rfl)
  · rw [exec_receive hi, runCommand_of_faulted s _ hok] at ht
    cases ht
    exact .inr ⟨rfl, rfl⟩

/-! ### Every instruction -/

theorem exec_answersOrAsksNothing (hs : s.Good) (href : 1 ≤ s.params.refMax) (ht : exec i s = .next t) :
    AnswersOrAsksNothing s t := by
  cases i
  case decRx | wireData | wireCtrl | wireIdle | wireEsc | wireEnd | wireAbort | wireLiteral =>
    exact exec_receive_answersOrAsksNothing hs href rfl ht
  all_goals dsimp only [exec] at ht
  case crcReset | crcSink | crcGet | pbAlloc | cfgGetPrefix =>
    exact runCommand_answersOrAsksNothing ht fun _ => answersOrAsksNothing_answer s _ _ _
  case sysGetFault =>
    cases ht
    exact answersOrAsksNothing_answer s s _ _
  case c78EncU | c78EncS | pbAppend =>
    exact runCommand_answersOrAsksNothing ht fun _ =>
      ifMutable_answersOrAsksNothing fun _ => appendCommand_answersOrAsksNothing _ _ _ _ _
  case c78DecU | c78DecS => exact runCommand_answersOrAsksNothing ht fun _ => readC78_answersOrAsksNothing _ _ _
  case pbSetCapacity => exact execPbSetCapacity_answersOrAsksNothing ht
  case pbReference => exact execPbReference_answersOrAsksNothing ht
  case pbDereference => exact execPbDereference_answersOrAsksNothing ht
  case pbSetStatus =>
    exact runCommand_answersOrAsksNothing ht fun _ =>
      ifLegal_answersOrAsksNothing _ (ifLive_answersOrAsksNothing fun _ => answersOrAsksNothing_answer s _ _ _)
  case pbGetStatus | pbGetLength | pbGetCapacity | pbGetRefcount =>
    exact runCommand_answersOrAsksNothing ht fun _ =>
      ifLive_answersOrAsksNothing fun _ => answersOrAsksNothing_answer s _ _ _
  case pbRead => exact execPbRead_answersOrAsksNothing ht
  case pbWrite =>
    exact runCommand_answersOrAsksNothing ht fun _ => ifMutable_answersOrAsksNothing fun p =>
      ifIndex_answersOrAsksNothing p _ (answersOrAsksNothing_answer s _ _ _)
  case mapGetCk | mapGetNp | mapGetDa | mapGetSa | mapGetAtype =>
    exact runCommand_answersOrAsksNothing ht fun _ =>
      atHeader_answersOrAsksNothing fun _ => answersOrAsksNothing_answer s s _ _
  case mapSetCk | mapSetNp | mapSetDa | mapSetSa =>
    exact runCommand_answersOrAsksNothing ht fun _ => ifLegal_answersOrAsksNothing _
      (atMutableHeader_answersOrAsksNothing fun _ => answersOrAsksNothing_answer s _ _ _)
  case mapSetAtype => exact execMapSetAtype_answersOrAsksNothing ht
  case mapNextprotoPos | mapDestPos | mapSrcPos | mapContentsPos | mapNextHeader =>
    exact runCommand_answersOrAsksNothing ht fun _ =>
      atHeader_answersOrAsksNothing fun _ => answerPos_answersOrAsksNothing s _
  case mapHeader | mapData =>
    exact runCommand_answersOrAsksNothing ht fun _ =>
      ifLive_answersOrAsksNothing fun _ => answerPos_answersOrAsksNothing s _
  case mapValidate => exact execMapValidate_answersOrAsksNothing ht
  case mapAppendChecksum => exact execMapAppendChecksum_answersOrAsksNothing ht
  case encSubmit => exact execEncSubmit_answersOrAsksNothing ht
  case encProcess => exact execEncProcess_answersOrAsksNothing hs ht
  case cfgSetPrefix => exact execCfgSetPrefix_answersOrAsksNothing ht

end

end Sys2Proof.Machine
end

section
/-! PROOFS. The statements about faults and the Faulted state (60_exceptions.md R280 to R282). -/

namespace Sys2Proof.Machine

/-- Settles O10: every instruction but one is a command that the Faulted state refuses. -/
theorem faultedBlockRefusesEveryCommand : Obligations.FaultedBlockRefusesEveryCommand := fun s hf =>
  ⟨fun _ hi => exec_of_faulted hi hf, execUndefinedOpcode_of_faulted hf, exec_sysGetFault s,
    fun _ => step_fault_of_faulted hf⟩

/-- Settles O11: a latched code is a fault taken, which discards the writes; and a fault has no result, so that from a good
state nothing was asked. -/
theorem raisedFaultsDiscardEveryWrite : Obligations.RaisedFaultsDiscardEveryWrite := by
  intro i s t hok ht hfault
  rcases (exec_effect ht).faultsPrecisely with hsame | ⟨u, c, rfl⟩
  · exact absurd (hsame.trans hok) hfault
  · exact ⟨faultCode_le c, rfl,
      fun hs href => raiseFrom_eq_of_asksNothing (exec_answersOrAsksNothing hs href ht)⟩

end Sys2Proof.Machine
end

section
/-! PROOFS. The statement about the reset event and power-on (70_reset_and_hazards.md R300). -/

namespace Sys2Proof.Machine

/-- The reset event is no instruction, in whatever state the decoder stands: the step is the reset itself, of the state
without the event. -/
theorem step_of_reset {s : State} {rest : List Input} (hin : s.inbox = .reset :: rest) :
    step s = .next ({ s with inbox := rest } : State).hardReset :=
  step_of_error hin rfl

/-- Power-on leaves what the reset event leaves: a reset right after it changes nothing. -/
theorem hardReset_reset : State.reset.hardReset = State.reset := rfl

/-- This hardware's `CP_RESET` (00_scope.md R9). -/
theorem reset_params_cpReset : State.reset.params.cpReset = 0x3C#8 := rfl

/-- Settles O7: the step of a reset event is the reset, and the state after power-on is a reset state too, so that in both
each register is read by its lemma about `State.hardReset`. -/
theorem resetSetsEveryRegister : Obligations.ResetSetsEveryRegister := by
  refine ⟨fun s rest hin => ⟨_, step_of_reset hin, ?_⟩, reset_params_cpReset, ?_⟩
  · simp
  · rw [← hardReset_reset]
    simp [reset_params_cpReset]

end Sys2Proof.Machine
end
